-- ==== Sys2Proof/Word.lean ====
section
/-! DEFINITION. The word types of HUFC: bytes, 32-bit words, 255-bit code values, and the 256-entry tables
(00_scope.md rules R7 and R9; bit 0 is the least significant). -/

namespace Sys2Proof

/-- A byte, 8 bits (R9). -/
abbrev Byte := BitVec 8

/-- A command word or a response data word, CMD_W = DATA_W = 32 bits (R7). -/
abbrev Word := BitVec 32

/-- A code value or a candidate, CODE_W = 255 bits (R7). -/
abbrev Code := BitVec 255

/-- A register file of 256 entries of `w` bits each (10_state.md R35, R38, R44). -/
abbrev Table (w : Nat) := Vector (BitVec w) 256

/-- The table whose every entry is 0. -/
def Table.zero (w : Nat) : Table w := Vector.replicate 256 0

end Sys2Proof
end

