-- ==== Sys2Proof/Config.lean ====
section
/-! DEFINITION. What an implementation of HUFC fixes: the identification value and the two OPEN capacities of
00_scope.md rule R7. The capacities have no body that Lean can evaluate; the machine reads them from State. -/

namespace Sys2Proof

/-- The value of the ID register (10_state.md R47, 92 D5). -/
def Config.idValue : Word := 0x48554631

/-- Free: which admissible MSG_CAP the implementation chose, counted from 0 (R7; log entry 3). -/
opaque Config.msgCapChoice : Fin (4294967294 + 1)

/-- Free: which admissible Q_CAP the implementation chose, counted from 0 (R7; log entry 3). -/
opaque Config.qCapChoice : Fin (268435453 + 1)

/-- MSG_CAP of the implementation: 1 ≤ MSG_CAP ≤ 2^32 − 1 and nothing else is known (R7, 92 D6). -/
def Config.msgCap : Nat := Config.msgCapChoice.val + 1

/-- Q_CAP of the implementation: 2 ≤ Q_CAP ≤ 2^28 − 1 and nothing else is known (R7, 92 D6). -/
def Config.qCap : Nat := Config.qCapChoice.val + 2

end Sys2Proof
end

