-- ==== Sys2Proof/Machine/State.lean ====
section
/-! DEFINITION. The state of HUFC as plain data, unit by unit (10_state.md R30 to R52), with the environment the host and
the sink make up (the inputs still to come, the responses given, the bytes emitted), and the state after reset. -/

namespace Sys2Proof.Machine

/-- Nothing stops HUFC: every word has a response (30_encoding.md R126, 60_exceptions.md R351 to R353) and an error is a
next state. So no fault exists and this type has no constructor; nobody raises one, which is safe (log entry 11). -/
inductive Fault where
  deriving DecidableEq, Repr

/-- Why a step has no meaning. -/
inductive Refusal where
  /-- Raised by an arm of `exec` whose command has no meaning yet, under the command's mnemonic. Safe: the model stops.
  No arm raises it now. -/
  | notModelled (mnemonic : String)
  deriving DecidableEq, Repr

/-- The error causes of 60_exceptions.md R350; codes 8 to 15 are never produced (log entry 13). -/
inductive Cause where
  | none | illegal | sequence | overflow | exhausted | nomatch | badhdr | badmark
  deriving DecidableEq, Repr

/-- One response {exec, cause, data} (30_encoding.md R121). -/
structure Response where
  exec  : Bool
  cause : Cause
  data  : Word
  deriving DecidableEq, Repr

/-- What the host does next: it issues a command word, or it asserts the reset input (70_reset_and_hazards.md R393). -/
inductive HostInput where
  | word (w : Word)
  | resetInput
  deriving DecidableEq, Repr

/-- The parameters MSG_CAP and Q_CAP, read-only registers 0x000F and 0x0010 (00_scope.md R7, 10_state.md R47). -/
structure Params where
  msgCap : Nat
  qCap   : Nat
  deriving DecidableEq, Repr

/-- Control unit: err and cause (10_state.md R33). -/
structure Ctl where
  err   : Bool
  cause : Cause
  deriving DecidableEq, Repr

/-- Frequency counter: freq[] and msg[0..msg_len−1]; msg_len is the list's length (10_state.md R35, R36). -/
structure Fc where
  freq : Table 32
  msg  : List Byte
  deriving DecidableEq, Repr

/-- Encoder flags and encoder code table: enc_built, enc_assigned, enc_asize, enc_len[], enc_maxlen, enc_count[],
enc_alpha[], enc_code[] (10_state.md R37, R38). -/
structure Ect where
  built    : Bool
  assigned : Bool
  asize    : BitVec 9
  len      : Table 8
  maxlen   : Byte
  count    : Table 9
  alpha    : Table 8
  code     : Table 255
  deriving DecidableEq, Repr

/-- Bit writer: bw_acc and bw_cnt (10_state.md R40). -/
structure Bw where
  acc : Byte
  cnt : BitVec 3
  deriving DecidableEq, Repr

/-- Bit reader: brq[0..br_len−1] (br_len is the list's length), br_head, br_cur, br_cnt, br_sealed
(10_state.md R41, R42). -/
structure Br where
  queue  : List Byte
  head   : Nat
  cur    : Byte
  cnt    : BitVec 4
  sealed : Bool
  deriving DecidableEq, Repr

/-- Decoder: dec_ready, dec_done, dec_asize, dec_alpha[], dec_maxlen, dec_count[], dec_len[], dec_code[], dec_cand,
dec_cand_len (10_state.md R43 to R45). -/
structure Dct where
  ready   : Bool
  done    : Bool
  asize   : BitVec 9
  alpha   : Table 8
  maxlen  : Byte
  count   : Table 9
  len     : Table 8
  code    : Table 255
  cand    : Code
  candLen : Byte
  deriving DecidableEq, Repr

/-- Outside the block: what the host will still do, oldest first (log entry 1); the responses it was given and the
sink's record `out`, both in order (10_state.md R46, 70_reset_and_hazards.md R396; log entry 2). -/
structure Port where
  inputs    : List HostInput
  responses : List Response
  out       : List Byte
  deriving DecidableEq, Repr

/-- The whole state. -/
structure State where
  params : Params
  ctl    : Ctl
  fc     : Fc
  ect    : Ect
  bw     : Bw
  br     : Br
  dct    : Dct
  port   : Port
  deriving DecidableEq, Repr

/-- No error recorded (R52). -/
def Ctl.initial : Ctl := { err := false, cause := .none }

/-- The empty frequency counter (R52). -/
def Fc.initial : Fc := { freq := Table.zero 32, msg := [] }

/-- The empty encoder code table (R52). -/
def Ect.initial : Ect :=
  { built := false, assigned := false, asize := 0, len := Table.zero 8, maxlen := 0, count := Table.zero 9,
    alpha := Table.zero 8, code := Table.zero 255 }

/-- The empty bit writer (R52). -/
def Bw.initial : Bw := { acc := 0, cnt := 0 }

/-- The empty bit reader (R52). -/
def Br.initial : Br := { queue := [], head := 0, cur := 0, cnt := 0, sealed := false }

/-- The decoder without a table (R52). -/
def Dct.initial : Dct :=
  { ready := false, done := false, asize := 0, alpha := Table.zero 8, maxlen := 0, count := Table.zero 9,
    len := Table.zero 8, code := Table.zero 255, cand := 0, candLen := 0 }

/-- Before the host has done anything. -/
def Port.initial : Port := { inputs := [], responses := [], out := [] }

/-- The reset state of an implementation with the capacities `p` (R52, R390): the model's OPEN argument. -/
def State.resetWith (p : Params) : State :=
  { params := p, ctl := Ctl.initial, fc := Fc.initial, ect := Ect.initial, bw := Bw.initial, br := Br.initial,
    dct := Dct.initial, port := Port.initial }

/-- The machine right after reset (R52), with the implementation's own capacities, which nothing here fixes. -/
def State.reset : State := State.resetWith { msgCap := Config.msgCap, qCap := Config.qCap }

end Sys2Proof.Machine
end

