-- ==== Sys2Proof/Machine/Ops.lean ====
section
/-! DEFINITION. The named operations the commands share: tables, the output port, responding, raising an error, being
blocked by one, returning from one, resetting, and the appends to the two byte buffers. -/

namespace Sys2Proof.Machine

/-- What a step answers. -/
abbrev Result := Host.Outcome State Fault Refusal

/-! ### Tables -/

/-- Entry `i` of a table; an index outside 0..255 reads 0 (no rule makes one). -/
def tableGet {w : Nat} (t : Table w) (i : Nat) : BitVec w := t[i]?.getD 0

/-- The table with entry `i` set to `x`; an index outside 0..255 sets nothing (no rule makes one). -/
def tableSet {w : Nat} (t : Table w) (i : Nat) (x : BitVec w) : Table w := t.setIfInBounds i x

/-- The table whose entry `i` is `f i`. -/
def tableOf {w : Nat} (f : Nat → BitVec w) : Table w := Vector.ofFn fun i : Fin 256 => f i.val

/-! ### Units -/

/-- The state with the control unit replaced. -/
def State.setCtl (s : State) (c : Ctl) : State := { s with ctl := c }

/-- The state with the frequency counter replaced. -/
def State.setFc (s : State) (f : Fc) : State := { s with fc := f }

/-- The state with the encoder code table replaced. -/
def State.setEct (s : State) (e : Ect) : State := { s with ect := e }

/-- The state with the bit writer replaced. -/
def State.setBw (s : State) (w : Bw) : State := { s with bw := w }

/-- The state with the bit reader replaced. -/
def State.setBr (s : State) (r : Br) : State := { s with br := r }

/-- The state with the decoder replaced. -/
def State.setDct (s : State) (d : Dct) : State := { s with dct := d }

/-! ### Output port and responses -/

/-- Bytes put on the output port, in order: appended to the sink's record (00_scope.md R11, 10_state.md R46). -/
def State.emitAll (bs : List Byte) (s : State) : State :=
  { s with port := { s.port with out := s.port.out ++ bs } }

/-- `emit(b)` (R11). -/
def State.emit (b : Byte) (s : State) : State := s.emitAll [b]

/-- The host receives a response (30_encoding.md R121). -/
def State.answer (r : Response) (s : State) : State :=
  { s with port := { s.port with responses := s.port.responses ++ [r] } }

/-- `respond(d)`: success with data d (R11). -/
def State.respond (d : Word) (s : State) : State :=
  s.answer { exec := true, cause := .none, data := d }

/-! ### Errors: raising, being blocked, returning -/

/-- `raise C`, this block's exception: err and cause are recorded and the command's response carries the cause; nothing
is rolled back (60_exceptions.md R351, R355). -/
def State.raise (c : Cause) (s : State) : State :=
  (s.setCtl { err := true, cause := c }).answer { exec := true, cause := c, data := 0 }

/-- A word blocked by the recorded error: no field changes, the response carries the recorded cause (R352). -/
def State.blocked (s : State) : State :=
  s.answer { exec := false, cause := s.ctl.cause, data := 0 }

/-- The return from an error: err and cause are cleared and nothing else (R357, 47_system.md R332). -/
def State.clearError (s : State) : State := s.setCtl Ctl.initial

/-- Every field of 10_state.md to its reset value; the parameters, the sink's record and the host's side are not fields
of the block and stay (70_reset_and_hazards.md R390). -/
def State.resetFields (s : State) : State := { State.resetWith s.params with port := s.port }

/-- An illegal word: blocked while an error is recorded, else ILLEGAL is raised (60_exceptions.md R353). -/
def State.illegalWord (s : State) : State := if s.ctl.err then s.blocked else s.raise .illegal

/-! ### Commands that may raise -/

/-- A part of a command's pseudocode: it goes on with a value, or has raised an error and ended the command; either way
the state holds every effect made so far (R11, R355). -/
inductive Flow (α : Type) where
  | done (v : α) (s : State)
  | raised (c : Cause) (s : State)
  deriving DecidableEq, Repr

/-- One part after another; nothing after a raise happens (R351). -/
def Flow.bind {α β : Type} (m : Flow α) (k : α → State → Flow β) : Flow β :=
  match m with
  | .done v s => k v s
  | .raised c s => .raised c s

/-- The end of a command: its response, with the data of its `respond`, or its error (R11, R351). -/
def Flow.finish (m : Flow Word) : Result :=
  match m with
  | .done d s => .next (s.respond d)
  | .raised c s => .next (s.raise c)

/-- A command that runs only while no error is recorded (R352, R353). -/
def unlessBlocked (s : State) (k : State → Flow Word) : Result :=
  if s.ctl.err then .next s.blocked else (k s).finish

/-! ### The byte buffers (20_memory.md R91) -/

/-- Append to the message buffer. -/
def Fc.append (b : Byte) (f : Fc) : Fc := { f with msg := f.msg ++ [b] }

/-- Append to the byte queue. -/
def Br.append (b : Byte) (r : Br) : Br := { r with queue := r.queue ++ [b] }

/-- br_mark = brq[br_len − 1], and 0 for an empty queue (44_bit_reader.md R240, BR_MARK of 10_state.md R47). -/
def Br.mark (r : Br) : Byte := r.queue.getLastD 0

/-- br_R, the data bytes not yet popped, the marker excluded; 0 while not sealed or empty (R240). -/
def Br.remaining (r : Br) : Nat :=
  if r.sealed then r.queue.length - 1 - r.head else 0

/-- br_sig, the significant bits of the last data byte (R240). -/
def Br.sig (r : Br) : Nat := if r.mark = 0 then 8 else r.mark.toNat

/-- br_avail, the significant bits not yet read (R240). -/
def Br.avail (r : Br) : Nat :=
  if r.sealed = false ∨ r.queue = [] ∨ 7 < r.mark.toNat then 0
  else r.cnt.toNat + (if 1 ≤ r.remaining then 8 * (r.remaining - 1) + r.sig else 0)

/-- The byte popped next, brq[br_head] (R91). -/
def Br.front (r : Br) : Byte := r.queue.getD r.head 0

/-- The form of HUFC's two byte buffers, its only memory: each within its capacity, and
br_head ≤ max(br_len − 1, 0) (10_state.md R36, R41, R42). -/
def Memory.wf (s : State) : Bool :=
  decide (s.fc.msg.length ≤ s.params.msgCap) && decide (s.br.queue.length ≤ s.params.qCap) &&
    decide (s.br.head ≤ s.br.queue.length - 1)

/-! ### The host's side -/

/-- What the host does next, and the state once it has done it; none while it does nothing. -/
def State.takeInput (s : State) : Option (HostInput × State) :=
  match s.port.inputs with
  | [] => none
  | x :: rest => some (x, { s with port := { s.port with inputs := rest } })

/-- The state in which the host issues the word `w` next, before anything else it does. -/
def State.issue (w : Word) (s : State) : State :=
  { s with port := { s.port with inputs := .word w :: s.port.inputs } }

end Sys2Proof.Machine
end

