-- ==== Sys2Proof/Machine/BitReader.lean ====
section
/-! DEFINITION. The bit reader's operations and the BR commands (44_bit_reader.md R240 to R247). -/

namespace Sys2Proof.Machine

/-- The bit taken from the current byte: its least significant bit, which is shifted out (R241). -/
def Br.takeBit (r : Br) : Bool × Br :=
  (r.cur.getLsbD 0, { r with cur := r.cur >>> 1, cnt := r.cnt - 1 })

/-- The next queue byte popped into the current byte; the last data byte gives only its significant bits (R241). -/
def Br.popByte (r : Br) : Br :=
  { r with
    cur := r.front
    head := r.head + 1
    cnt := if r.remaining = 1 then BitVec.ofNat 4 r.sig else 8 }

/-- `br_read_bit`: the bit and the reader afterwards, or the error, which changes nothing (R241). -/
def Br.readBit (r : Br) : Except Cause (Bool × Br) :=
  if r.sealed = false then .error .sequence
  else if r.queue = [] then .error .exhausted
  else if 7 < r.mark.toNat then .error .badmark
  else if r.cnt = 0 then
    if r.remaining = 0 then .error .exhausted else .ok r.popByte.takeBit
  else .ok r.takeBit

/-- `br_read_byte`: the raw byte and the reader afterwards, or the error, which changes nothing (R242). -/
def Br.readByte (r : Br) : Except Cause (Byte × Br) :=
  if r.sealed = false then .error .sequence
  else if r.cnt ≠ 0 then .error .sequence
  else if r.queue = [] then .error .exhausted
  else if 7 < r.mark.toNat then .error .badmark
  else if r.remaining = 0 then .error .exhausted
  else .ok (r.front, { r with head := r.head + 1 })

/-- `br_read_bit` in the whole state (R241). -/
def brReadBit (s : State) : Flow Bool :=
  match s.br.readBit with
  | .error c => .raised c s
  | .ok (b, r) => .done b (s.setBr r)

/-- `br_read_byte` in the whole state (R242). -/
def brReadByte (s : State) : Flow Byte :=
  match s.br.readByte with
  | .error c => .raised c s
  | .ok (v, r) => .done v (s.setBr r)

/-- BR.CLEAR's effect: the queue is emptied and the decoder cleared with it (R243). -/
def brClear (s : State) : Flow Word := .done 0 ((s.setBr Br.initial).setDct Dct.initial)

/-- BR.CLEAR (R243). -/
def execBrClear (s : State) : Result := unlessBlocked s brClear

/-- BR.PUSH's effect (R244). -/
def brPush (b : Byte) (s : State) : Flow Word :=
  if s.br.sealed then .raised .sequence s
  else if s.br.queue.length = s.params.qCap then .raised .overflow s
  else .done 0 (s.setBr (s.br.append b))

/-- BR.PUSH (R244). -/
def execBrPush (b : Byte) (s : State) : Result := unlessBlocked s (brPush b)

/-- BR.END's effect: the queue is sealed, also when its last byte is no valid marker (R245). -/
def brEnd (s : State) : Flow Word :=
  if s.br.sealed then .raised .sequence s
  else if s.br.queue ≠ [] ∧ 7 < s.br.mark.toNat then .raised .badmark (s.setBr { s.br with sealed := true })
  else .done 0 (s.setBr { s.br with sealed := true })

/-- BR.END (R245). -/
def execBrEnd (s : State) : Result := unlessBlocked s brEnd

/-- BR.BIT's effect (R246). -/
def brBit (s : State) : Flow Word := (brReadBit s).bind fun b s1 => .done ((BitVec.ofBool b).setWidth 32) s1

/-- BR.BIT (R246). -/
def execBrBit (s : State) : Result := unlessBlocked s brBit

/-- BR.BYTE's effect (R247). -/
def brByte (s : State) : Flow Word := (brReadByte s).bind fun v s1 => .done (v.setWidth 32) s1

/-- BR.BYTE (R247). -/
def execBrByte (s : State) : Result := unlessBlocked s brByte

end Sys2Proof.Machine
end

