-- ==== Sys2Proof/Machine/Decoder.lean ====
section
/-! DEFINITION. The decoder: DEC.TABLE, DEC.SYM and DEC.RUN (46_decoder.md R290 to R298). -/

namespace Sys2Proof.Machine

/-- v << 1 | bit: the next bit of a code or of the candidate, the first being most significant (R290, R294). -/
def pushBit (v : Code) (b : Bool) : Code := (v <<< 1) ||| (BitVec.ofBool b).setWidth 255

/-- dec_asize <- a + 1 (R290). -/
def Dct.setSize (a : Byte) (d : Dct) : Dct := { d with asize := a.setWidth 9 + 1 }

/-- dec_alpha[i] <- v (R290). -/
def Dct.setSymbol (i : Nat) (v : Byte) (d : Dct) : Dct := { d with alpha := tableSet d.alpha i v }

/-- dec_maxlen <- m (R290). -/
def Dct.setMaxlen (m : Byte) (d : Dct) : Dct := { d with maxlen := m }

/-- dec_count[l] <- v (R290). -/
def Dct.setCount (l : Nat) (v : Byte) (d : Dct) : Dct := { d with count := tableSet d.count l (v.setWidth 9) }

/-- dec_len[i] <- l; dec_code[i] <- v (R290). -/
def Dct.setCode (i l : Nat) (v : Code) (d : Dct) : Dct :=
  { d with len := tableSet d.len i (BitVec.ofNat 8 l), code := tableSet d.code i v }

/-- dec_ready <- 1 (R290). -/
def Dct.setReady (d : Dct) : Dct := { d with ready := true }

/-- dec_done <- 1 (R294). -/
def Dct.setDone (d : Dct) : Dct := { d with done := true }

/-- dec_alpha[i..i+k−1], k raw bytes (R290). -/
def decReadAlpha : Nat → Nat → State → Flow Unit
  | 0, _, s => .done () s
  | k + 1, i, s => (brReadByte s).bind fun v s1 => decReadAlpha k (i + 1) (s1.setDct (s1.dct.setSymbol i v))

/-- dec_count[l..l+k−1], k raw bytes (R290). -/
def decReadCounts : Nat → Nat → State → Flow Unit
  | 0, _, s => .done () s
  | k + 1, l, s => (brReadByte s).bind fun v s1 => decReadCounts k (l + 1) (s1.setDct (s1.dct.setCount l v))

/-- Alphabet size 256, max_length 8 and eight count bytes of 0 stand for count[8] = 256 (R291). -/
def Dct.count256 (d : Dct) : Bool :=
  decide (d.asize.toNat = 256) && decide (d.maxlen.toNat = 8) &&
    (List.range' 1 8).all fun l => decide (tableGet d.count l = 0)

/-- The counts after the reconstruction of rule R291. -/
def Dct.restoreCount (d : Dct) : Dct :=
  if d.count256 then { d with count := tableSet d.count 8 256 } else d

/-- dec_count[1] + … + dec_count[m] for m = dec_maxlen (R290). -/
def Dct.countSum (d : Dct) : Nat := ((List.range' 1 d.maxlen.toNat).map fun l => (tableGet d.count l).toNat).sum

/-- The lengths of the transmitted codes in order: count[l] codes of each length l = 1..m (R290). -/
def Dct.codeLengths (d : Dct) : List Nat :=
  (List.range' 1 d.maxlen.toNat).flatMap fun l => List.replicate (tableGet d.count l).toNat l

/-- A code of l more bits, first bit most significant (R290). -/
def decReadCode : Nat → Code → State → Flow Code
  | 0, v, s => .done v s
  | l + 1, v, s => (brReadBit s).bind fun b s1 => decReadCode l (pushBit v b) s1

/-- The transmitted codes of the listed lengths, at canonical positions i, i+1, … (R290). -/
def decReadCodes : List Nat → Nat → State → Flow Unit
  | [], _, s => .done () s
  | l :: ls, i, s =>
    (decReadCode l 0 s).bind fun v s1 =>
      decReadCodes ls (i + 1) (s1.setDct (s1.dct.setCode i l v))

/-- The code table part of `dec_read_table`: reconstruction, the check of the counts' sum, the codes, and dec_ready
(R290 to R292). -/
def decReadBody (s : State) : Flow Unit :=
  if s.dct.restoreCount.countSum ≠ s.dct.asize.toNat then .raised .badhdr (s.setDct s.dct.restoreCount)
  else
    (decReadCodes s.dct.restoreCount.codeLengths 0 (s.setDct s.dct.restoreCount)).bind fun _ s1 =>
      .done () (s1.setDct s1.dct.setReady)

/-- `dec_read_table` (R290): the decoder cleared, the header, the checks, the codes. -/
def decReadTable (s : State) : Flow Unit :=
  (brReadByte (s.setDct Dct.initial)).bind fun a s1 =>
    (decReadAlpha (a.toNat + 1) 0 (s1.setDct (s1.dct.setSize a))).bind fun _ s2 =>
      (brReadByte s2).bind fun m s3 =>
        if m = 0 then .raised .badhdr (s3.setDct (s3.dct.setMaxlen m))
        else
          (decReadCounts m.toNat 1 (s3.setDct (s3.dct.setMaxlen m))).bind fun _ s4 => decReadBody s4

/-- `dec_lookup(l, v)`: the smallest canonical position whose code is (l, v) (R293). -/
def Dct.lookup (d : Dct) (l : Byte) (v : Code) : Option Nat :=
  (List.range d.asize.toNat).find? fun i => decide (tableGet d.len i = l) && decide (tableGet d.code i = v)

/-- The candidate extended by one bit (R294). -/
def Dct.extend (d : Dct) (b : Bool) : Dct := { d with cand := pushBit d.cand b, candLen := d.candLen + 1 }

/-- The candidate made empty (R294). -/
def Dct.clearCand (d : Dct) : Dct := { d with cand := 0, candLen := 0 }

/-- The loop of `dec_decode_symbol` (R294). The number bounds the bits it may read; it is started with one more than
br_avail, so that the reader's own EXHAUSTED always comes first (log entry 9). -/
def decMatch : Nat → State → Flow Byte
  | 0, s => .raised .exhausted s
  | fuel + 1, s =>
    (brReadBit s).bind fun b s1 =>
      match (s1.dct.extend b).lookup (s1.dct.extend b).candLen (s1.dct.extend b).cand with
      | some i =>
        .done (tableGet s1.dct.alpha i)
          ((s1.emit (tableGet s1.dct.alpha i)).setDct (s1.dct.extend b).clearCand)
      | none =>
        if (s1.dct.extend b).candLen = s1.dct.maxlen then .raised .nomatch (s1.setDct (s1.dct.extend b))
        else decMatch fuel (s1.setDct (s1.dct.extend b))

/-- `dec_decode_symbol`: the symbol decoded and emitted, or none for END (R294). -/
def decDecodeSymbol (s : State) : Flow (Option Byte) :=
  if s.br.avail = 0 then .done none (s.setDct s.dct.clearCand.setDone)
  else (decMatch (s.br.avail + 1) (s.setDct s.dct.clearCand)).bind fun v s1 => .done (some v) s1

/-- The loop of DEC.RUN: symbols until END (R297). The number bounds the symbols; it is started with one more than
br_avail, and each symbol takes at least one bit (log entry 9). -/
def decSymbols : Nat → State → Flow Unit
  | 0, s => .done () s
  | fuel + 1, s =>
    (decDecodeSymbol s).bind fun r s1 =>
      match r with
      | none => .done () s1
      | some _ => decSymbols fuel s1

/-- DEC.TABLE's effect (R295). -/
def decTable (s : State) : Flow Word :=
  if s.br.sealed = false then .raised .sequence s else (decReadTable s).bind fun _ s1 => .done 0 s1

/-- DEC.TABLE (R295). -/
def execDecTable (s : State) : Result := unlessBlocked s decTable

/-- DEC.SYM's effect: the symbol, or 0x100 at the end (R296). -/
def decSym (s : State) : Flow Word :=
  if s.dct.ready = false then .raised .sequence s
  else
    (decDecodeSymbol s).bind fun r s1 =>
      match r with
      | none => .done 0x100 s1
      | some v => .done (v.setWidth 32) s1

/-- DEC.SYM (R296). -/
def execDecSym (s : State) : Result := unlessBlocked s decSym

/-- DEC.RUN's effect (R297); a sealed empty queue decodes to nothing (R298). -/
def decRun (s : State) : Flow Word :=
  if s.br.sealed = false then .raised .sequence s
  else if s.br.queue = [] then .done 0 (s.setDct Dct.initial.setDone)
  else
    (decReadTable s).bind fun _ s1 => (decSymbols (s1.br.avail + 1) s1).bind fun _ s2 => .done 0 s2

/-- DEC.RUN (R297). -/
def execDecRun (s : State) : Result := unlessBlocked s decRun

end Sys2Proof.Machine
end

