-- ==== Sys2Proof/Machine/BitWriter.lean ====
section
/-! DEFINITION. The bit writer's operations and the BW commands (43_bit_writer.md R220 to R227). -/

namespace Sys2Proof.Machine

/-- `bw_write_bit`: the writer afterwards and the byte it emits, if the accumulator filled up (R220). -/
def Bw.writeBit (bit : Bool) (w : Bw) : Bw × List Byte :=
  if w.cnt.toNat + 1 = 8 then
    (Bw.initial, [w.acc ||| ((BitVec.ofBool bit).setWidth 8 <<< w.cnt.toNat)])
  else
    ({ acc := w.acc ||| ((BitVec.ofBool bit).setWidth 8 <<< w.cnt.toNat), cnt := w.cnt + 1 }, [])

/-- `bw_write_bit` for each bit in order, with the bytes emitted. -/
def Bw.writeBits : List Bool → Bw → Bw × List Byte
  | [], w => (w, [])
  | b :: bs, w => ((Bw.writeBits bs (w.writeBit b).1).1, (w.writeBit b).2 ++ (Bw.writeBits bs (w.writeBit b).1).2)

/-- The bits of a code of length l and value v, most significant first (R227, 20_memory.md R93). -/
def codeBits : Nat → Code → List Bool
  | 0, _ => []
  | k + 1, v => v.getLsbD k :: codeBits k v

/-- The bytes `bw_finalize` emits: the partial byte if any, then the tail marker (R222). -/
def Bw.finalBytes (w : Bw) : List Byte :=
  (if 0 < w.cnt.toNat then [w.acc] else []) ++ [w.cnt.setWidth 8]

/-- The bits written through the writer to the output port (R220). -/
def State.bwWriteBits (bits : List Bool) (s : State) : State :=
  (s.setBw (s.bw.writeBits bits).1).emitAll (s.bw.writeBits bits).2

/-- `bw_finalize` (R222). -/
def State.bwFinalize (s : State) : State := (s.setBw Bw.initial).emitAll s.bw.finalBytes

/-- `bw_write_byte`: a raw byte, only at a byte boundary (R221). -/
def bwWriteByte (b : Byte) (s : State) : Flow Unit :=
  if s.bw.cnt ≠ 0 then .raised .sequence s else .done () (s.emit b)

/-- `bw_write_byte` for each byte in order. -/
def bwWriteBytes : List Byte → State → Flow Unit
  | [], s => .done () s
  | b :: bs, s => (bwWriteByte b s).bind fun _ s1 => bwWriteBytes bs s1

/-- BW.CLEAR's effect (R223). -/
def bwClear (s : State) : Flow Word := .done 0 (s.setBw Bw.initial)

/-- BW.CLEAR (R223). -/
def execBwClear (s : State) : Result := unlessBlocked s bwClear

/-- BW.BIT's effect (R224). -/
def bwBit (bit : Bool) (s : State) : Flow Word := .done 0 (s.bwWriteBits [bit])

/-- BW.BIT (R224). -/
def execBwBit (bit : Bool) (s : State) : Result := unlessBlocked s (bwBit bit)

/-- BW.BYTE's effect (R225). -/
def bwByte (b : Byte) (s : State) : Flow Word := (bwWriteByte b s).bind fun _ s1 => .done 0 s1

/-- BW.BYTE (R225). -/
def execBwByte (b : Byte) (s : State) : Result := unlessBlocked s (bwByte b)

/-- BW.FINAL's effect (R226). -/
def bwFinal (s : State) : Flow Word := .done 0 s.bwFinalize

/-- BW.FINAL (R226). -/
def execBwFinal (s : State) : Result := unlessBlocked s bwFinal

end Sys2Proof.Machine
end

