-- ==== Sys2Proof/Machine/CanonicalCodes.lean ====
section
/-! DEFINITION. CC.ASSIGN: the canonical codes from the code lengths (42_canonical_codes.md R200 to R204). -/

namespace Sys2Proof.Machine

/-- enc_len[s] as a number. -/
def lengthOf (len : Table 8) (s : Nat) : Nat := (tableGet len s).toNat

/-- max_length, 0 when every length is 0 (R200). -/
def maxLength (len : Table 8) : Nat := (List.range 256).foldl (fun m s => max m (lengthOf len s)) 0

/-- The symbols of length l in ascending order (R201). -/
def symbolsOfLength (len : Table 8) (l : Nat) : List Nat := (List.range 256).filter fun s => lengthOf len s == l

/-- enc_count[]: the number of symbols of each length, count[0] being 0 (R201). -/
def countTable (len : Table 8) : Table 9 :=
  tableOf fun l => if l = 0 then 0 else BitVec.ofNat 9 (symbolsOfLength len l).length

/-- The canonical alphabet: the symbols of length 1, then 2, … up to max_length (R202). -/
def canonicalAlphabet (len : Table 8) : List Nat :=
  (List.range' 1 (maxLength len)).flatMap (symbolsOfLength len)

/-- enc_alpha[]: the canonical alphabet, 0 beyond it (R202, R204). -/
def alphaTable (len : Table 8) : Table 8 :=
  tableOf fun i => BitVec.ofNat 8 ((canonicalAlphabet len)[i]?.getD 0)

/-- first[l], the first code of length l: 0 for length 1, then (first[l−1] + count[l−1]) << 1 (R203). -/
def firstCode (count : Table 9) : Nat → Nat
  | 0 => 0
  | 1 => 0
  | l + 2 => (firstCode count (l + 1) + (tableGet count (l + 1)).toNat) <<< 1

/-- k, the number of smaller symbols of the same length (R203). -/
def rankOf (len : Table 8) (s : Nat) : Nat :=
  ((List.range s).filter fun r => lengthOf len r == lengthOf len s).length

/-- enc_code[]: first[l] + k for the k-th symbol of length l, 0 outside the alphabet (R203, R204). -/
def codeTable (len : Table 8) : Table 255 :=
  tableOf fun s =>
    if lengthOf len s = 0 then 0
    else BitVec.ofNat 255 (firstCode (countTable len) (lengthOf len s) + rankOf len s)

/-- The encoder code table with the canonical codes of its lengths (R204). -/
def Ect.assign (e : Ect) : Ect :=
  { e with
    assigned := true
    maxlen := BitVec.ofNat 8 (maxLength e.len)
    count := countTable e.len
    alpha := alphaTable e.len
    code := codeTable e.len }

/-- CC.ASSIGN's effect (R204). -/
def ccAssign (s : State) : Flow Word :=
  if s.ect.built then .done 0 (s.setEct s.ect.assign) else .raised .sequence s

/-- CC.ASSIGN (R204). -/
def execCcAssign (s : State) : Result := unlessBlocked s ccAssign

end Sys2Proof.Machine
end

