-- ==== Sys2Proof/Machine/TreeBuilder.lean ====
section
/-! DEFINITION. HT.BUILD: the Huffman tree and the code lengths (41_tree_builder.md R180 to R185). The tree, the heap and
the walk exist only inside the command (10_state.md R39; log entry 8). -/

namespace Sys2Proof.Machine

/-- A code tree: a leaf owns a symbol, an internal node two children (00_scope.md R13). -/
inductive CodeTree where
  | leaf (symbol : Byte)
  | node (child0 child1 : CodeTree)
  deriving DecidableEq, Repr

/-- A node in the min-priority queue: its weight, its arena index, and the tree under it (R180). -/
structure HeapNode where
  weight : Nat
  index  : Nat
  tree   : CodeTree
  deriving DecidableEq, Repr

/-- The order of the queue: (weight, arena index), lexicographically (R180). -/
def HeapNode.before (a b : HeapNode) : Bool :=
  decide (a.weight < b.weight) || (decide (a.weight = b.weight) && decide (a.index < b.index))

/-- `heap_pop_min`: the node whose pair is smallest, and the rest (R180). -/
def heapPopMin : List HeapNode → Option (HeapNode × List HeapNode)
  | [] => none
  | x :: xs =>
    match heapPopMin xs with
    | none => some (x, xs)
    | some (m, rest) => if m.before x then some (m, x :: rest) else some (x, xs)

/-- The symbols 0..255 in ascending order. -/
def symbols : List Byte := (List.range 256).map (BitVec.ofNat 8)

/-- The alphabet: the symbols with freq[s] > 0, ascending (00_scope.md R13). -/
def alphabet (freq : Table 32) : List Byte := symbols.filter fun s => decide (0 < (tableGet freq s.toNat).toNat)

/-- The leaves: the k-th symbol of the alphabet has arena index k and weight freq[s] (R180). -/
def leafNodes (freq : Table 32) : List HeapNode :=
  (alphabet freq).mapIdx fun k s => { weight := (tableGet freq s.toNat).toNat, index := k, tree := .leaf s }

/-- `k` merges, the next internal node taking arena index `next`: the two smallest nodes are popped, the first becomes
child 0 and the second child 1 of a node that is inserted (R181). -/
def mergeNodes : Nat → Nat → List HeapNode → List HeapNode
  | 0, _, heap => heap
  | k + 1, next, heap =>
    match heapPopMin heap with
    | none => heap
    | some (a, heap1) =>
      match heapPopMin heap1 with
      | none => heap
      | some (b, heap2) =>
        mergeNodes k (next + 1)
          ({ weight := a.weight + b.weight, index := next, tree := .node a.tree b.tree } :: heap2)

/-- The walk: each leaf's symbol with its depth, `d` being the depth of the tree's root (R184). -/
def CodeTree.depths : CodeTree → Nat → List (Byte × Nat)
  | .leaf s, d => [(s, d)]
  | .node c0 c1, d => c0.depths (d + 1) ++ c1.depths (d + 1)

/-- Each symbol of the alphabet with its code length (R182 to R185): none for an empty alphabet, length 1 for the only
symbol, else the depth of its leaf after n − 1 merges. -/
def symbolLengths (freq : Table 32) : List (Byte × Nat) :=
  match alphabet freq with
  | [] => []
  | [s1] => [(s1, 1)]
  | _ :: _ :: _ =>
    match mergeNodes ((alphabet freq).length - 1) (alphabet freq).length (leafNodes freq) with
    | [] => []
    | root :: _ => root.tree.depths 0

/-- enc_len[]: the length of each symbol, 0 outside the alphabet (R185). -/
def lengthTable (freq : Table 32) : Table 8 :=
  tableOf fun s => BitVec.ofNat 8 (((symbolLengths freq).lookup (BitVec.ofNat 8 s)).getD 0)

/-- The encoder code table HT.BUILD leaves: the lengths for `freq`, everything CC.ASSIGN writes cleared (R185). -/
def Ect.build (freq : Table 32) : Ect :=
  { Ect.initial with
    built := true
    asize := BitVec.ofNat 9 (alphabet freq).length
    len := lengthTable freq }

/-- HT.BUILD's effect (R185). -/
def htBuild (s : State) : Flow Word := .done 0 (s.setEct (Ect.build s.fc.freq))

/-- HT.BUILD (R185). -/
def execHtBuild (s : State) : Result := unlessBlocked s htBuild

end Sys2Proof.Machine
end

