-- ==== Sys2Proof/Machine/Encoder.lean ====
section
/-! DEFINITION. The header serializer and the encoder: ENC.EMIT and ENC.RUN (45_encoder.md R270 to R273). -/

namespace Sys2Proof.Machine

/-- The header's raw bytes: alphabet size − 1, the alphabet in canonical order, max_length, the counts mod 256 (R270). -/
def Ect.headerBytes (e : Ect) : List Byte :=
  BitVec.ofNat 8 (e.asize.toNat - 1) ::
    ((List.range e.asize.toNat).map (tableGet e.alpha) ++
      e.maxlen :: (List.range' 1 e.maxlen.toNat).map fun l => (tableGet e.count l).setWidth 8)

/-- The bits of symbol s's code, most significant first (R271). -/
def Ect.symbolBits (e : Ect) (s : Byte) : List Bool :=
  codeBits (tableGet e.len s.toNat).toNat (tableGet e.code s.toNat)

/-- The code table bits: each alphabet symbol's code, in canonical order (R271). -/
def Ect.tableBits (e : Ect) : List Bool :=
  (List.range e.asize.toNat).flatMap fun i => e.symbolBits (tableGet e.alpha i)

/-- The payload bits of a message: the code table's, then each message symbol's (R271, R274). -/
def Ect.payloadBits (e : Ect) (msg : List Byte) : List Bool := e.tableBits ++ msg.flatMap e.symbolBits

/-- ENC.EMIT's effect (R271); an empty input emits nothing (R273). -/
def encEmit (s : State) : Flow Word :=
  if s.ect.assigned = false then .raised .sequence s
  else if s.fc.msg = [] then .done 0 s
  else
    (bwWriteBytes s.ect.headerBytes s).bind fun _ s1 =>
      .done 0 (s1.bwWriteBits (s.ect.payloadBits s.fc.msg)).bwFinalize

/-- ENC.EMIT (R271). -/
def execEncEmit (s : State) : Result := unlessBlocked s encEmit

/-- ENC.RUN's effect: HT.BUILD, CC.ASSIGN and ENC.EMIT, in order, with one response (R272). -/
def encRun (s : State) : Flow Word :=
  (htBuild s).bind fun _ s1 => (ccAssign s1).bind fun _ s2 => encEmit s2

/-- ENC.RUN (R272). -/
def execEncRun (s : State) : Result := unlessBlocked s encRun

end Sys2Proof.Machine
end

