-- ==== Sys2Proof/Machine/FrequencyCounter.lean ====
section
/-! DEFINITION. FC.CLEAR and FC.PUSH (40_frequency_counter.md R160, R161). -/

namespace Sys2Proof.Machine

/-- FC.CLEAR's effect: the counter, the message buffer, the encoder tables and flags are cleared (R160). -/
def fcClear (s : State) : Flow Word := .done 0 ((s.setFc Fc.initial).setEct Ect.initial)

/-- FC.CLEAR (R160). -/
def execFcClear (s : State) : Result := unlessBlocked s fcClear

/-- The counter with one more occurrence of byte b, appended to the message (R161). -/
def Fc.push (b : Byte) (f : Fc) : Fc :=
  Fc.append b { f with freq := tableSet f.freq b.toNat (tableGet f.freq b.toNat + 1) }

/-- FC.PUSH's effect (R161). -/
def fcPush (b : Byte) (s : State) : Flow Word :=
  if s.ect.built then .raised .sequence s
  else if s.fc.msg.length = s.params.msgCap then .raised .overflow s
  else .done 0 (s.setFc (s.fc.push b))

/-- FC.PUSH (R161). -/
def execFcPush (b : Byte) (s : State) : Result := unlessBlocked s (fcPush b)

end Sys2Proof.Machine
end

