-- ==== Sys2Proof/Syntax.lean ====
section
/-! DEFINITION. The commands of HUFC, one constructor per row of spec/opcode_table.json (30_encoding.md R124). -/

namespace Sys2Proof

/-- A command with its operands (R122, R123). -/
inductive Instr where
  /-- NOP, 0x00 (47_system.md R330). -/
  | nop
  /-- RESET, 0x01 (R331). -/
  | reset
  /-- ERRCLR, 0x02 (R332). -/
  | errclr
  /-- RDREG A, 0x03; `addr` is the 16-bit register address (R333). -/
  | rdreg (addr : BitVec 16)
  /-- FC.CLEAR, 0x10 (40_frequency_counter.md R160). -/
  | fcClear
  /-- FC.PUSH b, 0x11 (R161). -/
  | fcPush (b : Byte)
  /-- HT.BUILD, 0x12 (41_tree_builder.md R185). -/
  | htBuild
  /-- CC.ASSIGN, 0x13 (42_canonical_codes.md R204). -/
  | ccAssign
  /-- ENC.EMIT, 0x14 (45_encoder.md R271). -/
  | encEmit
  /-- ENC.RUN, 0x15 (R272). -/
  | encRun
  /-- BW.CLEAR, 0x20 (43_bit_writer.md R223). -/
  | bwClear
  /-- BW.BIT bit, 0x21 (R224). -/
  | bwBit (bit : Bool)
  /-- BW.BYTE b, 0x22 (R225). -/
  | bwByte (b : Byte)
  /-- BW.FINAL, 0x23 (R226). -/
  | bwFinal
  /-- BR.CLEAR, 0x30 (44_bit_reader.md R243). -/
  | brClear
  /-- BR.PUSH b, 0x31 (R244). -/
  | brPush (b : Byte)
  /-- BR.END, 0x32 (R245). -/
  | brEnd
  /-- BR.BIT, 0x33 (R246). -/
  | brBit
  /-- BR.BYTE, 0x34 (R247). -/
  | brByte
  /-- DEC.TABLE, 0x40 (46_decoder.md R295). -/
  | decTable
  /-- DEC.SYM, 0x41 (R296). -/
  | decSym
  /-- DEC.RUN, 0x42 (R297). -/
  | decRun
  deriving DecidableEq, Repr

end Sys2Proof
end

