-- ==== Sys2Proof/Decode.lean ====
section
/-! DEFINITION. The command decoder of 30_encoding.md (total on all 2^32 words, R127), the register map's addresses
(10_state.md R47, R50), and the encoder. -/

namespace Sys2Proof

/-- The registers the host can read through RDREG (10_state.md R47 and R50). -/
inductive Reg where
  | id | status | cause | msgLen | encAsize | encMaxlen | bwState | brState | brLen | brHead | brAvail | brMark
  | decAsize | decMaxlen | decCandLen | msgCap | qCap
  | freq (s : Byte)
  | encLen (s : Byte)
  | encCount (l : Byte)
  | encAlpha (i : Byte)
  | encCode (s : Byte) (k : BitVec 3)
  | decAlpha (i : Byte)
  | decCount (l : Byte)
  | decLen (i : Byte)
  | decCode (i : Byte) (k : BitVec 3)
  | decCand (k : BitVec 3)
  deriving DecidableEq, Repr

/-- Bank 0, by index A[11:0]; 0x011..0xFFF are unmapped (R47). -/
def Reg.ofBank0 (idx : Nat) : Option Reg :=
  match idx with
  | 0x00 => some .id
  | 0x01 => some .status
  | 0x02 => some .cause
  | 0x03 => some .msgLen
  | 0x04 => some .encAsize
  | 0x05 => some .encMaxlen
  | 0x06 => some .bwState
  | 0x07 => some .brState
  | 0x08 => some .brLen
  | 0x09 => some .brHead
  | 0x0A => some .brAvail
  | 0x0B => some .brMark
  | 0x0C => some .decAsize
  | 0x0D => some .decMaxlen
  | 0x0E => some .decCandLen
  | 0x0F => some .msgCap
  | 0x10 => some .qCap
  | _ => none

/-- A bank of 256 one-word entries: the index is A[7:0] and A[11:8] must be 0 (R50). -/
def Reg.byteEntry (a : BitVec 16) (r : Byte → Reg) : Option Reg :=
  if a.extractLsb' 8 4 = 0 then some (r (a.extractLsb' 0 8)) else none

/-- A bank of 256 eight-slice entries: the entry is A[10:3], the slice A[2:0] and A[11] must be 0 (R50). -/
def Reg.sliceEntry (a : BitVec 16) (r : Byte → BitVec 3 → Reg) : Option Reg :=
  if a.extractLsb' 11 1 = 0 then some (r (a.extractLsb' 3 8) (a.extractLsb' 0 3)) else none

/-- Bank 10, the candidate's eight slices: the slice is A[2:0] and A[11:3] must be 0 (R50). -/
def Reg.candEntry (a : BitVec 16) : Option Reg :=
  if a.extractLsb' 3 9 = 0 then some (.decCand (a.extractLsb' 0 3)) else none

/-- The register at address A: the bank is A[15:12], the index A[11:0]; none where A is unmapped (R47, R50). -/
def Reg.ofAddr (a : BitVec 16) : Option Reg :=
  match (a.extractLsb' 12 4).toNat with
  | 0 => Reg.ofBank0 (a.extractLsb' 0 12).toNat
  | 1 => Reg.byteEntry a .freq
  | 2 => Reg.byteEntry a .encLen
  | 3 => Reg.byteEntry a .encCount
  | 4 => Reg.byteEntry a .encAlpha
  | 5 => Reg.sliceEntry a .encCode
  | 6 => Reg.byteEntry a .decAlpha
  | 7 => Reg.byteEntry a .decCount
  | 8 => Reg.byteEntry a .decLen
  | 9 => Reg.sliceEntry a .decCode
  | 10 => Reg.candEntry a
  | _ => none

/-- The address of a register (R47, R50; the names of 30_encoding.md R128). -/
def Reg.addr : Reg → BitVec 16
  | .id => 0x0000
  | .status => 0x0001
  | .cause => 0x0002
  | .msgLen => 0x0003
  | .encAsize => 0x0004
  | .encMaxlen => 0x0005
  | .bwState => 0x0006
  | .brState => 0x0007
  | .brLen => 0x0008
  | .brHead => 0x0009
  | .brAvail => 0x000A
  | .brMark => 0x000B
  | .decAsize => 0x000C
  | .decMaxlen => 0x000D
  | .decCandLen => 0x000E
  | .msgCap => 0x000F
  | .qCap => 0x0010
  | .freq s => 0x10#8 ++ s
  | .encLen s => 0x20#8 ++ s
  | .encCount l => 0x30#8 ++ l
  | .encAlpha i => 0x40#8 ++ i
  | .encCode s k => 0b01010#5 ++ s ++ k
  | .decAlpha i => 0x60#8 ++ i
  | .decCount l => 0x70#8 ++ l
  | .decLen i => 0x80#8 ++ i
  | .decCode i k => 0b10010#5 ++ i ++ k
  | .decCand k => 0b1010000000000#13 ++ k

/-- Why a word is illegal: the five items of 30_encoding.md R125. -/
inductive Illegal where
  /-- Item 1: W[31:24] is not an assigned opcode. -/
  | unassignedOpcode
  /-- Item 2: class N, Y or T with W[23:8] ≠ 0. -/
  | addrFieldNotZero
  /-- Item 3: class N or A with W[7:0] ≠ 0. -/
  | byteFieldNotZero
  /-- Item 4: class T with W[7:1] ≠ 0. -/
  | bitFieldNotZero
  /-- Item 5: class A with an unmapped address. -/
  | unmappedAddress
  deriving DecidableEq, Repr

/-- What decoding a word gives: a command, or the reason it is illegal. -/
inductive Decoded where
  | command (i : Instr)
  | illegal (why : Illegal)
  deriving DecidableEq, Repr

/-- OP = W[31:24] (R120). -/
def opField (w : Word) : Byte := w.extractLsb' 24 8

/-- ADDR = W[23:8] (R120). -/
def addrField (w : Word) : BitVec 16 := w.extractLsb' 8 16

/-- B = W[7:0] (R120). -/
def byteField (w : Word) : Byte := w.extractLsb' 0 8

/-- Class N: no operand, ADDR and B must be 0 (R122). -/
def decodeN (w : Word) (i : Instr) : Decoded :=
  if addrField w ≠ 0 then .illegal .addrFieldNotZero
  else if byteField w ≠ 0 then .illegal .byteFieldNotZero
  else .command i

/-- Class Y: any byte in B, ADDR must be 0 (R122). -/
def decodeY (w : Word) (i : Byte → Instr) : Decoded :=
  if addrField w ≠ 0 then .illegal .addrFieldNotZero else .command (i (byteField w))

/-- Class T: the bit is B[0]; ADDR and B[7:1] must be 0 (R122). -/
def decodeT (w : Word) (i : Bool → Instr) : Decoded :=
  if addrField w ≠ 0 then .illegal .addrFieldNotZero
  else if (byteField w).extractLsb' 1 7 ≠ 0 then .illegal .bitFieldNotZero
  else .command (i ((byteField w).getLsbD 0))

/-- Class A: ADDR is a mapped register address, B must be 0 (R122). -/
def decodeA (w : Word) (i : BitVec 16 → Instr) : Decoded :=
  if byteField w ≠ 0 then .illegal .byteFieldNotZero
  else if (Reg.ofAddr (addrField w)).isNone then .illegal .unmappedAddress
  else .command (i (addrField w))

/-- Decoding one command word (30_encoding.md R124 to R127), total on all words. -/
def decode (w : Word) : Decoded :=
  match (opField w).toNat with
  | 0x00 => decodeN w .nop
  | 0x01 => decodeN w .reset
  | 0x02 => decodeN w .errclr
  | 0x03 => decodeA w .rdreg
  | 0x10 => decodeN w .fcClear
  | 0x11 => decodeY w .fcPush
  | 0x12 => decodeN w .htBuild
  | 0x13 => decodeN w .ccAssign
  | 0x14 => decodeN w .encEmit
  | 0x15 => decodeN w .encRun
  | 0x20 => decodeN w .bwClear
  | 0x21 => decodeT w .bwBit
  | 0x22 => decodeY w .bwByte
  | 0x23 => decodeN w .bwFinal
  | 0x30 => decodeN w .brClear
  | 0x31 => decodeY w .brPush
  | 0x32 => decodeN w .brEnd
  | 0x33 => decodeN w .brBit
  | 0x34 => decodeN w .brByte
  | 0x40 => decodeN w .decTable
  | 0x41 => decodeN w .decSym
  | 0x42 => decodeN w .decRun
  | _ => .illegal .unassignedOpcode

/-- A word from its three fields {OP, ADDR, B} (R120). -/
def packWord (op : Byte) (a : BitVec 16) (b : Byte) : Word := op ++ a ++ b

/-- The word of a command (R124). -/
def encode : Instr → Word
  | .nop => packWord 0x00 0 0
  | .reset => packWord 0x01 0 0
  | .errclr => packWord 0x02 0 0
  | .rdreg a => packWord 0x03 a 0
  | .fcClear => packWord 0x10 0 0
  | .fcPush b => packWord 0x11 0 b
  | .htBuild => packWord 0x12 0 0
  | .ccAssign => packWord 0x13 0 0
  | .encEmit => packWord 0x14 0 0
  | .encRun => packWord 0x15 0 0
  | .bwClear => packWord 0x20 0 0
  | .bwBit t => packWord 0x21 0 (0#7 ++ BitVec.ofBool t)
  | .bwByte b => packWord 0x22 0 b
  | .bwFinal => packWord 0x23 0 0
  | .brClear => packWord 0x30 0 0
  | .brPush b => packWord 0x31 0 b
  | .brEnd => packWord 0x32 0 0
  | .brBit => packWord 0x33 0 0
  | .brByte => packWord 0x34 0 0
  | .decTable => packWord 0x40 0 0
  | .decSym => packWord 0x41 0 0
  | .decRun => packWord 0x42 0 0

/-- The word a host's check places: the low `nbits` bits of `w`, bits above them 0. The command port is word-wide,
so no byte order is involved (20_memory.md R95). -/
def tableWord (nbits w : Nat) : Word := BitVec.ofNat 32 (w % 2 ^ nbits)

/-- The command the decoder reads from a word of `nbits` bits numbered as spec/opcode_table.json numbers them;
none where the word is illegal. -/
def decodeTableWord (nbits w : Nat) : Option Instr :=
  match decode (tableWord nbits w) with
  | .command i => some i
  | .illegal _ => none

end Sys2Proof
end

