-- ==== Sys2Proof/Machine/Flags.lean ====
section
/-! DEFINITION. The cause codes and the flags, read together through STATUS (10_state.md R34 and R48, 60_exceptions.md
R350). No command sets a flag as a hidden side effect: each flag is written in the rule of the command that writes it. -/

namespace Sys2Proof.Machine

/-- The 4-bit code of a cause (R350). -/
def Cause.code : Cause → BitVec 4
  | .none => 0
  | .illegal => 1
  | .sequence => 2
  | .overflow => 3
  | .exhausted => 4
  | .nomatch => 5
  | .badhdr => 6
  | .badmark => 7

/-- STATUS: bit 0 ERR, 1 ENC_BUILT, 2 ENC_ASSIGNED, 3 BR_SEALED, 4 DEC_READY, 5 DEC_DONE, the rest 0 (R48). -/
def State.statusWord (s : State) : Word :=
  0#26 ++ BitVec.ofBool s.dct.done ++ BitVec.ofBool s.dct.ready ++ BitVec.ofBool s.br.sealed ++
    BitVec.ofBool s.ect.assigned ++ BitVec.ofBool s.ect.built ++ BitVec.ofBool s.ctl.err

/-- A corrupt-stream cause, 4 to 7 (60_exceptions.md R356). -/
def Cause.corruptStream (c : Cause) : Bool := decide (4 ≤ c.code.toNat) && decide (c.code.toNat ≤ 7)

end Sys2Proof.Machine
end

