-- ==== Sys2Proof/Machine/Operands.lean ====
section
/-! DEFINITION. The one operand form that reads state: the value of the register an RDREG addresses (10_state.md R47 to
R50). The byte and bit operands are taken from the word as they stand (30_encoding.md R123). -/

namespace Sys2Proof.Machine

/-- Slice k of a 255-bit value: bits 32k+31..32k, bit 255 reading 0 (R50). -/
def codeSlice (v : Code) (k : BitVec 3) : Word := (v.setWidth 256).extractLsb' (32 * k.toNat) 32

/-- BW_STATE: bw_acc in bits 7:0, bw_cnt in bits 11:8 (R49). -/
def Bw.stateWord (w : Bw) : Word := 0#20 ++ w.cnt.setWidth 4 ++ w.acc

/-- BR_STATE: br_cur in bits 7:0, br_cnt in bits 11:8 (R49). -/
def Br.stateWord (r : Br) : Word := 0#20 ++ r.cnt ++ r.cur

/-- The value of a register, zero-extended to 32 bits (R47 to R50). -/
def State.readReg (s : State) : Reg → Word
  | .id => Config.idValue
  | .status => s.statusWord
  | .cause => s.ctl.cause.code.setWidth 32
  | .msgLen => BitVec.ofNat 32 s.fc.msg.length
  | .encAsize => s.ect.asize.setWidth 32
  | .encMaxlen => s.ect.maxlen.setWidth 32
  | .bwState => s.bw.stateWord
  | .brState => s.br.stateWord
  | .brLen => BitVec.ofNat 32 s.br.queue.length
  | .brHead => BitVec.ofNat 32 s.br.head
  | .brAvail => BitVec.ofNat 32 s.br.avail
  | .brMark => s.br.mark.setWidth 32
  | .decAsize => s.dct.asize.setWidth 32
  | .decMaxlen => s.dct.maxlen.setWidth 32
  | .decCandLen => s.dct.candLen.setWidth 32
  | .msgCap => BitVec.ofNat 32 s.params.msgCap
  | .qCap => BitVec.ofNat 32 s.params.qCap
  | .freq x => tableGet s.fc.freq x.toNat
  | .encLen x => (tableGet s.ect.len x.toNat).setWidth 32
  | .encCount l => (tableGet s.ect.count l.toNat).setWidth 32
  | .encAlpha i => (tableGet s.ect.alpha i.toNat).setWidth 32
  | .encCode x k => codeSlice (tableGet s.ect.code x.toNat) k
  | .decAlpha i => (tableGet s.dct.alpha i.toNat).setWidth 32
  | .decCount l => (tableGet s.dct.count l.toNat).setWidth 32
  | .decLen i => (tableGet s.dct.len i.toNat).setWidth 32
  | .decCode i k => codeSlice (tableGet s.dct.code i.toNat) k
  | .decCand k => codeSlice s.dct.cand k

end Sys2Proof.Machine
end

