-- ==== Sys2Proof/Machine/System.lean ====
section
/-! DEFINITION. The system commands NOP, RESET, ERRCLR and RDREG (47_system.md R330 to R333). They run while an error is
recorded too (60_exceptions.md R352). -/

namespace Sys2Proof.Machine

/-- NOP (R330). -/
def execNop (s : State) : Result := .next (s.respond 0)

/-- RESET: the effect of the reset input, and a response (R331, 70_reset_and_hazards.md R390). -/
def execReset (s : State) : Result := .next (s.resetFields.respond 0)

/-- ERRCLR (R332). -/
def execErrclr (s : State) : Result := .next (s.clearError.respond 0)

/-- RDREG (R333). An unmapped address is an illegal word, which decoding refuses first (30_encoding.md R125 item 5); here
it has that word's effect. -/
def execRdreg (a : BitVec 16) (s : State) : Result :=
  match Reg.ofAddr a with
  | some r => .next (s.respond (s.readReg r))
  | none => .next s.illegalWord

end Sys2Proof.Machine
end

