-- ==== Sys2Proof/Machine/Dispatch.lean ====
section
/-! DEFINITION. What each command does: one arm per constructor of Instr, one meaning per arm. -/

namespace Sys2Proof.Machine

/-- A command executed (or blocked) in a state (60_exceptions.md R353). -/
def exec (i : Instr) (s : State) : Host.Outcome State Fault Refusal :=
  match i with
  | .nop => Sys2Proof.Machine.execNop s
  | .reset => Sys2Proof.Machine.execReset s
  | .errclr => Sys2Proof.Machine.execErrclr s
  | .rdreg a => Sys2Proof.Machine.execRdreg a s
  | .fcClear => Sys2Proof.Machine.execFcClear s
  | .fcPush b => Sys2Proof.Machine.execFcPush b s
  | .htBuild => Sys2Proof.Machine.execHtBuild s
  | .ccAssign => Sys2Proof.Machine.execCcAssign s
  | .encEmit => Sys2Proof.Machine.execEncEmit s
  | .encRun => Sys2Proof.Machine.execEncRun s
  | .bwClear => Sys2Proof.Machine.execBwClear s
  | .bwBit bit => Sys2Proof.Machine.execBwBit bit s
  | .bwByte b => Sys2Proof.Machine.execBwByte b s
  | .bwFinal => Sys2Proof.Machine.execBwFinal s
  | .brClear => Sys2Proof.Machine.execBrClear s
  | .brPush b => Sys2Proof.Machine.execBrPush b s
  | .brEnd => Sys2Proof.Machine.execBrEnd s
  | .brBit => Sys2Proof.Machine.execBrBit s
  | .brByte => Sys2Proof.Machine.execBrByte s
  | .decTable => Sys2Proof.Machine.execDecTable s
  | .decSym => Sys2Proof.Machine.execDecSym s
  | .decRun => Sys2Proof.Machine.execDecRun s

end Sys2Proof.Machine
end

