-- ==== Sys2Proof/Machine/Step.lean ====
section
/-! DEFINITION. One step of the machine: what the host does next takes effect as one atomic transition (00_scope.md R12,
60_exceptions.md R353, 70_reset_and_hazards.md R390). -/

namespace Sys2Proof.Machine

/-- One step. With nothing from the host HUFC waits unchanged (R390); the reset input resets it without a response; a
command word is decoded, and is illegal or is executed (R353). -/
def step (s : State) : Host.Outcome State Fault Refusal :=
  match s.takeInput with
  | none => .next s
  | some (.resetInput, t) => .next t.resetFields
  | some (.word w, t) =>
    match decode w with
    | .illegal _ => .next t.illegalWord
    | .command i => exec i t

/-- The state in which the host issues, next, the word of `nbits` bits `w` (log entry 1). -/
def State.withFetchWord (s : State) (nbits w : Nat) : State := s.issue (tableWord nbits w)

end Sys2Proof.Machine
end

