-- ==== Sys2Proof/WellFormed.lean ====
section
/-! DEFINITION. Which commands are well formed: an RDREG names a mapped address (30_encoding.md R125 item 5); the other
operands fill their fields, so every value of theirs is well formed (R122). -/

namespace Sys2Proof

/-- A register address A is mapped: bank 0 up to index 0x010, banks 1 to 10 within their ranges (10_state.md R47, R50).
Written from the ranges alone, not from the decoder. -/
def mappedAddr (a : BitVec 16) : Bool :=
  let bank := a.toNat / 4096
  let idx := a.toNat % 4096
  if bank = 0 then decide (idx ≤ 0x010)
  else if bank = 5 ∨ bank = 9 then decide (idx < 2048)
  else if bank = 10 then decide (idx < 8)
  else if bank ≤ 8 then decide (idx < 256)
  else false

/-- The well-formed commands (R122). -/
def Instr.wellFormed : Instr → Bool
  | .nop => true
  | .reset => true
  | .errclr => true
  | .rdreg a => mappedAddr a
  | .fcClear => true
  | .fcPush _ => true
  | .htBuild => true
  | .ccAssign => true
  | .encEmit => true
  | .encRun => true
  | .bwClear => true
  | .bwBit _ => true
  | .bwByte _ => true
  | .bwFinal => true
  | .brClear => true
  | .brPush _ => true
  | .brEnd => true
  | .brBit => true
  | .brByte => true
  | .decTable => true
  | .decSym => true
  | .decRun => true

end Sys2Proof
end

