-- ==== Sys2Proof/Safety.lean ====
section
/-! DEFINITION. What claims about HUFC are stated in: the launch premises of 70_reset_and_hazards.md R397, runs of commands
(R396), the significant bits a reader still holds (44_bit_reader.md R240, R248), and the invariant of the machine. -/

namespace Sys2Proof

open Machine

/-! ### Kinds of commands -/

/-- The commands that run while an error is recorded (60_exceptions.md R352). -/
def Instr.runsOnError : Instr → Bool
  | .nop | .reset | .errclr | .rdreg _ => true
  | .fcClear | .fcPush _ | .htBuild | .ccAssign | .encEmit | .encRun | .bwClear | .bwBit _ | .bwByte _ | .bwFinal
  | .brClear | .brPush _ | .brEnd | .brBit | .brByte | .decTable | .decSym | .decRun => false

/-- The causes a command may raise (60_exceptions.md R350). -/
def Instr.mayRaise : Instr → List Cause
  | .nop | .reset | .errclr | .rdreg _ | .fcClear | .htBuild | .bwClear | .bwBit _ | .bwFinal | .brClear => []
  | .fcPush _ | .brPush _ => [.sequence, .overflow]
  | .ccAssign | .encEmit | .encRun | .bwByte _ => [.sequence]
  | .brEnd => [.sequence, .badmark]
  | .brBit | .brByte => [.sequence, .exhausted, .badmark]
  | .decTable => [.sequence, .exhausted, .badhdr, .badmark]
  | .decSym => [.sequence, .exhausted, .nomatch]
  | .decRun => [.sequence, .exhausted, .nomatch, .badhdr, .badmark]

/-- The encoder side's commands: they write FC, ECT and BW only (10_state.md R30, R34). -/
def Instr.encoderSide : Instr → Bool
  | .fcClear | .fcPush _ | .htBuild | .ccAssign | .encEmit | .encRun | .bwClear | .bwBit _ | .bwByte _ | .bwFinal => true
  | .nop | .reset | .errclr | .rdreg _ | .brClear | .brPush _ | .brEnd | .brBit | .brByte | .decTable | .decSym
  | .decRun => false

/-- The decoder side's commands: they write BR and DCT only (10_state.md R30). -/
def Instr.decoderSide : Instr → Bool
  | .brClear | .brPush _ | .brEnd | .brBit | .brByte | .decTable | .decSym | .decRun => true
  | .nop | .reset | .errclr | .rdreg _ | .fcClear | .fcPush _ | .htBuild | .ccAssign | .encEmit | .encRun | .bwClear
  | .bwBit _ | .bwByte _ | .bwFinal => false

end Sys2Proof

namespace Sys2Proof.Machine

/-! ### Premises -/

/-- The capacities lie within the bounds of 00_scope.md R7. -/
def Params.Admissible (p : Params) : Prop :=
  1 ≤ p.msgCap ∧ p.msgCap ≤ 2 ^ 32 - 1 ∧ 2 ≤ p.qCap ∧ p.qCap ≤ 2 ^ 28 - 1

/-- no-error: err = 0, and so cause = 0 (R397). -/
def State.NoError (s : State) : Prop := s.ctl = Ctl.initial

/-- encoder-clean: the state after reset, or after FC.CLEAR with bw_cnt = 0 (R397). -/
def State.EncoderClean (s : State) : Prop :=
  s.NoError ∧ s.fc.msg = [] ∧ s.ect.built = false ∧ s.ect.assigned = false ∧
    (∀ b : Byte, tableGet s.fc.freq b.toNat = 0) ∧ s.bw.cnt = 0

/-- decoder-clean: the state after reset or after BR.CLEAR (R397). -/
def State.DecoderClean (s : State) : Prop :=
  s.NoError ∧ s.br.queue = [] ∧ s.br.sealed = false ∧ s.br.head = 0 ∧ s.br.cnt = 0 ∧
    s.dct.ready = false ∧ s.dct.done = false

/-- reset-state: every field as 10_state.md R52 has it, whatever the parameters and the environment (R397). -/
def State.IsResetState (s : State) : Prop :=
  s.ctl = Ctl.initial ∧ s.fc = Fc.initial ∧ s.ect = Ect.initial ∧ s.bw = Bw.initial ∧ s.br = Br.initial ∧
    s.dct = Dct.initial

/-! ### Commands and runs -/

/-- The successful response with data d (30_encoding.md R121). -/
def Response.ok (d : Word) : Response := { exec := true, cause := .none, data := d }

/-- The response of a command that raised c (60_exceptions.md R351). -/
def Response.error (c : Cause) : Response := { exec := true, cause := c, data := 0 }

/-- Commands executed one after another (R396); a stop would end the run. -/
def execAll : List Instr → State → Result
  | [], s => .next s
  | i :: is, s =>
    match exec i s with
    | .next t => execAll is t
    | .fault r => .fault r
    | .refused r => .refused r

/-- ENCODE S: FC.CLEAR, FC.PUSH of each byte, ENC.RUN (30_encoding.md R129). -/
def encodeCommands (message : List Byte) : List Instr := .fcClear :: (message.map .fcPush ++ [.encRun])

/-- DECODE E: BR.CLEAR, BR.PUSH of each byte, BR.END, DEC.RUN (R129). -/
def decodeCommands (stream : List Byte) : List Instr := .brClear :: (stream.map .brPush ++ [.brEnd, .decRun])

/-- From s to t the host got the responses rs and the sink the bytes bs, and the host's remaining inputs stayed. -/
def State.Observes (s t : State) (rs : List Response) (bs : List Byte) : Prop :=
  t.port = { inputs := s.port.inputs, responses := s.port.responses ++ rs, out := s.port.out ++ bs }

/-! ### What is left unchanged -/

/-- The encoder side but for the bit writer (10_state.md R30): FC and ECT, and the parameters. -/
def State.SameEncoder (s t : State) : Prop := t.params = s.params ∧ t.fc = s.fc ∧ t.ect = s.ect

/-- The decoder side (R30): BR and DCT. -/
def State.SameDecoder (s t : State) : Prop := t.br = s.br ∧ t.dct = s.dct

/-- Every field of the block, and the parameters. -/
def State.SameFields (s t : State) : Prop :=
  s.SameEncoder t ∧ s.SameDecoder t ∧ t.bw = s.bw ∧ t.ctl = s.ctl

/-- The command i raises c in s: err and cause are recorded, the response carries c, and nothing else changes
(60_exceptions.md R351, R355). -/
def State.Raises (s : State) (i : Instr) (c : Cause) : Prop :=
  ∃ t, exec i s = .next t ∧ t.ctl = { err := true, cause := c } ∧ s.SameEncoder t ∧ s.SameDecoder t ∧ t.bw = s.bw ∧
    s.Observes t [Response.error c] []

/-- The command i raises c in s and leaves t: err and cause are recorded, the response carries c, and the encoder side, the
bit writer and the sink are untouched; what the decoder side holds is said beside it (60_exceptions.md R351, R355). -/
def State.RaisesTo (s : State) (i : Instr) (c : Cause) (t : State) : Prop :=
  exec i s = .next t ∧ t.ctl = { err := true, cause := c } ∧ s.SameEncoder t ∧ t.bw = s.bw ∧
    s.Observes t [Response.error c] []

/-- RDREG of address a responds v in s, and nothing else happens (47_system.md R333, 10_state.md R51). -/
def State.Reads (s : State) (a : BitVec 16) (v : Word) : Prop :=
  ∃ t, exec (.rdreg a) s = .next t ∧ s.SameFields t ∧ s.Observes t [Response.ok v] []

/-- The state s with the host's remaining inputs replaced. -/
def State.withInputs (rest : List HostInput) (s : State) : State := { s with port := { s.port with inputs := rest } }

/-! ### Command words -/

/-- The opcodes of class N (30_encoding.md R122, R124). -/
def opcodesN : List Nat :=
  [0x00, 0x01, 0x02, 0x10, 0x12, 0x13, 0x14, 0x15, 0x20, 0x23, 0x30, 0x32, 0x33, 0x34, 0x40, 0x41, 0x42]

/-- The opcodes of class Y (R122, R124). -/
def opcodesY : List Nat := [0x11, 0x22, 0x31]

/-- The word is illegal: the five items of 30_encoding.md R125; class T is 0x21 and class A is 0x03. -/
def IllegalWord (w : Word) : Prop :=
  let op := w.toNat / 2 ^ 24
  let a := w.toNat / 2 ^ 8 % 2 ^ 16
  let b := w.toNat % 2 ^ 8
  (op ∉ opcodesN ∧ op ∉ opcodesY ∧ op ≠ 0x21 ∧ op ≠ 0x03) ∨
    ((op ∈ opcodesN ∨ op ∈ opcodesY ∨ op = 0x21) ∧ a ≠ 0) ∨
    ((op ∈ opcodesN ∨ op = 0x03) ∧ b ≠ 0) ∨
    (op = 0x21 ∧ b / 2 ≠ 0) ∨
    (op = 0x03 ∧ mappedAddr (BitVec.ofNat 16 a) = false)

/-! ### Codes -/

/-- The number of symbols whose length in a length table is l (42_canonical_codes.md R201). -/
def symbolCount (len : Table 8) (l : Nat) : Nat := ((List.range 256).filter fun x => (tableGet len x).toNat = l).length

/-- The number of smaller symbols with the same length as x: x is the k-th symbol of its length (R203). -/
def symbolRank (len : Table 8) (x : Nat) : Nat :=
  ((List.range x).filter fun y => tableGet len y = tableGet len x).length

/-- first[l] of a count table (R203). -/
def firstOf (count : Nat → Nat) : Nat → Nat
  | 0 => 0
  | l + 1 => if l = 0 then 0 else 2 * (firstOf count l + count l)

/-- Kraft's sum of code lengths over a list of symbols (00_scope.md R13). -/
def kraft (L : Byte → Nat) (xs : List Byte) : ℚ := (xs.map fun x => (1 : ℚ) / 2 ^ L x).sum

/-- The bits of the codes of positions 0..n−1, then of the message's symbols, each most significant first: the payload
bits of an encoded stream (45_encoder.md R274, 20_memory.md R93). -/
def Ect.wireBits (e : Ect) (msg : List Byte) : List Bool :=
  ((List.range e.asize.toNat).map (tableGet e.alpha) ++ msg).flatMap fun x =>
    (List.range (tableGet e.len x.toNat).toNat).map fun k =>
      (tableGet e.code x.toNat).getLsbD ((tableGet e.len x.toNat).toNat - 1 - k)

/-- The bytes E hold the bits P least significant first in each byte, the last one padded with 0 in its high bits
(20_memory.md R92, 43_bit_writer.md R228). -/
def HoldsBits (E : List Byte) (P : List Bool) : Prop :=
  E.length = (P.length + 7) / 8 ∧ ∀ j, j < 8 * E.length → (E.getD (j / 8) 0).getLsbD (j % 8) = P.getD j false

/-- The count of length l that a header with alphabet size n, max_length m and count bytes C stands for: its byte, but
count[8] = 256 where n = 256, m = 8 and every byte is 0 (46_decoder.md R291). -/
def headerCount (n : Nat) (m : Byte) (C : List Byte) (l : Nat) : Nat :=
  if n = 256 ∧ m = 8 ∧ (∀ c ∈ C, c = 0) ∧ l = 8 then 256 else (C.getD (l - 1) 0).toNat

/-- The bits of a code of length c.1 and value c.2, the first most significant (20_memory.md R93). -/
def bitsOf (c : Nat × Nat) : List Bool := (List.range c.1).map fun k => c.2.testBit (c.1 - 1 - k)

/-- Canonical position i of the decoder's table holds the code whose bits are P, the first most significant
(46_decoder.md R290, R293). -/
def Dct.HasCode (d : Dct) (P : List Bool) (i : Nat) : Prop :=
  i < d.asize.toNat ∧ (tableGet d.len i).toNat = P.length ∧ (tableGet d.code i).toNat < 2 ^ P.length ∧
    ∀ k, k < P.length → (tableGet d.code i).getLsbD (P.length - 1 - k) = P.getD k false

/-- What `dec_read_table` has read when it raises an error: dec_asize = n, the alphabet bytes A, max_length m, the counts and
the codes read so far, every field behind them still 0, no table ready and no candidate (46_decoder.md R290, R295; nothing is
rolled back, 60_exceptions.md R355). -/
def Dct.PartOfTable (d : Dct) (n : Nat) (A : List Byte) (m : Byte) (count : Nat → Nat) (codes : List (Nat × Nat)) : Prop :=
  d.ready = false ∧ d.done = false ∧ d.asize.toNat = n ∧ (∀ i, tableGet d.alpha i = A.getD i 0) ∧ d.maxlen = m ∧
    (∀ l, (tableGet d.count l).toNat = count l) ∧
    (∀ i, (tableGet d.len i).toNat = (codes.getD i (0, 0)).1 ∧ (tableGet d.code i).toNat = (codes.getD i (0, 0)).2) ∧
    d.cand = 0 ∧ d.candLen = 0

/-! ### The bits of a byte stream -/

/-- The n low bits of a byte, least significant first (20_memory.md R92). -/
def byteBits (b : Byte) (n : Nat) : List Bool := (List.range n).map b.getLsbD

/-- The significant bits of data bytes, the last one giving `sig` of its bits (44_bit_reader.md R240). -/
def unpackBytes (sig : Nat) : List Byte → List Bool
  | [] => []
  | [b] => byteBits b sig
  | b :: b' :: bs => byteBits b 8 ++ unpackBytes sig (b' :: bs)

/-- The data bytes not yet popped, the marker excluded (R240). -/
def Br.dataBytes (r : Br) : List Byte := r.queue.dropLast.drop r.head

/-- The sealed queue has a valid tail marker. -/
def Br.Readable (r : Br) : Prop := r.sealed = true ∧ r.queue ≠ [] ∧ r.mark.toNat ≤ 7

/-- The significant bits not yet read, in the order they will be read (R240, R248). -/
def Br.pendingBits (r : Br) : List Bool := byteBits r.cur r.cnt.toNat ++ unpackBytes r.sig r.dataBytes

/-! ### The invariant -/

/-- cause is 0 exactly while err = 0 (10_state.md R33). -/
def Ctl.Inv (c : Ctl) : Prop := c.err = false ↔ c.cause = .none

/-- freq[s] is the number of occurrences of s in the message (40_frequency_counter.md R162). -/
def Fc.Inv (f : Fc) : Prop := ∀ b : Byte, (tableGet f.freq b.toNat).toNat = f.msg.count b

/-- The encoder tables are empty, or hold the lengths of the frequency table, or its lengths and codes (10_state.md R37). -/
def Ect.Inv (e : Ect) (freq : Table 32) : Prop :=
  e = Ect.initial ∨ e = Ect.build freq ∨ e = (Ect.build freq).assign

/-- The bits of bw_acc at positions ≥ bw_cnt are 0 (10_state.md R40). -/
def Bw.Inv (w : Bw) : Prop := ∀ k, w.cnt.toNat ≤ k → w.acc.getLsbD k = false

/-- br_cnt ≤ 7 between commands, and nothing has been read from a queue that is not sealed (10_state.md R42). -/
def Br.Inv (r : Br) : Prop :=
  r.cnt.toNat ≤ 7 ∧ (r.sealed = false → r.head = 0 ∧ r.cur = 0 ∧ r.cnt = 0)

/-- The decoder is empty while the queue is not sealed; a table is ready only over a readable queue; dec_done means that
no significant bit is left; the candidate is no longer than max_length and has no bit above its length (46_decoder.md R290,
R294). -/
def Dct.Inv (d : Dct) (r : Br) : Prop :=
  (r.sealed = false → d = Dct.initial) ∧
    (d.ready = true → r.Readable ∧ d.maxlen ≠ 0 ∧ 1 ≤ d.asize.toNat ∧ d.asize.toNat ≤ 256) ∧
    (d.done = true → r.avail = 0) ∧
    d.candLen.toNat ≤ d.maxlen.toNat ∧ d.cand.toNat < 2 ^ d.candLen.toNat ∧ tableGet d.count 0 = 0

/-- The invariant of the whole machine. -/
structure State.Inv (s : State) : Prop where
  params : s.params.Admissible
  memory : Memory.wf s = true
  ctl    : s.ctl.Inv
  fc     : s.fc.Inv
  ect    : s.ect.Inv s.fc.freq
  bw     : s.bw.Inv
  br     : s.br.Inv
  dct    : s.dct.Inv s.br

end Sys2Proof.Machine
end

