-- ==== Sys2Proof/Certificates/Slice0/Obligations.lean ====
section
/-! DEFINITION. The statements for the provers, from the numbered rules of spec/. -/

open Sys2Proof Sys2Proof.Machine

/-! ### Encoding (30_encoding.md) -/

/-- Decoding the encoding of a well-formed command gives it back, every operand at every value (R120, R122 to R124). -/
def Obligations.DecodeOfEncode : Prop :=
  ∀ i : Instr, i.wellFormed = true → decode (encode i) = .command i

/-- Each legal word is the encoding of exactly one well-formed command (R124, R126, R127). -/
def Obligations.EncodeOfDecode : Prop :=
  ∀ (w : Word) (i : Instr), decode w = .command i → i.wellFormed = true ∧ encode i = w

/-- The illegal words are those of the five items of R125; one raises ILLEGAL when no error is recorded, is blocked when
one is, and has no other effect (R125). -/
def Obligations.IllegalWordsExactly : Prop :=
  ∀ w : Word,
    ((∃ why, decode w = .illegal why) ↔ IllegalWord w) ∧
      ∀ (s : State) (rest : List HostInput), s.port.inputs = .word w :: rest → IllegalWord w →
        ∃ t, step s = .next t ∧ s.SameEncoder t ∧ s.SameDecoder t ∧ t.bw = s.bw ∧
          (s.ctl.err = false → t.ctl = { err := true, cause := .illegal } ∧
            (s.withInputs rest).Observes t [Response.error .illegal] []) ∧
          (s.ctl.err = true → t.ctl = s.ctl ∧
            (s.withInputs rest).Observes t [{ exec := false, cause := s.ctl.cause, data := 0 }] [])

/-- The worked encodings (R130). -/
def Obligations.WorkedEncodings : Prop :=
  decode 0x11000061 = .command (.fcPush 0x61) ∧ decode 0x21000001 = .command (.bwBit true) ∧
    decode 0x31000022 = .command (.brPush 0x22) ∧
    decode 0x03106100 = .command (.rdreg (Reg.freq 0x61).addr) ∧
    decode 0x03530800 = .command (.rdreg (Reg.encCode 0x61 0).addr) ∧ (Reg.encCode 0x61 0).addr = 0x5308 ∧
    decode 0x03000100 = .command (.rdreg Reg.status.addr) ∧ decode 0x15000000 = .command .encRun ∧
    decode 0x21000002 = .illegal .bitFieldNotZero ∧ decode 0x03001100 = .illegal .unmappedAddress

/-! ### One step -/

/-- A step whose next input is a legal word runs its command, and nothing else (60_exceptions.md R353). -/
def Obligations.StepRunsDecodedCommand : Prop :=
  ∀ (s : State) (w : Word) (rest : List HostInput) (i : Instr),
    s.port.inputs = .word w :: rest → decode w = .command i → step s = exec i (s.withInputs rest)

/-- A command runs from where the host places its word (log entry 1). -/
def Obligations.PlacedWordRuns : Prop :=
  ∀ (s : State) (i : Instr), i.wellFormed = true → step (s.withFetchWord 32 (encode i).toNat) = exec i s

/-- The commands of a sequence of words take effect in the order issued, each completing before the next begins
(20_memory.md R102). -/
def Obligations.RunIsTheCommandSequence : Prop :=
  ∀ (s : State) (is : List Instr) (rest : List HostInput), (∀ i ∈ is, i.wellFormed = true) →
    s.port.inputs = is.map (fun i => .word (encode i)) ++ rest →
    Host.Core.run Sys2Proof.core is.length s = execAll is (s.withInputs rest)

/-- Every step, and every command in every state, ends in a next state: nothing is refused and nothing faults
(30_encoding.md R126, 70_reset_and_hazards.md R395). -/
def Obligations.EveryCommandAnswers : Prop :=
  (∀ s : State, ∃ t, step s = .next t) ∧ ∀ (i : Instr) (s : State), ∃ t, exec i s = .next t

/-- A command ends in one of three ways, with exactly one response: it succeeds; or it is blocked; or, with no error
recorded, it raises one error, which is recorded (30_encoding.md R121, 60_exceptions.md R351). -/
def Obligations.ThreeWaysToEnd : Prop :=
  ∀ (i : Instr) (s t : State), exec i s = .next t → t.port.inputs = s.port.inputs ∧
    ((∃ d, t.port.responses = s.port.responses ++ [Response.ok d] ∧ (t.ctl = s.ctl ∨ t.ctl = Ctl.initial)) ∨
      (s.ctl.err = true ∧ (i.wellFormed = true → i.runsOnError = false) ∧ t.ctl = s.ctl ∧
        t.port.responses = s.port.responses ++ [{ exec := false, cause := s.ctl.cause, data := 0 }]) ∨
      (s.ctl.err = false ∧ ∃ c, c ≠ .none ∧ t.ctl = { err := true, cause := c } ∧
        t.port.responses = s.port.responses ++ [Response.error c]))

/-! ### Errors (60_exceptions.md) -/

/-- While an error is recorded, a word other than a legal NOP, RESET, ERRCLR or RDREG changes no field, emits nothing,
and responds with the recorded cause (R352). -/
def Obligations.ErrorBlocksCommands : Prop :=
  ∀ (s : State) (w : Word) (rest : List HostInput), s.port.inputs = .word w :: rest → s.ctl.err = true →
    (∀ i, decode w = .command i → i.runsOnError = false) →
    ∃ t, step s = .next t ∧ s.SameFields t ∧
      (s.withInputs rest).Observes t [{ exec := false, cause := s.ctl.cause, data := 0 }] []

/-- A recorded error stays as it is until ERRCLR, RESET or the reset input: the first one is kept (R353, R358). -/
def Obligations.FirstErrorIsKept : Prop :=
  ∀ (s t : State), step s = .next t → s.ctl.err = true →
    (∀ rest, s.port.inputs ≠ .resetInput :: rest) →
    (∀ w rest, s.port.inputs = .word w :: rest → decode w ≠ .command .errclr ∧ decode w ≠ .command .reset) →
    t.ctl = s.ctl

/-- A well-formed command raises only the causes the table of causes lists for it (R350; for DEC.SYM, 46_decoder.md R296). -/
def Obligations.CausesPerCommand : Prop :=
  ∀ (i : Instr) (s t : State), i.wellFormed = true → s.Inv → s.ctl.err = false → exec i s = .next t →
    t.ctl.err = true → t.ctl.cause ∈ i.mayRaise

/-- The CAUSE register reads the codes of the causes, and a corrupt stream is a code from 4 to 7 (R350, R356). -/
def Obligations.CauseCodes : Prop :=
  (∀ s : State, s.Reads 0x0002 (BitVec.ofNat 32 (match s.ctl.cause with
    | .none => 0
    | .illegal => 1
    | .sequence => 2
    | .overflow => 3
    | .exhausted => 4
    | .nomatch => 5
    | .badhdr => 6
    | .badmark => 7))) ∧
    ∀ c : Cause, c.corruptStream = true ↔ c = .exhausted ∨ c = .nomatch ∨ c = .badhdr ∨ c = .badmark

/-- The commands whose every error is raised before any change leave everything but err and cause; an error of DEC.TABLE
leaves no table ready, and the queue, the encoder side and the sink untouched (R355). -/
def Obligations.ErrorsArePrecise : Prop :=
  ∀ (i : Instr) (s t : State), s.ctl.err = false → exec i s = .next t → t.ctl.err = true →
    ((∃ b, i = .fcPush b) ∨ (∃ b, i = .brPush b) ∨ (∃ b, i = .bwByte b) ∨ i = .brBit ∨ i = .brByte ∨ i = .ccAssign ∨
      i = .encEmit → s.Raises i t.ctl.cause) ∧
    (i = .decTable → s.Inv →
      t.dct.ready = false ∧ t.br.queue = s.br.queue ∧ t.br.sealed = s.br.sealed ∧ s.SameEncoder t ∧ t.bw = s.bw ∧
        s.Observes t [Response.error t.ctl.cause] [])

/-! ### Reset and the system commands (47_system.md, 70_reset_and_hazards.md) -/

/-- Every field at its reset value (10_state.md R52), for every implementation's capacities, and the ID register. -/
def Obligations.ResetValues : Prop :=
  (∀ p : Params, let s := State.resetWith p
    s.params = p ∧ s.ctl.err = false ∧ s.ctl.cause = .none ∧
    (∀ k, tableGet s.fc.freq k = 0) ∧ s.fc.msg.length = 0 ∧
    s.ect.built = false ∧ s.ect.assigned = false ∧ s.ect.asize = 0 ∧ s.ect.maxlen = 0 ∧
    (∀ k, tableGet s.ect.len k = 0 ∧ tableGet s.ect.count k = 0 ∧ tableGet s.ect.alpha k = 0 ∧
      tableGet s.ect.code k = 0) ∧
    s.bw.acc = 0 ∧ s.bw.cnt = 0 ∧
    s.br.queue.length = 0 ∧ s.br.head = 0 ∧ s.br.cur = 0 ∧ s.br.cnt = 0 ∧ s.br.sealed = false ∧
    s.dct.ready = false ∧ s.dct.done = false ∧ s.dct.asize = 0 ∧ s.dct.maxlen = 0 ∧
    (∀ k, tableGet s.dct.alpha k = 0 ∧ tableGet s.dct.count k = 0 ∧ tableGet s.dct.len k = 0 ∧
      tableGet s.dct.code k = 0) ∧
    s.dct.cand = 0 ∧ s.dct.candLen = 0 ∧ s.Reads 0x0000 0x48554631) ∧
    ∃ p : Params, p.Admissible ∧ State.reset = State.resetWith p

/-- The reset input, at any time between commands, and the RESET command return every field to its reset value and leave
the parameters and the sink's record; the reset input gives no response; with nothing from the host the machine waits
unchanged (70_reset_and_hazards.md R390, R331). -/
def Obligations.ResetReturnsEveryField : Prop :=
  decode 0x01000000 = .command .reset ∧
  ∀ s : State,
    (∀ rest, s.port.inputs = .resetInput :: rest →
      ∃ t, step s = .next t ∧ t.IsResetState ∧ t.params = s.params ∧ (s.withInputs rest).Observes t [] []) ∧
    (∃ t, exec .reset s = .next t ∧ t.IsResetState ∧ t.params = s.params ∧ s.Observes t [Response.ok 0] []) ∧
    (s.port.inputs = [] → step s = .next s)

/-- NOP runs in every state, also while an error is recorded, and only responds (R330). -/
def Obligations.NopOnlyResponds : Prop :=
  decode 0x00000000 = .command .nop ∧
  ∀ s : State, ∃ t, exec .nop s = .next t ∧ s.SameFields t ∧ s.Observes t [Response.ok 0] []

/-- ERRCLR runs in every state, clears err and cause, and changes no other field (R332, 60_exceptions.md R357). -/
def Obligations.ErrclrClearsOnlyTheError : Prop :=
  decode 0x02000000 = .command .errclr ∧
  ∀ s : State, ∃ t, exec .errclr s = .next t ∧ t.ctl.err = false ∧ t.ctl.cause = .none ∧ s.SameEncoder t ∧
    s.SameDecoder t ∧ t.bw = s.bw ∧ s.Observes t [Response.ok 0] []

/-- RDREG of a mapped address runs in every state, responds the value of the one register at that address, and has no
side effect (R333). -/
def Obligations.RdregReadsOneRegister : Prop :=
  ∀ a : BitVec 16, mappedAddr a = true →
    decode (0x03#8 ++ a ++ 0x00#8) = .command (.rdreg a) ∧ ∃ r : Reg, r.addr = a ∧ (∀ r' : Reg, r'.addr = a → r' = r) ∧
      ∀ s : State, ∃ t, exec (.rdreg a) s = .next t ∧ s.SameFields t ∧ s.Observes t [Response.ok (s.readReg r)] []

/-- The registers of bank 0, and what of it is unmapped; STATUS, BW_STATE and BR_STATE bit by bit, their reserved bits 0 and
their reset values 0 (10_state.md R47 to R49). -/
def Obligations.BankZeroRegisters : Prop :=
  ∀ s : State,
    (s.Reads 0x0000 0x48554631 ∧ s.Reads 0x0002 (s.ctl.cause.code.setWidth 32) ∧ s.Reads 0x0003 (BitVec.ofNat 32 s.fc.msg.length) ∧
    s.Reads 0x0004 (BitVec.ofNat 32 s.ect.asize.toNat) ∧ s.Reads 0x0005 (BitVec.ofNat 32 s.ect.maxlen.toNat) ∧
    s.Reads 0x0008 (BitVec.ofNat 32 s.br.queue.length) ∧ s.Reads 0x0009 (BitVec.ofNat 32 s.br.head) ∧
    s.Reads 0x000A (BitVec.ofNat 32 s.br.avail) ∧ s.Reads 0x000B (BitVec.ofNat 32 (s.br.queue.getLast?.getD 0).toNat) ∧
    s.Reads 0x000C (BitVec.ofNat 32 s.dct.asize.toNat) ∧ s.Reads 0x000D (BitVec.ofNat 32 s.dct.maxlen.toNat) ∧
    s.Reads 0x000E (BitVec.ofNat 32 s.dct.candLen.toNat) ∧ s.Reads 0x000F (BitVec.ofNat 32 s.params.msgCap) ∧
    s.Reads 0x0010 (BitVec.ofNat 32 s.params.qCap)) ∧
    (∃ v : Word, s.Reads 0x0001 v ∧ v.getLsbD 0 = s.ctl.err ∧ v.getLsbD 1 = s.ect.built ∧
      v.getLsbD 2 = s.ect.assigned ∧ v.getLsbD 3 = s.br.sealed ∧ v.getLsbD 4 = s.dct.ready ∧
      v.getLsbD 5 = s.dct.done ∧ ∀ k, 6 ≤ k → v.getLsbD k = false) ∧
    (∃ v : Word, s.Reads 0x0006 v ∧ v.extractLsb' 0 8 = s.bw.acc ∧ v.toNat / 2 ^ 8 = s.bw.cnt.toNat) ∧
    (∃ v : Word, s.Reads 0x0007 v ∧ v.extractLsb' 0 8 = s.br.cur ∧ v.toNat / 2 ^ 8 = s.br.cnt.toNat) ∧
    (∀ p : Params, (State.resetWith p).Reads 0x0001 0 ∧ (State.resetWith p).Reads 0x0006 0 ∧
      (State.resetWith p).Reads 0x0007 0) ∧
    ∀ a : BitVec 16, 0x0010 < a.toNat → a.toNat < 0x1000 → mappedAddr a = false

/-- The table banks 1 to 10: the entries, and the eight slices of a 255-bit value, bit 255 reading 0; no other address
above bank 0 is mapped (10_state.md R50). -/
def Obligations.TableBankRegisters : Prop :=
  (∀ a : BitVec 16, 0x1000 ≤ a.toNat → mappedAddr a = true →
    (∃ x, x < 256 ∧ ∃ bank ∈ [1, 2, 3, 4, 6, 7, 8], a.toNat = 0x1000 * bank + x) ∨
    (∃ x k, x < 256 ∧ k < 8 ∧ (a.toNat = 0x5000 + 8 * x + k ∨ a.toNat = 0x9000 + 8 * x + k)) ∨
    ∃ k, k < 8 ∧ a.toNat = 0xA000 + k) ∧
  ∀ s : State,
    (∀ x : Byte,
      s.Reads (BitVec.ofNat 16 (0x1000 + x.toNat)) (tableGet s.fc.freq x.toNat) ∧
      s.Reads (BitVec.ofNat 16 (0x2000 + x.toNat)) (BitVec.ofNat 32 (tableGet s.ect.len x.toNat).toNat) ∧
      s.Reads (BitVec.ofNat 16 (0x3000 + x.toNat)) (BitVec.ofNat 32 (tableGet s.ect.count x.toNat).toNat) ∧
      s.Reads (BitVec.ofNat 16 (0x4000 + x.toNat)) (BitVec.ofNat 32 (tableGet s.ect.alpha x.toNat).toNat) ∧
      s.Reads (BitVec.ofNat 16 (0x6000 + x.toNat)) (BitVec.ofNat 32 (tableGet s.dct.alpha x.toNat).toNat) ∧
      s.Reads (BitVec.ofNat 16 (0x7000 + x.toNat)) (BitVec.ofNat 32 (tableGet s.dct.count x.toNat).toNat) ∧
      s.Reads (BitVec.ofNat 16 (0x8000 + x.toNat)) (BitVec.ofNat 32 (tableGet s.dct.len x.toNat).toNat)) ∧
    ∀ k, k < 8 →
      (∀ x : Byte,
        (∃ v : Word, s.Reads (BitVec.ofNat 16 (0x5000 + 8 * x.toNat + k)) v ∧
          ∀ j, j < 32 → v.getLsbD j = (tableGet s.ect.code x.toNat).getLsbD (32 * k + j)) ∧
        (∃ v : Word, s.Reads (BitVec.ofNat 16 (0x9000 + 8 * x.toNat + k)) v ∧
          ∀ j, j < 32 → v.getLsbD j = (tableGet s.dct.code x.toNat).getLsbD (32 * k + j))) ∧
      ∃ v : Word, s.Reads (BitVec.ofNat 16 (0xA000 + k)) v ∧ ∀ j, j < 32 → v.getLsbD j = s.dct.cand.getLsbD (32 * k + j)

/-! ### Frequency counter (40_frequency_counter.md) -/

/-- FC.CLEAR: the counter, the message and the encoder tables and flags are cleared, nothing else; with bw_cnt = 0 the
encoder is clean afterwards (R160, 70_reset_and_hazards.md R397). -/
def Obligations.FcClearStartsAnInput : Prop :=
  decode 0x10000000 = .command .fcClear ∧
  ∀ s : State, s.ctl.err = false →
    ∃ t, exec .fcClear s = .next t ∧ (∀ k, tableGet t.fc.freq k = 0) ∧ t.fc.msg = [] ∧
      t.ect.built = false ∧ t.ect.assigned = false ∧ t.ect.asize = 0 ∧ t.ect.maxlen = 0 ∧
      (∀ k, tableGet t.ect.len k = 0 ∧ tableGet t.ect.count k = 0 ∧ tableGet t.ect.alpha k = 0 ∧
        tableGet t.ect.code k = 0) ∧
      t.params = s.params ∧ t.ctl = s.ctl ∧ t.bw = s.bw ∧ s.SameDecoder t ∧ s.Observes t [Response.ok 0] [] ∧
      (s.NoError → s.bw.cnt = 0 → t.EncoderClean)

/-- FC.PUSH: SEQUENCE once the table is built, OVERFLOW when the buffer is full, else one more occurrence of b, appended
to the message, and nothing else (R161). -/
def Obligations.FcPushCountsAByte : Prop :=
  (∀ b : Byte, decode (0x110000#24 ++ b) = .command (.fcPush b)) ∧
  ∀ (s : State) (b : Byte), s.Inv → s.ctl.err = false →
    (s.ect.built = true → s.Raises (.fcPush b) .sequence) ∧
    (s.ect.built = false → s.fc.msg.length = s.params.msgCap → s.Raises (.fcPush b) .overflow) ∧
    (s.ect.built = false → s.fc.msg.length ≠ s.params.msgCap →
      ∃ t, exec (.fcPush b) s = .next t ∧ t.fc.msg = s.fc.msg ++ [b] ∧
        (∀ x : Byte, (tableGet t.fc.freq x.toNat).toNat =
          (tableGet s.fc.freq x.toNat).toNat + if x = b then 1 else 0) ∧
        t.params = s.params ∧ t.ctl = s.ctl ∧ t.ect = s.ect ∧ t.bw = s.bw ∧ s.SameDecoder t ∧
        s.Observes t [Response.ok 0] [])

/-- Between commands freq[s] counts the occurrences of s in the message, the counters sum to msg_len, and the alphabet is
empty exactly when msg_len = 0 (R162). -/
def Obligations.FrequenciesCountTheMessage : Prop :=
  ∀ s t : State, s.Inv → step s = .next t →
    (∀ x : Byte, (tableGet t.fc.freq x.toNat).toNat = t.fc.msg.count x) ∧
      ((List.range 256).map fun k => (tableGet t.fc.freq k).toNat).sum = t.fc.msg.length ∧
      ((∀ x : Byte, tableGet t.fc.freq x.toNat = 0) ↔ t.fc.msg.length = 0)

/-! ### Tree builder (41_tree_builder.md) -/

/-- `heap_pop_min` takes the node whose pair (weight, arena index) is lexicographically smallest; the k-th leaf is the k-th
symbol of the alphabet in ascending order, with arena index k and weight freq[s]; a merge pops the two smallest nodes and
inserts a node of their summed weight with them as children 0 and 1, under the next arena index (R180, R181). -/
def Obligations.PriorityOrderAndMerge : Prop :=
  (∀ (h rest : List HeapNode) (m : HeapNode), heapPopMin h = some (m, rest) →
    h.Perm (m :: rest) ∧
      ∀ x ∈ rest, m.weight < x.weight ∨ (m.weight = x.weight ∧ m.index ≤ x.index)) ∧
    (∀ h : List HeapNode, heapPopMin h = none ↔ h = []) ∧
    (∀ (freq : Table 32) (k : Nat) (x : HeapNode), (leafNodes freq)[k]? = some x →
      x.index = k ∧ ∃ b : Byte, x.tree = .leaf b ∧ x.weight = (tableGet freq b.toNat).toNat ∧ 0 < x.weight ∧
        ((List.range b.toNat).filter fun y => decide (0 < (tableGet freq y).toNat)).length = k) ∧
    ∀ (k next : Nat) (h h1 h2 : List HeapNode) (a b : HeapNode),
      heapPopMin h = some (a, h1) → heapPopMin h1 = some (b, h2) →
      mergeNodes (k + 1) next h =
        mergeNodes k (next + 1) ({ weight := a.weight + b.weight, index := next, tree := .node a.tree b.tree } :: h2)

/-- HT.BUILD: the alphabet's size, the flags, the cleared code fields, the lengths of an alphabet of no and of one symbol,
and for two or more the depth of each symbol's leaf; nothing else changes (R182 to R185). -/
def Obligations.HtBuildWritesLengths : Prop :=
  decode 0x12000000 = .command .htBuild ∧
  ∀ s : State, s.ctl.err = false →
    ∃ t, exec .htBuild s = .next t ∧ t.ect.built = true ∧ t.ect.assigned = false ∧ t.ect.maxlen = 0 ∧
      (∀ k, tableGet t.ect.count k = 0 ∧ tableGet t.ect.alpha k = 0 ∧ tableGet t.ect.code k = 0) ∧
      t.ect.asize.toNat = (alphabet s.fc.freq).length ∧
      (∀ x : Byte, x ∈ alphabet s.fc.freq ↔ tableGet s.fc.freq x.toNat ≠ 0) ∧
      (∀ x : Byte, x ∉ alphabet s.fc.freq → tableGet t.ect.len x.toNat = 0) ∧
      (∀ x : Byte, alphabet s.fc.freq = [x] → tableGet t.ect.len x.toNat = 1) ∧
      (2 ≤ (alphabet s.fc.freq).length →
        ∃ root : HeapNode,
          mergeNodes ((alphabet s.fc.freq).length - 1) (alphabet s.fc.freq).length (leafNodes s.fc.freq) = [root] ∧
          ∀ x ∈ alphabet s.fc.freq, (x, (tableGet t.ect.len x.toNat).toNat) ∈ root.tree.depths 0) ∧
      t.params = s.params ∧ t.ctl = s.ctl ∧ t.fc = s.fc ∧ t.bw = s.bw ∧ s.SameDecoder t ∧
      s.Observes t [Response.ok 0] []

/-- The lengths HT.BUILD writes are between 1 and max(n − 1, 1), and their Kraft sum is 1, or 1/2 for one symbol
(R186 items 1 and 2). -/
def Obligations.HtBuildLengthsMeetKraft : Prop :=
  ∀ s t : State, s.ctl.err = false → exec .htBuild s = .next t →
    (∀ x : Byte, (tableGet s.fc.freq x.toNat = 0 → tableGet t.ect.len x.toNat = 0) ∧
      (tableGet s.fc.freq x.toNat ≠ 0 → 1 ≤ (tableGet t.ect.len x.toNat).toNat ∧
        (tableGet t.ect.len x.toNat).toNat ≤ max ((alphabet s.fc.freq).length - 1) 1)) ∧
    (2 ≤ (alphabet s.fc.freq).length →
      kraft (fun x => (tableGet t.ect.len x.toNat).toNat) (alphabet s.fc.freq) = 1) ∧
    ((alphabet s.fc.freq).length = 1 →
      kraft (fun x => (tableGet t.ect.len x.toNat).toNat) (alphabet s.fc.freq) = 1 / 2)

/-- The lengths HT.BUILD writes are those of an optimal code: no lengths of at least 1 that meet the Kraft inequality give
the counted message fewer bits (R186 item 4, 00_scope.md R1). -/
def Obligations.HtBuildLengthsAreOptimal : Prop :=
  ∀ (s t : State) (L : Byte → Nat), s.ctl.err = false → exec .htBuild s = .next t →
    (∀ x ∈ alphabet s.fc.freq, 1 ≤ L x) → kraft L (alphabet s.fc.freq) ≤ 1 →
    ((alphabet s.fc.freq).map fun x => (tableGet s.fc.freq x.toNat).toNat * (tableGet t.ect.len x.toNat).toNat).sum ≤
      ((alphabet s.fc.freq).map fun x => (tableGet s.fc.freq x.toNat).toNat * L x).sum

/-! ### Canonical codes (42_canonical_codes.md) -/

/-- CC.ASSIGN: SEQUENCE without a length table; else max_length, the counts, the canonical alphabet and the codes of the
lengths, and nothing else (R200 to R204). -/
def Obligations.CcAssignWritesCodes : Prop :=
  decode 0x13000000 = .command .ccAssign ∧
  ∀ s : State, s.Inv → s.ctl.err = false →
    (s.ect.built = false → s.Raises .ccAssign .sequence) ∧
    (s.ect.built = true →
      ∃ t, exec .ccAssign s = .next t ∧ t.ect.assigned = true ∧ t.ect.built = true ∧ t.ect.len = s.ect.len ∧
        t.ect.asize = s.ect.asize ∧
        (∀ x : Byte, (tableGet t.ect.len x.toNat).toNat ≤ t.ect.maxlen.toNat) ∧
        (t.ect.maxlen = 0 ∨ ∃ x : Byte, tableGet t.ect.len x.toNat = t.ect.maxlen) ∧
        (∀ l, l < 256 → (tableGet t.ect.count l).toNat = if l = 0 then 0 else symbolCount t.ect.len l) ∧
        (∀ x : Byte, tableGet t.ect.len x.toNat ≠ 0 ↔ ∃ i, i < t.ect.asize.toNat ∧ tableGet t.ect.alpha i = x) ∧
        (∀ i j, i < j → j < t.ect.asize.toNat →
          (tableGet t.ect.len (tableGet t.ect.alpha i).toNat).toNat <
              (tableGet t.ect.len (tableGet t.ect.alpha j).toNat).toNat ∨
            (tableGet t.ect.len (tableGet t.ect.alpha i).toNat = tableGet t.ect.len (tableGet t.ect.alpha j).toNat ∧
              (tableGet t.ect.alpha i).toNat < (tableGet t.ect.alpha j).toNat)) ∧
        (∀ i, t.ect.asize.toNat ≤ i → tableGet t.ect.alpha i = 0) ∧
        (∀ x : Byte, (tableGet t.ect.code x.toNat).toNat =
          if tableGet t.ect.len x.toNat = 0 then 0
          else firstOf (symbolCount t.ect.len) (tableGet t.ect.len x.toNat).toNat + symbolRank t.ect.len x.toNat) ∧
        t.params = s.params ∧ t.ctl = s.ctl ∧ t.fc = s.fc ∧ t.bw = s.bw ∧ s.SameDecoder t ∧
        s.Observes t [Response.ok 0] [])

/-- Codes fit their lengths, and no code is the beginning of another: the shorter one is not the longer one's first bits
(R205, R206). -/
def Obligations.CodesFitAndAreDistinguishable : Prop :=
  ∀ (s : State) (x : Byte), s.Inv → s.ect.assigned = true →
    (tableGet s.ect.code x.toNat).toNat < 2 ^ (tableGet s.ect.len x.toNat).toNat ∧
    ∀ y : Byte, x ≠ y → tableGet s.ect.len x.toNat ≠ 0 →
      (tableGet s.ect.len x.toNat).toNat ≤ (tableGet s.ect.len y.toNat).toNat →
      (tableGet s.ect.code y.toNat).toNat /
          2 ^ ((tableGet s.ect.len y.toNat).toNat - (tableGet s.ect.len x.toNat).toNat) ≠
        (tableGet s.ect.code x.toNat).toNat

/-- The counts sum to the alphabet's size, and enc_alpha lists every symbol of the alphabet exactly once, in canonical
order (R207). -/
def Obligations.HeaderFieldsListTheAlphabet : Prop :=
  ∀ s : State, s.Inv → s.ect.assigned = true →
    ((List.range' 1 s.ect.maxlen.toNat).map fun l => (tableGet s.ect.count l).toNat).sum = s.ect.asize.toNat ∧
      ((List.range s.ect.asize.toNat).map (tableGet s.ect.alpha)).Perm (alphabet s.fc.freq) ∧
      ((List.range s.ect.asize.toNat).map (tableGet s.ect.alpha)).Pairwise fun x y =>
        (tableGet s.ect.len x.toNat).toNat < (tableGet s.ect.len y.toNat).toNat ∨
          (tableGet s.ect.len x.toNat = tableGet s.ect.len y.toNat ∧ x.toNat < y.toNat)

/-! ### Bit writer (43_bit_writer.md) -/

/-- BW.BIT: the bit goes to position bw_cnt; the eighth bit emits the byte and empties the writer (R220, R224). -/
def Obligations.BwBitWritesABit : Prop :=
  decode 0x21000000 = .command (.bwBit false) ∧ decode 0x21000001 = .command (.bwBit true) ∧
  ∀ (s : State) (bit : Bool), s.ctl.err = false →
    ∃ t, exec (.bwBit bit) s = .next t ∧ s.SameEncoder t ∧ s.SameDecoder t ∧ t.ctl = s.ctl ∧
      ∃ acc : Byte, (∀ k, k < 8 → acc.getLsbD k = (s.bw.acc.getLsbD k || (decide (k = s.bw.cnt.toNat) && bit))) ∧
        (s.bw.cnt = 7 → t.bw.acc = 0 ∧ t.bw.cnt = 0 ∧ s.Observes t [Response.ok 0] [acc]) ∧
        (s.bw.cnt ≠ 7 → t.bw.acc = acc ∧ t.bw.cnt.toNat = s.bw.cnt.toNat + 1 ∧ s.Observes t [Response.ok 0] [])

/-- BW.BYTE: SEQUENCE inside a byte, else the byte is emitted unchanged (R221, R225). -/
def Obligations.BwByteEmitsARawByte : Prop :=
  (∀ b : Byte, decode (0x220000#24 ++ b) = .command (.bwByte b)) ∧
  ∀ (s : State) (b : Byte), s.ctl.err = false →
    (s.bw.cnt ≠ 0 → s.Raises (.bwByte b) .sequence) ∧
    (s.bw.cnt = 0 → ∃ t, exec (.bwByte b) s = .next t ∧ s.SameFields t ∧ s.Observes t [Response.ok 0] [b])

/-- BW.CLEAR: the pending bits are lost, nothing is emitted (R223). -/
def Obligations.BwClearDropsPendingBits : Prop :=
  decode 0x20000000 = .command .bwClear ∧
  ∀ s : State, s.ctl.err = false →
    ∃ t, exec .bwClear s = .next t ∧ t.bw.acc = 0 ∧ t.bw.cnt = 0 ∧ s.SameEncoder t ∧ s.SameDecoder t ∧ t.ctl = s.ctl ∧
      s.Observes t [Response.ok 0] []

/-- BW.FINAL: the partial byte if any, then the tail marker bw_cnt; the writer is empty afterwards (R222, R226). -/
def Obligations.BwFinalEmitsTheTailMarker : Prop :=
  decode 0x23000000 = .command .bwFinal ∧
  ∀ s : State, s.ctl.err = false →
    ∃ t, exec .bwFinal s = .next t ∧ t.bw.acc = 0 ∧ t.bw.cnt = 0 ∧ s.SameEncoder t ∧ s.SameDecoder t ∧ t.ctl = s.ctl ∧
      ∃ marker : Byte, marker.toNat = s.bw.cnt.toNat ∧
        (s.bw.cnt = 0 → s.Observes t [Response.ok 0] [marker]) ∧
        (s.bw.cnt ≠ 0 → s.Observes t [Response.ok 0] [s.bw.acc, marker])

/-- Raw bytes, then P ≥ 1 bits, then finalize: the raw bytes, ceil(P/8) bytes that hold the bits in order, and the marker
P mod 8 are emitted (R228). -/
def Obligations.TailMarkerIsRight : Prop :=
  ∀ (s : State) (raw : List Byte) (bits : List Bool), s.Inv → s.ctl.err = false → s.bw.cnt = 0 → bits ≠ [] →
    ∃ (t : State) (data : List Byte) (marker : Byte),
      execAll (raw.map .bwByte ++ bits.map .bwBit ++ [.bwFinal]) s = .next t ∧
      s.Observes t (List.replicate (raw.length + bits.length + 1) (Response.ok 0)) (raw ++ data ++ [marker]) ∧
      HoldsBits data bits ∧ marker.toNat = bits.length % 8

/-! ### Bit reader (44_bit_reader.md) -/

/-- br_avail, as RDREG BR_AVAIL reads it: 0 while the queue is not sealed, is empty, or has no valid marker; else the bits
of the current byte still to be taken and, of the data bytes not yet popped, 8 each but the marker's number for the last
one (R240). -/
def Obligations.SignificantBitsLeft : Prop :=
  ∀ s : State, s.Inv → ∃ v : Word, s.Reads 0x000A v ∧
    (¬ s.br.Readable → v.toNat = 0) ∧
    (s.br.Readable → v.toNat = s.br.pendingBits.length ∧
      v.toNat = s.br.cnt.toNat +
        (if s.br.head + 1 < s.br.queue.length then
          8 * (s.br.queue.length - 1 - s.br.head - 1) +
            (if s.br.queue.getLast?.getD 0 = 0 then 8 else (s.br.queue.getLast?.getD 0).toNat)
        else 0))

/-- BR.CLEAR: the queue is emptied and the decoder cleared, nothing else; the decoder is clean afterwards (R243,
70_reset_and_hazards.md R397). -/
def Obligations.BrClearEmptiesTheQueue : Prop :=
  decode 0x30000000 = .command .brClear ∧
  ∀ s : State, s.ctl.err = false →
    ∃ t, exec .brClear s = .next t ∧ t.br.queue = [] ∧ t.br.head = 0 ∧ t.br.cur = 0 ∧ t.br.cnt = 0 ∧
      t.br.sealed = false ∧ t.dct.ready = false ∧ t.dct.done = false ∧ t.dct.asize = 0 ∧ t.dct.maxlen = 0 ∧
      (∀ k, tableGet t.dct.alpha k = 0 ∧ tableGet t.dct.count k = 0 ∧ tableGet t.dct.len k = 0 ∧
        tableGet t.dct.code k = 0) ∧
      t.dct.cand = 0 ∧ t.dct.candLen = 0 ∧ s.SameEncoder t ∧ t.bw = s.bw ∧ t.ctl = s.ctl ∧
      s.Observes t [Response.ok 0] [] ∧ (s.NoError → t.DecoderClean)

/-- BR.PUSH: SEQUENCE after BR.END, OVERFLOW when the queue is full, else the byte is appended and nothing else (R244). -/
def Obligations.BrPushAppendsAByte : Prop :=
  (∀ b : Byte, decode (0x310000#24 ++ b) = .command (.brPush b)) ∧
  ∀ (s : State) (b : Byte), s.ctl.err = false →
    (s.br.sealed = true → s.Raises (.brPush b) .sequence) ∧
    (s.br.sealed = false → s.br.queue.length = s.params.qCap → s.Raises (.brPush b) .overflow) ∧
    (s.br.sealed = false → s.br.queue.length ≠ s.params.qCap →
      ∃ t, exec (.brPush b) s = .next t ∧ t.br = { s.br with queue := s.br.queue ++ [b] } ∧ t.dct = s.dct ∧
        s.SameEncoder t ∧ t.bw = s.bw ∧ t.ctl = s.ctl ∧ s.Observes t [Response.ok 0] [])

/-- BR.END: SEQUENCE if sealed; else the queue is sealed, and a last byte above 7 raises BADMARK (R245). -/
def Obligations.BrEndSealsTheQueue : Prop :=
  decode 0x32000000 = .command .brEnd ∧
  ∀ s : State, s.ctl.err = false →
    (s.br.sealed = true → s.Raises .brEnd .sequence) ∧
    (s.br.sealed = false →
      ∃ t, exec .brEnd s = .next t ∧ t.br = { s.br with sealed := true } ∧ t.dct = s.dct ∧ s.SameEncoder t ∧
        t.bw = s.bw ∧
        (7 < (s.br.queue.getLast?.getD 0).toNat →
          t.ctl = { err := true, cause := .badmark } ∧ s.Observes t [Response.error .badmark] []) ∧
        ((s.br.queue.getLast?.getD 0).toNat ≤ 7 → t.ctl = s.ctl ∧ s.Observes t [Response.ok 0] []))

/-- BR.BIT: the checks in order, a byte popped at a byte boundary with only its significant bits if it is the last one,
and the least significant bit returned and shifted out (R241, R246). -/
def Obligations.BrBitReadsABit : Prop :=
  decode 0x33000000 = .command .brBit ∧
  ∀ s : State, s.ctl.err = false →
    (s.br.sealed = false → s.Raises .brBit .sequence) ∧
    (s.br.sealed = true → s.br.queue = [] → s.Raises .brBit .exhausted) ∧
    (s.br.sealed = true → s.br.queue ≠ [] → 7 < s.br.mark.toNat → s.Raises .brBit .badmark) ∧
    (s.br.Readable → s.br.cnt = 0 → s.br.remaining = 0 → s.Raises .brBit .exhausted) ∧
    (s.br.Readable → s.br.cnt ≠ 0 ∨ s.br.remaining ≠ 0 →
      ∃ (t : State) (cur : Byte) (cnt : Nat), exec .brBit s = .next t ∧
        (s.br.cnt ≠ 0 → cur = s.br.cur ∧ cnt = s.br.cnt.toNat ∧ t.br.head = s.br.head) ∧
        (s.br.cnt = 0 → cur = s.br.queue.getD s.br.head 0 ∧ cnt = (if s.br.remaining = 1 then s.br.sig else 8) ∧
          t.br.head = s.br.head + 1) ∧
        t.br.cur = cur >>> 1 ∧ t.br.cnt.toNat = cnt - 1 ∧ t.br.queue = s.br.queue ∧ t.br.sealed = s.br.sealed ∧
        t.dct = s.dct ∧ s.SameEncoder t ∧ t.bw = s.bw ∧ t.ctl = s.ctl ∧
        s.Observes t [Response.ok (BitVec.ofNat 32 (cur.toNat % 2))] [])

/-- BR.BYTE: the checks in order, and the raw byte at br_head returned and popped (R242, R247). -/
def Obligations.BrByteReadsARawByte : Prop :=
  decode 0x34000000 = .command .brByte ∧
  ∀ s : State, s.ctl.err = false →
    (s.br.sealed = false ∨ s.br.cnt ≠ 0 → s.Raises .brByte .sequence) ∧
    (s.br.sealed = true → s.br.cnt = 0 → s.br.queue = [] → s.Raises .brByte .exhausted) ∧
    (s.br.sealed = true → s.br.cnt = 0 → s.br.queue ≠ [] → 7 < s.br.mark.toNat → s.Raises .brByte .badmark) ∧
    (s.br.Readable → s.br.cnt = 0 → s.br.remaining = 0 → s.Raises .brByte .exhausted) ∧
    (s.br.Readable → s.br.cnt = 0 → s.br.remaining ≠ 0 →
      ∃ t, exec .brByte s = .next t ∧ t.br = { s.br with head := s.br.head + 1 } ∧ t.dct = s.dct ∧ s.SameEncoder t ∧
        t.bw = s.bw ∧ t.ctl = s.ctl ∧
        s.Observes t [Response.ok (BitVec.ofNat 32 (s.br.queue.getD s.br.head 0).toNat)] [])

/-- What the writer wrote the reader reads: k raw bytes, then exactly the P bits, then EXHAUSTED (R248). -/
def Obligations.ReaderAgreesWithWriter : Prop :=
  ∀ (s : State) (raw data : List Byte) (bits : List Bool) (marker : Byte),
    s.ctl.err = false → s.br.sealed = true → s.br.head = 0 → s.br.cnt = 0 → s.br.queue = raw ++ data ++ [marker] →
    bits ≠ [] → HoldsBits data bits → marker.toNat = bits.length % 8 →
    ∃ t u : State, execAll (raw.map fun _ => .brByte) s = .next t ∧
      s.Observes t (raw.map fun b => Response.ok (b.setWidth 32)) [] ∧ t.br.avail = bits.length ∧
      execAll (bits.map fun _ => .brBit) t = .next u ∧
      t.Observes u (bits.map fun b => Response.ok ((BitVec.ofBool b).setWidth 32)) [] ∧ u.br.avail = 0 ∧
      u.Raises .brBit .exhausted

/-! ### Encoder (45_encoder.md) -/

/-- ENC.EMIT: SEQUENCE without codes; nothing emitted for an empty message; SEQUENCE at pending bits; else the header, the
payload bits and the tail marker are emitted, byte by byte as the wire format has them (R270, R271, R274). -/
def Obligations.EncEmitWritesTheWireFormat : Prop :=
  decode 0x14000000 = .command .encEmit ∧
  ∀ s : State, s.Inv → s.ctl.err = false →
    (s.ect.assigned = false → s.Raises .encEmit .sequence) ∧
    (s.ect.assigned = true → s.fc.msg = [] →
      ∃ t, exec .encEmit s = .next t ∧ s.SameFields t ∧ s.Observes t [Response.ok 0] []) ∧
    (s.ect.assigned = true → s.fc.msg ≠ [] → s.bw.cnt ≠ 0 → s.Raises .encEmit .sequence) ∧
    (s.ect.assigned = true → s.fc.msg ≠ [] → s.bw.cnt = 0 →
      let n := s.ect.asize.toNat
      let m := s.ect.maxlen.toNat
      let P := s.ect.wireBits s.fc.msg
      ∃ (t : State) (header data : List Byte) (marker : Byte), exec .encEmit s = .next t ∧ s.SameFields t ∧
        s.Observes t [Response.ok 0] (header ++ data ++ [marker]) ∧
        header.length = n + m + 2 ∧ (header.getD 0 0).toNat = n - 1 ∧
        (∀ i, i < n → header.getD (1 + i) 0 = tableGet s.ect.alpha i) ∧ (header.getD (n + 1) 0).toNat = m ∧
        (∀ l, 1 ≤ l → l ≤ m → (header.getD (n + 1 + l) 0).toNat = (tableGet s.ect.count l).toNat % 256) ∧
        HoldsBits data P ∧ marker.toNat = P.length % 8 ∧ 2 ≤ P.length)

/-- ENC.RUN does what HT.BUILD, CC.ASSIGN and ENC.EMIT do one after the other, with one response: it succeeds exactly when
it need not emit or the writer is at a byte boundary, and otherwise raises SEQUENCE with the tables built and assigned and
nothing emitted (R272). -/
def Obligations.EncRunIsItsThreeParts : Prop :=
  decode 0x15000000 = .command .encRun ∧
  ∀ s : State, s.ctl.err = false →
    ∃ (t u : State) (r : Response), exec .encRun s = .next t ∧ execAll [.htBuild, .ccAssign, .encEmit] s = .next u ∧
      u.SameFields t ∧ t.port.out = u.port.out ∧
      u.port.responses = s.port.responses ++ [Response.ok 0, Response.ok 0, r] ∧
      t.port.responses = s.port.responses ++ [r] ∧ t.port.inputs = s.port.inputs ∧
      t.ect.built = true ∧ t.ect.assigned = true ∧ t.fc = s.fc ∧ t.params = s.params ∧ s.SameDecoder t ∧
      (s.fc.msg = [] ∨ s.bw.cnt = 0 → t.ctl = s.ctl ∧ r = Response.ok 0) ∧
      (s.fc.msg ≠ [] → s.bw.cnt ≠ 0 →
        t.ctl = { err := true, cause := .sequence } ∧ r = Response.error .sequence ∧ t.bw = s.bw ∧
          t.port.out = s.port.out)

/-- An empty input is encoded as the empty byte sequence (R273), and the empty stream decodes to the empty output
(46_decoder.md R298). -/
def Obligations.EmptyInputEmptyStream : Prop :=
  ∀ s : State, s.ctl.err = false →
    (∃ t, execAll (encodeCommands []) s = .next t ∧ s.Observes t [Response.ok 0, Response.ok 0] []) ∧
    (∃ t, execAll (decodeCommands []) s = .next t ∧ t.dct.done = true ∧
      s.Observes t [Response.ok 0, Response.ok 0, Response.ok 0] []) ∧
    (s.br.sealed = true → s.br.queue = [] →
      ∃ t, exec .decRun s = .next t ∧ t.dct.done = true ∧ t.br = s.br ∧ s.SameEncoder t ∧ t.bw = s.bw ∧ t.ctl = s.ctl ∧
        s.Observes t [Response.ok 0] [])

/-! ### Decoder (46_decoder.md) -/

/-- DEC.TABLE on a queue whose next bytes are a consistent header followed by the codes it announces: the table is read,
canonical position by canonical position, the counts as reconstructed (R290, R291, R295). -/
def Obligations.DecTableReadsTheTable : Prop :=
  ∀ (s : State) (A C D : List Byte) (m : Byte) (codes : List (Nat × Nat)) (rest : List Bool),
    s.ctl.err = false → s.br.Readable → s.br.cnt = 0 →
    s.br.dataBytes = BitVec.ofNat 8 (A.length - 1) :: (A ++ m :: (C ++ D)) →
    1 ≤ A.length → A.length ≤ 256 → m ≠ 0 → C.length = m.toNat →
    ((List.range' 1 m.toNat).map (headerCount A.length m C)).sum = A.length →
    codes.map Prod.fst = (List.range' 1 m.toNat).flatMap (fun l => List.replicate (headerCount A.length m C l) l) →
    (∀ c ∈ codes, c.2 < 2 ^ c.1) →
    unpackBytes s.br.sig D = codes.flatMap bitsOf ++ rest →
    ∃ t, exec .decTable s = .next t ∧ t.dct.ready = true ∧ t.dct.done = false ∧ t.dct.asize.toNat = A.length ∧
      (∀ i, tableGet t.dct.alpha i = A.getD i 0) ∧ t.dct.maxlen = m ∧
      (∀ l, (tableGet t.dct.count l).toNat = if 1 ≤ l ∧ l ≤ m.toNat then headerCount A.length m C l else 0) ∧
      (∀ i, (tableGet t.dct.len i).toNat = (codes.getD i (0, 0)).1 ∧
        (tableGet t.dct.code i).toNat = (codes.getD i (0, 0)).2) ∧
      t.dct.cand = 0 ∧ t.dct.candLen = 0 ∧ t.br.pendingBits = rest ∧ t.br.queue = s.br.queue ∧
      t.br.sealed = s.br.sealed ∧ s.SameEncoder t ∧ t.bw = s.bw ∧ t.ctl = s.ctl ∧ s.Observes t [Response.ok 0] []

/-- The header checks: max_length 0, or counts (as reconstructed) that do not sum to the alphabet's size, raise BADHDR once
the header is read: dec_asize, dec_alpha, dec_maxlen and dec_count hold it, no table is ready, and of the reader br_head alone
has moved, behind the header (R291, R292, R295). -/
def Obligations.DecTableChecksTheHeader : Prop :=
  ∀ (s : State) (A C D : List Byte) (m : Byte), s.ctl.err = false → s.br.Readable → s.br.cnt = 0 →
    s.br.dataBytes = BitVec.ofNat 8 (A.length - 1) :: (A ++ m :: (C ++ D)) →
    1 ≤ A.length → A.length ≤ 256 → C.length = m.toNat →
    m = 0 ∨ ((List.range' 1 m.toNat).map (headerCount A.length m C)).sum ≠ A.length →
    ∃ t, s.RaisesTo .decTable .badhdr t ∧ t.br = { s.br with head := s.br.head + A.length + 2 + C.length } ∧
      t.dct.PartOfTable A.length A m (fun l => if 1 ≤ l ∧ l ≤ m.toNat then headerCount A.length m C l else 0) []

/-- DEC.TABLE's other errors, and what each leaves: at the first byte, the decoder cleared and the reader unchanged; where the
queue ends inside the header, which takes a + 3 bytes and max_length counts for a first byte a, the fields of the bytes read
and br_head behind them; where it ends inside the codes of a consistent header, the whole header, the codes read and the reader
with every bit taken (R290, R295, 60_exceptions.md R355). -/
def Obligations.DecTableErrors : Prop :=
  decode 0x40000000 = .command .decTable ∧
  ∀ s : State, s.ctl.err = false →
    (s.br.sealed = false → s.Raises .decTable .sequence) ∧
    (∀ c : Cause,
      ((s.br.sealed = true ∧ s.br.cnt ≠ 0 ∧ c = .sequence) ∨
        (s.br.sealed = true ∧ s.br.cnt = 0 ∧ s.br.queue = [] ∧ c = .exhausted) ∨
        (s.br.sealed = true ∧ s.br.cnt = 0 ∧ s.br.queue ≠ [] ∧ 7 < s.br.mark.toNat ∧ c = .badmark) ∨
        (s.br.Readable ∧ s.br.cnt = 0 ∧ s.br.dataBytes = [] ∧ c = .exhausted)) →
      ∃ t, s.RaisesTo .decTable c t ∧ t.br = s.br ∧ t.dct.PartOfTable 0 [] 0 (fun _ => 0) []) ∧
    (∀ (a : Byte) (xs : List Byte), s.br.Readable → s.br.cnt = 0 → s.br.dataBytes = a :: xs →
      xs.length < a.toNat + 2 + (xs.getD (a.toNat + 1) 0).toNat →
      ∃ t, s.RaisesTo .decTable .exhausted t ∧ t.br = { s.br with head := s.br.head + 1 + xs.length } ∧
        t.dct.PartOfTable (a.toNat + 1) (xs.take (a.toNat + 1)) (xs.getD (a.toNat + 1) 0)
          (fun l => if 1 ≤ l then (xs.getD (a.toNat + 1 + l) 0).toNat else 0) []) ∧
    ∀ (A C D : List Byte) (m : Byte), s.br.Readable → s.br.cnt = 0 →
      s.br.dataBytes = BitVec.ofNat 8 (A.length - 1) :: (A ++ m :: (C ++ D)) →
      1 ≤ A.length → A.length ≤ 256 → m ≠ 0 → C.length = m.toNat →
      ((List.range' 1 m.toNat).map (headerCount A.length m C)).sum = A.length →
      (unpackBytes s.br.sig D).length < ((List.range' 1 m.toNat).map fun l => l * headerCount A.length m C l).sum →
      ∃ (t : State) (codes : List (Nat × Nat)) (rest : List Bool) (l : Nat) (more : List Nat),
        s.RaisesTo .decTable .exhausted t ∧
        t.br = { s.br with
          head := s.br.head + A.length + 2 + C.length + D.length
          cur := (D.getLast?.map fun b : Byte => b >>> s.br.sig).getD s.br.cur } ∧
        codes.map Prod.fst ++ l :: more =
          (List.range' 1 m.toNat).flatMap (fun l => List.replicate (headerCount A.length m C l) l) ∧
        (∀ c ∈ codes, c.2 < 2 ^ c.1) ∧ unpackBytes s.br.sig D = codes.flatMap bitsOf ++ rest ∧ rest.length < l ∧
        t.dct.PartOfTable A.length A m (fun l => if 1 ≤ l ∧ l ≤ m.toNat then headerCount A.length m C l else 0) codes

/-- DEC.SYM: SEQUENCE without a table; at the boundary the end, again and again; else the symbol whose code comes first
among the bits to be read is emitted and returned (R293, R294, R296). -/
def Obligations.DecSymDecodesASymbol : Prop :=
  decode 0x41000000 = .command .decSym ∧
  ∀ s : State, s.ctl.err = false →
    (s.dct.ready = false → s.Raises .decSym .sequence) ∧
    (s.dct.ready = true → s.br.avail = 0 →
      ∃ t, exec .decSym s = .next t ∧ t.dct = { s.dct with cand := 0, candLen := 0, done := true } ∧ t.br = s.br ∧
        s.SameEncoder t ∧ t.bw = s.bw ∧ t.ctl = s.ctl ∧ s.Observes t [Response.ok 0x100] []) ∧
    ∀ (P rest : List Bool) (i : Nat), s.dct.ready = true → s.br.Readable → s.br.pendingBits = P ++ rest → P ≠ [] →
      P.length ≤ s.dct.maxlen.toNat → s.dct.HasCode P i → (∀ j, j < i → ¬ s.dct.HasCode P j) →
      (∀ n j, 0 < n → n < P.length → ¬ s.dct.HasCode (P.take n) j) →
      ∃ t, exec .decSym s = .next t ∧ t.br.pendingBits = rest ∧ t.br.queue = s.br.queue ∧ t.br.sealed = s.br.sealed ∧
        t.dct = { s.dct with cand := 0, candLen := 0 } ∧ s.SameEncoder t ∧ t.bw = s.bw ∧ t.ctl = s.ctl ∧
        s.Observes t [Response.ok (BitVec.ofNat 32 (tableGet s.dct.alpha i).toNat)] [tableGet s.dct.alpha i]

/-- DEC.SYM's corrupt streams: max_length bits without a match raise NOMATCH, the boundary inside a candidate raises
EXHAUSTED; the candidate read so far stays (R294, R296). -/
def Obligations.DecSymFindsACorruptStream : Prop :=
  ∀ (s : State) (P rest : List Bool), s.ctl.err = false → s.dct.ready = true → s.br.Readable →
    s.br.pendingBits = P ++ rest → P ≠ [] → P.length ≤ s.dct.maxlen.toNat →
    (∀ n j, 0 < n → n ≤ P.length → ¬ s.dct.HasCode (P.take n) j) →
    ∀ c : Cause, ((P.length = s.dct.maxlen.toNat ∧ c = .nomatch) ∨
        (P.length < s.dct.maxlen.toNat ∧ rest = [] ∧ c = .exhausted)) →
      ∃ t, exec .decSym s = .next t ∧ t.ctl = { err := true, cause := c } ∧ t.br.pendingBits = rest ∧
        t.br.queue = s.br.queue ∧ t.br.sealed = s.br.sealed ∧ t.dct.candLen.toNat = P.length ∧
        (∀ k, k < P.length → t.dct.cand.getLsbD (P.length - 1 - k) = P.getD k false) ∧
        t.dct = { s.dct with cand := t.dct.cand, candLen := t.dct.candLen } ∧ s.SameEncoder t ∧ t.bw = s.bw ∧
        s.Observes t [Response.error c] []

/-- DEC.RUN: SEQUENCE while not sealed; on a queue that is not empty it does what DEC.TABLE and then DEC.SYM, until it finds
the end or raises an error, do, with one response (R297, 70_reset_and_hazards.md R392). So after an error among its symbols
dec_ready stays 1: that follows R297's pseudocode and is the model's own reading of R355's "a DEC.TABLE or DEC.RUN error leaves
dec_ready = 0" (log entry 20, DEDUCED). -/
def Obligations.DecRunIsTableThenSymbols : Prop :=
  decode 0x42000000 = .command .decRun ∧
  ∀ s : State, s.ctl.err = false →
    (s.br.sealed = false → s.Raises .decRun .sequence) ∧
    (s.br.sealed = true → s.br.queue ≠ [] →
      ∃ (t u : State) (n : Nat) (r : Response), exec .decRun s = .next t ∧
        execAll (.decTable :: List.replicate n .decSym) s = .next u ∧ u.SameFields t ∧ t.port.out = u.port.out ∧
        u.port.responses.getLast? = some r ∧
        t.port.responses = s.port.responses ++ [if r.cause = .none then Response.ok 0 else r] ∧
        t.port.inputs = s.port.inputs ∧
        (t.ctl.err = false → t.dct.ready = true ∧ t.dct.done = true ∧ r = Response.ok 0x100))

/-- DEC.RUN completes on every queue that holds a consistent header, the codes it announces, none the beginning of another, and
then codes of canonical positions: the symbols at those positions are emitted in order (R293, R294, R297). -/
def Obligations.DecRunDecodesAStream : Prop :=
  ∀ (s : State) (A C D : List Byte) (m : Byte) (codes : List (Nat × Nat)) (positions : List Nat),
    s.ctl.err = false → s.br.Readable → s.br.cnt = 0 →
    s.br.dataBytes = BitVec.ofNat 8 (A.length - 1) :: (A ++ m :: (C ++ D)) →
    1 ≤ A.length → A.length ≤ 256 → m ≠ 0 → C.length = m.toNat →
    ((List.range' 1 m.toNat).map (headerCount A.length m C)).sum = A.length →
    codes.map Prod.fst = (List.range' 1 m.toNat).flatMap (fun l => List.replicate (headerCount A.length m C l) l) →
    (∀ c ∈ codes, c.2 < 2 ^ c.1) →
    (∀ i j, i < A.length → j < A.length → i ≠ j → ¬ bitsOf (codes.getD i (0, 0)) <+: bitsOf (codes.getD j (0, 0))) →
    (∀ i ∈ positions, i < A.length) →
    unpackBytes s.br.sig D = codes.flatMap bitsOf ++ positions.flatMap (fun i => bitsOf (codes.getD i (0, 0))) →
    ∃ t, exec .decRun s = .next t ∧ t.dct.ready = true ∧ t.dct.done = true ∧ t.br.pendingBits = [] ∧
      t.br.queue = s.br.queue ∧ t.br.sealed = s.br.sealed ∧ s.SameEncoder t ∧ t.bw = s.bw ∧ t.ctl = s.ctl ∧
      s.Observes t [Response.ok 0] (positions.map fun i => A.getD i 0)

/-- The round trip: from any state with no error and an empty writer, ENCODE S emits some E without error, and then, if E
fits the queue, DECODE E emits exactly S without error (R299). -/
def Obligations.RoundTrip : Prop :=
  ∀ (s : State) (S : List Byte), s.Inv → s.ctl.err = false → s.bw.cnt = 0 → S.length ≤ s.params.msgCap →
    ∃ (t : State) (E : List Byte), execAll (encodeCommands S) s = .next t ∧
      s.Observes t (List.replicate (S.length + 2) (Response.ok 0)) E ∧
      (E.length ≤ s.params.qCap →
        ∃ u : State, execAll (decodeCommands E) t = .next u ∧
          t.Observes u (List.replicate (E.length + 3) (Response.ok 0)) S)

/-! ### The whole machine -/

/-- The invariant holds at reset, whatever the admissible capacities. -/
def Obligations.InvariantAtReset : Prop :=
  State.reset.Inv ∧ ∀ p : Params, p.Admissible → (State.resetWith p).Inv

/-- Every step from a state that meets the invariant ends in a state that meets it (10_state.md R33, R36, R37, R40 to R45,
40_frequency_counter.md R162). -/
def Obligations.EveryStepKeepsTheInvariant : Prop :=
  ∀ s t : State, s.Inv → step s = .next t → t.Inv

/-- Every step keeps the two byte buffers within their capacities and br_head at most br_len − 1 (10_state.md R36, R41,
R42). -/
def Obligations.EveryStepKeepsMemoryForm : Prop :=
  Memory.wf State.reset = true ∧ ∀ s t : State, Memory.wf s = true → step s = .next t → Memory.wf t = true

/-- The parameters never change, the sink's record only grows, and a byte buffer changes only by one append or by being
cleared (00_scope.md R7, 10_state.md R46, 20_memory.md R91). -/
def Obligations.BuffersAppendAndSinkGrows : Prop :=
  ∀ s t : State, step s = .next t →
    t.params = s.params ∧ s.port.out <+: t.port.out ∧
    (t.fc.msg = s.fc.msg ∨ t.fc.msg = [] ∨ ∃ b, t.fc.msg = s.fc.msg ++ [b]) ∧
    (t.br.queue = s.br.queue ∨ t.br.queue = [] ∨ ∃ b, t.br.queue = s.br.queue ++ [b])

/-- No field is written by both sides: a command of one side leaves every field of the other (10_state.md R30). -/
def Obligations.SidesWriteDisjointFields : Prop :=
  ∀ (i : Instr) (s t : State), exec i s = .next t →
    (i.encoderSide = true → s.SameDecoder t ∧ t.params = s.params) ∧
    (i.decoderSide = true → s.SameEncoder t ∧ t.bw = s.bw)

/-- No command of one side reads a field of the other: from two states that agree on its own side it leaves the same there,
gives the same response and emits the same bytes (70_reset_and_hazards.md R392, 10_state.md R30). -/
def Obligations.SidesAreIndependent : Prop :=
  ∀ (i : Instr) (s s' t t' : State), s'.params = s.params → s'.ctl = s.ctl → exec i s = .next t → exec i s' = .next t' →
    ((i.encoderSide = true ∧ s'.fc = s.fc ∧ s'.ect = s.ect ∧ s'.bw = s.bw) ∨
      (i.decoderSide = true ∧ s'.br = s.br ∧ s'.dct = s.dct)) →
    t'.ctl = t.ctl ∧
      (i.encoderSide = true → t'.fc = t.fc ∧ t'.ect = t.ect ∧ t'.bw = t.bw) ∧
      (i.decoderSide = true → t'.br = t.br ∧ t'.dct = t.dct) ∧
      ∃ r bs, s.Observes t [r] bs ∧ s'.Observes t' [r] bs
end

