-- ==== Sys2Proof/Laws/State.lean ====
section
/-! SUPPORT. One lemma per field per update of State, so that no proof unfolds a record update. -/

namespace Sys2Proof.Machine

@[simp] theorem State.setCtl_params (s : State) (x : Ctl) : (s.setCtl x).params = s.params := rfl
@[simp] theorem State.setCtl_ctl (s : State) (x : Ctl) : (s.setCtl x).ctl = x := rfl
@[simp] theorem State.setCtl_fc (s : State) (x : Ctl) : (s.setCtl x).fc = s.fc := rfl
@[simp] theorem State.setCtl_ect (s : State) (x : Ctl) : (s.setCtl x).ect = s.ect := rfl
@[simp] theorem State.setCtl_bw (s : State) (x : Ctl) : (s.setCtl x).bw = s.bw := rfl
@[simp] theorem State.setCtl_br (s : State) (x : Ctl) : (s.setCtl x).br = s.br := rfl
@[simp] theorem State.setCtl_dct (s : State) (x : Ctl) : (s.setCtl x).dct = s.dct := rfl
@[simp] theorem State.setCtl_port (s : State) (x : Ctl) : (s.setCtl x).port = s.port := rfl

@[simp] theorem State.setFc_params (s : State) (x : Fc) : (s.setFc x).params = s.params := rfl
@[simp] theorem State.setFc_ctl (s : State) (x : Fc) : (s.setFc x).ctl = s.ctl := rfl
@[simp] theorem State.setFc_fc (s : State) (x : Fc) : (s.setFc x).fc = x := rfl
@[simp] theorem State.setFc_ect (s : State) (x : Fc) : (s.setFc x).ect = s.ect := rfl
@[simp] theorem State.setFc_bw (s : State) (x : Fc) : (s.setFc x).bw = s.bw := rfl
@[simp] theorem State.setFc_br (s : State) (x : Fc) : (s.setFc x).br = s.br := rfl
@[simp] theorem State.setFc_dct (s : State) (x : Fc) : (s.setFc x).dct = s.dct := rfl
@[simp] theorem State.setFc_port (s : State) (x : Fc) : (s.setFc x).port = s.port := rfl

@[simp] theorem State.setEct_params (s : State) (x : Ect) : (s.setEct x).params = s.params := rfl
@[simp] theorem State.setEct_ctl (s : State) (x : Ect) : (s.setEct x).ctl = s.ctl := rfl
@[simp] theorem State.setEct_fc (s : State) (x : Ect) : (s.setEct x).fc = s.fc := rfl
@[simp] theorem State.setEct_ect (s : State) (x : Ect) : (s.setEct x).ect = x := rfl
@[simp] theorem State.setEct_bw (s : State) (x : Ect) : (s.setEct x).bw = s.bw := rfl
@[simp] theorem State.setEct_br (s : State) (x : Ect) : (s.setEct x).br = s.br := rfl
@[simp] theorem State.setEct_dct (s : State) (x : Ect) : (s.setEct x).dct = s.dct := rfl
@[simp] theorem State.setEct_port (s : State) (x : Ect) : (s.setEct x).port = s.port := rfl

@[simp] theorem State.setBw_params (s : State) (x : Bw) : (s.setBw x).params = s.params := rfl
@[simp] theorem State.setBw_ctl (s : State) (x : Bw) : (s.setBw x).ctl = s.ctl := rfl
@[simp] theorem State.setBw_fc (s : State) (x : Bw) : (s.setBw x).fc = s.fc := rfl
@[simp] theorem State.setBw_ect (s : State) (x : Bw) : (s.setBw x).ect = s.ect := rfl
@[simp] theorem State.setBw_bw (s : State) (x : Bw) : (s.setBw x).bw = x := rfl
@[simp] theorem State.setBw_br (s : State) (x : Bw) : (s.setBw x).br = s.br := rfl
@[simp] theorem State.setBw_dct (s : State) (x : Bw) : (s.setBw x).dct = s.dct := rfl
@[simp] theorem State.setBw_port (s : State) (x : Bw) : (s.setBw x).port = s.port := rfl

@[simp] theorem State.setBr_params (s : State) (x : Br) : (s.setBr x).params = s.params := rfl
@[simp] theorem State.setBr_ctl (s : State) (x : Br) : (s.setBr x).ctl = s.ctl := rfl
@[simp] theorem State.setBr_fc (s : State) (x : Br) : (s.setBr x).fc = s.fc := rfl
@[simp] theorem State.setBr_ect (s : State) (x : Br) : (s.setBr x).ect = s.ect := rfl
@[simp] theorem State.setBr_bw (s : State) (x : Br) : (s.setBr x).bw = s.bw := rfl
@[simp] theorem State.setBr_br (s : State) (x : Br) : (s.setBr x).br = x := rfl
@[simp] theorem State.setBr_dct (s : State) (x : Br) : (s.setBr x).dct = s.dct := rfl
@[simp] theorem State.setBr_port (s : State) (x : Br) : (s.setBr x).port = s.port := rfl

@[simp] theorem State.setDct_params (s : State) (x : Dct) : (s.setDct x).params = s.params := rfl
@[simp] theorem State.setDct_ctl (s : State) (x : Dct) : (s.setDct x).ctl = s.ctl := rfl
@[simp] theorem State.setDct_fc (s : State) (x : Dct) : (s.setDct x).fc = s.fc := rfl
@[simp] theorem State.setDct_ect (s : State) (x : Dct) : (s.setDct x).ect = s.ect := rfl
@[simp] theorem State.setDct_bw (s : State) (x : Dct) : (s.setDct x).bw = s.bw := rfl
@[simp] theorem State.setDct_br (s : State) (x : Dct) : (s.setDct x).br = s.br := rfl
@[simp] theorem State.setDct_dct (s : State) (x : Dct) : (s.setDct x).dct = x := rfl
@[simp] theorem State.setDct_port (s : State) (x : Dct) : (s.setDct x).port = s.port := rfl

@[simp] theorem State.emitAll_params (s : State) (bs : List Byte) : (s.emitAll bs).params = s.params := rfl
@[simp] theorem State.emitAll_ctl (s : State) (bs : List Byte) : (s.emitAll bs).ctl = s.ctl := rfl
@[simp] theorem State.emitAll_fc (s : State) (bs : List Byte) : (s.emitAll bs).fc = s.fc := rfl
@[simp] theorem State.emitAll_ect (s : State) (bs : List Byte) : (s.emitAll bs).ect = s.ect := rfl
@[simp] theorem State.emitAll_bw (s : State) (bs : List Byte) : (s.emitAll bs).bw = s.bw := rfl
@[simp] theorem State.emitAll_br (s : State) (bs : List Byte) : (s.emitAll bs).br = s.br := rfl
@[simp] theorem State.emitAll_dct (s : State) (bs : List Byte) : (s.emitAll bs).dct = s.dct := rfl
@[simp] theorem State.emitAll_inputs (s : State) (bs : List Byte) :
    (s.emitAll bs).port.inputs = s.port.inputs := rfl
@[simp] theorem State.emitAll_responses (s : State) (bs : List Byte) :
    (s.emitAll bs).port.responses = s.port.responses := rfl
@[simp] theorem State.emitAll_out (s : State) (bs : List Byte) :
    (s.emitAll bs).port.out = s.port.out ++ bs := rfl

@[simp] theorem State.emit_params (s : State) (b : Byte) : (s.emit b).params = s.params := rfl
@[simp] theorem State.emit_ctl (s : State) (b : Byte) : (s.emit b).ctl = s.ctl := rfl
@[simp] theorem State.emit_fc (s : State) (b : Byte) : (s.emit b).fc = s.fc := rfl
@[simp] theorem State.emit_ect (s : State) (b : Byte) : (s.emit b).ect = s.ect := rfl
@[simp] theorem State.emit_bw (s : State) (b : Byte) : (s.emit b).bw = s.bw := rfl
@[simp] theorem State.emit_br (s : State) (b : Byte) : (s.emit b).br = s.br := rfl
@[simp] theorem State.emit_dct (s : State) (b : Byte) : (s.emit b).dct = s.dct := rfl
@[simp] theorem State.emit_inputs (s : State) (b : Byte) :
    (s.emit b).port.inputs = s.port.inputs := rfl
@[simp] theorem State.emit_responses (s : State) (b : Byte) :
    (s.emit b).port.responses = s.port.responses := rfl
@[simp] theorem State.emit_out (s : State) (b : Byte) :
    (s.emit b).port.out = s.port.out ++ [b] := rfl

@[simp] theorem State.answer_params (s : State) (r : Response) : (s.answer r).params = s.params := rfl
@[simp] theorem State.answer_ctl (s : State) (r : Response) : (s.answer r).ctl = s.ctl := rfl
@[simp] theorem State.answer_fc (s : State) (r : Response) : (s.answer r).fc = s.fc := rfl
@[simp] theorem State.answer_ect (s : State) (r : Response) : (s.answer r).ect = s.ect := rfl
@[simp] theorem State.answer_bw (s : State) (r : Response) : (s.answer r).bw = s.bw := rfl
@[simp] theorem State.answer_br (s : State) (r : Response) : (s.answer r).br = s.br := rfl
@[simp] theorem State.answer_dct (s : State) (r : Response) : (s.answer r).dct = s.dct := rfl
@[simp] theorem State.answer_inputs (s : State) (r : Response) :
    (s.answer r).port.inputs = s.port.inputs := rfl
@[simp] theorem State.answer_responses (s : State) (r : Response) :
    (s.answer r).port.responses = s.port.responses ++ [r] := rfl
@[simp] theorem State.answer_out (s : State) (r : Response) :
    (s.answer r).port.out = s.port.out := rfl

@[simp] theorem State.respond_params (s : State) (d : Word) : (s.respond d).params = s.params := rfl
@[simp] theorem State.respond_ctl (s : State) (d : Word) : (s.respond d).ctl = s.ctl := rfl
@[simp] theorem State.respond_fc (s : State) (d : Word) : (s.respond d).fc = s.fc := rfl
@[simp] theorem State.respond_ect (s : State) (d : Word) : (s.respond d).ect = s.ect := rfl
@[simp] theorem State.respond_bw (s : State) (d : Word) : (s.respond d).bw = s.bw := rfl
@[simp] theorem State.respond_br (s : State) (d : Word) : (s.respond d).br = s.br := rfl
@[simp] theorem State.respond_dct (s : State) (d : Word) : (s.respond d).dct = s.dct := rfl
@[simp] theorem State.respond_inputs (s : State) (d : Word) :
    (s.respond d).port.inputs = s.port.inputs := rfl
@[simp] theorem State.respond_responses (s : State) (d : Word) :
    (s.respond d).port.responses = s.port.responses ++ [{ exec := true, cause := .none, data := d }] := rfl
@[simp] theorem State.respond_out (s : State) (d : Word) :
    (s.respond d).port.out = s.port.out := rfl

@[simp] theorem State.blocked_params (s : State) : (s.blocked).params = s.params := rfl
@[simp] theorem State.blocked_ctl (s : State) : (s.blocked).ctl = s.ctl := rfl
@[simp] theorem State.blocked_fc (s : State) : (s.blocked).fc = s.fc := rfl
@[simp] theorem State.blocked_ect (s : State) : (s.blocked).ect = s.ect := rfl
@[simp] theorem State.blocked_bw (s : State) : (s.blocked).bw = s.bw := rfl
@[simp] theorem State.blocked_br (s : State) : (s.blocked).br = s.br := rfl
@[simp] theorem State.blocked_dct (s : State) : (s.blocked).dct = s.dct := rfl
@[simp] theorem State.blocked_inputs (s : State) :
    (s.blocked).port.inputs = s.port.inputs := rfl
@[simp] theorem State.blocked_responses (s : State) :
    (s.blocked).port.responses = s.port.responses ++ [{ exec := false, cause := s.ctl.cause, data := 0 }] := rfl
@[simp] theorem State.blocked_out (s : State) :
    (s.blocked).port.out = s.port.out := rfl

@[simp] theorem State.raise_params (s : State) (c : Cause) : (s.raise c).params = s.params := rfl
@[simp] theorem State.raise_ctl (s : State) (c : Cause) : (s.raise c).ctl = { err := true, cause := c } := rfl
@[simp] theorem State.raise_fc (s : State) (c : Cause) : (s.raise c).fc = s.fc := rfl
@[simp] theorem State.raise_ect (s : State) (c : Cause) : (s.raise c).ect = s.ect := rfl
@[simp] theorem State.raise_bw (s : State) (c : Cause) : (s.raise c).bw = s.bw := rfl
@[simp] theorem State.raise_br (s : State) (c : Cause) : (s.raise c).br = s.br := rfl
@[simp] theorem State.raise_dct (s : State) (c : Cause) : (s.raise c).dct = s.dct := rfl
@[simp] theorem State.raise_inputs (s : State) (c : Cause) :
    (s.raise c).port.inputs = s.port.inputs := rfl
@[simp] theorem State.raise_responses (s : State) (c : Cause) :
    (s.raise c).port.responses = s.port.responses ++ [{ exec := true, cause := c, data := 0 }] := rfl
@[simp] theorem State.raise_out (s : State) (c : Cause) :
    (s.raise c).port.out = s.port.out := rfl

@[simp] theorem State.clearError_params (s : State) : s.clearError.params = s.params := rfl
@[simp] theorem State.clearError_ctl (s : State) : s.clearError.ctl = Ctl.initial := rfl
@[simp] theorem State.clearError_fc (s : State) : s.clearError.fc = s.fc := rfl
@[simp] theorem State.clearError_ect (s : State) : s.clearError.ect = s.ect := rfl
@[simp] theorem State.clearError_bw (s : State) : s.clearError.bw = s.bw := rfl
@[simp] theorem State.clearError_br (s : State) : s.clearError.br = s.br := rfl
@[simp] theorem State.clearError_dct (s : State) : s.clearError.dct = s.dct := rfl
@[simp] theorem State.clearError_port (s : State) : s.clearError.port = s.port := rfl

@[simp] theorem State.resetFields_params (s : State) : s.resetFields.params = s.params := rfl
@[simp] theorem State.resetFields_ctl (s : State) : s.resetFields.ctl = Ctl.initial := rfl
@[simp] theorem State.resetFields_fc (s : State) : s.resetFields.fc = Fc.initial := rfl
@[simp] theorem State.resetFields_ect (s : State) : s.resetFields.ect = Ect.initial := rfl
@[simp] theorem State.resetFields_bw (s : State) : s.resetFields.bw = Bw.initial := rfl
@[simp] theorem State.resetFields_br (s : State) : s.resetFields.br = Br.initial := rfl
@[simp] theorem State.resetFields_dct (s : State) : s.resetFields.dct = Dct.initial := rfl
@[simp] theorem State.resetFields_port (s : State) : s.resetFields.port = s.port := rfl

@[simp] theorem State.issue_params (s : State) (w : Word) : (s.issue w).params = s.params := rfl
@[simp] theorem State.issue_ctl (s : State) (w : Word) : (s.issue w).ctl = s.ctl := rfl
@[simp] theorem State.issue_fc (s : State) (w : Word) : (s.issue w).fc = s.fc := rfl
@[simp] theorem State.issue_ect (s : State) (w : Word) : (s.issue w).ect = s.ect := rfl
@[simp] theorem State.issue_bw (s : State) (w : Word) : (s.issue w).bw = s.bw := rfl
@[simp] theorem State.issue_br (s : State) (w : Word) : (s.issue w).br = s.br := rfl
@[simp] theorem State.issue_dct (s : State) (w : Word) : (s.issue w).dct = s.dct := rfl
@[simp] theorem State.issue_inputs (s : State) (w : Word) : (s.issue w).port.inputs = .word w :: s.port.inputs := rfl
@[simp] theorem State.issue_responses (s : State) (w : Word) : (s.issue w).port.responses = s.port.responses := rfl
@[simp] theorem State.issue_out (s : State) (w : Word) : (s.issue w).port.out = s.port.out := rfl

@[simp] theorem State.setBr_setBr (s : State) (r r' : Br) : (s.setBr r).setBr r' = s.setBr r' := rfl

@[simp] theorem State.setDct_setDct (s : State) (d d' : Dct) : (s.setDct d).setDct d' = s.setDct d' := rfl

/-- The reader's update is written before the decoder's. -/
@[simp] theorem State.setDct_setBr (s : State) (d : Dct) (r : Br) : (s.setDct d).setBr r = (s.setBr r).setDct d := rfl

/-- Two states that agree on every field are equal. -/
theorem State.ext_fields {s t : State} (hp : t.params = s.params) (hc : t.ctl = s.ctl) (hf : t.fc = s.fc) (he : t.ect = s.ect)
    (hw : t.bw = s.bw) (hr : t.br = s.br) (hd : t.dct = s.dct) (ho : t.port = s.port) : t = s := by
  cases s; cases t; simp_all

@[simp] theorem Flow.bind_done {α β : Type} (v : α) (s : State) (k : α → State → Flow β) :
    (Flow.done v s).bind k = k v s := rfl

@[simp] theorem Flow.bind_raised {α β : Type} (c : Cause) (s : State) (k : α → State → Flow β) :
    (Flow.raised c s : Flow α).bind k = .raised c s := rfl

@[simp] theorem Flow.finish_done (d : Word) (s : State) : (Flow.done d s).finish = .next (s.respond d) := rfl

@[simp] theorem Flow.finish_raised (c : Cause) (s : State) : (Flow.raised c s).finish = .next (s.raise c) := rfl

/-- While an error is recorded the command is blocked. -/
theorem unlessBlocked_err {s : State} (k : State → Flow Word) (h : s.ctl.err = true) :
    unlessBlocked s k = .next s.blocked := by
  simp [unlessBlocked, h]

/-- With no error recorded the command runs. -/
theorem unlessBlocked_run {s : State} (k : State → Flow Word) (h : s.ctl.err = false) :
    unlessBlocked s k = (k s).finish := by
  simp [unlessBlocked, h]

/-- A part that went on came through its first part. -/
theorem Flow.bind_eq_done {α β : Type} {m : Flow α} {k : α → State → Flow β} {v : β} {t : State}
    (h : m.bind k = .done v t) : ∃ a s1, m = .done a s1 ∧ k a s1 = .done v t := by
  cases m with
  | done a s1 => exact ⟨a, s1, rfl, h⟩
  | raised c s1 => cases h

/-- A part that raised did so in its first part or after it. -/
theorem Flow.bind_eq_raised {α β : Type} {m : Flow α} {k : α → State → Flow β} {c : Cause} {t : State}
    (h : m.bind k = .raised c t) : m = .raised c t ∨ ∃ a s1, m = .done a s1 ∧ k a s1 = .raised c t := by
  cases m with
  | done a s1 => exact .inr ⟨a, s1, rfl, h⟩
  | raised c' s1 => left; simpa using h

end Sys2Proof.Machine
end

