-- ==== Sys2Proof/Laws/Bits.lean ====
section
/-! SUPPORT. The bits of a byte and of a byte list (20_memory.md R92, 44_bit_reader.md R240). -/

namespace Sys2Proof.Machine

@[simp] theorem byteBits_zero (b : Byte) : byteBits b 0 = [] := rfl

@[simp] theorem byteBits_length (b : Byte) (n : Nat) : (byteBits b n).length = n := by simp [byteBits]

/-- The least significant bit comes first; the rest are the bits of the shifted byte. -/
theorem byteBits_succ (b : Byte) (n : Nat) : byteBits b (n + 1) = b.getLsbD 0 :: byteBits (b >>> 1) n := by
  simp only [byteBits, List.range_succ_eq_map, List.map_cons, List.map_map]
  congr 1
  apply List.map_congr_left
  intro i _
  simp [Nat.add_comm]

theorem byteBits_snoc (b : Byte) (n : Nat) : byteBits b (n + 1) = byteBits b n ++ [b.getLsbD n] := by
  simp [byteBits, List.range_succ]

theorem byteBits_congr {b c : Byte} {n : Nat} (h : ∀ i, i < n → b.getLsbD i = c.getLsbD i) :
    byteBits b n = byteBits c n := by
  apply List.map_congr_left
  intro i hi
  exact h i (List.mem_range.mp hi)

@[simp] theorem unpackBytes_nil (sig : Nat) : unpackBytes sig [] = [] := rfl

@[simp] theorem unpackBytes_single (sig : Nat) (b : Byte) : unpackBytes sig [b] = byteBits b sig := rfl

theorem unpackBytes_cons {bs : List Byte} (sig : Nat) (b : Byte) (h : bs ≠ []) :
    unpackBytes sig (b :: bs) = byteBits b 8 ++ unpackBytes sig bs := by
  cases bs with
  | nil => exact absurd rfl h
  | cons c cs => rfl

/-- All bytes but the last give eight bits, the last one `sig`. -/
theorem unpackBytes_concat (sig : Nat) (bs : List Byte) (b : Byte) :
    unpackBytes sig (bs ++ [b]) = bs.flatMap (byteBits · 8) ++ byteBits b sig := by
  induction bs with
  | nil => rfl
  | cons c cs ih => rw [List.cons_append, unpackBytes_cons _ _ (by simp), ih]; simp

theorem unpackBytes_full (bs : List Byte) : unpackBytes 8 bs = bs.flatMap (byteBits · 8) := by
  rcases List.eq_nil_or_concat bs with rfl | ⟨cs, b, rfl⟩
  · rfl
  · simp [unpackBytes_concat]

theorem unpackBytes_length (sig : Nat) (bs : List Byte) :
    (unpackBytes sig bs).length = if 1 ≤ bs.length then 8 * (bs.length - 1) + sig else 0 := by
  rcases List.eq_nil_or_concat bs with rfl | ⟨cs, b, rfl⟩
  · rfl
  · have : (cs.flatMap (byteBits · 8)).length = 8 * cs.length := by
      induction cs with
      | nil => rfl
      | cons c cs ih => simp [ih]; omega
    simp [unpackBytes_concat, this]

/-! ### Bits by position -/

theorem flatMap_bits_length (bs : List Byte) : (bs.flatMap (byteBits · 8)).length = 8 * bs.length := by
  induction bs with
  | nil => rfl
  | cons c cs ih => simp [ih]; omega

/-- Bit j of a byte list is bit j mod 8 of byte j / 8. -/
theorem flatMap_bits_getD (bs : List Byte) (j : Nat) :
    (bs.flatMap (byteBits · 8)).getD j false = (bs.getD (j / 8) 0).getLsbD (j % 8) := by
  induction bs generalizing j with
  | nil => simp
  | cons b bs ih =>
    rw [List.flatMap_cons]
    by_cases h : j < 8
    · rw [List.getD_append _ _ _ _ (by simpa using h), Nat.div_eq_of_lt h, Nat.mod_eq_of_lt h, List.getD_cons_zero]
      simp [byteBits, h]
    · rw [List.getD_append_right _ _ _ _ (by simpa using h), byteBits_length, ih, show j / 8 = (j - 8) / 8 + 1 by omega,
        List.getD_cons_succ, show (j - 8) % 8 = j % 8 by omega]

/-- The bytes E hold the bits P: E's bits are P's and then zeros (43_bit_writer.md R228). -/
theorem holdsBits_iff {E : List Byte} {P : List Bool} (hl : E.length = (P.length + 7) / 8) :
    HoldsBits E P ↔ E.flatMap (byteBits · 8) = P ++ List.replicate (8 * E.length - P.length) false := by
  constructor
  · rintro ⟨-, h⟩
    apply List.ext_getElem
    · rw [flatMap_bits_length, List.length_append, List.length_replicate]; omega
    · intro j h1 h2
      rw [flatMap_bits_length] at h1
      have := (flatMap_bits_getD E j).trans (h j h1)
      rw [List.getD_eq_getElem?_getD, List.getElem?_eq_getElem (by rw [flatMap_bits_length]; exact h1)] at this
      rw [Option.getD_some] at this
      rw [this]
      by_cases hj : j < P.length
      · rw [List.getElem_append_left hj, List.getD_eq_getElem?_getD, List.getElem?_eq_getElem hj, Option.getD_some]
      · rw [List.getElem_append_right (by omega), List.getElem_replicate, List.getD_eq_getElem?_getD,
          List.getElem?_eq_none (by omega), Option.getD_none]
  · intro h
    refine ⟨hl, fun j hj => ?_⟩
    rw [← flatMap_bits_getD, h]
    by_cases hj' : j < P.length
    · rw [List.getD_append _ _ _ _ hj']
    · rw [List.getD_append_right _ _ _ _ (by omega)]
      simp only [List.getD_eq_getElem?_getD, List.getElem?_eq_none (show P.length ≤ j by omega), Option.getD_none]
      rw [List.getElem?_replicate]
      split <;> rfl

/-- The significant bits of the bytes that hold P, by the tail marker P mod 8, are P (44_bit_reader.md R248). -/
theorem HoldsBits.unpack {E : List Byte} {P : List Bool} (h : HoldsBits E P) (hP : P ≠ []) :
    unpackBytes (if P.length % 8 = 0 then 8 else P.length % 8) E = P := by
  have hpos : 0 < P.length := List.length_pos_iff.mpr hP
  have h1 := (holdsBits_iff h.1).mp h
  have hlen := h.1
  have hE : E ≠ [] := by rintro rfl; simp at hlen; omega
  obtain ⟨cs, b, rfl⟩ := (List.eq_nil_or_concat E).resolve_left hE
  rw [List.concat_eq_append] at h1 hlen ⊢
  rw [List.length_append, List.length_singleton] at hlen
  rw [unpackBytes_concat]
  rw [List.flatMap_append, List.flatMap_singleton] at h1
  have hsig : 8 * cs.length + (if P.length % 8 = 0 then 8 else P.length % 8) = P.length := by split <;> omega
  have hb : byteBits b (if P.length % 8 = 0 then 8 else P.length % 8) =
      (byteBits b 8).take (if P.length % 8 = 0 then 8 else P.length % 8) := by
    rw [byteBits, byteBits, ← List.map_take, List.take_range]
    congr 2
    split <;> omega
  have h2 := congrArg (List.take P.length) h1
  rw [List.take_left' rfl, List.take_append, flatMap_bits_length,
    List.take_of_length_le (by rw [flatMap_bits_length]; omega)] at h2
  rw [hb]
  refine Eq.trans ?_ h2
  congr 2
  omega

end Sys2Proof.Machine
end

