-- ==== Sys2Proof/Laws/BitReader.lean ====
section
/-! SUPPORT. What the bit reader's operations do, in terms of the significant bits still to be read
(44_bit_reader.md R240 to R242, R248). -/

namespace Sys2Proof.Machine

theorem Br.sig_pos (r : Br) : 1 ≤ r.sig := by
  unfold Br.sig
  split
  · omega
  · next h =>
    have : r.mark.toNat ≠ 0 := fun h0 => h (BitVec.eq_of_toNat_eq h0)
    omega

theorem Br.sig_le {r : Br} (h : r.mark.toNat ≤ 7) : r.sig ≤ 8 := by
  unfold Br.sig
  split <;> omega

theorem Br.dataBytes_length (r : Br) : r.dataBytes.length = r.queue.length - 1 - r.head := by
  simp [Br.dataBytes]

theorem Br.remaining_eq {r : Br} (h : r.sealed = true) : r.remaining = r.dataBytes.length := by
  simp [Br.remaining, h, Br.dataBytes_length]

theorem Br.remaining_of_unsealed {r : Br} (h : r.sealed = false) : r.remaining = 0 := by
  simp [Br.remaining, h]

/-- A reader that is not readable has no significant bit. -/
theorem Br.avail_of_not_readable {r : Br} (h : ¬ r.Readable) : r.avail = 0 := by
  unfold Br.avail
  rw [if_pos]
  by_contra hc
  simp only [not_or, Bool.not_eq_false, Nat.not_lt] at hc
  exact h ⟨hc.1, hc.2.1, hc.2.2⟩

theorem Br.readable_of_avail {r : Br} (h : r.avail ≠ 0) : r.Readable := by
  by_contra hc
  exact h (Br.avail_of_not_readable hc)

/-- br_avail counts the significant bits still to be read. -/
theorem Br.avail_eq_length {r : Br} (h : r.Readable) : r.avail = r.pendingBits.length := by
  obtain ⟨hs, hq, hm⟩ := h
  have hc : ¬ (r.sealed = false ∨ r.queue = [] ∨ 7 < r.mark.toNat) := by
    simp [hs, hq]; omega
  simp only [Br.avail, if_neg hc, Br.pendingBits, List.length_append, byteBits_length, unpackBytes_length,
    Br.remaining_eq hs]

/-- The next data byte, where one is left. -/
theorem Br.dataBytes_cons {r : Br} (h : r.head < r.queue.length - 1) :
    r.dataBytes = r.front :: { r with head := r.head + 1 }.dataBytes := by
  have h1 : r.head < r.queue.dropLast.length := by simpa using h
  have h2 : r.queue.dropLast[r.head] = r.front := by
    simp [Br.front, List.getElem_dropLast, show r.head < r.queue.length by omega]
  simp only [Br.dataBytes, List.drop_eq_getElem_cons h1, h2]

theorem Br.dataBytes_eq_nil {r : Br} (h : ¬ r.head < r.queue.length - 1) : r.dataBytes = [] := by
  apply List.eq_nil_of_length_eq_zero
  rw [Br.dataBytes_length]; omega

/-- What a read bit leaves alone. -/
theorem Br.takeBit_queue (r : Br) : r.takeBit.2.queue = r.queue ∧ r.takeBit.2.sealed = r.sealed ∧
    r.takeBit.2.head = r.head ∧ r.takeBit.2.mark = r.mark := ⟨rfl, rfl, rfl, rfl⟩

theorem Br.takeBit_pending {r : Br} (h : r.cnt ≠ 0) :
    r.pendingBits = r.takeBit.1 :: r.takeBit.2.pendingBits := by
  obtain ⟨n, hn⟩ : ∃ n, r.cnt.toNat = n + 1 :=
    Nat.exists_eq_succ_of_ne_zero fun h0 => h (BitVec.eq_of_toNat_eq h0)
  have h1 : (r.cnt - 1).toNat = n := by
    have := r.cnt.isLt
    rw [BitVec.toNat_sub_of_le]
    · simp [hn]
    · simp [BitVec.le_def, hn]
  simp only [Br.pendingBits, Br.takeBit, hn, byteBits_succ, h1]
  rfl

theorem Br.popByte_cnt {r : Br} (hm : r.mark.toNat ≤ 7) :
    r.popByte.cnt.toNat = if r.remaining = 1 then r.sig else 8 := by
  have := Br.sig_le hm
  simp only [Br.popByte]
  split
  · simp; omega
  · rfl

theorem Br.popByte_pending {r : Br} (hs : r.sealed = true) (hm : r.mark.toNat ≤ 7) (hc : r.cnt = 0)
    (hr : r.remaining ≠ 0) : r.popByte.pendingBits = r.pendingBits := by
  have hlt : r.head < r.queue.length - 1 := by
    rw [Br.remaining_eq hs, Br.dataBytes_length] at hr; omega
  have hd := Br.dataBytes_cons hlt
  have hd' : r.popByte.dataBytes = { r with head := r.head + 1 }.dataBytes := rfl
  have hsig : r.popByte.sig = r.sig := rfl
  have hcur : r.popByte.cur = r.front := rfl
  have hc0 : r.cnt.toNat = 0 := by rw [hc]; rfl
  rw [Br.pendingBits, Br.pendingBits, Br.popByte_cnt hm, hd', hsig, hcur, hd, hc0]
  have hrem : r.remaining = ({ r with head := r.head + 1 } : Br).dataBytes.length + 1 := by
    rw [Br.remaining_eq hs, hd]; simp
  cases hds : ({ r with head := r.head + 1 } : Br).dataBytes with
  | nil => rw [hds] at hrem; simp [hrem]
  | cons c cs =>
    rw [hds] at hrem
    rw [if_neg (by simp [hrem]), unpackBytes_cons _ r.front (List.cons_ne_nil c cs)]
    simp

theorem Br.popByte_cnt_ne {r : Br} (hm : r.mark.toNat ≤ 7) : r.popByte.cnt ≠ 0 := by
  intro h
  have h1 := Br.popByte_cnt hm
  rw [h] at h1
  have := r.sig_pos
  split at h1
  · simp at h1; omega
  · simp at h1

/-- A significant bit is left: it is the one read, and the others stay; the queue does not change. -/
theorem Br.readBit_pending {r : Br} {b : Bool} {bs : List Bool} (h : r.Readable) (hp : r.pendingBits = b :: bs) :
    ∃ r', r.readBit = .ok (b, r') ∧ r'.pendingBits = bs ∧ r'.queue = r.queue ∧ r'.sealed = r.sealed := by
  obtain ⟨hs, hq, hm⟩ := h
  simp only [Br.readBit, hs, hq, Nat.not_lt.mpr hm, if_false, Bool.true_eq_false]
  by_cases hc : r.cnt = 0
  · have hr : r.remaining ≠ 0 := by
      intro h0
      rw [Br.remaining_eq hs] at h0
      simp [Br.pendingBits, hc, List.eq_nil_of_length_eq_zero h0] at hp
    rw [if_pos hc, if_neg hr]
    have h2 := Br.takeBit_pending (Br.popByte_cnt_ne hm)
    rw [Br.popByte_pending hs hm hc hr, hp, List.cons.injEq] at h2
    exact ⟨r.popByte.takeBit.2, by rw [h2.1], h2.2.symm, rfl, hs⟩
  · rw [if_neg hc]
    have h2 := Br.takeBit_pending hc
    rw [hp, List.cons.injEq] at h2
    exact ⟨r.takeBit.2, by rw [h2.1], h2.2.symm, rfl, hs⟩

/-- At the boundary no bit is left and a read raises EXHAUSTED. -/
theorem Br.readBit_exhausted {r : Br} (h : r.Readable) (hp : r.pendingBits = []) : r.readBit = .error .exhausted := by
  obtain ⟨hs, hq, hm⟩ := h
  have hl : r.pendingBits.length = 0 := by rw [hp]; rfl
  simp only [Br.pendingBits, List.length_append, byteBits_length, unpackBytes_length] at hl
  have hc : r.cnt = 0 := by
    apply BitVec.eq_of_toNat_eq
    simp; omega
  have hsig := r.sig_pos
  have hd : r.remaining = 0 := by
    rw [Br.remaining_eq hs]
    split at hl <;> omega
  simp [Br.readBit, hs, hq, Nat.not_lt.mpr hm, hc, hd]

/-- A read that succeeded took the first significant bit of a readable queue. -/
theorem Br.readBit_ok {r r' : Br} {b : Bool} (h : r.readBit = .ok (b, r')) :
    r.Readable ∧ r.pendingBits = b :: r'.pendingBits ∧ r'.queue = r.queue ∧ r'.sealed = r.sealed := by
  have hR : r.Readable := by
    simp only [Br.readBit] at h
    split at h
    · cases h
    · split at h
      · cases h
      · split at h
        · cases h
        · next h1 h2 h3 => exact ⟨by simpa using h1, h2, Nat.not_lt.mp h3⟩
  refine ⟨hR, ?_⟩
  cases hp : r.pendingBits with
  | nil => rw [Br.readBit_exhausted hR hp] at h; cases h
  | cons c cs =>
    obtain ⟨r1, h1, h2, h3, h4⟩ := Br.readBit_pending hR hp
    rw [h1] at h
    cases h
    exact ⟨by rw [h2], h3, h4⟩

/-- A readable queue stays readable through a read, whose queue and seal are unchanged. -/
theorem Br.Readable.congr {r r' : Br} (h : r.Readable) (hq : r'.queue = r.queue) (hs : r'.sealed = r.sealed) :
    r'.Readable := by
  obtain ⟨h1, h2, h3⟩ := h
  refine ⟨by rw [hs, h1], by rw [hq]; exact h2, ?_⟩
  simpa [Br.mark, hq] using h3

/-- A bit read leaves one significant bit less. -/
theorem Br.avail_readBit {r r' : Br} {b : Bool} (h : r.readBit = .ok (b, r')) : r.avail = r'.avail + 1 := by
  obtain ⟨hR, hp, hq, hs⟩ := Br.readBit_ok h
  rw [Br.avail_eq_length hR, Br.avail_eq_length (hR.congr hq hs), hp]
  simp

/-- After a bit read br_cnt ≤ 7 if it was ≤ 8 (10_state.md R42). -/
theorem Br.readBit_cnt {r r' : Br} {b : Bool} (h : r.readBit = .ok (b, r')) (hc : r.cnt.toNat ≤ 8) :
    r'.cnt.toNat ≤ 7 := by
  have hsub : ∀ c : BitVec 4, c ≠ 0 → c.toNat ≤ 8 → (c - 1).toNat ≤ 7 := by decide
  obtain ⟨⟨hs, hq, hm⟩, -⟩ := Br.readBit_ok h
  simp only [Br.readBit, hs, hq, Nat.not_lt.mpr hm, if_false, Bool.true_eq_false] at h
  split at h
  · split at h
    · cases h
    · cases h
      refine hsub _ (Br.popByte_cnt_ne hm) ?_
      have := Br.sig_le hm
      rw [Br.popByte_cnt hm]; split <;> omega
  · next h0 => cases h; exact hsub _ h0 hc

/-! ### The reader once every significant bit has been read -/

/-- Where reading bits up to the boundary leaves the reader: br_head behind the last data byte, br_cnt 0, and in br_cur what
the last byte's significant bits leave (R241). -/
def Br.drained (r : Br) : Br :=
  { r with
    head := r.head + r.dataBytes.length
    cur := (r.dataBytes.getLast?.map fun b : Byte => b >>> r.sig).getD (r.cur >>> r.cnt.toNat)
    cnt := 0 }

theorem Br.drained_takeBit {r : Br} (h : r.cnt ≠ 0) : r.takeBit.2.drained = r.drained := by
  obtain ⟨n, hn⟩ : ∃ n, r.cnt.toNat = n + 1 :=
    Nat.exists_eq_succ_of_ne_zero fun h0 => h (BitVec.eq_of_toNat_eq h0)
  have h1 : (r.cnt - 1).toNat = n := by
    have := r.cnt.isLt
    rw [BitVec.toNat_sub_of_le]
    · simp [hn]
    · simp [BitVec.le_def, hn]
  have h2 : r.cur >>> 1 >>> n = r.cur >>> (n + 1) := by rw [Nat.add_comm n 1, BitVec.shiftRight_add]
  simp only [Br.drained, Br.takeBit, h1, hn, h2]
  rfl

theorem Br.drained_popByte {r : Br} (hs : r.sealed = true) (hm : r.mark.toNat ≤ 7) (hr : r.remaining ≠ 0) :
    r.popByte.drained = r.drained := by
  have hlt : r.head < r.queue.length - 1 := by
    rw [Br.remaining_eq hs, Br.dataBytes_length] at hr; omega
  have hd := Br.dataBytes_cons hlt
  have hd' : r.popByte.dataBytes = { r with head := r.head + 1 }.dataBytes := rfl
  have hrem : r.remaining = ({ r with head := r.head + 1 } : Br).dataBytes.length + 1 := by
    rw [Br.remaining_eq hs, hd]; simp
  have hsig : r.popByte.sig = r.sig := rfl
  simp only [Br.drained, Br.popByte_cnt hm, hd', hsig, hd]
  cases hds : ({ r with head := r.head + 1 } : Br).dataBytes with
  | nil =>
    rw [hds] at hrem
    simp [hrem, Br.popByte]
  | cons c cs =>
    obtain ⟨x, hx⟩ : ∃ x, (c :: cs).getLast? = some x := ⟨_, List.getLast?_eq_some_getLast (List.cons_ne_nil c cs)⟩
    simp [Br.popByte, Nat.add_assoc, Nat.add_comm, List.getLast?_cons_cons, hx]

/-- Reading a bit does not change where reading to the boundary ends. -/
theorem Br.drained_readBit {r r' : Br} {b : Bool} (h : r.readBit = .ok (b, r')) : r'.drained = r.drained := by
  obtain ⟨⟨hs, hq, hm⟩, -⟩ := Br.readBit_ok h
  simp only [Br.readBit, hs, hq, Nat.not_lt.mpr hm, if_false, Bool.true_eq_false] at h
  split at h
  · split at h
    · cases h
    · next h1 =>
      cases h
      exact (Br.drained_takeBit (Br.popByte_cnt_ne hm)).trans (Br.drained_popByte hs hm h1)
  · next h0 => cases h; exact Br.drained_takeBit h0

/-- At the boundary the reader is there already. -/
theorem Br.drained_eq {r : Br} (h : r.Readable) (hp : r.pendingBits = []) : r.drained = r := by
  have hl : r.pendingBits.length = 0 := by rw [hp]; rfl
  simp only [Br.pendingBits, List.length_append, byteBits_length, unpackBytes_length] at hl
  have hc : r.cnt = 0 := by
    apply BitVec.eq_of_toNat_eq
    simp; omega
  have hsig := r.sig_pos
  have hd : r.dataBytes = [] := by
    apply List.eq_nil_of_length_eq_zero
    split at hl <;> omega
  rw [Br.drained, hd]
  cases r
  simp only at hc
  subst hc
  simp

/-- A raw byte is left at a byte boundary: it is the one read. -/
theorem Br.readByte_data {r : Br} {v : Byte} {vs : List Byte} (h : r.Readable) (hc : r.cnt = 0)
    (hd : r.dataBytes = v :: vs) :
    r.readByte = .ok (v, { r with head := r.head + 1 }) ∧ ({ r with head := r.head + 1 } : Br).dataBytes = vs := by
  obtain ⟨hs, hq, hm⟩ := h
  have hlt : r.head < r.queue.length - 1 := by
    have := congrArg List.length hd
    rw [Br.dataBytes_length] at this
    simp at this; omega
  have h1 := Br.dataBytes_cons hlt
  rw [hd, List.cons.injEq] at h1
  have hr : r.remaining ≠ 0 := by rw [Br.remaining_eq hs, hd]; simp
  refine ⟨?_, h1.2.symm⟩
  simp [Br.readByte, hs, hc, hq, Nat.not_lt.mpr hm, hr, h1.1]

/-- No data byte left: a raw read raises EXHAUSTED. -/
theorem Br.readByte_exhausted {r : Br} (h : r.Readable) (hc : r.cnt = 0) (hd : r.dataBytes = []) :
    r.readByte = .error .exhausted := by
  obtain ⟨hs, hq, hm⟩ := h
  have hr : r.remaining = 0 := by rw [Br.remaining_eq hs, hd]; rfl
  simp [Br.readByte, hs, hc, hq, Nat.not_lt.mpr hm, hr]

/-- A raw read that succeeded took the first data byte of a readable queue at a byte boundary. -/
theorem Br.readByte_ok {r r' : Br} {v : Byte} (h : r.readByte = .ok (v, r')) :
    r.Readable ∧ r.cnt = 0 ∧ r.dataBytes = v :: r'.dataBytes ∧ r' = { r with head := r.head + 1 } := by
  simp only [Br.readByte] at h
  split at h
  · cases h
  · split at h
    · cases h
    · split at h
      · cases h
      · split at h
        · cases h
        · split at h
          · cases h
          · next h1 h2 h3 h4 h5 =>
            cases h
            have hs : r.sealed = true := by simpa using h1
            refine ⟨⟨hs, h3, Nat.not_lt.mp h4⟩, by simpa using h2, ?_, rfl⟩
            apply Br.dataBytes_cons
            rw [Br.remaining_eq hs, Br.dataBytes_length] at h5; omega

/-- A raw read does not add significant bits. -/
theorem Br.avail_readByte {r r' : Br} {v : Byte} (h : r.readByte = .ok (v, r')) : r'.avail ≤ r.avail := by
  obtain ⟨hR, hc, hd, rfl⟩ := Br.readByte_ok h
  have hR' : ({ r with head := r.head + 1 } : Br).Readable := hR.congr rfl rfl
  rw [Br.avail_eq_length hR, Br.avail_eq_length hR']
  simp only [Br.pendingBits, hd, List.length_append, byteBits_length, unpackBytes_length, List.length_cons]
  have : ({ r with head := r.head + 1 } : Br).sig = r.sig := rfl
  rw [this]
  split <;> simp

end Sys2Proof.Machine
end

