-- ==== Sys2Proof/Laws/BitWriter.lean ====
section
/-! SUPPORT. What the bit writer's operations do: the bits emitted, followed by the bits pending, are the bits written
(43_bit_writer.md R220, R222, R227, R228). -/

namespace Sys2Proof.Machine

/-- The pending bits of a writer, in the order they were written. -/
def Bw.pending (w : Bw) : List Bool := byteBits w.acc w.cnt.toNat

theorem Bw.initial_inv : Bw.initial.Inv := by intro k _; simp [Bw.initial]

@[simp] theorem Bw.initial_pending : Bw.initial.pending = [] := rfl

theorem Bw.acc_write {w : Bw} (h : w.Inv) (bit : Bool) (k : Nat) :
    (w.acc ||| ((BitVec.ofBool bit).setWidth 8 <<< w.cnt.toNat)).getLsbD k =
      if k = w.cnt.toNat then bit else w.acc.getLsbD k := by
  have hc := w.cnt.isLt
  have hk := h k
  simp only [BitVec.getLsbD_or, BitVec.getLsbD_shiftLeft, BitVec.getLsbD_setWidth, BitVec.getLsbD_ofBool]
  by_cases h1 : k = w.cnt.toNat
  · rw [hk (by omega), h1]
    simp
    omega
  · by_cases h2 : k < w.cnt.toNat
    · simp [h1, h2]
    · have : ¬ (k - w.cnt.toNat = 0) := by omega
      simp [h1, this]

/-- One bit written: emitted bytes and pending bits grow by exactly that bit. -/
theorem Bw.writeBit_spec {w : Bw} (h : w.Inv) (bit : Bool) :
    (w.writeBit bit).1.Inv ∧
      (w.writeBit bit).2.flatMap (byteBits · 8) ++ (w.writeBit bit).1.pending = w.pending ++ [bit] := by
  have hb : byteBits (w.acc ||| ((BitVec.ofBool bit).setWidth 8 <<< w.cnt.toNat)) (w.cnt.toNat + 1) =
      w.pending ++ [bit] := by
    rw [byteBits_snoc, Bw.acc_write h, if_pos rfl]
    congr 1
    apply byteBits_congr
    intro i hi
    rw [Bw.acc_write h, if_neg (by omega)]
  unfold Bw.writeBit
  split
  · next h8 =>
    refine ⟨Bw.initial_inv, ?_⟩
    rw [h8] at hb
    simp [hb]
  · next h8 =>
    have hc : (w.cnt + 1).toNat = w.cnt.toNat + 1 := by
      have := w.cnt.isLt
      simp [BitVec.toNat_add]; omega
    refine ⟨?_, ?_⟩
    · intro k hk
      have hk' : w.cnt.toNat + 1 ≤ k := by rw [← hc]; exact hk
      have := Bw.acc_write h bit k
      rw [if_neg (by omega), h k (by omega)] at this
      exact this
    · simpa only [Bw.pending, hc, List.flatMap_nil, List.nil_append] using hb

theorem Bw.writeBits_spec (bits : List Bool) {w : Bw} (h : w.Inv) :
    (w.writeBits bits).1.Inv ∧
      (w.writeBits bits).2.flatMap (byteBits · 8) ++ (w.writeBits bits).1.pending = w.pending ++ bits := by
  induction bits generalizing w with
  | nil => exact ⟨h, by simp [Bw.writeBits]⟩
  | cons b bs ih =>
    obtain ⟨h1, h2⟩ := Bw.writeBit_spec h b
    obtain ⟨h3, h4⟩ := ih h1
    refine ⟨h3, ?_⟩
    simp only [Bw.writeBits, List.flatMap_append, List.append_assoc, h4]
    rw [← List.append_assoc, h2]
    simp

/-- How many bytes come out, and how many bits stay pending. -/
theorem Bw.writeBits_length (bits : List Bool) {w : Bw} (h : w.Inv) :
    8 * (w.writeBits bits).2.length + (w.writeBits bits).1.cnt.toNat = w.cnt.toNat + bits.length := by
  have h1 := congrArg List.length (Bw.writeBits_spec bits h).2
  have : ((w.writeBits bits).2.flatMap (byteBits · 8)).length = 8 * (w.writeBits bits).2.length := by
    induction (w.writeBits bits).2 with
    | nil => rfl
    | cons c cs ih => simp [ih]; omega
  simpa [this, Bw.pending] using h1

theorem Bw.writeBits_append (xs ys : List Bool) (w : Bw) :
    w.writeBits (xs ++ ys) =
      (((w.writeBits xs).1.writeBits ys).1, (w.writeBits xs).2 ++ ((w.writeBits xs).1.writeBits ys).2) := by
  induction xs generalizing w with
  | nil => rfl
  | cons b bs ih => simp [Bw.writeBits, ih]

/-- The bytes a stream of bits makes from an empty writer: the full bytes, then what `bw_finalize` emits. -/
def packBits (bits : List Bool) : List Byte :=
  (Bw.initial.writeBits bits).2 ++ (Bw.initial.writeBits bits).1.finalBytes

/-- A stream of P ≥ 1 bits is packed into data bytes and a tail marker P mod 8; unpacking the data bytes by the marker gives
the bits back (R228). -/
theorem packBits_spec {bits : List Bool} (h : bits ≠ []) :
    ∃ data mark, packBits bits = data ++ [mark] ∧ data ≠ [] ∧ mark.toNat = bits.length % 8 ∧
      data.length = (bits.length + 7) / 8 ∧ unpackBytes (if mark = 0 then 8 else mark.toNat) data = bits := by
  obtain ⟨h1, h2⟩ := Bw.writeBits_spec bits Bw.initial_inv
  have h3 := Bw.writeBits_length bits Bw.initial_inv
  have hpos : 0 < bits.length := List.length_pos_iff.mpr h
  generalize hw : Bw.initial.writeBits bits = r at *
  obtain ⟨w, bs⟩ := r
  simp only [Bw.initial_pending, List.nil_append] at h2
  have hi : (Bw.initial.cnt).toNat = 0 := rfl
  simp only [hi, Nat.zero_add] at h3
  have hc := w.cnt.isLt
  have hm : (w.cnt.setWidth 8).toNat = w.cnt.toNat := by
    rw [BitVec.toNat_setWidth]; omega
  simp only [packBits, hw, Bw.finalBytes]
  by_cases h0 : w.cnt.toNat = 0
  · have hz : (w.cnt.setWidth 8 : Byte) = 0 := by apply BitVec.eq_of_toNat_eq; rw [hm, h0]; rfl
    refine ⟨bs, w.cnt.setWidth 8, by simp [h0], ?_, by omega, by omega, ?_⟩
    · rintro rfl
      simp [h0] at h3; omega
    · rw [if_pos hz, unpackBytes_full, ← h2]
      simp [Bw.pending, h0]
  · have hz : (w.cnt.setWidth 8 : Byte) ≠ 0 := by
      intro he
      rw [he] at hm
      exact h0 (by rw [← hm]; rfl)
    refine ⟨bs ++ [w.acc], w.cnt.setWidth 8, by simp [Nat.pos_of_ne_zero h0], by simp, by omega, ?_, ?_⟩
    · simp; omega
    · rw [if_neg hz, hm, unpackBytes_concat]
      exact h2

/-- A stream's bytes hold its bits, and the last byte is the tail marker P mod 8 (R228). -/
theorem packBits_holds (bits : List Bool) :
    ∃ data mark, packBits bits = data ++ [mark] ∧ HoldsBits data bits ∧ mark.toNat = bits.length % 8 := by
  obtain ⟨h1, h2⟩ := Bw.writeBits_spec bits Bw.initial_inv
  have h3 := Bw.writeBits_length bits Bw.initial_inv
  generalize hw : Bw.initial.writeBits bits = r at *
  obtain ⟨w, bs⟩ := r
  simp only [Bw.initial_pending, List.nil_append] at h2
  have hi : (Bw.initial.cnt).toNat = 0 := rfl
  simp only [hi, Nat.zero_add] at h3
  have hc := w.cnt.isLt
  have hm : (w.cnt.setWidth 8).toNat = w.cnt.toNat := by
    rw [BitVec.toNat_setWidth]; omega
  simp only [packBits, hw, Bw.finalBytes]
  by_cases h0 : w.cnt.toNat = 0
  · refine ⟨bs, w.cnt.setWidth 8, by simp [h0], ?_, by omega⟩
    rw [holdsBits_iff (by omega), ← h2]
    have : bs.flatMap (byteBits · 8) ++ w.pending = bs.flatMap (byteBits · 8) := by simp [Bw.pending, h0]
    rw [this, flatMap_bits_length]
    simp
  · refine ⟨bs ++ [w.acc], w.cnt.setWidth 8, by simp [Nat.pos_of_ne_zero h0], ?_, by omega⟩
    rw [holdsBits_iff (by simp; omega), List.flatMap_append, List.flatMap_singleton]
    have hacc : byteBits w.acc 8 = w.pending ++ List.replicate (8 - w.cnt.toNat) false := by
      apply List.ext_getElem
      · simp [Bw.pending]; omega
      · intro j hj1 hj2
        rw [byteBits_length] at hj1
        by_cases hj : j < w.cnt.toNat
        · rw [List.getElem_append_left (by simpa [Bw.pending] using hj)]
          simp [byteBits, Bw.pending]
        · rw [List.getElem_append_right (by simp [Bw.pending]; omega), List.getElem_replicate]
          have hz : w.acc.getLsbD j = false := h1 j (by show w.cnt.toNat ≤ j; omega)
          simpa [byteBits] using hz
    rw [hacc, ← List.append_assoc, h2]
    congr 2
    rw [List.length_append, List.length_singleton]
    omega

@[simp] theorem codeBits_length (l : Nat) (v : Code) : (codeBits l v).length = l := by
  induction l with
  | zero => rfl
  | succ l ih => simp [codeBits, ih]

theorem codeBits_getElem (l : Nat) (v : Code) (k : Nat) (h : k < l) :
    (codeBits l v)[k]'(by simpa using h) = v.getLsbD (l - 1 - k) := by
  induction l generalizing k with
  | zero => omega
  | succ l ih =>
    cases k with
    | zero => simp [codeBits]
    | succ k =>
      simp only [codeBits, List.getElem_cons_succ]
      rw [ih k (by omega)]
      congr 1; omega

end Sys2Proof.Machine
end

