-- ==== Sys2Proof/Laws/Tables.lean ====
section
/-! SUPPORT. Reading and writing the 256-entry tables. -/

namespace Sys2Proof.Machine

theorem tableGet_of_lt {w : Nat} (t : Table w) {i : Nat} (h : i < 256) : tableGet t i = t[i] := by
  simp [tableGet, h]

theorem tableGet_of_ge {w : Nat} (t : Table w) {i : Nat} (h : 256 ≤ i) : tableGet t i = 0 := by
  simp [tableGet, Vector.getElem?_eq_none h]

@[simp] theorem tableGet_zero (w i : Nat) : tableGet (Table.zero w) i = 0 := by
  by_cases h : i < 256
  · simp [tableGet_of_lt _ h, Table.zero]
  · exact tableGet_of_ge _ (by omega)

theorem tableGet_tableOf {w : Nat} (f : Nat → BitVec w) {i : Nat} (h : i < 256) : tableGet (tableOf f) i = f i := by
  simp [tableGet_of_lt _ h, tableOf]

@[simp] theorem tableGet_tableOf_byte {w : Nat} (f : Nat → BitVec w) (b : Byte) :
    tableGet (tableOf f) b.toNat = f b.toNat :=
  tableGet_tableOf f b.isLt

theorem tableGet_tableSet_same {w : Nat} (t : Table w) {i : Nat} (x : BitVec w) (h : i < 256) :
    tableGet (tableSet t i x) i = x := by
  simp [tableGet_of_lt _ h, tableSet]

theorem tableGet_tableSet_other {w : Nat} (t : Table w) {i j : Nat} (x : BitVec w) (h : j ≠ i) :
    tableGet (tableSet t i x) j = tableGet t j := by
  simp [tableGet, tableSet, Vector.getElem?_setIfInBounds, Ne.symm h]

/-- Reading after a write: the value written at its own entry, the old one elsewhere. -/
theorem tableGet_tableSet {w : Nat} (t : Table w) {i j : Nat} (x : BitVec w) (hi : i < 256) :
    tableGet (tableSet t i x) j = if j = i then x else tableGet t j := by
  split
  · next h => subst h; exact tableGet_tableSet_same t x hi
  · next h => exact tableGet_tableSet_other t x h

theorem tableGet_tableSet_byte {w : Nat} (t : Table w) (b c : Byte) (x : BitVec w) :
    tableGet (tableSet t b.toNat x) c.toNat = if c = b then x else tableGet t c.toNat := by
  rw [tableGet_tableSet _ _ b.isLt]
  simp [BitVec.toNat_inj]

/-- Two tables with the same entries are equal. -/
theorem table_ext {w : Nat} {t u : Table w} (h : ∀ i, i < 256 → tableGet t i = tableGet u i) : t = u := by
  apply Vector.ext
  intro i hi
  have := h i hi
  rwa [tableGet_of_lt _ hi, tableGet_of_lt _ hi] at this

theorem tableGet_code_toNat_lt {w : Nat} (t : Table w) (i : Nat) : (tableGet t i).toNat < 2 ^ w := (tableGet t i).isLt

end Sys2Proof.Machine
end

