-- ==== Sys2Proof/Laws/Decoder.lean ====
section
/-! SUPPORT. What the decoder's operations do: what they leave alone, and what they read (46_decoder.md R290 to R294). -/

namespace Sys2Proof.Machine

/-! ### What decoding leaves alone -/

/-- Only the bit reader's position and the decoder change; the queue and the seal stay. -/
structure ReadsOnly (s t : State) : Prop where
  params : t.params = s.params
  ctl    : t.ctl = s.ctl
  fc     : t.fc = s.fc
  ect    : t.ect = s.ect
  bw     : t.bw = s.bw
  port   : t.port = s.port
  queue  : t.br.queue = s.br.queue
  sealed : t.br.sealed = s.br.sealed
  avail  : t.br.avail ≤ s.br.avail

theorem ReadsOnly.refl (s : State) : ReadsOnly s s := ⟨rfl, rfl, rfl, rfl, rfl, rfl, rfl, rfl, le_refl _⟩

theorem ReadsOnly.trans {s t u : State} (h : ReadsOnly s t) (k : ReadsOnly t u) : ReadsOnly s u :=
  ⟨k.params.trans h.params, k.ctl.trans h.ctl, k.fc.trans h.fc, k.ect.trans h.ect, k.bw.trans h.bw,
    k.port.trans h.port, k.queue.trans h.queue, k.sealed.trans h.sealed, le_trans k.avail h.avail⟩

theorem ReadsOnly.setDct (s : State) (d : Dct) : ReadsOnly s (s.setDct d) :=
  ⟨rfl, rfl, rfl, rfl, rfl, rfl, rfl, rfl, le_refl _⟩

theorem Br.readByte_queue {r r' : Br} {v : Byte} (h : r.readByte = .ok (v, r')) :
    r'.queue = r.queue ∧ r'.sealed = r.sealed := by
  obtain ⟨-, -, -, rfl⟩ := Br.readByte_ok h
  exact ⟨rfl, rfl⟩

theorem brReadBit_done {s t : State} {b : Bool} (h : brReadBit s = .done b t) :
    ∃ r, s.br.readBit = .ok (b, r) ∧ t = s.setBr r := by
  simp only [brReadBit] at h
  split at h
  · cases h
  · next r hr => cases h; exact ⟨r, hr, rfl⟩

theorem brReadBit_raised {s t : State} {c : Cause} (h : brReadBit s = .raised c t) :
    s.br.readBit = .error c ∧ t = s := by
  simp only [brReadBit] at h
  split at h
  · next hc => cases h; exact ⟨hc, rfl⟩
  · cases h

theorem brReadByte_done {s t : State} {v : Byte} (h : brReadByte s = .done v t) :
    ∃ r, s.br.readByte = .ok (v, r) ∧ t = s.setBr r := by
  simp only [brReadByte] at h
  split at h
  · cases h
  · next r hr => cases h; exact ⟨r, hr, rfl⟩

theorem brReadByte_raised {s t : State} {c : Cause} (h : brReadByte s = .raised c t) :
    s.br.readByte = .error c ∧ t = s := by
  simp only [brReadByte] at h
  split at h
  · next hc => cases h; exact ⟨hc, rfl⟩
  · cases h

theorem brReadBit_readsOnly {s t : State} {b : Bool} (h : brReadBit s = .done b t) : ReadsOnly s t := by
  obtain ⟨r, hr, rfl⟩ := brReadBit_done h
  obtain ⟨-, -, hq, hs⟩ := Br.readBit_ok hr
  have := Br.avail_readBit hr
  exact ⟨rfl, rfl, rfl, rfl, rfl, rfl, hq, hs, by simp; omega⟩

theorem brReadByte_readsOnly {s t : State} {v : Byte} (h : brReadByte s = .done v t) : ReadsOnly s t := by
  obtain ⟨r, hr, rfl⟩ := brReadByte_done h
  obtain ⟨hq, hs⟩ := Br.readByte_queue hr
  exact ⟨rfl, rfl, rfl, rfl, rfl, rfl, hq, hs, Br.avail_readByte hr⟩

/-- The state a part of a command ends in, whether it went on or raised. -/
def Flow.state {α : Type} : Flow α → State
  | .done _ s => s
  | .raised _ s => s

theorem brReadBit_state (s : State) : ReadsOnly s (brReadBit s).state := by
  cases h : brReadBit s with
  | done b t => exact brReadBit_readsOnly h
  | raised c t => rw [(brReadBit_raised h).2]; exact ReadsOnly.refl s

theorem brReadByte_state (s : State) : ReadsOnly s (brReadByte s).state := by
  cases h : brReadByte s with
  | done b t => exact brReadByte_readsOnly h
  | raised c t => rw [(brReadByte_raised h).2]; exact ReadsOnly.refl s

/-- Parts that only read, one after another, only read. -/
theorem Flow.bind_readsOnly {α β : Type} {s : State} {m : Flow α} {k : α → State → Flow β}
    (hm : ReadsOnly s m.state) (hk : ∀ a s1, ReadsOnly s1 (k a s1).state) : ReadsOnly s (m.bind k).state := by
  cases m with
  | done a s1 => exact ReadsOnly.trans hm (hk a s1)
  | raised c s1 => exact hm

theorem decReadAlpha_state (k i : Nat) (s : State) : ReadsOnly s (decReadAlpha k i s).state := by
  induction k generalizing i s with
  | zero => exact ReadsOnly.refl s
  | succ k ih =>
    exact Flow.bind_readsOnly (brReadByte_state s)
      fun v s1 => (ReadsOnly.setDct s1 _).trans (ih (i + 1) _)

theorem decReadCounts_state (k l : Nat) (s : State) : ReadsOnly s (decReadCounts k l s).state := by
  induction k generalizing l s with
  | zero => exact ReadsOnly.refl s
  | succ k ih =>
    exact Flow.bind_readsOnly (brReadByte_state s)
      fun v s1 => (ReadsOnly.setDct s1 _).trans (ih (l + 1) _)

theorem decReadCode_state (l : Nat) (v : Code) (s : State) : ReadsOnly s (decReadCode l v s).state := by
  induction l generalizing v s with
  | zero => exact ReadsOnly.refl s
  | succ l ih => exact Flow.bind_readsOnly (brReadBit_state s) fun b s1 => ih _ s1

theorem decReadCodes_state (ls : List Nat) (i : Nat) (s : State) : ReadsOnly s (decReadCodes ls i s).state := by
  induction ls generalizing i s with
  | nil => exact ReadsOnly.refl s
  | cons l ls ih =>
    exact Flow.bind_readsOnly (decReadCode_state l 0 s)
      fun v s1 => (ReadsOnly.setDct s1 _).trans (ih (i + 1) _)

theorem decReadBody_state (s : State) : ReadsOnly s (decReadBody s).state := by
  unfold decReadBody
  split
  · exact ReadsOnly.setDct s _
  · exact Flow.bind_readsOnly ((ReadsOnly.setDct s _).trans (decReadCodes_state _ _ _))
      fun _ s1 => ReadsOnly.setDct s1 _

/-- `dec_read_table` changes only the reader's position and the decoder. -/
theorem decReadTable_state (s : State) : ReadsOnly s (decReadTable s).state := by
  unfold decReadTable
  refine Flow.bind_readsOnly ((ReadsOnly.setDct s _).trans (brReadByte_state _)) fun a s1 => ?_
  refine Flow.bind_readsOnly ((ReadsOnly.setDct s1 _).trans (decReadAlpha_state _ _ _)) fun _ s2 => ?_
  refine Flow.bind_readsOnly (brReadByte_state s2) fun m s3 => ?_
  split
  · exact ReadsOnly.setDct s3 _
  · exact Flow.bind_readsOnly ((ReadsOnly.setDct s3 _).trans (decReadCounts_state _ _ _))
      fun _ s4 => decReadBody_state s4

/-- Decoding symbols changes the reader's position and the decoder, and emits bytes. -/
structure DecodesOnly (s t : State) : Prop where
  params    : t.params = s.params
  ctl       : t.ctl = s.ctl
  fc        : t.fc = s.fc
  ect       : t.ect = s.ect
  bw        : t.bw = s.bw
  inputs    : t.port.inputs = s.port.inputs
  responses : t.port.responses = s.port.responses
  out       : s.port.out <+: t.port.out
  queue     : t.br.queue = s.br.queue
  sealed    : t.br.sealed = s.br.sealed
  avail     : t.br.avail ≤ s.br.avail

theorem DecodesOnly.refl (s : State) : DecodesOnly s s :=
  ⟨rfl, rfl, rfl, rfl, rfl, rfl, rfl, List.prefix_refl _, rfl, rfl, le_refl _⟩

theorem DecodesOnly.trans {s t u : State} (h : DecodesOnly s t) (k : DecodesOnly t u) : DecodesOnly s u :=
  ⟨k.params.trans h.params, k.ctl.trans h.ctl, k.fc.trans h.fc, k.ect.trans h.ect, k.bw.trans h.bw,
    k.inputs.trans h.inputs, k.responses.trans h.responses, h.out.trans k.out, k.queue.trans h.queue,
    k.sealed.trans h.sealed, le_trans k.avail h.avail⟩

theorem ReadsOnly.decodesOnly {s t : State} (h : ReadsOnly s t) : DecodesOnly s t :=
  ⟨h.params, h.ctl, h.fc, h.ect, h.bw, by rw [h.port], by rw [h.port], by rw [h.port], h.queue,
    h.sealed, h.avail⟩

theorem DecodesOnly.setDct (s : State) (d : Dct) : DecodesOnly s (s.setDct d) := (ReadsOnly.setDct s d).decodesOnly

theorem DecodesOnly.emit (s : State) (b : Byte) : DecodesOnly s (s.emit b) :=
  ⟨rfl, rfl, rfl, rfl, rfl, rfl, rfl, ⟨[b], rfl⟩, rfl, rfl, le_refl _⟩

/-- Parts that only decode, one after another, only decode. -/
theorem Flow.bind_decodesOnly {α β : Type} {s : State} {m : Flow α} {k : α → State → Flow β}
    (hm : DecodesOnly s m.state) (hk : ∀ a s1, DecodesOnly s1 (k a s1).state) : DecodesOnly s (m.bind k).state := by
  cases m with
  | done a s1 => exact DecodesOnly.trans hm (hk a s1)
  | raised c s1 => exact hm

theorem decMatch_state (fuel : Nat) (s : State) : DecodesOnly s (decMatch fuel s).state := by
  induction fuel generalizing s with
  | zero => exact DecodesOnly.refl s
  | succ fuel ih =>
    refine Flow.bind_decodesOnly (brReadBit_state s).decodesOnly fun b s1 => ?_
    split
    · exact (DecodesOnly.emit s1 _).trans (DecodesOnly.setDct _ _)
    · split
      · exact DecodesOnly.setDct s1 _
      · exact (DecodesOnly.setDct s1 _).trans (ih _)

theorem decDecodeSymbol_state (s : State) : DecodesOnly s (decDecodeSymbol s).state := by
  unfold decDecodeSymbol
  split
  · exact DecodesOnly.setDct s _
  · exact Flow.bind_decodesOnly ((DecodesOnly.setDct s _).trans (decMatch_state _ _))
      fun v s1 => DecodesOnly.refl s1

theorem decSymbols_state (fuel : Nat) (s : State) : DecodesOnly s (decSymbols fuel s).state := by
  induction fuel generalizing s with
  | zero => exact DecodesOnly.refl s
  | succ fuel ih =>
    refine Flow.bind_decodesOnly (decDecodeSymbol_state s) fun r s1 => ?_
    split
    · exact DecodesOnly.refl s1
    · exact ih s1

/-! ### Reading the header -/

/-- The table with the entries from i on replaced by xs. -/
def tableWrite {w : Nat} (t : Table w) : Nat → List (BitVec w) → Table w
  | _, [] => t
  | i, x :: xs => tableWrite (tableSet t i x) (i + 1) xs

theorem tableGet_tableWrite {w : Nat} (t : Table w) (i : Nat) (xs : List (BitVec w)) (h : i + xs.length ≤ 256) (j : Nat) :
    tableGet (tableWrite t i xs) j =
      if i ≤ j ∧ j < i + xs.length then xs[j - i]?.getD 0 else tableGet t j := by
  induction xs generalizing t i with
  | nil =>
    rw [if_neg (by simp)]; rfl
  | cons x xs ih =>
    simp only [List.length_cons] at h
    rw [tableWrite, ih _ _ (by omega), tableGet_tableSet _ _ (by omega)]
    by_cases h1 : j = i
    · subst h1; simp
    · by_cases h2 : i + 1 ≤ j ∧ j < i + 1 + xs.length
      · rw [if_pos h2, if_pos (by simp; omega), show j - i = (j - (i + 1)) + 1 by omega]
        simp
      · rw [if_neg h2, if_neg h1, if_neg (by simp; omega)]

/-- dec_alpha with the symbols vs from position i on. -/
def Dct.setSymbols (i : Nat) (vs : List Byte) (d : Dct) : Dct := { d with alpha := tableWrite d.alpha i vs }

/-- dec_count with the count bytes vs from length l on. -/
def Dct.setCounts (l : Nat) (vs : List Byte) (d : Dct) : Dct :=
  { d with count := tableWrite d.count l (vs.map (BitVec.setWidth 9)) }

/-- dec_len and dec_code with the codes cs from position i on. -/
def Dct.setCodes (i : Nat) (cs : List (Nat × Code)) (d : Dct) : Dct :=
  { d with
    len := tableWrite d.len i (cs.map fun c => BitVec.ofNat 8 c.1)
    code := tableWrite d.code i (cs.map Prod.snd) }

/-- The reader with k raw bytes popped. -/
def Br.skip (r : Br) (k : Nat) : Br := { r with head := r.head + k }

theorem Br.skip_zero (r : Br) : r.skip 0 = r := rfl

theorem Br.skip_skip (r : Br) (j k : Nat) : (r.skip j).skip k = r.skip (j + k) := by
  simp [Br.skip, Nat.add_assoc]

theorem Br.skip_skip_one (r : Br) (k : Nat) : (r.skip 1).skip k = r.skip (k + 1) := by
  rw [Br.skip_skip, Nat.add_comm]

theorem Br.skip_readable {r : Br} (h : r.Readable) (k : Nat) : (r.skip k).Readable := h.congr rfl rfl

theorem Br.skip_dataBytes (r : Br) (k : Nat) : (r.skip k).dataBytes = r.dataBytes.drop k := by
  simp [Br.skip, Br.dataBytes, List.drop_drop]

/-- A raw byte at a byte boundary is read. -/
theorem brReadByte_data {s : State} {v : Byte} {vs : List Byte} (h : s.br.Readable) (hc : s.br.cnt = 0)
    (hd : s.br.dataBytes = v :: vs) : brReadByte s = .done v (s.setBr (s.br.skip 1)) := by
  simp only [brReadByte, (Br.readByte_data h hc hd).1]
  rfl

/-- The alphabet bytes are read into dec_alpha. -/
theorem decReadAlpha_data (vs : List Byte) {rest : List Byte} (i : Nat) {s : State} (h : s.br.Readable)
    (hc : s.br.cnt = 0) (hd : s.br.dataBytes = vs ++ rest) :
    decReadAlpha vs.length i s = .done ()
      ((s.setBr (s.br.skip vs.length)).setDct (s.dct.setSymbols i vs)) := by
  induction vs generalizing i s with
  | nil => rfl
  | cons v vs ih =>
    rw [List.length_cons, decReadAlpha, brReadByte_data h hc hd, Flow.bind_done, ih]
    · rw [← Br.skip_skip_one s.br vs.length]; rfl
    · exact Br.skip_readable h 1
    · exact hc
    · simp [Br.skip_dataBytes, hd]

/-- The count bytes are read into dec_count. -/
theorem decReadCounts_data (vs : List Byte) {rest : List Byte} (l : Nat) {s : State} (h : s.br.Readable)
    (hc : s.br.cnt = 0) (hd : s.br.dataBytes = vs ++ rest) :
    decReadCounts vs.length l s = .done ()
      ((s.setBr (s.br.skip vs.length)).setDct (s.dct.setCounts l vs)) := by
  induction vs generalizing l s with
  | nil => rfl
  | cons v vs ih =>
    rw [List.length_cons, decReadCounts, brReadByte_data h hc hd, Flow.bind_done, ih]
    · rw [← Br.skip_skip_one s.br vs.length]; rfl
    · exact Br.skip_readable h 1
    · exact hc
    · simp [Br.skip_dataBytes, hd]

/-! ### Reading codes -/

/-- Pushing the next bit of v onto the bits above it. -/
theorem pushBit_shift (v : Code) (k : Nat) : pushBit (v >>> (k + 1)) (v.getLsbD k) = v >>> k := by
  apply BitVec.eq_of_getLsbD_eq
  intro i hi
  simp only [pushBit, BitVec.getLsbD_or, BitVec.getLsbD_shiftLeft, BitVec.getLsbD_setWidth, BitVec.getLsbD_ofBool,
    BitVec.getLsbD_ushiftRight]
  by_cases h : i = 0
  · subst h; simp
  · simp [hi, h, show k + 1 + (i - 1) = k + i by omega]

/-- The significant bits after one is taken. -/
theorem brReadBit_pending {s : State} {b : Bool} {bs : List Bool} (h : s.br.Readable)
    (hp : s.br.pendingBits = b :: bs) :
    ∃ r, brReadBit s = .done b (s.setBr r) ∧ r.pendingBits = bs ∧ r.Readable := by
  obtain ⟨r, h1, h2, h3, h4⟩ := Br.readBit_pending h hp
  exact ⟨r, by simp only [brReadBit, h1], h2, h.congr h3 h4⟩

/-- The last k bits of a code are read onto the bits above them. -/
theorem decReadCode_bits (k : Nat) (v : Code) {rest : List Bool} {s : State} (h : s.br.Readable)
    (hp : s.br.pendingBits = codeBits k v ++ rest) :
    ∃ r, decReadCode k (v >>> k) s = .done v (s.setBr r) ∧ r.pendingBits = rest ∧ r.Readable := by
  induction k generalizing s with
  | zero => exact ⟨s.br, by simp [decReadCode, State.setBr], by simpa [codeBits] using hp, h⟩
  | succ k ih =>
    rw [codeBits, List.cons_append] at hp
    obtain ⟨r, h1, h2, h3⟩ := brReadBit_pending h hp
    rw [decReadCode, h1, Flow.bind_done, pushBit_shift]
    obtain ⟨r', h4, h5, h6⟩ := ih (s := s.setBr r) h3 h2
    exact ⟨r', h4, h5, h6⟩

theorem code_shift_eq_zero {v : Code} {l : Nat} (h : v.toNat < 2 ^ l) : v >>> l = 0 := by
  apply BitVec.eq_of_toNat_eq
  rw [BitVec.toNat_ushiftRight, Nat.shiftRight_eq_div_pow, Nat.div_eq_of_lt h]
  rfl

/-- A code's bits are read back as its value (R290). -/
theorem decReadCode_code {l : Nat} {v : Code} (hv : v.toNat < 2 ^ l) {rest : List Bool} {s : State} (h : s.br.Readable)
    (hp : s.br.pendingBits = codeBits l v ++ rest) :
    ∃ r, decReadCode l 0 s = .done v (s.setBr r) ∧ r.pendingBits = rest ∧ r.Readable := by
  have := decReadCode_bits l v h hp
  rwa [code_shift_eq_zero hv] at this

/-- Codes' bits are read back as their lengths and values, position by position (R290). -/
theorem decReadCodes_codes (cs : List (Nat × Code)) (hcs : ∀ c ∈ cs, c.2.toNat < 2 ^ c.1) {rest : List Bool} (i : Nat)
    {s : State} (h : s.br.Readable) (hp : s.br.pendingBits = cs.flatMap (fun c => codeBits c.1 c.2) ++ rest) :
    ∃ r, decReadCodes (cs.map Prod.fst) i s = .done ()
        ((s.setBr r).setDct (s.dct.setCodes i cs)) ∧
      r.pendingBits = rest ∧ r.Readable := by
  induction cs generalizing i s with
  | nil => exact ⟨s.br, rfl, by simpa using hp, h⟩
  | cons c cs ih =>
    rw [List.flatMap_cons, List.append_assoc] at hp
    obtain ⟨r, h1, h2, h3⟩ := decReadCode_code (hcs c List.mem_cons_self) h hp
    rw [List.map_cons, decReadCodes, h1, Flow.bind_done]
    obtain ⟨r', h4, h5, h6⟩ := ih (fun d hd => hcs d (List.mem_cons_of_mem _ hd)) (i + 1)
      (s := (s.setBr r).setDct _) h3 h2
    exact ⟨r', h4, h5, h6⟩

/-! ### Decoding a symbol -/

/-- The bits of a code are matched: no shorter candidate is in the table, the whole code is at position i (R294). -/
theorem decMatch_code {l : Nat} {v : Code} {i : Nat} (k fuel : Nat) {rest : List Bool} {s : State}
    (h : s.br.Readable) (hp : s.br.pendingBits = codeBits k v ++ rest) (hk : 1 ≤ k) (hkl : k ≤ l) (hl : l ≤ 255)
    (hf : k ≤ fuel) (hc : s.dct.cand = v >>> k) (hcl : s.dct.candLen.toNat = l - k)
    (hm : l ≤ s.dct.maxlen.toNat)
    (hno : ∀ j, 0 < j → j < k → s.dct.lookup (BitVec.ofNat 8 (l - j)) (v >>> j) = none)
    (hyes : s.dct.lookup (BitVec.ofNat 8 l) v = some i) :
    ∃ r, decMatch fuel s = .done (tableGet s.dct.alpha i)
        (((s.setBr r).emit (tableGet s.dct.alpha i)).setDct s.dct.clearCand) ∧
      r.pendingBits = rest ∧ r.Readable := by
  induction k generalizing s fuel with
  | zero => omega
  | succ k ih =>
    obtain ⟨fuel, rfl⟩ : ∃ f, fuel = f + 1 := ⟨fuel - 1, by omega⟩
    rw [codeBits, List.cons_append] at hp
    obtain ⟨r, h1, h2, h3⟩ := brReadBit_pending h hp
    have hcand : (s.dct.extend (v.getLsbD k)).cand = v >>> k := by
      simp only [Dct.extend, hc, pushBit_shift]
    have hlen : (s.dct.extend (v.getLsbD k)).candLen = BitVec.ofNat 8 (l - k) := by
      apply BitVec.eq_of_toNat_eq
      simp only [Dct.extend, BitVec.toNat_add, hcl, BitVec.toNat_ofNat, show (1 : Byte).toNat = 1 from rfl]
      omega
    have hlk : ∀ a b, (s.dct.extend (v.getLsbD k)).lookup a b = s.dct.lookup a b := fun _ _ => rfl
    rw [decMatch, h1, Flow.bind_done]
    simp only [State.setBr_dct, hlen, hcand, hlk]
    by_cases h0 : k = 0
    · subst h0
      have : v >>> 0 = v := by simp
      rw [this, Nat.sub_zero, hyes]
      refine ⟨r, rfl, by simpa [codeBits] using h2, h3⟩
    · rw [hno k (by omega) (by omega)]
      have hne : ¬ BitVec.ofNat 8 (l - k) = s.dct.maxlen := by
        intro he
        rw [← he] at hm
        simp only [BitVec.toNat_ofNat] at hm
        omega
      simp only [if_neg hne]
      obtain ⟨r', h4, h5, h6⟩ := ih fuel (s := (s.setBr r).setDct (s.dct.extend (v.getLsbD k))) h3 h2
        (by omega) (by omega) (by omega) hcand
        (by rw [State.setDct_dct, hlen, BitVec.toNat_ofNat]; omega) hm
        (fun j hj hjk => hno j hj (by omega)) hyes
      exact ⟨r', h4, h5, h6⟩

/-- A symbol whose code comes next is decoded and emitted. -/
theorem decDecodeSymbol_code {l : Nat} {v : Code} {i : Nat} {rest : List Bool} {s : State} (h : s.br.Readable)
    (hp : s.br.pendingBits = codeBits l v ++ rest) (hl : 1 ≤ l) (hm : l ≤ s.dct.maxlen.toNat) (hv : v.toNat < 2 ^ l)
    (hno : ∀ j, 0 < j → j < l → s.dct.lookup (BitVec.ofNat 8 (l - j)) (v >>> j) = none)
    (hyes : s.dct.lookup (BitVec.ofNat 8 l) v = some i) :
    ∃ r, decDecodeSymbol s = .done (some (tableGet s.dct.alpha i))
        (((s.setBr r).emit (tableGet s.dct.alpha i)).setDct s.dct.clearCand) ∧
      r.pendingBits = rest ∧ r.Readable := by
  have ha : s.br.avail = l + rest.length := by
    rw [Br.avail_eq_length h, hp]; simp
  have hmax := s.dct.maxlen.isLt
  obtain ⟨r, h1, h2, h3⟩ := decMatch_code (s := s.setDct s.dct.clearCand) l (s.br.avail + 1) h hp hl (le_refl l)
    (by omega) (by omega) (by rw [code_shift_eq_zero hv]; rfl) (by simp [Dct.clearCand]) hm hno hyes
  refine ⟨r, ?_, h2, h3⟩
  rw [decDecodeSymbol, if_neg (by omega), h1]
  rfl

/-- With no significant bit left the end is found. -/
theorem decDecodeSymbol_end {s : State} (h : s.br.avail = 0) :
    decDecodeSymbol s = .done none (s.setDct s.dct.clearCand.setDone) := by
  rw [decDecodeSymbol, if_pos h]

/-! ### Lookup -/

/-- The position found has the code sought, and no smaller one has (R293). -/
theorem Dct.lookup_eq_some {d : Dct} {l : Byte} {v : Code} {i : Nat} :
    d.lookup l v = some i ↔
      i < d.asize.toNat ∧ tableGet d.len i = l ∧ tableGet d.code i = v ∧
        ∀ j, j < i → ¬ (tableGet d.len j = l ∧ tableGet d.code j = v) := by
  rw [Dct.lookup, List.find?_range_eq_some]
  simp only [Bool.and_eq_true, decide_eq_true_eq, Bool.not_eq_true', Bool.and_eq_false_iff, decide_eq_false_iff_not,
    List.mem_range]
  constructor
  · rintro ⟨⟨h1, h2⟩, h3, h4⟩
    exact ⟨h3, h1, h2, fun j hj hc => by have := h4 j hj; tauto⟩
  · rintro ⟨h3, h1, h2, h4⟩
    exact ⟨⟨h1, h2⟩, h3, fun j hj => by have := h4 j hj; tauto⟩

theorem Dct.lookup_eq_none {d : Dct} {l : Byte} {v : Code} :
    d.lookup l v = none ↔ ∀ i, i < d.asize.toNat → ¬ (tableGet d.len i = l ∧ tableGet d.code i = v) := by
  simp [Dct.lookup]

end Sys2Proof.Machine
end

