-- ==== Sys2Proof/Laws/Canonical.lean ====
section
/-! SUPPORT. The canonical code of a length table: under Kraft's inequality its codes fit their lengths and none is the
beginning of another (42_canonical_codes.md R200 to R207). -/

namespace Sys2Proof.Machine

theorem lengthOf_le (len : Table 8) (s : Nat) : lengthOf len s ≤ 255 := by
  have := (tableGet len s).isLt
  simp only [lengthOf]; omega

theorem lengthOf_of_ge (len : Table 8) {s : Nat} (h : 256 ≤ s) : lengthOf len s = 0 := by
  simp [lengthOf, tableGet_of_ge _ h]

/-- The number of symbols of length l. -/
def lengthCount (len : Table 8) (l : Nat) : Nat := (symbolsOfLength len l).length

theorem mem_symbolsOfLength {len : Table 8} {l s : Nat} :
    s ∈ symbolsOfLength len l ↔ s < 256 ∧ lengthOf len s = l := by
  simp [symbolsOfLength]

theorem symbolsOfLength_nodup (len : Table 8) (l : Nat) : (symbolsOfLength len l).Nodup := List.nodup_range.filter _

theorem lengthCount_le (len : Table 8) (l : Nat) : lengthCount len l ≤ 256 := by
  have := List.length_filter_le (fun s => lengthOf len s == l) (List.range 256)
  simpa [lengthCount, symbolsOfLength] using this

theorem countTable_toNat (len : Table 8) {l : Nat} (h0 : l ≠ 0) (h : l < 256) :
    (tableGet (countTable len) l).toNat = lengthCount len l := by
  have := lengthCount_le len l
  simp only [countTable, tableGet_tableOf _ h, if_neg h0, BitVec.toNat_ofNat, lengthCount] at *
  omega

theorem countTable_zero (len : Table 8) : tableGet (countTable len) 0 = 0 := by
  simp [countTable, tableGet_tableOf]

/-! ### max_length -/

theorem foldl_max_spec (f : Nat → Nat) (xs : List Nat) (m : Nat) :
    m ≤ xs.foldl (fun a x => max a (f x)) m ∧ (∀ x ∈ xs, f x ≤ xs.foldl (fun a x => max a (f x)) m) ∧
      (xs.foldl (fun a x => max a (f x)) m = m ∨ ∃ x ∈ xs, xs.foldl (fun a x => max a (f x)) m = f x) := by
  induction xs generalizing m with
  | nil => simp
  | cons y ys ih =>
    obtain ⟨h1, h2, h3⟩ := ih (max m (f y))
    simp only [List.foldl_cons]
    refine ⟨le_trans (le_max_left _ _) h1, ?_, ?_⟩
    · intro x hx
      rcases List.mem_cons.mp hx with rfl | hx
      · exact le_trans (le_max_right _ _) h1
      · exact h2 x hx
    · rcases h3 with h3 | ⟨x, hx, h3⟩
      · rcases le_total (f y) m with h | h
        · left; rw [h3, max_eq_left h]
        · right; exact ⟨y, by simp, by rw [h3, max_eq_right h]⟩
      · right; exact ⟨x, by simp [hx], h3⟩

/-- No length is above max_length (R200). -/
theorem lengthOf_le_maxLength (len : Table 8) (s : Nat) : lengthOf len s ≤ maxLength len := by
  by_cases h : s < 256
  · exact (foldl_max_spec (lengthOf len) (List.range 256) 0).2.1 s (by simpa using h)
  · rw [lengthOf_of_ge _ (by omega)]; omega

/-- max_length is the length of some symbol, or 0 when every length is 0 (R200). -/
theorem maxLength_attained (len : Table 8) : maxLength len = 0 ∨ ∃ s, s < 256 ∧ lengthOf len s = maxLength len := by
  rcases (foldl_max_spec (lengthOf len) (List.range 256) 0).2.2 with h | ⟨s, hs, h⟩
  · exact .inl h
  · exact .inr ⟨s, by simpa using hs, h.symm⟩

theorem maxLength_le (len : Table 8) : maxLength len ≤ 255 := by
  rcases maxLength_attained len with h | ⟨s, -, h⟩
  · omega
  · rw [← h]; exact lengthOf_le len s

theorem lengthCount_of_gt (len : Table 8) {l : Nat} (h : maxLength len < l) : lengthCount len l = 0 := by
  rw [lengthCount, List.length_eq_zero_iff]
  apply List.eq_nil_iff_forall_not_mem.mpr
  intro s hs
  have := lengthOf_le_maxLength len s
  rw [(mem_symbolsOfLength.mp hs).2] at this
  omega

/-! ### Kraft -/

/-- The Kraft sum of the lengths up to l, in units of 2^−255. -/
def kraftUpTo (len : Table 8) (l : Nat) : Nat := ((List.range' 1 l).map fun j => lengthCount len j * 2 ^ (255 - j)).sum

/-- Kraft's inequality. -/
def KraftOk (len : Table 8) : Prop := kraftUpTo len 255 ≤ 2 ^ 255

theorem kraftUpTo_succ (len : Table 8) (l : Nat) :
    kraftUpTo len (l + 1) = kraftUpTo len l + lengthCount len (l + 1) * 2 ^ (255 - (l + 1)) := by
  simp [kraftUpTo, List.range'_1_concat, Nat.add_comm]

theorem kraftUpTo_mono (len : Table 8) {l m : Nat} (h : l ≤ m) : kraftUpTo len l ≤ kraftUpTo len m := by
  induction m with
  | zero => rw [Nat.le_zero.mp h]
  | succ m ih =>
    rcases Nat.lt_or_ge l (m + 1) with h1 | h1
    · rw [kraftUpTo_succ]
      have := ih (by omega)
      omega
    · rw [show l = m + 1 by omega]

/-- first[l], left-aligned, is the Kraft sum of the shorter lengths. -/
theorem firstCode_kraft (len : Table 8) {l : Nat} (h : l + 1 ≤ 255) :
    firstCode (countTable len) (l + 1) * 2 ^ (255 - (l + 1)) = kraftUpTo len l := by
  induction l with
  | zero => simp [firstCode, kraftUpTo]
  | succ l ih =>
    have h1 := ih (by omega)
    rw [firstCode, countTable_toNat _ (by omega) (by omega), Nat.shiftLeft_eq, kraftUpTo_succ, ← h1,
      show 255 - (l + 1) = (255 - (l + 1 + 1)) + 1 by omega, pow_succ]
    ring

theorem rankOf_lt (len : Table 8) {s : Nat} (h : s < 256) : rankOf len s < lengthCount len (lengthOf len s) := by
  have h2 : List.Sublist (List.range (s + 1)) (List.range 256) := List.range_sublist.mpr (by omega)
  have h3 := (h2.filter fun r => lengthOf len r == lengthOf len s).length_le
  rw [List.range_succ, List.filter_append] at h3
  simp only [lengthCount, symbolsOfLength, rankOf]
  simpa using h3

theorem rankOf_mono (len : Table 8) {s t : Nat} (h : s < t) (hl : lengthOf len s = lengthOf len t) :
    rankOf len s < rankOf len t := by
  have h2 : List.Sublist (List.range (s + 1)) (List.range t) := List.range_sublist.mpr (by omega)
  have h3 := (h2.filter fun r => lengthOf len r == lengthOf len s).length_le
  rw [List.range_succ, List.filter_append] at h3
  simp only [rankOf, ← hl]
  simpa using h3

/-- The code value of a symbol as a number, first[l] + k (R203). -/
def codeNat (len : Table 8) (s : Nat) : Nat := firstCode (countTable len) (lengthOf len s) + rankOf len s

/-- A code, left-aligned, is at least the Kraft sum of the shorter lengths, and its successor at most that of its own. -/
theorem codeNat_interval (len : Table 8) {s : Nat} (hs : s < 256) (h : lengthOf len s ≠ 0) :
    kraftUpTo len (lengthOf len s - 1) ≤ codeNat len s * 2 ^ (255 - lengthOf len s) ∧
      (codeNat len s + 1) * 2 ^ (255 - lengthOf len s) ≤ kraftUpTo len (lengthOf len s) := by
  obtain ⟨l, hl⟩ : ∃ l, lengthOf len s = l + 1 := Nat.exists_eq_succ_of_ne_zero h
  have hle := lengthOf_le len s
  have hf := firstCode_kraft len (l := l) (by omega)
  have hr := rankOf_lt len hs
  rw [hl] at hr
  simp only [codeNat, hl, Nat.add_sub_cancel, kraftUpTo_succ, ← hf]
  constructor
  · exact Nat.mul_le_mul_right _ (by omega)
  · rw [← Nat.add_mul]
    exact Nat.mul_le_mul_right _ (by omega)

/-- Every code value fits its length (R205). -/
theorem codeNat_lt {len : Table 8} (hk : KraftOk len) {s : Nat} (hs : s < 256) (h : lengthOf len s ≠ 0) :
    codeNat len s < 2 ^ lengthOf len s := by
  have h1 := (codeNat_interval len hs h).2
  have hle := lengthOf_le len s
  have h2 := le_trans h1 (le_trans (kraftUpTo_mono len hle) hk)
  have h3 : 2 ^ 255 = 2 ^ lengthOf len s * 2 ^ (255 - lengthOf len s) := by
    rw [← pow_add]; congr 1; omega
  rw [h3] at h2
  exact Nat.lt_of_succ_le (Nat.le_of_mul_le_mul_right h2 (by positivity))

/-- enc_code[s] is that number. -/
theorem codeTable_toNat {len : Table 8} (hk : KraftOk len) {s : Nat} (hs : s < 256) (h : lengthOf len s ≠ 0) :
    (tableGet (codeTable len) s).toNat = codeNat len s := by
  have h1 := codeNat_lt hk hs h
  have hle := lengthOf_le len s
  have h2 : 2 ^ lengthOf len s ≤ 2 ^ 255 := Nat.pow_le_pow_right (by omega) hle
  simp only [codeTable, tableGet_tableOf _ hs, if_neg h, BitVec.toNat_ofNat]
  exact Nat.mod_eq_of_lt (lt_of_lt_of_le h1 h2)

/-- A code of a shorter length, left-aligned, with its successor, stays below every longer code. -/
theorem codeNat_lt_of_length_lt (len : Table 8) {s t : Nat} (hs : s < 256) (ht : t < 256) (h : lengthOf len s ≠ 0)
    (hl : lengthOf len s < lengthOf len t) :
    (codeNat len s + 1) * 2 ^ (lengthOf len t - lengthOf len s) ≤ codeNat len t := by
  have h1 := (codeNat_interval len hs h).2
  have h2 := (codeNat_interval len ht (by omega)).1
  have h3 := le_trans h1 (le_trans (kraftUpTo_mono len (by omega)) h2)
  have hle := lengthOf_le len t
  have h4 : 2 ^ (255 - lengthOf len s) = 2 ^ (lengthOf len t - lengthOf len s) * 2 ^ (255 - lengthOf len t) := by
    rw [← pow_add]; congr 1; omega
  rw [h4, ← Nat.mul_assoc] at h3
  exact Nat.le_of_mul_le_mul_right h3 (by positivity)

theorem codeNat_inj_of_length_eq (len : Table 8) {s t : Nat} (hl : lengthOf len s = lengthOf len t)
    (hc : codeNat len s = codeNat len t) : s = t := by
  simp only [codeNat, hl] at hc
  rcases Nat.lt_trichotomy s t with h | h | h
  · have := rankOf_mono len h hl; omega
  · exact h
  · have := rankOf_mono len h hl.symm; omega

/-- Prefix-free: if the first bits of t's code are s's code then s = t (R206). -/
theorem codeNat_prefix_free (len : Table 8) {s t : Nat} (hs : s < 256) (ht : t < 256) (h : lengthOf len s ≠ 0)
    (hl : lengthOf len s ≤ lengthOf len t)
    (hp : codeNat len t / 2 ^ (lengthOf len t - lengthOf len s) = codeNat len s) : s = t := by
  rcases Nat.lt_or_ge (lengthOf len s) (lengthOf len t) with h1 | h1
  · have h2 := codeNat_lt_of_length_lt len hs ht h h1
    have h3 := (Nat.le_div_iff_mul_le (by positivity)).mpr h2
    omega
  · have he : lengthOf len s = lengthOf len t := by omega
    rw [he, Nat.sub_self, pow_zero, Nat.div_one] at hp
    exact codeNat_inj_of_length_eq len he hp.symm

/-! ### The canonical alphabet -/

/-- The symbols that have a code, ascending. -/
def codedSymbols (len : Table 8) : List Nat := (List.range 256).filter fun s => lengthOf len s != 0

theorem mem_codedSymbols {len : Table 8} {s : Nat} : s ∈ codedSymbols len ↔ s < 256 ∧ lengthOf len s ≠ 0 := by
  simp [codedSymbols]

theorem mem_canonicalAlphabet {len : Table 8} {s : Nat} :
    s ∈ canonicalAlphabet len ↔ s < 256 ∧ lengthOf len s ≠ 0 := by
  simp only [canonicalAlphabet, List.mem_flatMap, List.mem_range'_1, mem_symbolsOfLength]
  constructor
  · rintro ⟨l, ⟨h1, h2⟩, h3, h4⟩; exact ⟨h3, by omega⟩
  · rintro ⟨h1, h2⟩
    have := lengthOf_le_maxLength len s
    exact ⟨lengthOf len s, ⟨by omega, by omega⟩, h1, rfl⟩

theorem canonicalAlphabet_nodup (len : Table 8) : (canonicalAlphabet len).Nodup := by
  rw [canonicalAlphabet, List.nodup_flatMap]
  refine ⟨fun l _ => symbolsOfLength_nodup len l, ?_⟩
  refine List.Pairwise.imp ?_ List.nodup_range'
  intro a b hab s hs ht
  rw [mem_symbolsOfLength] at hs ht
  exact hab (hs.2.symm.trans ht.2)

/-- The canonical alphabet lists every symbol that has a code exactly once (R207). -/
theorem canonicalAlphabet_perm (len : Table 8) : (canonicalAlphabet len).Perm (codedSymbols len) := by
  refine (List.perm_ext_iff_of_nodup (canonicalAlphabet_nodup len) (List.nodup_range.filter _)).mpr ?_
  intro s
  rw [← codedSymbols]
  rw [mem_canonicalAlphabet, mem_codedSymbols]

/-- In canonical order the lengths are count[1] ones, count[2] twos, … -/
theorem canonicalAlphabet_lengths (len : Table 8) :
    (canonicalAlphabet len).map (lengthOf len) =
      (List.range' 1 (maxLength len)).flatMap fun l => List.replicate (lengthCount len l) l := by
  simp only [canonicalAlphabet, List.map_flatMap]
  congr 1
  funext l
  rw [lengthCount]
  apply List.eq_replicate_iff.mpr
  refine ⟨by simp, ?_⟩
  intro b hb
  obtain ⟨s, hs, rfl⟩ := List.mem_map.mp hb
  exact (mem_symbolsOfLength.mp hs).2

/-- The counts sum to the number of symbols that have a code (R207). -/
theorem lengthCount_sum (len : Table 8) :
    ((List.range' 1 (maxLength len)).map (lengthCount len)).sum = (codedSymbols len).length := by
  rw [← (canonicalAlphabet_perm len).length_eq, canonicalAlphabet, List.length_flatMap]
  rfl

theorem canonicalAlphabet_length_le (len : Table 8) : (canonicalAlphabet len).length ≤ 256 := by
  rw [(canonicalAlphabet_perm len).length_eq, codedSymbols]
  simpa using List.length_filter_le (fun s => lengthOf len s != 0) (List.range 256)

theorem alphaTable_get (len : Table 8) {i : Nat} (h : i < (canonicalAlphabet len).length) :
    (tableGet (alphaTable len) i).toNat = (canonicalAlphabet len)[i] := by
  have h1 := canonicalAlphabet_length_le len
  have h2 := (mem_canonicalAlphabet.mp (List.getElem_mem h)).1
  simp only [alphaTable, tableGet_tableOf _ (show i < 256 by omega), List.getElem?_eq_getElem h, Option.getD_some,
    BitVec.toNat_ofNat]
  omega

theorem alphaTable_beyond (len : Table 8) {i : Nat} (h : (canonicalAlphabet len).length ≤ i) :
    tableGet (alphaTable len) i = 0 := by
  by_cases h1 : i < 256
  · simp [alphaTable, tableGet_tableOf _ h1, List.getElem?_eq_none h]
  · exact tableGet_of_ge _ (by omega)

/-! ### Kraft by symbol -/

theorem sum_range'_ite (N x : Nat) (g : Nat → Nat) :
    ((List.range' 1 N).map fun l => if x = l then g l else 0).sum = if 1 ≤ x ∧ x ≤ N then g x else 0 := by
  induction N with
  | zero =>
    rw [if_neg (by omega)]; rfl
  | succ N ih =>
    rw [List.range'_1_concat, List.map_append, List.sum_append, ih]
    by_cases h : x = 1 + N
    · subst h
      rw [if_neg (by omega), if_pos (by omega)]
      simp
    · have : (1 ≤ x ∧ x ≤ N) ↔ (1 ≤ x ∧ x ≤ N + 1) := by omega
      simp [h, this]

theorem sum_by_length (f g : Nat → Nat) (xs : List Nat) (N : Nat) (h : ∀ x ∈ xs, f x ≤ N) :
    ((List.range' 1 N).map fun l => (xs.filter fun x => f x == l).length * g l).sum =
      ((xs.filter fun x => f x != 0).map fun x => g (f x)).sum := by
  induction xs with
  | nil => simp
  | cons x xs ih =>
    have h1 := ih fun y hy => h y (List.mem_cons_of_mem _ hy)
    have h2 : ((List.range' 1 N).map fun l => ((x :: xs).filter fun y => f y == l).length * g l) =
        (List.range' 1 N).map fun l => (if f x = l then g l else 0) + (xs.filter fun y => f y == l).length * g l := by
      apply List.map_congr_left
      intro l _
      by_cases hl : f x = l
      · simp [hl]; ring
      · simp [hl]
    rw [h2, List.sum_map_add, sum_range'_ite, h1]
    have hx := h x List.mem_cons_self
    by_cases h0 : f x = 0
    · simp [h0]
    · rw [if_pos (by omega)]
      simp [h0]

/-- The Kraft sum, counted by symbol. -/
theorem kraftUpTo_eq (len : Table 8) :
    kraftUpTo len 255 = ((codedSymbols len).map fun s => 2 ^ (255 - lengthOf len s)).sum := by
  exact sum_by_length (lengthOf len) (fun l => 2 ^ (255 - l)) (List.range 256) 255 fun s _ => lengthOf_le len s

/-- The statements' count is the model's (R201). -/
theorem symbolCount_eq (len : Table 8) (l : Nat) : symbolCount len l = lengthCount len l := by
  simp only [symbolCount, lengthCount, symbolsOfLength]
  congr 1

/-- The statements' rank is the model's (R203). -/
theorem symbolRank_eq (len : Table 8) (x : Nat) : symbolRank len x = rankOf len x := by
  simp only [symbolRank, rankOf, lengthOf]
  congr 1
  apply List.filter_congr
  intro y _
  rw [Bool.eq_iff_iff]; simp [BitVec.toNat_inj]

/-- The statements' first code is the model's (R203). -/
theorem firstOf_eq (len : Table 8) (l : Nat) (hl : l ≤ 255) :
    firstOf (symbolCount len) l = firstCode (countTable len) l := by
  induction l with
  | zero => rfl
  | succ l ih =>
    cases l with
    | zero => rfl
    | succ l =>
      rw [firstOf, if_neg (by omega), ih (by omega), firstCode, countTable_toNat _ (by omega) (by omega), symbolCount_eq, Nat.shiftLeft_eq]
      omega

/-- The canonical alphabet is in order of (length, symbol) (R202). -/
theorem canonicalAlphabet_sorted (len : Table 8) :
    (canonicalAlphabet len).Pairwise fun x y => lengthOf len x < lengthOf len y ∨ (lengthOf len x = lengthOf len y ∧
    x < y) := by
  rw [canonicalAlphabet, List.pairwise_flatMap]
  constructor
  · intro l _
    rw [symbolsOfLength]
    have : (List.range 256).Pairwise (· < ·) := List.pairwise_lt_range
    refine ((this.filter _).imp_of_mem ?_)
    intro a b ha hb hab
    simp only [List.mem_filter, beq_iff_eq] at ha hb
    right; exact ⟨ha.2.trans hb.2.symm, hab⟩
  · refine (List.pairwise_lt_range' (s := 1) (n := maxLength len)).imp ?_
    intro a b hab x hx y hy
    rw [mem_symbolsOfLength] at hx hy
    left; omega

/-- The codes in the statements' terms (R203). -/
theorem codeTable_formula (len : Table 8) (hk : KraftOk len) (x : Byte) : (tableGet (codeTable len) x.toNat).toNat =
   if tableGet len x.toNat = 0 then 0 else firstOf (symbolCount len)
    (tableGet len x.toNat).toNat + symbolRank len x.toNat := by
  by_cases h0 : lengthOf len x.toNat = 0
  · have h00 : tableGet len x.toNat = 0 := by
      rw [lengthOf] at h0; exact BitVec.eq_of_toNat_eq h0
    rw [if_pos h00, codeTable, tableGet_tableOf_byte, if_pos h0]; rfl
  · have h00 : ¬ tableGet len x.toNat = 0 := by
      intro h; rw [lengthOf, h] at h0; exact h0 rfl
    rw [if_neg h00, codeTable_toNat hk x.isLt h0, codeNat]
    have := lengthOf_le len x.toNat
    have e : (tableGet len x.toNat).toNat = lengthOf len x.toNat := rfl
    rw [e, firstOf_eq _ _ this, symbolRank_eq]

end Sys2Proof.Machine
end

