-- ==== Sys2Proof/Laws/Tree.lean ====
section
/-! SUPPORT. The tree builder: the heap pops the smallest node and loses none, merging keeps the symbols, and the depths of a
tree meet Kraft's equality (41_tree_builder.md R180 to R186). -/

namespace Sys2Proof.Machine

/-! ### The alphabet -/

theorem mem_symbols (s : Byte) : s ∈ symbols := by
  simp only [symbols, List.mem_map, List.mem_range]
  exact ⟨s.toNat, s.isLt, by simp⟩

theorem symbols_nodup : symbols.Nodup := by decide +kernel

theorem mem_alphabet {freq : Table 32} {s : Byte} : s ∈ alphabet freq ↔ tableGet freq s.toNat ≠ 0 := by
  simp only [alphabet, List.mem_filter, mem_symbols, true_and, decide_eq_true_eq, ne_eq]
  rw [← BitVec.toNat_inj]
  exact Nat.pos_iff_ne_zero

theorem alphabet_nodup (freq : Table 32) : (alphabet freq).Nodup := symbols_nodup.filter _

theorem alphabet_length_le (freq : Table 32) : (alphabet freq).length ≤ 256 := by
  have := List.length_filter_le (fun s : Byte => decide (0 < (tableGet freq s.toNat).toNat)) symbols
  simpa [alphabet, symbols] using this

/-! ### The heap -/

theorem heapPopMin_eq_none {h : List HeapNode} : heapPopMin h = none ↔ h = [] := by
  cases h with
  | nil => simp [heapPopMin]
  | cons x xs =>
    simp only [heapPopMin]
    split
    · simp
    · split <;> simp

/-- A pop takes one node out and keeps the others. -/
theorem heapPopMin_perm {h : List HeapNode} {m : HeapNode} {rest : List HeapNode} (hp : heapPopMin h = some (m, rest)) :
    h.Perm (m :: rest) := by
  induction h generalizing m rest with
  | nil => simp [heapPopMin] at hp
  | cons x xs ih =>
    simp only [heapPopMin] at hp
    split at hp
    · next h0 => cases hp; exact List.Perm.refl _
    · next m' rest' h0 =>
      split at hp
      · cases hp
        exact ((ih h0).cons x).trans (List.Perm.swap _ _ _)
      · cases hp; exact List.Perm.refl _

/-- The order of the queue is total and transitive. -/
theorem HeapNode.not_before_trans {a b c : HeapNode} (h1 : a.before b = false) (h2 : b.before c = false) :
    a.before c = false := by
  simp only [HeapNode.before, Bool.or_eq_false_iff, decide_eq_false_iff_not, Bool.and_eq_false_iff] at *
  omega

theorem HeapNode.not_before_of_before {a b : HeapNode} (h : a.before b = true) : b.before a = false := by
  simp only [HeapNode.before, Bool.or_eq_false_iff, decide_eq_false_iff_not, Bool.and_eq_false_iff, Bool.or_eq_true,
    Bool.and_eq_true, decide_eq_true_eq] at *
  omega

theorem HeapNode.not_before_self (a : HeapNode) : a.before a = false := by
  simp [HeapNode.before]

/-- A pop takes a smallest node: no node of the heap comes before it (R180). -/
theorem heapPopMin_min {h : List HeapNode} {m : HeapNode} {rest : List HeapNode} (hp : heapPopMin h = some (m, rest)) :
    ∀ x ∈ h, x.before m = false := by
  induction h generalizing m rest with
  | nil => simp [heapPopMin] at hp
  | cons y ys ih =>
    simp only [heapPopMin] at hp
    split at hp
    · next h0 =>
      cases hp
      rw [heapPopMin_eq_none] at h0
      subst h0
      simp [HeapNode.not_before_self]
    · next m' rest' h0 =>
      split at hp
      · next hb =>
        cases hp
        intro x hx
        rcases List.mem_cons.mp hx with rfl | hx
        · exact HeapNode.not_before_of_before hb
        · exact ih h0 x hx
      · next hb =>
        cases hp
        intro x hx
        rcases List.mem_cons.mp hx with rfl | hx
        · exact HeapNode.not_before_self x
        · exact HeapNode.not_before_trans (ih h0 x hx) (by simpa using hb)

/-! ### Trees -/

/-- The symbols of a tree. -/
def CodeTree.syms : CodeTree → List Byte
  | .leaf s => [s]
  | .node c0 c1 => c0.syms ++ c1.syms

theorem CodeTree.syms_pos (t : CodeTree) : 1 ≤ t.syms.length := by
  induction t with
  | leaf s => simp [CodeTree.syms]
  | node c0 c1 h0 h1 => simp [CodeTree.syms]; omega

theorem CodeTree.depths_syms (t : CodeTree) (d : Nat) : (t.depths d).map Prod.fst = t.syms := by
  induction t generalizing d with
  | leaf s => rfl
  | node c0 c1 h0 h1 => simp [CodeTree.depths, CodeTree.syms, h0, h1]

/-- A tree with n leaves has depth at most n − 1 (R186 item 1). -/
theorem CodeTree.depths_bound (t : CodeTree) (d : Nat) :
    ∀ p ∈ t.depths d, d ≤ p.2 ∧ p.2 + 1 ≤ d + t.syms.length := by
  induction t generalizing d with
  | leaf s => simp [CodeTree.depths, CodeTree.syms]
  | node c0 c1 h0 h1 =>
    intro p hp
    simp only [CodeTree.depths, List.mem_append] at hp
    have p0 := c0.syms_pos
    have p1 := c1.syms_pos
    simp only [CodeTree.syms, List.length_append]
    rcases hp with hp | hp
    · have := h0 (d + 1) p hp; omega
    · have := h1 (d + 1) p hp; omega

/-- An internal root puts every leaf at depth 1 or more. -/
theorem CodeTree.depths_pos {t : CodeTree} (h : 2 ≤ t.syms.length) : ∀ p ∈ t.depths 0, 1 ≤ p.2 := by
  cases t with
  | leaf s => simp [CodeTree.syms] at h
  | node c0 c1 =>
    intro p hp
    simp only [CodeTree.depths, List.mem_append] at hp
    rcases hp with hp | hp
    · exact (c0.depths_bound 1 p hp).1
    · exact (c1.depths_bound 1 p hp).1

/-- The Kraft sum of symbols with lengths, in units of 2^−D. -/
def kraftSum (D : Nat) (ls : List (Byte × Nat)) : Nat := (ls.map fun p => 2 ^ (D - p.2)).sum

theorem CodeTree.kraft (t : CodeTree) (D d : Nat) (h : d + t.syms.length ≤ D + 1) :
    kraftSum D (t.depths d) = 2 ^ (D - d) := by
  induction t generalizing d with
  | leaf s => simp [CodeTree.depths, kraftSum]
  | node c0 c1 h0 h1 =>
    simp only [CodeTree.syms, List.length_append] at h
    have p0 := c0.syms_pos
    have p1 := c1.syms_pos
    have e0 := h0 (d + 1) (by omega)
    have e1 := h1 (d + 1) (by omega)
    simp only [kraftSum] at e0 e1
    simp only [CodeTree.depths, kraftSum, List.map_append, List.sum_append, e0, e1]
    rw [show D - d = (D - (d + 1)) + 1 by omega, pow_succ]
    omega

/-! ### Merging -/

/-- The symbols of all trees in the heap. -/
def heapSyms (h : List HeapNode) : List Byte := h.flatMap fun x => x.tree.syms

theorem heapSyms_perm {h k : List HeapNode} (p : h.Perm k) : (heapSyms h).Perm (heapSyms k) := p.flatMap_right _

/-- Merging loses no symbol, and k merges leave k nodes less. -/
theorem mergeNodes_spec (k next : Nat) (h : List HeapNode) (hk : k < h.length) :
    (heapSyms (mergeNodes k next h)).Perm (heapSyms h) ∧ (mergeNodes k next h).length = h.length - k := by
  induction k generalizing next h with
  | zero => exact ⟨List.Perm.refl _, rfl⟩
  | succ k ih =>
    simp only [mergeNodes]
    split
    · next h0 => rw [heapPopMin_eq_none] at h0; subst h0; simp at hk
    · next a h1 h0 =>
      have p0 := heapPopMin_perm h0
      have l0 := p0.length_eq
      simp only [List.length_cons] at l0
      split
      · next h2 => rw [heapPopMin_eq_none] at h2; subst h2; simp at l0; omega
      · next b h2 h3 =>
        have p1 := heapPopMin_perm h3
        have l1 := p1.length_eq
        simp only [List.length_cons] at l1
        obtain ⟨q, l⟩ := ih (next + 1)
          ({ weight := a.weight + b.weight, index := next, tree := .node a.tree b.tree } :: h2) (by simp; omega)
        refine ⟨q.trans ?_, by rw [l]; simp; omega⟩
        have := heapSyms_perm (p0.trans (p1.cons a))
        refine List.Perm.trans ?_ this.symm
        simp [heapSyms, CodeTree.syms]

theorem heapSyms_leafNodes (freq : Table 32) : heapSyms (leafNodes freq) = alphabet freq := by
  have : ∀ (l : List Byte) (f : Nat → Byte → HeapNode), (∀ k s, (f k s).tree = .leaf s) →
      heapSyms (l.mapIdx f) = l := by
    intro l
    induction l with
    | nil => intro f _; rfl
    | cons s l ih =>
      intro f hf
      have := ih (fun k s => f (k + 1) s) (fun k s => hf (k + 1) s)
      simp only [heapSyms] at this
      simp [List.mapIdx_cons, heapSyms, hf, CodeTree.syms, this]
  exact this _ _ fun _ _ => rfl

theorem leafNodes_length (freq : Table 32) : (leafNodes freq).length = (alphabet freq).length := by
  simp [leafNodes]

/-! ### The lengths -/

/-- The tree of an alphabet of two symbols or more. -/
theorem symbolLengths_tree {freq : Table 32} (h : 2 ≤ (alphabet freq).length) :
    ∃ t : CodeTree, symbolLengths freq = t.depths 0 ∧ t.syms.Perm (alphabet freq) := by
  have hs := mergeNodes_spec ((alphabet freq).length - 1) (alphabet freq).length (leafNodes freq)
    (by rw [leafNodes_length]; omega)
  rw [heapSyms_leafNodes, leafNodes_length] at hs
  obtain ⟨hp, hl⟩ := hs
  have h1 : (mergeNodes ((alphabet freq).length - 1) (alphabet freq).length (leafNodes freq)).length = 1 := by omega
  obtain ⟨root, hr⟩ := List.length_eq_one_iff.mp h1
  refine ⟨root.tree, ?_, ?_⟩
  · unfold symbolLengths
    split
    · next h0 => simp [h0] at h
    · next s h0 => simp [h0] at h
    · rw [hr]
  · rw [hr] at hp
    simpa [heapSyms] using hp

/-- The symbols that get a length are the alphabet. -/
theorem symbolLengths_syms (freq : Table 32) : ((symbolLengths freq).map Prod.fst).Perm (alphabet freq) := by
  by_cases h : 2 ≤ (alphabet freq).length
  · obtain ⟨t, h1, h2⟩ := symbolLengths_tree h
    rw [h1, t.depths_syms]; exact h2
  · unfold symbolLengths
    split
    · next h0 => simp [h0]
    · next s h0 => simp [h0]
    · next a b c h0 => simp [h0] at h

/-- Each length is between 1 and max(n − 1, 1) (R186 item 1). -/
theorem symbolLengths_bound (freq : Table 32) :
    ∀ p ∈ symbolLengths freq, 1 ≤ p.2 ∧ p.2 ≤ max ((alphabet freq).length - 1) 1 := by
  by_cases h : 2 ≤ (alphabet freq).length
  · obtain ⟨t, h1, h2⟩ := symbolLengths_tree h
    rw [h1]
    intro p hp
    have := t.depths_bound 0 p hp
    rw [h2.length_eq] at this
    exact ⟨CodeTree.depths_pos (by rw [h2.length_eq]; exact h) p hp, by omega⟩
  · unfold symbolLengths
    split
    · simp
    · simp
    · next a b c h0 => simp [h0] at h

/-- The Kraft sum is exactly 1 for two symbols or more, in units of 2^−255 (R186 item 2). -/
theorem symbolLengths_kraft {freq : Table 32} (h : 2 ≤ (alphabet freq).length) :
    kraftSum 255 (symbolLengths freq) = 2 ^ 255 := by
  obtain ⟨t, h1, h2⟩ := symbolLengths_tree h
  have := alphabet_length_le freq
  rw [h1, t.kraft 255 0 (by rw [h2.length_eq]; omega)]

theorem lookup_of_mem {ls : List (Byte × Nat)} (hn : (ls.map Prod.fst).Nodup) {s : Byte} {k : Nat} (h : (s, k) ∈ ls) :
    ls.lookup s = some k := by
  induction ls with
  | nil => simp at h
  | cons p ps ih =>
    obtain ⟨q, j⟩ := p
    simp only [List.map_cons, List.nodup_cons] at hn
    rcases List.mem_cons.mp h with he | hm
    · cases he; simp
    · have hne : (s == q) = false := by
        rw [beq_eq_false_iff_ne]
        rintro rfl
        exact hn.1 (List.mem_map.mpr ⟨(s, k), hm, rfl⟩)
      rw [List.lookup_cons, hne]
      exact ih hn.2 hm

theorem lookup_of_not_mem {ls : List (Byte × Nat)} {s : Byte} (h : s ∉ ls.map Prod.fst) : ls.lookup s = none := by
  induction ls with
  | nil => rfl
  | cons p ps ih =>
    obtain ⟨q, j⟩ := p
    simp only [List.map_cons, List.mem_cons, not_or] at h
    rw [List.lookup_cons, beq_eq_false_iff_ne.mpr h.1]
    exact ih h.2

theorem symbolLengths_nodup (freq : Table 32) : ((symbolLengths freq).map Prod.fst).Nodup :=
  (symbolLengths_syms freq).nodup_iff.mpr (alphabet_nodup freq)

/-- enc_len[s] is the length of s, for a symbol of the alphabet. -/
theorem lengthOf_lengthTable_mem {freq : Table 32} {s : Byte} {k : Nat} (h : (s, k) ∈ symbolLengths freq) :
    lengthOf (lengthTable freq) s.toNat = k := by
  have hb := symbolLengths_bound freq _ h
  have hn := alphabet_length_le freq
  have hl := lookup_of_mem (symbolLengths_nodup freq) h
  rw [lengthOf, lengthTable, tableGet_tableOf_byte]
  simp only [BitVec.ofNat_toNat, BitVec.setWidth_eq, hl, Option.getD_some, BitVec.toNat_ofNat]
  simp only at hb
  omega

/-- enc_len[s] = 0 outside the alphabet. -/
theorem lengthOf_lengthTable_not_mem {freq : Table 32} {s : Byte} (h : s ∉ alphabet freq) :
    lengthOf (lengthTable freq) s.toNat = 0 := by
  have hl : (symbolLengths freq).lookup s = none :=
    lookup_of_not_mem fun hm => h ((symbolLengths_syms freq).mem_iff.mp hm)
  simp only [lengthOf, lengthTable, tableGet_tableOf_byte, BitVec.ofNat_toNat, BitVec.setWidth_eq, hl,
    Option.getD_none]
  rfl

/-- The length of a symbol of the alphabet is one of the lengths found. -/
theorem mem_symbolLengths {freq : Table 32} {s : Byte} (h : s ∈ alphabet freq) :
    (s, lengthOf (lengthTable freq) s.toNat) ∈ symbolLengths freq := by
  have h1 := (symbolLengths_syms freq).mem_iff.mpr h
  obtain ⟨⟨s', k⟩, hp, hs⟩ := List.mem_map.mp h1
  simp only at hs
  subst hs
  rwa [lengthOf_lengthTable_mem hp]

/-- enc_len[s] is not 0 exactly for the symbols of the alphabet, and at most max(n − 1, 1) (R186 item 1). -/
theorem lengthOf_lengthTable_bound {freq : Table 32} {s : Byte} (h : s ∈ alphabet freq) :
    1 ≤ lengthOf (lengthTable freq) s.toNat ∧
      lengthOf (lengthTable freq) s.toNat ≤ max ((alphabet freq).length - 1) 1 :=
  symbolLengths_bound freq _ (mem_symbolLengths h)

theorem lengthOf_lengthTable_pos_iff {freq : Table 32} {s : Byte} :
    lengthOf (lengthTable freq) s.toNat ≠ 0 ↔ s ∈ alphabet freq := by
  constructor
  · intro h
    by_contra hc
    exact h (lengthOf_lengthTable_not_mem hc)
  · intro h
    have := (lengthOf_lengthTable_bound h).1
    omega

/-- The Kraft sum over the alphabet, in units of 2^−255. -/
theorem lengthTable_kraft_sum (freq : Table 32) :
    ((alphabet freq).map fun s => 2 ^ (255 - lengthOf (lengthTable freq) s.toNat)).sum =
      kraftSum 255 (symbolLengths freq) := by
  have h1 : (symbolLengths freq).map (fun p => 2 ^ (255 - p.2)) =
      ((symbolLengths freq).map Prod.fst).map fun s => 2 ^ (255 - lengthOf (lengthTable freq) s.toNat) := by
    rw [List.map_map]
    apply List.map_congr_left
    rintro ⟨s, k⟩ hp
    simp [lengthOf_lengthTable_mem hp]
  rw [kraftSum, h1]
  exact ((symbolLengths_syms freq).map _).sum_eq.symm

/-- Kraft for every alphabet that is not empty: 1 for two symbols or more, 1/2 for one (R186 item 2). -/
theorem lengthTable_kraft (freq : Table 32) (h : alphabet freq ≠ []) :
    ((alphabet freq).map fun s => 2 ^ (255 - lengthOf (lengthTable freq) s.toNat)).sum =
      if (alphabet freq).length = 1 then 2 ^ 254 else 2 ^ 255 := by
  rw [lengthTable_kraft_sum]
  have hp : 0 < (alphabet freq).length := List.length_pos_iff.mpr h
  split
  · next h1 =>
    obtain ⟨s, hs⟩ := List.length_eq_one_iff.mp h1
    simp [symbolLengths, hs, kraftSum]
  · exact symbolLengths_kraft (by omega)

/-- Kraft's sum, scaled to naturals. -/
theorem kraft_scaled (L : Byte → Nat) (D : Nat) (xs : List Byte) (h : ∀ x ∈ xs, L x ≤ D) :
    kraft L xs * 2 ^ D = (((xs.map fun x => 2 ^ (D - L x)).sum : Nat) : ℚ) := by
  induction xs with
  | nil => simp [kraft]
  | cons x xs ih =>
    have := ih (fun y hy => h y (List.mem_cons_of_mem _ hy))
    have hx := h x List.mem_cons_self
    simp only [kraft, List.map_cons, List.sum_cons, Nat.cast_add] at this ⊢
    rw [add_mul, this]
    congr 1
    rw [Nat.cast_pow, pow_sub₀ _ (by norm_num) hx]
    push_cast
    field_simp

/-- The k-th symbol of the alphabet has exactly k smaller ones in it (R180). -/
theorem alphabet_rank (freq : Table 32) (k : Nat) (hk : k < (alphabet freq).length) :
    ((List.range ((alphabet freq)[k]).toNat).filter fun y => decide (0 < (tableGet freq y).toNat)).length = k := by
  have hmap : (alphabet freq).map BitVec.toNat = (List.range 256).filter fun y => decide (0 < (tableGet freq y).toNat) :=
    by
    unfold alphabet symbols
    rw [List.filter_map, List.map_map]
    have : ∀ n, n ≤ 256 → List.map (BitVec.toNat ∘ BitVec.ofNat 8) (List.filter ((fun s : Byte => decide (0 < (tableGet freq s.toNat).toNat)) ∘ BitVec.ofNat 8) (List.range n)) = (List.range n).filter fun y => decide (0 < (tableGet freq y).toNat) :=
      by
      intro n
      induction n with
      | zero => intro _; rfl
      | succ n ih =>
        intro hn
        rw [List.range_succ, List.filter_append, List.map_append, ih (by omega), List.filter_append]
        congr 1
        have h1 : (BitVec.ofNat 8 n).toNat = n := by simp; omega
        simp only [List.filter_cons, List.filter_nil, Function.comp, h1]
        split <;> simp [h1]
    exact this 256 (le_refl _)
  have hlt := (alphabet freq)[k].isLt
  set p := fun y => decide (0 < (tableGet freq y).toNat) with hp
  set v := ((alphabet freq)[k]).toNat with hv
  have hsplit : List.range 256 = List.range v ++ List.range' v (256 - v) := by
    rw [List.range_eq_range', List.range_eq_range']
    have := List.range'_append_1 (s := 0) (m := v) (n := 256 - v)
    rw [Nat.zero_add, show v + (256 - v) = 256 by omega] at this
    exact this.symm
  have hlen : k < ((List.range 256).filter p).length := by rw [← hmap, List.length_map]; exact hk
  have hget : ((List.range 256).filter p)[k] = v := by
    simp only [← hmap, List.getElem_map, hv]
  have hpv : p v = true := by
    have : v ∈ (List.range 256).filter p := by rw [← hget]; exact List.getElem_mem hlen
    exact (List.mem_filter.mp this).2
  have hnd : ((List.range 256).filter p).Nodup := List.nodup_range.filter _
  have hs2 : (List.range 256).filter p = (List.range v).filter p ++ v :: (List.range' (v+1) (256 - v - 1)).filter p := by
    rw [hsplit, List.filter_append]
    congr 1
    rw [show 256 - v = (256 - v - 1) + 1 by omega, List.range'_succ, List.filter_cons, if_pos hpv]
    simp
  have hlen2 : ((List.range v).filter p).length < ((List.range 256).filter p).length := by
    rw [hs2]; simp
  have hget2 : ((List.range 256).filter p)[((List.range v).filter p).length] = v := by
    simp [hs2]
  exact (List.Nodup.getElem_inj_iff hnd).mp (hget2.trans hget.symm)

/-- Counting every byte value counts the message. -/
theorem count_sum (m : List Byte) : ((List.range 256).map fun k => m.count (BitVec.ofNat 8 k)).sum = m.length := by
  generalize hN : 256 = N
  induction m with
  | nil => simp
  | cons x xs ih =>
    simp only [List.count_cons, List.length_cons, List.sum_map_add, ih]
    congr 1
    clear ih
    have h : ∀ n, x.toNat < n → n ≤ 256 → ((List.range n).map fun k => if (x == BitVec.ofNat 8 k) = true then 1 else 0).sum = 1 :=
      by
      intro n
      induction n with
      | zero => intro h; omega
      | succ n ihn =>
        intro h1 h2
        rw [List.range_succ, List.map_append, List.sum_append]
        by_cases hx : x.toNat = n
        · have h0 : ((List.range n).map fun k => if (x == BitVec.ofNat 8 k) = true then 1 else 0).sum = 0 := by
            apply List.sum_eq_zero
            intro y hy
            obtain ⟨k, hk, rfl⟩ := List.mem_map.mp hy
            rw [List.mem_range] at hk
            rw [if_neg]
            rw [beq_iff_eq]; rintro rfl
            simp at hx; omega
          rw [h0]
          have : x = BitVec.ofNat 8 n := by subst hx; simp
          simp [this]
        · rw [ihn (by omega) (by omega)]
          have : ¬ x = BitVec.ofNat 8 n := by rintro rfl; simp at hx; omega
          simp [this]
    subst hN; exact h 256 x.isLt (le_refl _)

end Sys2Proof.Machine
end

