-- ==== Sys2Proof/Laws/Encoder.lean ====
section
/-! SUPPORT. The tables HT.BUILD and CC.ASSIGN leave, and the stream ENC.EMIT makes of them (41_tree_builder.md R186,
42_canonical_codes.md R205 to R207, 45_encoder.md R270 to R274). -/

namespace Sys2Proof.Machine

/-! ### The lengths of a frequency table -/

/-- The symbols that have a length are the alphabet. -/
theorem codedSymbols_lengthTable (freq : Table 32) :
    codedSymbols (lengthTable freq) = (alphabet freq).map BitVec.toNat := by
  have h1 : (List.range 256) = symbols.map BitVec.toNat := by
    simp only [symbols, List.map_map]
    conv_lhs => rw [← List.map_id (List.range 256)]
    apply List.map_congr_left
    intro k hk
    have := List.mem_range.mp hk
    simp; omega
  rw [codedSymbols, h1, List.filter_map, alphabet]
  refine congrArg (List.map BitVec.toNat) (List.filter_congr ?_)
  intro s _
  have h2 := lengthOf_lengthTable_pos_iff (freq := freq) (s := s)
  rw [mem_alphabet] at h2
  have h3 : 0 < (tableGet freq s.toNat).toNat ↔ tableGet freq s.toNat ≠ 0 := by
    rw [Nat.pos_iff_ne_zero, ne_eq, ne_eq, ← BitVec.toNat_inj]; rfl
  apply Bool.eq_iff_iff.mpr
  simp only [Function.comp, bne_iff_ne, decide_eq_true_eq]
  rw [h2, h3]

theorem codedSymbols_length (freq : Table 32) : (codedSymbols (lengthTable freq)).length = (alphabet freq).length := by
  rw [codedSymbols_lengthTable, List.length_map]

/-- The lengths HT.BUILD writes meet Kraft's inequality (R186 item 2). -/
theorem lengthTable_kraftOk (freq : Table 32) : KraftOk (lengthTable freq) := by
  rw [KraftOk, kraftUpTo_eq, codedSymbols_lengthTable, List.map_map]
  by_cases h : alphabet freq = []
  · simp [h]
  · have := lengthTable_kraft freq h
    simp only [Function.comp_def, this]
    split <;> norm_num

/-- A symbol of the message's frequency table has a code. -/
theorem lengthOf_ne_zero_of_mem {freq : Table 32} {s : Byte} (h : s ∈ alphabet freq) :
    lengthOf (lengthTable freq) s.toNat ≠ 0 := lengthOf_lengthTable_pos_iff.mpr h

theorem canonicalAlphabet_length (freq : Table 32) :
    (canonicalAlphabet (lengthTable freq)).length = (alphabet freq).length := by
  rw [(canonicalAlphabet_perm _).length_eq, codedSymbols_length]

/-! ### The encoder table -/

/-- The encoder table of a frequency table, with its codes. -/
def encTable (freq : Table 32) : Ect := (Ect.build freq).assign

theorem Ect.build_asize (freq : Table 32) : (Ect.build freq).asize.toNat = (alphabet freq).length := by
  have := alphabet_length_le freq
  simp only [Ect.build, BitVec.toNat_ofNat]
  omega

theorem encTable_asize (freq : Table 32) : (encTable freq).asize.toNat = (alphabet freq).length :=
  Ect.build_asize freq

theorem encTable_maxlen (freq : Table 32) : (encTable freq).maxlen.toNat = maxLength (lengthTable freq) := by
  have := maxLength_le (lengthTable freq)
  have h : (encTable freq).maxlen = BitVec.ofNat 8 (maxLength (lengthTable freq)) := rfl
  rw [h, BitVec.toNat_ofNat]
  omega

theorem encTable_alpha (freq : Table 32) : (encTable freq).alpha = alphaTable (lengthTable freq) := rfl

theorem encTable_count (freq : Table 32) : (encTable freq).count = countTable (lengthTable freq) := rfl

theorem encTable_len (freq : Table 32) : (encTable freq).len = lengthTable freq := rfl

theorem encTable_code (freq : Table 32) : (encTable freq).code = codeTable (lengthTable freq) := rfl

/-- max_length is at least 1 for a non-empty alphabet. -/
theorem maxLength_pos {freq : Table 32} (h : alphabet freq ≠ []) : 1 ≤ maxLength (lengthTable freq) := by
  obtain ⟨s, hs⟩ := List.exists_mem_of_ne_nil _ h
  exact le_trans (lengthOf_lengthTable_bound hs).1 (lengthOf_le_maxLength _ _)

/-- The code of a symbol, as the encoder writes it: its length and its value. -/
def symbolCode (freq : Table 32) (s : Nat) : Nat × Code :=
  (lengthOf (lengthTable freq) s, tableGet (codeTable (lengthTable freq)) s)

/-- The value of a symbol's code is the canonical number, and fits its length (R205). -/
theorem symbolCode_toNat {freq : Table 32} {s : Nat} (hs : s < 256) (h : lengthOf (lengthTable freq) s ≠ 0) :
    (symbolCode freq s).2.toNat = codeNat (lengthTable freq) s ∧
      (symbolCode freq s).2.toNat < 2 ^ (symbolCode freq s).1 := by
  have h1 := codeTable_toNat (lengthTable_kraftOk freq) hs h
  exact ⟨h1, by rw [symbolCode, h1]; exact codeNat_lt (lengthTable_kraftOk freq) hs h⟩

/-- The canonical codes, in canonical order. -/
def canonicalCodes (freq : Table 32) : List (Nat × Code) :=
  (canonicalAlphabet (lengthTable freq)).map (symbolCode freq)

/-- The bits of codes, one after another. -/
def codesBits (cs : List (Nat × Code)) : List Bool := cs.flatMap fun c => codeBits c.1 c.2

theorem encTable_symbolBits (freq : Table 32) (s : Byte) :
    (encTable freq).symbolBits s = codeBits (symbolCode freq s.toNat).1 (symbolCode freq s.toNat).2 := rfl

/-- The code table bits are the canonical codes' bits in canonical order (R271). -/
theorem encTable_tableBits (freq : Table 32) : (encTable freq).tableBits = codesBits (canonicalCodes freq) := by
  have hlen := canonicalAlphabet_length freq
  simp only [Ect.tableBits, encTable_asize, codesBits, canonicalCodes, List.flatMap_map]
  rw [← hlen]
  have h2 : canonicalAlphabet (lengthTable freq) =
      (List.range (canonicalAlphabet (lengthTable freq)).length).map fun i =>
        (tableGet (encTable freq).alpha i).toNat := by
    apply List.ext_getElem
    · simp
    · intro i h1 _
      rw [List.getElem_map, List.getElem_range, encTable_alpha, alphaTable_get _ h1]
  conv_rhs => rw [h2]
  rw [List.flatMap_map]
  rfl

/-- The message bits are its symbols' codes' bits (R271). -/
theorem encTable_payloadBits (freq : Table 32) (msg : List Byte) :
    (encTable freq).payloadBits msg =
      codesBits (canonicalCodes freq) ++ codesBits (msg.map fun s => symbolCode freq s.toNat) := by
  rw [Ect.payloadBits, encTable_tableBits]
  congr 1
  simp only [codesBits, List.flatMap_map]
  rfl

/-- The canonical alphabet as bytes, and the counts as bytes: what the header carries (R270). -/
def headerAlphabet (freq : Table 32) : List Byte :=
  (canonicalAlphabet (lengthTable freq)).map (BitVec.ofNat 8)

def headerCounts (freq : Table 32) : List Byte :=
  (List.range' 1 (maxLength (lengthTable freq))).map fun l => BitVec.ofNat 8 (lengthCount (lengthTable freq) l)

/-- The header, field by field (R270). -/
theorem encTable_headerBytes (freq : Table 32) :
    (encTable freq).headerBytes =
      BitVec.ofNat 8 ((alphabet freq).length - 1) ::
        (headerAlphabet freq ++ BitVec.ofNat 8 (maxLength (lengthTable freq)) :: headerCounts freq) := by
  have hlen := canonicalAlphabet_length freq
  have hmax := maxLength_le (lengthTable freq)
  simp only [Ect.headerBytes, encTable_asize, encTable_maxlen, headerAlphabet, headerCounts]
  refine congrArg₂ List.cons rfl (congrArg₂ (· ++ ·) ?_ (congrArg₂ List.cons rfl ?_))
  · apply List.ext_getElem
    · simp [hlen]
    · intro i h1 h2
      simp only [List.getElem_map, List.getElem_range]
      have h3 : i < (canonicalAlphabet (lengthTable freq)).length := by simpa using h2
      apply BitVec.eq_of_toNat_eq
      rw [encTable_alpha, alphaTable_get _ h3, BitVec.toNat_ofNat]
      have := (mem_canonicalAlphabet.mp (List.getElem_mem h3)).1
      omega
  · apply List.map_congr_left
    intro l hl
    rw [List.mem_range'_1] at hl
    apply BitVec.eq_of_toNat_eq
    rw [encTable_count, BitVec.toNat_setWidth, countTable_toNat _ (by omega) (by omega), BitVec.toNat_ofNat]

/-! ### Emission -/

/-- At a byte boundary the raw bytes are emitted. -/
theorem bwWriteBytes_aligned (bs : List Byte) {s : State} (h : s.bw.cnt = 0) :
    bwWriteBytes bs s = .done () (s.emitAll bs) := by
  induction bs generalizing s with
  | nil => simp [bwWriteBytes, State.emitAll]
  | cons b bs ih =>
    have h1 : (s.emit b).bw.cnt = 0 := h
    rw [bwWriteBytes, bwWriteByte, if_neg (by simp [h]), Flow.bind_done, ih h1]
    simp [State.emit, State.emitAll]

/-- Elsewhere the first raw byte raises SEQUENCE. -/
theorem bwWriteBytes_pending {bs : List Byte} {s : State} (hb : bs ≠ []) (h : s.bw.cnt ≠ 0) :
    bwWriteBytes bs s = .raised .sequence s := by
  cases bs with
  | nil => exact absurd rfl hb
  | cons b bs => rw [bwWriteBytes, bwWriteByte, if_pos h]; rfl

theorem Ect.headerBytes_ne_nil (e : Ect) : e.headerBytes ≠ [] := by simp [Ect.headerBytes]

/-- What ENC.EMIT emits for a non-empty message from an empty writer (R271). -/
def Ect.stream (e : Ect) (msg : List Byte) : List Byte := e.headerBytes ++ packBits (e.payloadBits msg)

theorem Bw.eq_initial {w : Bw} (h : w.Inv) (hc : w.cnt = 0) : w = Bw.initial := by
  obtain ⟨acc, cnt⟩ := w
  simp only at hc
  subst hc
  have : acc = 0 := by
    apply BitVec.eq_of_getLsbD_eq
    intro i _
    rw [h i (by simp)]
    simp
  subst this
  rfl

/-- ENC.EMIT on an assigned table and a non-empty message, from an empty writer. -/
theorem encEmit_emits {s : State} (ha : s.ect.assigned = true) (hm : s.fc.msg ≠ []) (hw : s.bw = Bw.initial) :
    encEmit s = .done 0 (s.emitAll (s.ect.stream s.fc.msg)) := by
  rw [encEmit, if_neg (by simp [ha]), if_neg hm, bwWriteBytes_aligned _ (by rw [hw]; rfl), Flow.bind_done]
  congr 1
  simp only [State.bwFinalize, State.bwWriteBits, State.emitAll, State.setBw, hw, Ect.stream, packBits, List.append_assoc]

/-- enc_alpha read as a list. -/
theorem encTable_alpha_list (freq : Table 32) :
    (List.range (encTable freq).asize.toNat).map (tableGet (encTable freq).alpha) = headerAlphabet freq := by
  apply List.ext_getElem
  · rw [List.length_map, List.length_range, encTable_asize, headerAlphabet, List.length_map, canonicalAlphabet_length]
  · intro i h1 h2
    rw [headerAlphabet, List.length_map] at h2
    simp only [List.getElem_map, List.getElem_range, headerAlphabet]
    apply BitVec.eq_of_toNat_eq
    rw [encTable_alpha, alphaTable_get _ h2, BitVec.toNat_ofNat]
    have := (mem_canonicalAlphabet.mp (List.getElem_mem h2)).1
    omega

theorem headerAlphabet_toNat (freq : Table 32) :
    (headerAlphabet freq).map BitVec.toNat = canonicalAlphabet (lengthTable freq) := by
  rw [headerAlphabet, List.map_map]
  conv => rhs; rw [← List.map_id (canonicalAlphabet (lengthTable freq))]
  apply List.map_congr_left
  intro x hx
  have := (mem_canonicalAlphabet.mp hx).1
  simp; omega

end Sys2Proof.Machine
end

