-- ==== Sys2Proof/Laws/Exec.lean ====
section
/-! SUPPORT. What executing a command can do, said once: it runs its body and responds, or it is blocked
(60_exceptions.md R351 to R353). -/

namespace Sys2Proof

open Machine

/-- What a command does when no error is recorded, before its response. -/
def Instr.body (i : Instr) (s : State) : Flow Word :=
  match i with
  | .nop => .done 0 s
  | .reset => .done 0 s.resetFields
  | .errclr => .done 0 s.clearError
  | .rdreg a =>
    match Reg.ofAddr a with
    | some r => .done (s.readReg r) s
    | none => .raised .illegal s
  | .fcClear => Machine.fcClear s
  | .fcPush b => Machine.fcPush b s
  | .htBuild => Machine.htBuild s
  | .ccAssign => Machine.ccAssign s
  | .encEmit => Machine.encEmit s
  | .encRun => Machine.encRun s
  | .bwClear => Machine.bwClear s
  | .bwBit b => Machine.bwBit b s
  | .bwByte b => Machine.bwByte b s
  | .bwFinal => Machine.bwFinal s
  | .brClear => Machine.brClear s
  | .brPush b => Machine.brPush b s
  | .brEnd => Machine.brEnd s
  | .brBit => Machine.brBit s
  | .brByte => Machine.brByte s
  | .decTable => Machine.decTable s
  | .decSym => Machine.decSym s
  | .decRun => Machine.decRun s

end Sys2Proof

namespace Sys2Proof.Machine

/-- With no error recorded a command is its body and its response. -/
theorem exec_run {s : State} (h : s.ctl.err = false) (i : Instr) : exec i s = (i.body s).finish := by
  cases i with
  | rdreg a =>
    cases hr : Reg.ofAddr a with
    | some r => simp [exec, execRdreg, Instr.body, hr]
    | none => simp [exec, execRdreg, Instr.body, hr, State.illegalWord, h]
  | nop => rfl
  | reset => rfl
  | errclr => rfl
  | _ => exact unlessBlocked_run _ h

/-- While an error is recorded a command other than NOP, RESET, ERRCLR and RDREG is blocked (R352). -/
theorem exec_blocked {s : State} (h : s.ctl.err = true) {i : Instr} (hi : i.runsOnError = false) :
    exec i s = .next s.blocked := by
  cases i <;> first | exact unlessBlocked_err _ h | cases hi

/-- RDREG of a mapped address runs in every state. -/
theorem exec_rdreg {a : BitVec 16} {r : Reg} (h : Reg.ofAddr a = some r) (s : State) :
    exec (.rdreg a) s = .next (s.respond (s.readReg r)) := by
  simp [exec, execRdreg, h]

/-- While an error is recorded an RDREG of an unmapped address is blocked. -/
theorem exec_rdreg_unmapped {a : BitVec 16} {s : State} (h : Reg.ofAddr a = none) (he : s.ctl.err = true) :
    exec (.rdreg a) s = .next s.blocked := by
  simp [exec, execRdreg, h, State.illegalWord, he]

theorem Flow.finish_next {m : Flow Word} {t : State} (h : m.finish = .next t) :
    (∃ d u, m = .done d u ∧ t = u.respond d) ∨ ∃ c u, m = .raised c u ∧ t = u.raise c := by
  cases m with
  | done d u => cases h; exact .inl ⟨d, u, rfl, rfl⟩
  | raised c u => cases h; exact .inr ⟨c, u, rfl, rfl⟩

/-- A command's next state, without an error recorded: its body's state with the response, or with the error. -/
theorem exec_next {i : Instr} {s t : State} (h : s.ctl.err = false) (ht : exec i s = .next t) :
    (∃ d u, i.body s = .done d u ∧ t = u.respond d) ∨ ∃ c u, i.body s = .raised c u ∧ t = u.raise c :=
  Flow.finish_next (by rw [← exec_run h]; exact ht)

theorem exec_of_done {i : Instr} {s u : State} {d : Word} (h : s.ctl.err = false) (hb : i.body s = .done d u) :
    exec i s = .next (u.respond d) := by
  rw [exec_run h, hb]; rfl

theorem exec_of_raised {i : Instr} {s u : State} {c : Cause} (h : s.ctl.err = false) (hb : i.body s = .raised c u) :
    exec i s = .next (u.raise c) := by
  rw [exec_run h, hb]; rfl

/-- A body that leaves the host's side alone but for bytes emitted is observed as one response and those bytes. -/
theorem State.observes_respond {s u : State} {bs : List Byte} (d : Word) (hi : u.port.inputs = s.port.inputs)
    (hr : u.port.responses = s.port.responses) (ho : u.port.out = s.port.out ++ bs) :
    s.Observes (u.respond d) [Response.ok d] bs := by
  simp only [State.Observes, State.respond, State.answer, hi, hr, ho]; rfl

theorem State.observes_raise {s u : State} {bs : List Byte} (c : Cause) (hi : u.port.inputs = s.port.inputs)
    (hr : u.port.responses = s.port.responses) (ho : u.port.out = s.port.out ++ bs) :
    s.Observes (u.raise c) [Response.error c] bs := by
  simp only [State.Observes, State.raise, State.answer, State.setCtl_port, hi, hr, ho]; rfl

/-- A body that raises at once raises in the sense of `State.Raises`. -/
theorem State.raises_of_body {s : State} {i : Instr} {c : Cause} (h : s.ctl.err = false) (hb : i.body s = .raised c s) :
    s.Raises i c :=
  ⟨s.raise c, exec_of_raised h hb, rfl, ⟨rfl, rfl, rfl⟩, ⟨rfl, rfl⟩, rfl, State.observes_raise c rfl rfl (by simp)⟩

theorem State.reads_reg (s : State) {a : BitVec 16} {r : Reg} (h : Reg.ofAddr a = some r) : s.Reads a (s.readReg r) :=
  ⟨_, exec_rdreg h s, ⟨⟨rfl, rfl, rfl⟩, ⟨rfl, rfl⟩, rfl, rfl⟩, State.observes_respond _ rfl rfl (by simp)⟩

/-! ### One step -/

@[simp] theorem State.withInputs_params (r : List HostInput) (s : State) : (s.withInputs r).params = s.params := rfl
@[simp] theorem State.withInputs_ctl (r : List HostInput) (s : State) : (s.withInputs r).ctl = s.ctl := rfl
@[simp] theorem State.withInputs_fc (r : List HostInput) (s : State) : (s.withInputs r).fc = s.fc := rfl
@[simp] theorem State.withInputs_ect (r : List HostInput) (s : State) : (s.withInputs r).ect = s.ect := rfl
@[simp] theorem State.withInputs_bw (r : List HostInput) (s : State) : (s.withInputs r).bw = s.bw := rfl
@[simp] theorem State.withInputs_br (r : List HostInput) (s : State) : (s.withInputs r).br = s.br := rfl
@[simp] theorem State.withInputs_dct (r : List HostInput) (s : State) : (s.withInputs r).dct = s.dct := rfl
@[simp] theorem State.withInputs_inputs (r : List HostInput) (s : State) : (s.withInputs r).port.inputs = r := rfl
@[simp] theorem State.withInputs_responses (r : List HostInput) (s : State) :
    (s.withInputs r).port.responses = s.port.responses := rfl
@[simp] theorem State.withInputs_out (r : List HostInput) (s : State) : (s.withInputs r).port.out = s.port.out := rfl

theorem State.takeInput_nil {s : State} (h : s.port.inputs = []) : s.takeInput = none := by
  simp only [State.takeInput, h]

theorem State.takeInput_cons {s : State} {x : HostInput} {rest : List HostInput} (h : s.port.inputs = x :: rest) :
    s.takeInput = some (x, s.withInputs rest) := by
  simp only [State.takeInput, h]; rfl

/-- What a step does with nothing from the host, with the reset input, with an illegal word and with a command. -/
theorem step_cases {s t : State} (h : step s = .next t) :
    (s.port.inputs = [] ∧ t = s) ∨
      ∃ rest, (s.port.inputs = .resetInput :: rest ∧ t = (s.withInputs rest).resetFields) ∨
        ∃ w, s.port.inputs = .word w :: rest ∧
          ((∃ why, decode w = .illegal why ∧ t = (s.withInputs rest).illegalWord) ∨
            ∃ i, decode w = .command i ∧ exec i (s.withInputs rest) = .next t) := by
  cases hi : s.port.inputs with
  | nil => rw [step, State.takeInput_nil hi] at h; cases h; exact .inl ⟨rfl, rfl⟩
  | cons x rest =>
    refine .inr ⟨rest, ?_⟩
    rw [step, State.takeInput_cons hi] at h
    cases x with
    | resetInput => cases h; exact .inl ⟨rfl, rfl⟩
    | word w =>
      refine .inr ⟨w, rfl, ?_⟩
      simp only at h
      split at h
      · next why hd => cases h; exact .inl ⟨why, hd, rfl⟩
      · next i hd => exact .inr ⟨i, hd, h⟩

/-- A step on a word that is no command. -/
theorem step_illegal {s : State} {w : Word} {rest : List HostInput} {why : Illegal}
    (h : s.port.inputs = .word w :: rest) (hd : decode w = .illegal why) :
    step s = .next (s.withInputs rest).illegalWord := by
  rw [step, State.takeInput_cons h]; simp only [hd]

/-! ### What a part of a command ensures -/

/-- Q holds of the value and state a part ends in, E of the cause and state where it raises. -/
def Flow.Post {α : Type} (m : Flow α) (Q : α → State → Prop) (E : Cause → State → Prop) : Prop :=
  match m with
  | .done v s => Q v s
  | .raised c s => E c s

theorem Flow.Post.bind {α β : Type} {m : Flow α} {k : α → State → Flow β} {Q : α → State → Prop}
    {R : β → State → Prop} {E : Cause → State → Prop} (h : m.Post Q E) (hk : ∀ v s, Q v s → (k v s).Post R E) :
    (m.bind k).Post R E := by
  cases m with
  | done v s => exact hk v s h
  | raised c s => exact h

theorem Flow.Post.mono {α : Type} {m : Flow α} {Q Q' : α → State → Prop} {E E' : Cause → State → Prop}
    (h : m.Post Q E) (hq : ∀ v s, Q v s → Q' v s) (he : ∀ c s, E c s → E' c s) : m.Post Q' E' := by
  cases m with
  | done v s => exact hq v s h
  | raised c s => exact he c s h

theorem Flow.Post.and {α : Type} {m : Flow α} {Q Q' : α → State → Prop} {E E' : Cause → State → Prop}
    (h : m.Post Q E) (h' : m.Post Q' E') :
    m.Post (fun v s => Q v s ∧ Q' v s) (fun c s => E c s ∧ E' c s) := by
  cases m with
  | done v s => exact ⟨h, h'⟩
  | raised c s => exact ⟨h, h'⟩

theorem Flow.Post.done {α : Type} {m : Flow α} {Q : α → State → Prop} {E : Cause → State → Prop} {v : α} {s : State}
    (h : m.Post Q E) (hm : m = .done v s) : Q v s := by
  subst hm; exact h

theorem Flow.Post.raised {α : Type} {m : Flow α} {Q : α → State → Prop} {E : Cause → State → Prop} {c : Cause}
    {s : State} (h : m.Post Q E) (hm : m = .raised c s) : E c s := by
  subst hm; exact h


/-- A bit of a slice (10_state.md R50). -/
theorem codeSlice_bit (v : Code) (k : BitVec 3) (j : Nat) (hj : j < 32) :
    (codeSlice v k).getLsbD j = v.getLsbD (32 * k.toNat + j) := by
  have := k.isLt
  simp only [codeSlice, BitVec.getLsbD_extractLsb', hj, BitVec.getLsbD_setWidth]
  simp
  intro h; have := BitVec.lt_of_getLsbD h; omega

end Sys2Proof.Machine
end

