-- ==== Sys2Proof/Laws/Memory.lean ====
section
/-! SUPPORT. The form of the two byte buffers, and that each operation on them keeps it (20_memory.md R91, 10_state.md R36,
R41, R42). -/

namespace Sys2Proof.Machine

theorem memory_wf_iff {s : State} : Memory.wf s = true ↔
    s.fc.msg.length ≤ s.params.msgCap ∧ s.br.queue.length ≤ s.params.qCap ∧ s.br.head ≤ s.br.queue.length - 1 := by
  simp [Memory.wf, and_assoc]

/-- The form depends on the buffers, the head and the capacities only. -/
theorem memory_wf_congr {s t : State} (hp : t.params = s.params) (hm : t.fc.msg = s.fc.msg)
    (hq : t.br.queue = s.br.queue) (hh : t.br.head = s.br.head) (h : Memory.wf s = true) : Memory.wf t = true := by
  rw [memory_wf_iff] at h ⊢
  rwa [hp, hm, hq, hh]

/-- Nothing buffered has the form, whatever the capacities: so has the reset state. -/
theorem memory_wf_empty {s : State} (hm : s.fc.msg = []) (hq : s.br.queue = []) (hh : s.br.head = 0) :
    Memory.wf s = true := by
  rw [memory_wf_iff, hm, hq, hh]; simp

/-- Clearing the message buffer keeps the form. -/
theorem memory_wf_clear_msg {s : State} {f : Fc} (hm : f.msg = []) (h : Memory.wf s = true) :
    Memory.wf (s.setFc f) = true := by
  rw [memory_wf_iff] at h ⊢
  simp only [State.setFc_fc, hm, State.setFc_br, State.setFc_params]
  exact ⟨by simp, h.2⟩

/-- Appending to a message buffer that is not full keeps the form. -/
theorem memory_wf_append_msg {s : State} {f : Fc} {b : Byte} (hf : f.msg = s.fc.msg ++ [b])
    (hn : s.fc.msg.length ≠ s.params.msgCap) (h : Memory.wf s = true) : Memory.wf (s.setFc f) = true := by
  rw [memory_wf_iff] at h ⊢
  simp only [State.setFc_fc, hf, State.setFc_br, State.setFc_params, List.length_append, List.length_singleton]
  exact ⟨by omega, h.2⟩

/-- Clearing the byte queue keeps the form. -/
theorem memory_wf_clear_queue {s : State} (h : Memory.wf s = true) : Memory.wf (s.setBr Br.initial) = true := by
  rw [memory_wf_iff] at h ⊢
  exact ⟨h.1, by simp [Br.initial], by simp [Br.initial]⟩

/-- Appending to a byte queue that is not full keeps the form. -/
theorem memory_wf_append_queue {s : State} (b : Byte) (hn : s.br.queue.length ≠ s.params.qCap)
    (h : Memory.wf s = true) : Memory.wf (s.setBr (s.br.append b)) = true := by
  rw [memory_wf_iff] at h ⊢
  simp only [State.setBr_br, Br.append, State.setBr_fc, State.setBr_params, List.length_append, List.length_singleton]
  exact ⟨h.1, by omega, by omega⟩

/-- A bit read pops at most one data byte and never the marker: br_head stays at most br_len − 1. -/
theorem Br.readBit_head {r r' : Br} {b : Bool} (h : r.readBit = .ok (b, r')) (hh : r.head ≤ r.queue.length - 1) :
    r'.head ≤ r'.queue.length - 1 := by
  obtain ⟨⟨hs, hq, hm⟩, -⟩ := Br.readBit_ok h
  simp only [Br.readBit, hs, hq, Nat.not_lt.mpr hm, if_false, Bool.true_eq_false] at h
  split at h
  · split at h
    · cases h
    · next h0 =>
      cases h
      rw [Br.remaining_eq hs, Br.dataBytes_length] at h0
      show r.head + 1 ≤ r.queue.length - 1
      omega
  · cases h; exact hh

/-- A byte read pops one data byte and never the marker. -/
theorem Br.readByte_head {r r' : Br} {v : Byte} (h : r.readByte = .ok (v, r')) : r'.head ≤ r'.queue.length - 1 := by
  obtain ⟨-, -, hd, rfl⟩ := Br.readByte_ok h
  have := congrArg List.length hd
  rw [Br.dataBytes_length] at this
  simp at this ⊢
  omega

/-- Reading a bit keeps the form. -/
theorem memory_wf_readBit {s : State} {r : Br} {b : Bool} (hr : s.br.readBit = .ok (b, r)) (h : Memory.wf s = true) :
    Memory.wf (s.setBr r) = true := by
  rw [memory_wf_iff] at h ⊢
  have hq := (Br.readBit_ok hr).2.2.1
  exact ⟨h.1, by rw [State.setBr_br, hq]; exact h.2.1, Br.readBit_head hr h.2.2⟩

/-- Reading a byte keeps the form. -/
theorem memory_wf_readByte {s : State} {r : Br} {v : Byte} (hr : s.br.readByte = .ok (v, r)) (h : Memory.wf s = true) :
    Memory.wf (s.setBr r) = true := by
  rw [memory_wf_iff] at h ⊢
  obtain ⟨-, -, -, rfl⟩ := Br.readByte_ok hr
  exact ⟨h.1, h.2.1, Br.readByte_head hr⟩

end Sys2Proof.Machine
end

