-- ==== Sys2Proof/Laws/Invariant.lean ====
section
/-! SUPPORT. Each unit's operations keep that unit's part of the invariant. -/

namespace Sys2Proof.Machine

/-! ### What a step's shared operations keep -/

theorem State.Inv.congr {s t : State} (h : s.Inv) (hp : t.params = s.params) (hc : t.ctl = s.ctl) (hf : t.fc = s.fc)
    (he : t.ect = s.ect) (hw : t.bw = s.bw) (hr : t.br = s.br) (hd : t.dct = s.dct) : t.Inv where
  params := by rw [hp]; exact h.params
  memory := memory_wf_congr hp (by rw [hf]) (by rw [hr]) (by rw [hr]) h.memory
  ctl := by rw [hc]; exact h.ctl
  fc := by rw [hf]; exact h.fc
  ect := by rw [he, hf]; exact h.ect
  bw := by rw [hw]; exact h.bw
  br := by rw [hr]; exact h.br
  dct := by rw [hd, hr]; exact h.dct

theorem State.Inv.setCtl {s : State} (h : s.Inv) {c : Ctl} (hc : c.Inv) : (s.setCtl c).Inv where
  params := h.params
  memory := memory_wf_congr rfl rfl rfl rfl h.memory
  ctl := hc
  fc := h.fc
  ect := h.ect
  bw := h.bw
  br := h.br
  dct := h.dct

theorem State.Inv.answer {s : State} (h : s.Inv) (r : Response) : (s.answer r).Inv :=
  h.congr rfl rfl rfl rfl rfl rfl rfl

theorem Ctl.initial_inv : Ctl.initial.Inv := by simp [Ctl.Inv, Ctl.initial]

theorem State.Inv.raise {s : State} (h : s.Inv) {c : Cause} (hc : c ≠ .none) : (s.raise c).Inv :=
  (h.setCtl (by simp [Ctl.Inv, hc])).answer _

theorem State.Inv.respond {s : State} (h : s.Inv) (d : Word) : (s.respond d).Inv := h.answer _

/-! ### Bit reader -/

theorem Br.initial_inv : Br.initial.Inv := ⟨by decide, fun _ => ⟨rfl, rfl, rfl⟩⟩

theorem Dct.initial_inv (r : Br) : Dct.initial.Inv r :=
  ⟨fun _ => rfl, fun h => by simp [Dct.initial] at h, fun h => by simp [Dct.initial] at h,
    by simp [Dct.initial], by simp [Dct.initial], by simp [Dct.initial]⟩

/-- A sealed reader that meets its part of the invariant. -/
structure Br.Sound (r : Br) : Prop where
  sealed : r.sealed = true
  inv    : r.Inv
  head   : r.head ≤ r.queue.length - 1

theorem Br.Sound.readBit {r r' : Br} {b : Bool} (h : r.Sound) (hr : r.readBit = .ok (b, r')) : r'.Sound := by
  obtain ⟨-, -, hq, hs⟩ := Br.readBit_ok hr
  have hs' : r'.sealed = true := by rw [hs]; exact h.sealed
  have hc := Br.readBit_cnt hr (le_trans h.inv.1 (by omega))
  exact ⟨hs', ⟨hc, fun h0 => by simp [hs'] at h0⟩, Br.readBit_head hr h.head⟩

theorem Br.Sound.readByte {r r' : Br} {v : Byte} (h : r.Sound) (hr : r.readByte = .ok (v, r')) : r'.Sound := by
  have hd := Br.readByte_head hr
  obtain ⟨-, -, -, rfl⟩ := Br.readByte_ok hr
  exact ⟨h.sealed, ⟨h.inv.1, fun h0 => by simp [h.sealed] at h0⟩, hd⟩

/-- The causes of a bit read (R241). -/
theorem Br.readBit_cause {r : Br} {c : Cause} (h : r.readBit = .error c) :
    c = .sequence ∧ r.sealed = false ∨ c = .exhausted ∨ c = .badmark ∧ 7 < r.mark.toNat := by
  simp only [Br.readBit] at h
  split at h
  · next h0 => cases h; exact .inl ⟨rfl, h0⟩
  · split at h
    · cases h; exact .inr (.inl rfl)
    · split at h
      · next h0 => cases h; exact .inr (.inr ⟨rfl, h0⟩)
      · split at h
        · split at h
          · cases h; exact .inr (.inl rfl)
          · cases h
        · cases h

/-- The causes of a byte read (R242). -/
theorem Br.readByte_cause {r : Br} {c : Cause} (h : r.readByte = .error c) :
    c = .sequence ∨ c = .exhausted ∨ c = .badmark := by
  simp only [Br.readByte] at h
  repeat' split at h
  all_goals first | cases h; simp | cases h

/-! ### Reading the table -/

/-- A decoder without a table, a boundary or a candidate. -/
structure Dct.Blank (d : Dct) : Prop where
  ready   : d.ready = false
  done    : d.done = false
  cand    : d.cand = 0
  candLen : d.candLen = 0
  count   : tableGet d.count 0 = 0

theorem Dct.initial_blank : Dct.initial.Blank := ⟨rfl, rfl, rfl, rfl, by simp [Dct.initial]⟩

theorem Dct.Blank.inv {d : Dct} {r : Br} (h : d.Blank) (hr : r.sealed = true) : d.Inv r :=
  ⟨fun h0 => by simp [hr] at h0, fun h0 => by simp [h.ready] at h0, fun h0 => by simp [h.done] at h0,
    by simp [h.candLen], by simp [h.cand, h.candLen], h.count⟩

/-- While the header and the codes are read: the reader sound and readable, no table yet, the size and max_length read. -/
structure TableInv (n : BitVec 9) (m : Byte) (s : State) : Prop where
  sound    : s.br.Sound
  readable : s.br.Readable
  blank    : s.dct.Blank
  asize    : s.dct.asize = n
  maxlen   : s.dct.maxlen = m

/-- Where `dec_read_table` raises: no table is ready, the reader is sound. -/
def TableError (c : Cause) (s : State) : Prop :=
  (c = .sequence ∨ c = .exhausted ∨ c = .badmark ∨ c = .badhdr) ∧ s.br.Sound ∧ s.dct.Blank

theorem brReadByte_post {s : State} {P : Dct → Prop} (h : s.br.Sound) (hb : s.dct.Blank) (hd : P s.dct) :
    (brReadByte s).Post (fun _ t => t.br.Sound ∧ t.br.Readable ∧ t.dct.Blank ∧ P t.dct) TableError := by
  cases hr : brReadByte s with
  | done v t =>
    obtain ⟨r, hr', rfl⟩ := brReadByte_done hr
    obtain ⟨hR, -, -, hr''⟩ := Br.readByte_ok hr'
    exact ⟨h.readByte hr', by rw [hr'']; exact hR.congr rfl rfl, hb, hd⟩
  | raised c t =>
    obtain ⟨hc, rfl⟩ := brReadByte_raised hr
    have := Br.readByte_cause hc
    exact ⟨by tauto, h, hb⟩

theorem brReadBit_post {s : State} {n : BitVec 9} {m : Byte} (h : TableInv n m s) :
    (brReadBit s).Post (fun _ t => TableInv n m t) TableError := by
  cases hr : brReadBit s with
  | done v t =>
    obtain ⟨r, hr', rfl⟩ := brReadBit_done hr
    obtain ⟨hR, -, hq, hs⟩ := Br.readBit_ok hr'
    exact ⟨h.sound.readBit hr', hR.congr hq hs, h.blank, h.asize, h.maxlen⟩
  | raised c t =>
    obtain ⟨hc, rfl⟩ := brReadBit_raised hr
    have := Br.readBit_cause hc
    exact ⟨by tauto, h.sound, h.blank⟩

theorem decReadAlpha_post {n : BitVec 9} {m : Byte} (k i : Nat) {s : State} (h : TableInv n m s) :
    (decReadAlpha k i s).Post (fun _ t => TableInv n m t) TableError := by
  induction k generalizing i s with
  | zero => exact h
  | succ k ih =>
    refine (brReadByte_post (P := fun d => d.asize = n ∧ d.maxlen = m) h.sound h.blank ⟨h.asize, h.maxlen⟩).bind ?_
    rintro v t ⟨h1, h2, h3, h4, h5⟩
    exact ih (i + 1) ⟨h1, h2, ⟨h3.ready, h3.done, h3.cand, h3.candLen, h3.count⟩, h4, h5⟩

theorem decReadCounts_post {n : BitVec 9} {m : Byte} (k l : Nat) (hl : 1 ≤ l) {s : State} (h : TableInv n m s) :
    (decReadCounts k l s).Post (fun _ t => TableInv n m t) TableError := by
  induction k generalizing l s with
  | zero => exact h
  | succ k ih =>
    refine (brReadByte_post (P := fun d => d.asize = n ∧ d.maxlen = m) h.sound h.blank ⟨h.asize, h.maxlen⟩).bind ?_
    rintro v t ⟨h1, h2, h3, h4, h5⟩
    refine ih (l + 1) (by omega) ⟨h1, h2, ⟨h3.ready, h3.done, h3.cand, h3.candLen, ?_⟩, h4, h5⟩
    exact (tableGet_tableSet_other _ _ (by omega)).trans h3.count

theorem decReadCode_post {n : BitVec 9} {m : Byte} (l : Nat) (v : Code) {s : State} (h : TableInv n m s) :
    (decReadCode l v s).Post (fun _ t => TableInv n m t) TableError := by
  induction l generalizing v s with
  | zero => exact h
  | succ l ih => exact (brReadBit_post h).bind fun b t ht => ih _ ht

theorem decReadCodes_post {n : BitVec 9} {m : Byte} (ls : List Nat) (i : Nat) {s : State} (h : TableInv n m s) :
    (decReadCodes ls i s).Post (fun _ t => TableInv n m t) TableError := by
  induction ls generalizing i s with
  | nil => exact h
  | cons l ls ih =>
    refine (decReadCode_post l 0 h).bind fun v t ht => ih (i + 1) ?_
    exact ⟨ht.sound, ht.readable, ⟨ht.blank.ready, ht.blank.done, ht.blank.cand, ht.blank.candLen, ht.blank.count⟩,
      ht.asize, ht.maxlen⟩

theorem Dct.restoreCount_blank {d : Dct} (h : d.Blank) : d.restoreCount.Blank ∧ d.restoreCount.asize = d.asize ∧
    d.restoreCount.maxlen = d.maxlen := by
  unfold Dct.restoreCount
  split
  · exact ⟨⟨h.ready, h.done, h.cand, h.candLen, (tableGet_tableSet_other _ _ (by omega)).trans h.count⟩, rfl, rfl⟩
  · exact ⟨h, rfl, rfl⟩

/-- Where `dec_read_table` succeeds: the table is ready, the reader sound. -/
def TableReady (s : State) : Prop := s.br.Sound ∧ s.dct.Inv s.br ∧ s.dct.ready = true ∧ s.dct.done = false

theorem decReadBody_post {n : BitVec 9} {m : Byte} (hn : 1 ≤ n.toNat) (hn' : n.toNat ≤ 256) (hm : m ≠ 0) {s : State}
    (h : TableInv n m s) : (decReadBody s).Post (fun _ t => TableReady t) TableError := by
  obtain ⟨h1, h2, h3⟩ := Dct.restoreCount_blank h.blank
  have h' : TableInv n m (s.setDct s.dct.restoreCount) :=
    ⟨h.sound, h.readable, h1, by rw [State.setDct_dct, h2]; exact h.asize, by rw [State.setDct_dct, h3]; exact h.maxlen⟩
  unfold decReadBody
  split
  · exact ⟨by tauto, h'.sound, h'.blank⟩
  · refine (decReadCodes_post _ 0 h').bind fun _ t ht => ?_
    refine ⟨ht.sound, ?_, rfl, ht.blank.done⟩
    have hb := ht.blank
    refine ⟨fun h0 => ?_, fun _ => ⟨ht.readable, ?_, ?_, ?_⟩, fun h0 => ?_, ?_, ?_, hb.count⟩
    · simp [ht.sound.sealed] at h0
    · show t.dct.maxlen ≠ 0; rw [ht.maxlen]; exact hm
    · show 1 ≤ t.dct.asize.toNat; rw [ht.asize]; exact hn
    · show t.dct.asize.toNat ≤ 256; rw [ht.asize]; exact hn'
    · have : t.dct.done = true := h0
      simp [hb.done] at this
    · show t.dct.candLen.toNat ≤ _; simp [hb.candLen]
    · show t.dct.cand.toNat < 2 ^ t.dct.candLen.toNat; simp [hb.cand, hb.candLen]

/-- `dec_read_table` from a sound reader. -/
theorem decReadTable_post {s : State} (h : s.br.Sound) : (decReadTable s).Post (fun _ t => TableReady t) TableError := by
  unfold decReadTable
  refine (brReadByte_post (s := s.setDct Dct.initial) (P := fun d => d.maxlen = 0) h Dct.initial_blank rfl).bind ?_
  rintro a t ⟨h1, h2, h3, h4⟩
  have ha : (a.setWidth 9 + 1).toNat = a.toNat + 1 := by
    have := a.isLt
    simp [BitVec.toNat_add]; omega
  have ht : TableInv (a.setWidth 9 + 1) 0 (t.setDct (t.dct.setSize a)) :=
    ⟨h1, h2, ⟨h3.ready, h3.done, h3.cand, h3.candLen, h3.count⟩, rfl, h4⟩
  refine (decReadAlpha_post _ 0 ht).bind fun _ t hT => ?_
  refine (brReadByte_post (P := fun d => d.asize = a.setWidth 9 + 1) hT.sound hT.blank hT.asize).bind ?_
  rintro m u ⟨h5, h6, h7, h8⟩
  have hu : TableInv (a.setWidth 9 + 1) m (u.setDct (u.dct.setMaxlen m)) :=
    ⟨h5, h6, ⟨h7.ready, h7.done, h7.cand, h7.candLen, h7.count⟩, h8, rfl⟩
  split
  · exact ⟨by tauto, hu.sound, hu.blank⟩
  · next hm =>
    refine (decReadCounts_post _ 1 (le_refl 1) hu).bind fun _ v hv => ?_
    have := a.isLt
    exact decReadBody_post (by omega) (by omega) hm hv

/-! ### Decoding symbols -/

/-- While a symbol is decoded: a table, a reader that is sound, a candidate shorter than max_length. -/
structure MatchInv (s : State) : Prop where
  sound    : s.br.Sound
  readable : s.br.Readable
  ready    : s.dct.ready = true
  done     : s.dct.done = false
  maxlen   : s.dct.maxlen ≠ 0
  asize    : 1 ≤ s.dct.asize.toNat ∧ s.dct.asize.toNat ≤ 256
  candLen  : s.dct.candLen.toNat < s.dct.maxlen.toNat
  cand     : s.dct.cand.toNat < 2 ^ s.dct.candLen.toNat
  count    : tableGet s.dct.count 0 = 0

/-- Where decoding a symbol raises: the table and the candidate stay. -/
def SymbolError (c : Cause) (s : State) : Prop :=
  (c = .exhausted ∨ c = .nomatch) ∧ s.br.Sound ∧ s.dct.Inv s.br ∧ s.dct.ready = true

/-- Where it succeeds. -/
def SymbolDone (s : State) : Prop := s.br.Sound ∧ s.dct.Inv s.br ∧ s.dct.ready = true

theorem MatchInv.inv {s : State} (h : MatchInv s) : s.dct.Inv s.br :=
  ⟨fun h0 => by simp [h.sound.sealed] at h0, fun _ => ⟨h.readable, h.maxlen, h.asize⟩,
    fun h0 => by simp [h.done] at h0, le_of_lt h.candLen, h.cand, h.count⟩

theorem pushBit_lt {v : Code} {k : Nat} (b : Bool) (h : v.toNat < 2 ^ k) :
    (pushBit v b).toNat < 2 ^ (k + 1) := by
  have h1 : v.toNat <<< 1 % 2 ^ 255 < 2 ^ (k + 1) := by
    refine lt_of_le_of_lt (Nat.mod_le _ _) ?_
    rw [Nat.shiftLeft_eq, pow_succ]
    omega
  have h2 : ((BitVec.ofBool b).setWidth 255 : Code).toNat < 2 ^ (k + 1) := by
    have : ((BitVec.ofBool b).setWidth 255 : Code).toNat ≤ 1 := by cases b <;> decide
    have : 1 ≤ 2 ^ k := Nat.one_le_two_pow
    rw [pow_succ]
    omega
  rw [pushBit, BitVec.toNat_or, BitVec.toNat_shiftLeft]
  exact Nat.or_lt_two_pow h1 h2

theorem decMatch_post (fuel : Nat) {s : State} (h : MatchInv s) :
    (decMatch fuel s).Post (fun _ t => SymbolDone t) SymbolError := by
  induction fuel generalizing s with
  | zero => exact ⟨.inl rfl, h.sound, h.inv, h.ready⟩
  | succ fuel ih =>
    have hb : (brReadBit s).Post (fun _ t => MatchInv t) SymbolError := by
      cases hr : brReadBit s with
      | done v t =>
        obtain ⟨r, hr', rfl⟩ := brReadBit_done hr
        obtain ⟨hR, -, hq, hs⟩ := Br.readBit_ok hr'
        exact ⟨h.sound.readBit hr', hR.congr hq hs, h.ready, h.done, h.maxlen, h.asize, h.candLen, h.cand, h.count⟩
      | raised c t =>
        obtain ⟨hc, rfl⟩ := brReadBit_raised hr
        refine ⟨?_, h.sound, h.inv, h.ready⟩
        rcases Br.readBit_cause hc with ⟨-, h0⟩ | h0 | ⟨-, h0⟩
        · simp [h.sound.sealed] at h0
        · exact .inl h0
        · have := h.readable.2.2; omega
    rw [decMatch]
    refine hb.bind fun b t ht => ?_
    have hm := t.dct.maxlen.isLt
    have hl : (t.dct.candLen + 1).toNat = t.dct.candLen.toNat + 1 := by
      have := ht.candLen
      simp [BitVec.toNat_add]; omega
    have hc : (pushBit t.dct.cand b).toNat < 2 ^ (t.dct.candLen + 1).toNat := by
      rw [hl]; exact pushBit_lt b ht.cand
    split
    · next i hi =>
      refine ⟨ht.sound, ⟨fun h0 => ?_, fun _ => ⟨ht.readable, ht.maxlen, ht.asize⟩, fun h0 => ?_, ?_, ?_, ht.count⟩, ht.ready⟩
      · exact absurd ht.sound.sealed (by rw [show t.br.sealed = false from h0]; simp)
      · exact absurd ht.done (by rw [show t.dct.done = true from h0]; simp)
      · show (0 : Byte).toNat ≤ _; simp
      · show (0 : Code).toNat < 2 ^ (0 : Byte).toNat; simp
    · split
      · next hmax =>
        refine ⟨.inr rfl, ht.sound, ⟨fun h0 => ?_, fun _ => ⟨ht.readable, ht.maxlen, ht.asize⟩, fun h0 => ?_, ?_, hc, ht.count⟩, ht.ready⟩
        · exact absurd ht.sound.sealed (by rw [show t.br.sealed = false from h0]; simp)
        · exact absurd ht.done (by rw [show t.dct.done = true from h0]; simp)
        · exact le_of_eq (congrArg BitVec.toNat hmax)
      · next hmax =>
        refine ih ⟨ht.sound, ht.readable, ht.ready, ht.done, ht.maxlen, ht.asize, ?_, hc, ht.count⟩
        have h1 : (t.dct.candLen + 1).toNat ≠ t.dct.maxlen.toNat := fun h0 => hmax (BitVec.eq_of_toNat_eq h0)
        have h2 := ht.candLen
        show (t.dct.candLen + 1).toNat < t.dct.maxlen.toNat
        omega

/-- `dec_decode_symbol` with a table: END leaves dec_done set. -/
theorem decDecodeSymbol_post {s : State} (h : SymbolDone s) :
    (decDecodeSymbol s).Post (fun v t => SymbolDone t ∧ (v = none → t.dct.done = true)) SymbolError := by
  obtain ⟨hs, hd, hr⟩ := h
  obtain ⟨h1, h2, h3⟩ := hd.2.1 hr
  have hsl : ∀ {p : Prop}, s.br.sealed = false → p := fun h0 => by simp [hs.sealed] at h0
  unfold decDecodeSymbol
  split
  · next ha =>
    refine ⟨⟨hs, ⟨fun h0 => hsl h0, fun _ => ⟨h1, h2, h3⟩, fun _ => ha, ?_, ?_, hd.2.2.2.2.2⟩, hr⟩, fun _ => rfl⟩
    · show (0 : Byte).toNat ≤ _; simp
    · show (0 : Code).toNat < 2 ^ (0 : Byte).toNat; simp
  · next ha =>
    have hm : MatchInv (s.setDct s.dct.clearCand) := by
      refine ⟨hs, h1, hr, ?_, h2, h3, ?_, ?_, hd.2.2.2.2.2⟩
      · show s.dct.done = false
        cases h0 : s.dct.done with
        | false => rfl
        | true => exact absurd (hd.2.2.1 h0) ha
      · show (0 : Byte).toNat < s.dct.maxlen.toNat
        have : s.dct.maxlen.toNat ≠ 0 := fun h0 => h2 (BitVec.eq_of_toNat_eq h0)
        simp; omega
      · show (0 : Code).toNat < 2 ^ (0 : Byte).toNat; simp
    exact (decMatch_post _ hm).bind fun v t ht => ⟨ht, by simp⟩

theorem decSymbols_post (fuel : Nat) {s : State} (h : SymbolDone s) :
    (decSymbols fuel s).Post (fun _ t => SymbolDone t) SymbolError := by
  induction fuel generalizing s with
  | zero => exact h
  | succ fuel ih =>
    rw [decSymbols]
    refine (decDecodeSymbol_post h).bind fun v t ht => ?_
    split
    · exact ht.1
    · exact ih ht.1

/-! ### The whole state -/

/-- A state that differs only in the decoder, the reader's position and the sink's record. -/
theorem State.Inv.decodes {s t : State} (h : s.Inv) (hd : DecodesOnly s t) (hb : t.br.Sound) (hi : t.dct.Inv t.br) :
    t.Inv where
  params := by rw [hd.params]; exact h.params
  memory := by
    have := memory_wf_iff.mp h.memory
    rw [memory_wf_iff, hd.params, hd.fc, hd.queue]
    exact ⟨this.1, this.2.1, by rw [← hd.queue]; exact hb.head⟩
  ctl := by rw [hd.ctl]; exact h.ctl
  fc := by rw [hd.fc]; exact h.fc
  ect := by rw [hd.ect, hd.fc]; exact h.ect
  bw := by rw [hd.bw]; exact h.bw
  br := hb.inv
  dct := hi

theorem State.Inv.sound {s : State} (h : s.Inv) (hs : s.br.sealed = true) : s.br.Sound :=
  ⟨hs, h.br, (memory_wf_iff.mp h.memory).2.2⟩

theorem Flow.post_of_state {α : Type} {m : Flow α} {P : State → Prop} (h : P m.state) :
    m.Post (fun _ t => P t) (fun _ t => P t) := by
  cases m <;> exact h

end Sys2Proof.Machine
end

