-- ==== Sys2Proof/Laws/Commands.lean ====
section
/-! SUPPORT. Each command keeps the invariant, and raises only the causes of 60_exceptions.md R350. -/

namespace Sys2Proof.Machine

/-- A command's body keeps the invariant where it goes on and where it raises, and raises only the causes cs. -/
def Flow.Keeps (m : Flow Word) (cs : List Cause) : Prop :=
  m.Post (fun _ t => t.Inv) (fun c t => c ∈ cs ∧ t.Inv)

/-! ### System commands -/

theorem State.resetFields_inv {s : State} (h : s.Inv) : s.resetFields.Inv where
  params := h.params
  memory := memory_wf_empty rfl rfl rfl
  ctl := Ctl.initial_inv
  fc := fun b => by simp [Fc.initial]
  ect := .inl rfl
  bw := Bw.initial_inv
  br := Br.initial_inv
  dct := Dct.initial_inv _

theorem State.clearError_inv {s : State} (h : s.Inv) : s.clearError.Inv := h.setCtl Ctl.initial_inv

/-! ### Encoder side -/

theorem State.Inv.setEct {s : State} (h : s.Inv) {e : Ect} (he : e.Inv s.fc.freq) : (s.setEct e).Inv where
  params := h.params
  memory := memory_wf_congr rfl rfl rfl rfl h.memory
  ctl := h.ctl
  fc := h.fc
  ect := he
  bw := h.bw
  br := h.br
  dct := h.dct

theorem State.Inv.setBw {s : State} (h : s.Inv) {w : Bw} (hw : w.Inv) : (s.setBw w).Inv where
  params := h.params
  memory := memory_wf_congr rfl rfl rfl rfl h.memory
  ctl := h.ctl
  fc := h.fc
  ect := h.ect
  bw := hw
  br := h.br
  dct := h.dct

theorem State.Inv.emitAll {s : State} (h : s.Inv) (bs : List Byte) : (s.emitAll bs).Inv :=
  h.congr rfl rfl rfl rfl rfl rfl rfl

theorem fcClear_keeps {s : State} (h : s.Inv) (cs : List Cause) : (fcClear s).Keeps cs where
  params := h.params
  memory := memory_wf_congr (s := s.setFc Fc.initial) rfl rfl rfl rfl (memory_wf_clear_msg rfl h.memory)
  ctl := h.ctl
  fc := fun b => by simp [Fc.initial]
  ect := .inl rfl
  bw := h.bw
  br := h.br
  dct := h.dct

/-- enc_built is set exactly when the tables are built. -/
theorem Ect.Inv.unbuilt_eq {e : Ect} {freq : Table 32} (h : e.Inv freq) (hb : e.built = false) : e = Ect.initial := by
  rcases h with h | h | h
  · exact h
  · subst h; simp [Ect.build] at hb
  · subst h; simp [Ect.build, Ect.assign] at hb

theorem Ect.Inv.assigned_eq {e : Ect} {freq : Table 32} (h : e.Inv freq) (ha : e.assigned = true) : e = encTable freq := by
  rcases h with h | h | h
  · subst h; simp [Ect.initial] at ha
  · subst h; simp [Ect.build, Ect.initial] at ha
  · exact h

theorem Ect.Inv.built {e : Ect} {freq : Table 32} (h : e.Inv freq) (hb : e.built = true) :
    e.assign = encTable freq ∧ e.len = lengthTable freq ∧ e.asize = (Ect.build freq).asize := by
  rcases h with h | h | h
  · subst h; simp [Ect.initial] at hb
  · subst h; exact ⟨rfl, rfl, rfl⟩
  · subst h; exact ⟨rfl, rfl, rfl⟩

theorem Fc.push_inv {f : Fc} (h : f.Inv) (b : Byte) (hl : f.msg.length < 2 ^ 32 - 1) : (f.push b).Inv := by
  intro c
  have hc := h c
  have hle : f.msg.count c ≤ f.msg.length := List.count_le_length
  simp only [Fc.push, Fc.append, tableGet_tableSet_byte, List.count_append, List.count_singleton]
  by_cases hcb : c = b
  · subst hcb
    simp only [if_true, beq_self_eq_true, BitVec.toNat_add, hc]
    simp
    omega
  · have : (b == c) = false := by rw [beq_eq_false_iff_ne]; exact fun h => hcb h.symm
    simp [hcb, this, hc]

theorem fcPush_keeps {s : State} (h : s.Inv) (b : Byte) : (fcPush b s).Keeps [.sequence, .overflow] := by
  unfold fcPush
  split
  · exact ⟨by simp, h⟩
  · next hb =>
    split
    · exact ⟨by simp, h⟩
    · next hn =>
      have hm := memory_wf_iff.mp h.memory
      have hp := h.params.2.1
      exact
        { params := h.params
          memory := memory_wf_append_msg (b := b) rfl hn h.memory
          ctl := h.ctl
          fc := Fc.push_inv h.fc b (by omega)
          ect := .inl (h.ect.unbuilt_eq (by simpa using hb))
          bw := h.bw
          br := h.br
          dct := h.dct }

theorem htBuild_keeps {s : State} (h : s.Inv) (cs : List Cause) : (htBuild s).Keeps cs := h.setEct (.inr (.inl rfl))

theorem ccAssign_keeps {s : State} (h : s.Inv) : (ccAssign s).Keeps [.sequence] := by
  unfold ccAssign
  split
  · next hb => exact h.setEct (.inr (.inr (h.ect.built hb).1))
  · exact ⟨by simp, h⟩

theorem bwWriteByte_post {s : State} (h : s.Inv) (b : Byte) :
    (bwWriteByte b s).Post (fun _ t => t.Inv) (fun c t => c ∈ [Cause.sequence] ∧ t.Inv) := by
  unfold bwWriteByte
  split
  · exact ⟨by simp, h⟩
  · exact h.emitAll [b]

theorem bwWriteBytes_post {s : State} (h : s.Inv) (bs : List Byte) :
    (bwWriteBytes bs s).Post (fun _ t => t.Inv) (fun c t => c ∈ [Cause.sequence] ∧ t.Inv) := by
  induction bs generalizing s with
  | nil => exact h
  | cons b bs ih => exact (bwWriteByte_post h b).bind fun _ t ht => ih ht

theorem State.bwWriteBits_inv {s : State} (h : s.Inv) (bits : List Bool) : (s.bwWriteBits bits).Inv :=
  (h.setBw (Bw.writeBits_spec bits h.bw).1).emitAll _

theorem State.bwFinalize_inv {s : State} (h : s.Inv) : s.bwFinalize.Inv := (h.setBw Bw.initial_inv).emitAll _

theorem encEmit_keeps {s : State} (h : s.Inv) : (encEmit s).Keeps [.sequence] := by
  unfold encEmit
  split
  · exact ⟨by simp, h⟩
  · split
    · exact h
    · exact (bwWriteBytes_post h _).bind fun _ t ht => State.bwFinalize_inv (State.bwWriteBits_inv ht _)

theorem encRun_keeps {s : State} (h : s.Inv) : (encRun s).Keeps [.sequence] := by
  unfold encRun
  exact (htBuild_keeps h [.sequence]).bind fun _ t ht => (ccAssign_keeps ht).bind fun _ u hu => encEmit_keeps hu

theorem bwClear_keeps {s : State} (h : s.Inv) (cs : List Cause) : (bwClear s).Keeps cs := h.setBw Bw.initial_inv

theorem bwBit_keeps {s : State} (h : s.Inv) (bit : Bool) (cs : List Cause) : (bwBit bit s).Keeps cs :=
  State.bwWriteBits_inv h [bit]

theorem bwByte_keeps {s : State} (h : s.Inv) (b : Byte) : (bwByte b s).Keeps [.sequence] :=
  (bwWriteByte_post h b).bind fun _ _ ht => ht

theorem bwFinal_keeps {s : State} (h : s.Inv) (cs : List Cause) : (bwFinal s).Keeps cs := State.bwFinalize_inv h

/-! ### Decoder side -/

/-- A state in which only the reader and the decoder are replaced. -/
theorem State.Inv.setBrDct {s : State} (h : s.Inv) {r : Br} {d : Dct} (hm : Memory.wf (s.setBr r) = true) (hr : r.Inv)
    (hd : d.Inv r) : ((s.setBr r).setDct d).Inv where
  params := h.params
  memory := memory_wf_congr rfl rfl rfl rfl hm
  ctl := h.ctl
  fc := h.fc
  ect := h.ect
  bw := h.bw
  br := hr
  dct := hd

theorem brClear_keeps {s : State} (h : s.Inv) (cs : List Cause) : (brClear s).Keeps cs :=
  h.setBrDct (memory_wf_clear_queue h.memory) Br.initial_inv (Dct.initial_inv _)

theorem brPush_keeps {s : State} (h : s.Inv) (b : Byte) : (brPush b s).Keeps [.sequence, .overflow] := by
  unfold brPush
  split
  · exact ⟨by simp, h⟩
  · next hs =>
    have hs' : s.br.sealed = false := by simpa using hs
    split
    · exact ⟨by simp, h⟩
    · next hn =>
      have hd : s.dct = Dct.initial := h.dct.1 hs'
      refine h.setBrDct (d := s.dct) (memory_wf_append_queue b hn h.memory) ⟨h.br.1, h.br.2⟩ ?_
      rw [hd]; exact Dct.initial_inv _

theorem brEnd_keeps {s : State} (h : s.Inv) : (brEnd s).Keeps [.sequence, .badmark] := by
  unfold brEnd
  split
  · exact ⟨by simp, h⟩
  · next hs =>
    have hd : s.dct = Dct.initial := h.dct.1 (by simpa using hs)
    have hI : (s.setBr { s.br with sealed := true }).Inv := by
      refine h.setBrDct (r := { s.br with sealed := true }) (d := s.dct) (memory_wf_congr (s := s) rfl rfl rfl rfl h.memory) ⟨h.br.1, fun h0 => by cases h0⟩ ?_
      rw [hd]; exact Dct.initial_inv _
    split
    · exact ⟨by simp, hI⟩
    · exact hI

/-- A read leaves the decoder's part of the invariant: the queue, the seal and the table stay, and no bit is added. -/
theorem Dct.Inv.reads {d : Dct} {r r' : Br} (h : d.Inv r) (hq : r'.queue = r.queue) (hs : r'.sealed = r.sealed)
    (ha : r'.avail ≤ r.avail) : d.Inv r' := by
  obtain ⟨h1, h2, h3, h4, h5, h6⟩ := h
  refine ⟨fun h0 => h1 (by rw [← hs]; exact h0), fun h0 => ?_, fun h0 => ?_, h4, h5, h6⟩
  · exact ⟨(h2 h0).1.congr hq hs, (h2 h0).2⟩
  · have := h3 h0; omega

theorem brBit_keeps {s : State} (h : s.Inv) : (brBit s).Keeps [.sequence, .exhausted, .badmark] := by
  unfold brBit
  have : (brReadBit s).Post (fun _ t => t.Inv) (fun c t => c ∈ [Cause.sequence, .exhausted, .badmark] ∧ t.Inv) := by
    cases hr : brReadBit s with
    | done v t =>
      obtain ⟨r, hr', rfl⟩ := brReadBit_done hr
      obtain ⟨hR, -, hq, hs⟩ := Br.readBit_ok hr'
      have hb := (h.sound hR.1).readBit hr'
      exact h.setBrDct (d := s.dct) (memory_wf_readBit hr' h.memory) hb.inv
        (h.dct.reads hq hs (by have := Br.avail_readBit hr'; omega))
    | raised c t =>
      obtain ⟨hc, rfl⟩ := brReadBit_raised hr
      refine ⟨?_, h⟩
      rcases Br.readBit_cause hc with ⟨rfl, -⟩ | rfl | ⟨rfl, -⟩ <;> simp
  exact this.bind fun _ _ ht => ht

theorem brByte_keeps {s : State} (h : s.Inv) : (brByte s).Keeps [.sequence, .exhausted, .badmark] := by
  unfold brByte
  have : (brReadByte s).Post (fun _ t => t.Inv) (fun c t => c ∈ [Cause.sequence, .exhausted, .badmark] ∧ t.Inv) := by
    cases hr : brReadByte s with
    | done v t =>
      obtain ⟨r, hr', rfl⟩ := brReadByte_done hr
      have hb := (h.sound (Br.readByte_ok hr').1.1).readByte hr'
      have hq := Br.readByte_queue hr'
      exact h.setBrDct (d := s.dct) (memory_wf_readByte hr' h.memory) hb.inv
        (h.dct.reads hq.1 hq.2 (Br.avail_readByte hr'))
    | raised c t =>
      obtain ⟨hc, rfl⟩ := brReadByte_raised hr
      refine ⟨?_, h⟩
      rcases Br.readByte_cause hc with rfl | rfl | rfl <;> simp
  exact this.bind fun _ _ ht => ht

theorem decReadTable_keeps {s : State} (h : s.Inv) (hs : s.br.sealed = true) :
    (decReadTable s).Post (fun _ t => t.Inv ∧ TableReady t)
      (fun c t => c ∈ [Cause.sequence, .exhausted, .badhdr, .badmark] ∧ t.Inv) := by
  refine ((decReadTable_post (h.sound hs)).and (Flow.post_of_state (decReadTable_state s))).mono ?_ ?_
  · rintro _ t ⟨ht, hr⟩
    exact ⟨h.decodes hr.decodesOnly ht.1 ht.2.1, ht⟩
  · rintro c t ⟨⟨hc, hb, hd⟩, hr⟩
    refine ⟨?_, h.decodes hr.decodesOnly hb (hd.inv hb.sealed)⟩
    rcases hc with rfl | rfl | rfl | rfl <;> simp

theorem decTable_keeps {s : State} (h : s.Inv) : (decTable s).Keeps [.sequence, .exhausted, .badhdr, .badmark] := by
  unfold decTable
  split
  · exact ⟨by simp, h⟩
  · next hs => exact (decReadTable_keeps h (by simpa using hs)).bind fun _ _ ht => ht.1

theorem State.Inv.symbolDone {s : State} (h : s.Inv) (hr : s.dct.ready = true) : SymbolDone s :=
  ⟨h.sound (h.dct.2.1 hr).1.1, h.dct, hr⟩

theorem decSym_keeps {s : State} (h : s.Inv) : (decSym s).Keeps [.sequence, .exhausted, .nomatch] := by
  unfold decSym
  split
  · exact ⟨by simp, h⟩
  · next hr =>
    refine Flow.Post.bind (Q := fun _ t => t.Inv) ?_ ?_
    · refine ((decDecodeSymbol_post (h.symbolDone (by simpa using hr))).and
        (Flow.post_of_state (decDecodeSymbol_state s))).mono ?_ ?_
      · rintro _ t ⟨⟨ht, -⟩, hd⟩
        exact h.decodes hd ht.1 ht.2.1
      · rintro c t ⟨⟨hc, hb, hi, -⟩, hd⟩
        refine ⟨?_, h.decodes hd hb hi⟩
        rcases hc with rfl | rfl <;> simp
    · intro v t ht
      cases v <;> exact ht

theorem decRun_keeps {s : State} (h : s.Inv) :
    (decRun s).Keeps [.sequence, .exhausted, .nomatch, .badhdr, .badmark] := by
  unfold decRun
  split
  · exact ⟨by simp, h⟩
  · next hs =>
    have hs' : s.br.sealed = true := by simpa using hs
    split
    · next hq =>
      refine h.decodes (DecodesOnly.setDct s _) (h.sound hs') ?_
      refine ⟨fun h0 => by simp [hs'] at h0, fun h0 => by simp [Dct.setDone, Dct.initial] at h0, fun _ => ?_,
        by simp [Dct.setDone, Dct.initial], by simp [Dct.setDone, Dct.initial], by simp [Dct.setDone, Dct.initial]⟩
      exact Br.avail_of_not_readable fun hR => hR.2.1 hq
    · refine Flow.Post.bind ((decReadTable_keeps h hs').mono (fun _ _ h => h)
        (fun c t hc => ⟨by have := hc.1; simp at this ⊢; tauto, hc.2⟩)) fun _ t ht => ?_
      refine Flow.Post.bind (Q := fun _ t => t.Inv) ?_ fun _ _ hu => hu
      refine ((decSymbols_post _ ⟨ht.2.1, ht.2.2.1, ht.2.2.2.1⟩).and
        (Flow.post_of_state (decSymbols_state _ t))).mono ?_ ?_
      · rintro _ u ⟨hu, hd⟩
        exact ht.1.decodes hd hu.1 hu.2.1
      · rintro c u ⟨⟨hc, hb, hi, -⟩, hd⟩
        refine ⟨?_, ht.1.decodes hd hb hi⟩
        rcases hc with rfl | rfl <;> simp

end Sys2Proof.Machine
end

