-- ==== Sys2Proof/Laws/Table.lean ====
section
/-! SUPPORT. The header and code table of an encoded stream, read back by `dec_read_table` (46_decoder.md R290 to R293). -/

namespace Sys2Proof.Machine

/-! ### Any header and code table -/

/-- The decoder once the header has been read: the alphabet A, max_length m, the count bytes C. -/
def Dct.ofHeader (A : List Byte) (m : Byte) (C : List Byte) : Dct :=
  (((Dct.initial.setSize (BitVec.ofNat 8 (A.length - 1))).setSymbols 0 A).setMaxlen m).setCounts 1 C

/-- The decoder once the codes cs have been read as well. -/
def Dct.withCodes (d : Dct) (cs : List (Nat × Code)) : Dct := (d.setCodes 0 cs).setReady

theorem Dct.ofHeader_count (A : List Byte) (m : Byte) (C : List Byte) :
    (Dct.ofHeader A m C).count = tableWrite (Table.zero 9) 1 (C.map (BitVec.setWidth 9)) := rfl

theorem Dct.ofHeader_alpha (A : List Byte) (m : Byte) (C : List Byte) :
    (Dct.ofHeader A m C).alpha = tableWrite (Table.zero 8) 0 A := rfl

theorem Dct.ofHeader_maxlen (A : List Byte) (m : Byte) (C : List Byte) : (Dct.ofHeader A m C).maxlen = m := rfl

theorem Dct.withCodes_asize (d : Dct) (cs : List (Nat × Code)) : (d.withCodes cs).asize = d.asize := rfl

theorem Dct.withCodes_maxlen (d : Dct) (cs : List (Nat × Code)) : (d.withCodes cs).maxlen = d.maxlen := rfl

theorem Dct.withCodes_alpha (d : Dct) (cs : List (Nat × Code)) : (d.withCodes cs).alpha = d.alpha := rfl

theorem Dct.withCodes_len (d : Dct) (cs : List (Nat × Code)) :
    (d.withCodes cs).len = tableWrite d.len 0 (cs.map fun c => BitVec.ofNat 8 c.1) := rfl

theorem Dct.withCodes_code (d : Dct) (cs : List (Nat × Code)) :
    (d.withCodes cs).code = tableWrite d.code 0 (cs.map Prod.snd) := rfl

theorem Dct.ofHeader_asize {A : List Byte} (m : Byte) (C : List Byte) (h1 : 1 ≤ A.length) (h2 : A.length ≤ 256) :
    (Dct.ofHeader A m C).asize.toNat = A.length := by
  simp only [Dct.ofHeader, Dct.setCounts, Dct.setMaxlen, Dct.setSymbols, Dct.setSize, BitVec.toNat_add, BitVec.toNat_setWidth, BitVec.toNat_ofNat, show (1 : BitVec 9).toNat = 1 from rfl]
  omega

/-- At a byte boundary the significant bits are the remaining data bytes'. -/
theorem Br.skip_pendingBits {r : Br} (hc : r.cnt = 0) (k : Nat) :
    (r.skip k).pendingBits = unpackBytes r.sig (r.dataBytes.drop k) := by
  rw [Br.pendingBits, Br.skip_dataBytes]
  simp [Br.skip, hc]
  rfl

theorem decReadBody_codes {s : State} {cs : List (Nat × Code)} {rest : List Bool}
    (h : s.br.Readable) (hsum : s.dct.restoreCount.countSum = s.dct.asize.toNat)
    (hls : cs.map Prod.fst = s.dct.restoreCount.codeLengths) (hcs : ∀ c ∈ cs, c.2.toNat < 2 ^ c.1)
    (hp : s.br.pendingBits = cs.flatMap (fun c => codeBits c.1 c.2) ++ rest) :
    ∃ r, decReadBody s = .done () ((s.setBr r).setDct (s.dct.restoreCount.withCodes cs)) ∧
      r.pendingBits = rest ∧ r.Readable := by
  obtain ⟨r, h1, h2, h3⟩ := decReadCodes_codes cs hcs 0 (s := s.setDct s.dct.restoreCount) h hp
  refine ⟨r, ?_, h2, h3⟩
  rw [decReadBody, if_neg (by simpa using hsum), ← hls, h1, Flow.bind_done]
  rfl

/-- The alphabet and max_length of a header are read (R290). -/
theorem decReadTable_alphabet {s : State} {A E : List Byte} {m : Byte} (h : s.br.Readable) (hc : s.br.cnt = 0)
    (hd : s.br.dataBytes = BitVec.ofNat 8 (A.length - 1) :: (A ++ m :: E)) (hA : 1 ≤ A.length) (hA' : A.length ≤ 256) :
    decReadTable s =
      if m = 0 then .raised .badhdr ((s.setBr (s.br.skip (A.length + 2))).setDct (Dct.ofHeader A m []))
      else (decReadCounts m.toNat 1 ((s.setBr (s.br.skip (A.length + 2))).setDct (Dct.ofHeader A m []))).bind
        fun _ t => decReadBody t := by
  have hlen : (BitVec.ofNat 8 (A.length - 1) : Byte).toNat + 1 = A.length := by
    rw [BitVec.toNat_ofNat]; omega
  have e1 : brReadByte (s.setDct Dct.initial) = .done (BitVec.ofNat 8 (A.length - 1))
      ((s.setDct Dct.initial).setBr (s.br.skip 1)) := brReadByte_data h hc hd
  have d1 : (s.br.skip 1).dataBytes = A ++ m :: E := by rw [Br.skip_dataBytes, hd]; rfl
  have d2 : ((s.br.skip 1).skip A.length).dataBytes = m :: E := by
    rw [Br.skip_dataBytes, d1, List.drop_left]
  have e2 := decReadAlpha_data A 0
    (s := (s.setBr (s.br.skip 1)).setDct (Dct.initial.setSize (BitVec.ofNat 8 (A.length - 1))))
    (Br.skip_readable h 1) hc d1
  have e3 := brReadByte_data
    (s := (s.setBr ((s.br.skip 1).skip A.length)).setDct
      ((Dct.initial.setSize (BitVec.ofNat 8 (A.length - 1))).setSymbols 0 A))
    (Br.skip_readable (Br.skip_readable h 1) _) hc d2
  have hskip : ((s.br.skip 1).skip A.length).skip 1 = s.br.skip (A.length + 2) := by
    rw [Br.skip_skip, Br.skip_skip, show 1 + (A.length + 1) = A.length + 2 by omega]
  simp only [State.setDct_dct, State.setBr_br, State.setDct_br, State.setBr_setBr,
    State.setDct_setDct, State.setDct_setBr, hskip] at e1 e2 e3
  rw [decReadTable, e1, Flow.bind_done, hlen]
  simp only [State.setDct_dct, State.setDct_setDct]
  rw [e2, Flow.bind_done, e3, Flow.bind_done]
  rfl

/-- The whole header is read; the code table is read from there (R290). -/
theorem decReadTable_header {s : State} {A C D : List Byte} {m : Byte} (h : s.br.Readable) (hc : s.br.cnt = 0)
    (hd : s.br.dataBytes = BitVec.ofNat 8 (A.length - 1) :: (A ++ m :: (C ++ D)))
    (hA : 1 ≤ A.length) (hA' : A.length ≤ 256) (hm : m ≠ 0) (hC : C.length = m.toNat) :
    decReadTable s = decReadBody ((s.setBr (s.br.skip (A.length + 2 + C.length))).setDct (Dct.ofHeader A m C)) := by
  have d3 : (s.br.skip (A.length + 2)).dataBytes = C ++ D := by
    rw [Br.skip_dataBytes, hd, show A.length + 2 = (A.length + 1) + 1 by omega, List.drop_succ_cons,
      List.drop_append]
    simp
  have e4 := decReadCounts_data C 1 (s := (s.setBr (s.br.skip (A.length + 2))).setDct (Dct.ofHeader A m []))
    (Br.skip_readable h _) hc d3
  rw [decReadTable_alphabet h hc hd hA hA', if_neg hm, ← hC, e4, Flow.bind_done]
  simp only [State.setDct_br, State.setBr_br, State.setDct_setBr, State.setBr_setBr, State.setDct_setDct, Br.skip_skip]
  rfl

/-- What follows a whole header. -/
theorem drop_header (a m : Byte) (A C D : List Byte) : (a :: (A ++ m :: (C ++ D))).drop (A.length + 2 + C.length) = D := by
  rw [show A.length + 2 + C.length = (A.length + (C.length + 1)) + 1 by omega, List.drop_succ_cons, List.drop_append]
  simp

/-- A header whose counts sum to its alphabet's size, followed by the codes it announces, is read (R290). -/
theorem decReadTable_data {s : State} {A C D : List Byte} {m : Byte} {cs : List (Nat × Code)} {rest : List Bool}
    (h : s.br.Readable) (hc : s.br.cnt = 0)
    (hd : s.br.dataBytes = BitVec.ofNat 8 (A.length - 1) :: (A ++ m :: (C ++ D)))
    (hA : 1 ≤ A.length) (hA' : A.length ≤ 256) (hm : m ≠ 0) (hC : C.length = m.toNat)
    (hsum : (Dct.ofHeader A m C).restoreCount.countSum = A.length)
    (hls : cs.map Prod.fst = (Dct.ofHeader A m C).restoreCount.codeLengths) (hcs : ∀ c ∈ cs, c.2.toNat < 2 ^ c.1)
    (hp : unpackBytes s.br.sig D = cs.flatMap (fun c => codeBits c.1 c.2) ++ rest) :
    ∃ r, decReadTable s = .done () ((s.setBr r).setDct ((Dct.ofHeader A m C).restoreCount.withCodes cs)) ∧
      r.pendingBits = rest ∧ r.Readable := by
  have hD : (s.br.skip (A.length + 2 + C.length)).dataBytes = D := by
    rw [Br.skip_dataBytes, hd, drop_header]
  have d4 : (s.br.skip (A.length + 2 + C.length)).pendingBits = cs.flatMap (fun c => codeBits c.1 c.2) ++ rest := by
    rw [Br.skip_pendingBits hc, ← Br.skip_dataBytes, hD, hp]
  obtain ⟨r, h1, h2, h3⟩ := decReadBody_codes (cs := cs) (rest := rest)
    (s := (s.setBr (s.br.skip (A.length + 2 + C.length))).setDct (Dct.ofHeader A m C))
    (Br.skip_readable h _) (by rw [State.setDct_dct, hsum, Dct.ofHeader_asize m C hA hA']) hls hcs d4
  refine ⟨r, ?_, h2, h3⟩
  rw [decReadTable_header h hc hd hA hA' hm hC, h1]
  simp only [State.setDct_dct, State.setDct_setBr, State.setBr_setBr, State.setDct_setDct]

theorem restoreCount_other (d : Dct) : d.restoreCount.asize = d.asize ∧ d.restoreCount.maxlen = d.maxlen ∧
    d.restoreCount.alpha = d.alpha ∧ d.restoreCount.len = d.len ∧ d.restoreCount.code = d.code ∧
    d.restoreCount.cand = d.cand ∧ d.restoreCount.candLen = d.candLen ∧ d.restoreCount.ready = d.ready ∧
    d.restoreCount.done = d.done := by
  unfold Dct.restoreCount
  split <;> simp

/-- A count byte as it stands in the table before reconstruction. -/
theorem Dct.ofHeader_count_get (A : List Byte) {m : Byte} {C : List Byte} (hC : C.length = m.toNat) (l : Nat) :
    (tableGet (Dct.ofHeader A m C).count l).toNat = if 1 ≤ l ∧ l ≤ m.toNat then (C.getD (l - 1) 0).toNat else 0 := by
  have hm := m.isLt
  rw [Dct.ofHeader_count, tableGet_tableWrite _ _ _ (by rw [List.length_map]; omega), List.length_map]
  by_cases h : 1 ≤ l ∧ l ≤ m.toNat
  · have hl : l - 1 < C.length := by omega
    have hb := (C[l - 1]).isLt
    rw [if_pos (by omega), if_pos h, List.getElem?_map, List.getElem?_eq_getElem hl, List.getD_eq_getElem?_getD,
      List.getElem?_eq_getElem hl]
    simp only [Option.map_some, Option.getD_some, BitVec.toNat_setWidth]
    omega
  · rw [if_neg (by omega), if_neg h, tableGet_zero]; rfl

/-- The counts of a header as reconstructed (R291). -/
theorem Dct.ofHeader_restore (A : List Byte) {m : Byte} {C : List Byte} (hA : 1 ≤ A.length) (hA' : A.length ≤ 256)
    (hC : C.length = m.toNat) (l : Nat) :
    (tableGet (Dct.ofHeader A m C).restoreCount.count l).toNat =
      if 1 ≤ l ∧ l ≤ m.toNat then headerCount A.length m C l else 0 := by
  have hiff : (Dct.ofHeader A m C).count256 = true ↔ A.length = 256 ∧ m = 8 ∧ ∀ c ∈ C, c = 0 := by
    rw [Dct.count256]
    simp only [Bool.and_eq_true, decide_eq_true_eq, List.all_eq_true, Dct.ofHeader_asize m C hA hA', Dct.ofHeader_maxlen]
    constructor
    · rintro ⟨⟨h1, h2'⟩, h3⟩
      have h2 : m.toNat = 8 := of_decide_eq_true h2'
      refine ⟨h1, BitVec.eq_of_toNat_eq h2, fun c hc => ?_⟩
      obtain ⟨i, hi, rfl⟩ := List.getElem_of_mem hc
      have h4 := congrArg BitVec.toNat (h3 (i + 1) (by rw [List.mem_range'_1]; omega))
      rw [Dct.ofHeader_count_get A hC, if_pos (by omega), Nat.add_sub_cancel, List.getD_eq_getElem?_getD,
        List.getElem?_eq_getElem hi] at h4
      exact BitVec.eq_of_toNat_eq h4
    · rintro ⟨h1, h2, h3⟩
      refine ⟨⟨h1, by rw [h2]; rfl⟩, fun k hk => ?_⟩
      apply BitVec.eq_of_toNat_eq
      rw [Dct.ofHeader_count_get A hC]
      split
      · rw [List.getD_eq_getElem?_getD]
        cases hg : C[k - 1]? with
        | none => rfl
        | some c => rw [Option.getD_some, h3 c (List.mem_of_getElem? hg)]; rfl
      · rfl
  rw [Dct.restoreCount, headerCount]
  by_cases h : A.length = 256 ∧ m = 8 ∧ ∀ c ∈ C, c = 0
  · have h8 : m.toNat = 8 := by rw [h.2.1]; rfl
    rw [if_pos (hiff.mpr h)]
    simp only
    rw [tableGet_tableSet _ _ (by omega)]
    by_cases hl : l = 8
    · rw [if_pos hl, if_pos (by omega), if_pos ⟨h.1, h.2.1, h.2.2, hl⟩]; rfl
    · rw [if_neg hl, Dct.ofHeader_count_get A hC, if_neg (fun h : _ ∧ _ ∧ _ ∧ l = 8 => hl h.2.2.2)]
  · rw [if_neg (by rw [hiff]; exact h), Dct.ofHeader_count_get A hC,
      if_neg (fun h' : A.length = 256 ∧ m = 8 ∧ (∀ c ∈ C, c = 0) ∧ l = 8 => h ⟨h'.1, h'.2.1, h'.2.2.1⟩)]

theorem Dct.ofHeader_countSum (A : List Byte) {m : Byte} {C : List Byte} (hA : 1 ≤ A.length) (hA' : A.length ≤ 256)
    (hC : C.length = m.toNat) :
    (Dct.ofHeader A m C).restoreCount.countSum = ((List.range' 1 m.toNat).map (headerCount A.length m C)).sum := by
  rw [Dct.countSum, (restoreCount_other _).2.1, Dct.ofHeader_maxlen]
  refine congrArg List.sum (List.map_congr_left fun l hl => ?_)
  rw [List.mem_range'_1] at hl
  rw [Dct.ofHeader_restore A hA hA' hC, if_pos (by omega)]

theorem flatMap_congr_mem {α β : Type} {f g : α → List β} {xs : List α} (h : ∀ x ∈ xs, f x = g x) :
    xs.flatMap f = xs.flatMap g := by
  rw [List.flatMap_def, List.flatMap_def, List.map_congr_left h]

theorem Dct.ofHeader_codeLengths (A : List Byte) {m : Byte} {C : List Byte} (hA : 1 ≤ A.length) (hA' : A.length ≤ 256)
    (hC : C.length = m.toNat) :
    (Dct.ofHeader A m C).restoreCount.codeLengths =
      (List.range' 1 m.toNat).flatMap fun l => List.replicate (headerCount A.length m C l) l := by
  rw [Dct.codeLengths, (restoreCount_other _).2.1, Dct.ofHeader_maxlen]
  refine flatMap_congr_mem fun l hl => ?_
  rw [List.mem_range'_1] at hl
  rw [Dct.ofHeader_restore A hA hA' hC, if_pos (by omega)]

/-! ### The encoder's header -/

theorem headerAlphabet_length (freq : Table 32) : (headerAlphabet freq).length = (alphabet freq).length := by
  rw [headerAlphabet, List.length_map, canonicalAlphabet_length]

theorem headerCounts_length (freq : Table 32) : (headerCounts freq).length = maxLength (lengthTable freq) := by
  simp [headerCounts]

/-- The decoder once the encoder's header has been read. -/
def headerDct (freq : Table 32) : Dct :=
  Dct.ofHeader (headerAlphabet freq) (BitVec.ofNat 8 (maxLength (lengthTable freq))) (headerCounts freq)

theorem headerDct_maxlen (freq : Table 32) : (headerDct freq).maxlen.toNat = maxLength (lengthTable freq) := by
  have := maxLength_le (lengthTable freq)
  rw [headerDct, Dct.ofHeader_maxlen, BitVec.toNat_ofNat]
  omega

theorem headerDct_asize {freq : Table 32} (h : alphabet freq ≠ []) :
    (headerDct freq).asize.toNat = (alphabet freq).length := by
  have h1 := alphabet_length_le freq
  have h2 : 0 < (alphabet freq).length := List.length_pos_iff.mpr h
  have h3 := headerAlphabet_length freq
  have := Dct.ofHeader_asize (A := headerAlphabet freq) (BitVec.ofNat 8 (maxLength (lengthTable freq)))
    (headerCounts freq) (by omega) (by omega)
  rw [headerDct, this, h3]

/-- A count byte as read. -/
theorem headerDct_count (freq : Table 32) {l : Nat} (h1 : 1 ≤ l) (h2 : l ≤ maxLength (lengthTable freq)) :
    (tableGet (headerDct freq).count l).toNat = lengthCount (lengthTable freq) l % 256 := by
  have hm := maxLength_le (lengthTable freq)
  have hl := headerCounts_length freq
  rw [headerDct, Dct.ofHeader_count, tableGet_tableWrite _ _ _ (by rw [List.length_map, hl]; omega),
    if_pos (by rw [List.length_map, hl]; omega)]
  simp only [headerCounts, List.map_map]
  rw [List.getElem?_map, List.getElem?_range' (by omega)]
  simp only [Option.map_some, Option.getD_some, Function.comp, BitVec.toNat_setWidth, BitVec.toNat_ofNat]
  rw [show 1 + 1 * (l - 1) = l by omega]
  omega

/-- The counts of a length table sum to its number of symbols. -/
theorem lengthCount_sum_alphabet (freq : Table 32) :
    ((List.range' 1 (maxLength (lengthTable freq))).map (lengthCount (lengthTable freq))).sum =
    (alphabet freq).length := by
  rw [lengthCount_sum, codedSymbols_length]

theorem le_sum_of_mem {xs : List Nat} {x : Nat} (h : x ∈ xs) : x ≤ xs.sum := List.single_le_sum (by simp) x h

theorem lengthCount_le_alphabet (freq : Table 32) {l : Nat} (h1 : 1 ≤ l) (h2 : l ≤ maxLength (lengthTable freq)) :
    lengthCount (lengthTable freq) l ≤ (alphabet freq).length := by
  rw [← lengthCount_sum_alphabet]
  apply le_sum_of_mem
  exact List.mem_map.mpr ⟨l, by rw [List.mem_range'_1]; omega, rfl⟩

/-- A count of 256 means 256 symbols of length 8, and no other length (R291). -/
theorem lengthCount_256 {freq : Table 32} {l : Nat} (h1 : 1 ≤ l)
    (h : lengthCount (lengthTable freq) l = 256) :
    l = 8 ∧ (alphabet freq).length = 256 ∧ maxLength (lengthTable freq) = 8 := by
  have hl : l ≤ maxLength (lengthTable freq) := by
    by_contra hc
    rw [lengthCount_of_gt _ (by omega)] at h; omega
  have hm := maxLength_le (lengthTable freq)
  have hn := lengthCount_le_alphabet freq h1 hl
  have hn' := alphabet_length_le freq
  have ha : (alphabet freq).length = 256 := by omega
  have hall : ∀ s, s < 256 → lengthOf (lengthTable freq) s = l := by
    intro s hs
    have hsub : symbolsOfLength (lengthTable freq) l = List.range 256 := by
      apply List.Sublist.eq_of_length
      · exact List.filter_sublist
      · rw [List.length_range]; exact h
    have : s ∈ symbolsOfLength (lengthTable freq) l := by rw [hsub]; simpa using hs
    exact (mem_symbolsOfLength.mp this).2
  have hmax : maxLength (lengthTable freq) = l := by
    rcases maxLength_attained (lengthTable freq) with h0 | ⟨s, hs, h0⟩
    · omega
    · rw [← h0]; exact hall s hs
  have hk : kraftUpTo (lengthTable freq) 255 = 2 ^ 255 := by
    rw [kraftUpTo_eq, codedSymbols_lengthTable, List.map_map]
    have := lengthTable_kraft freq (by intro h0; rw [h0] at ha; simp at ha)
    rw [if_neg (by omega)] at this
    exact this
  have hk' : kraftUpTo (lengthTable freq) 255 = 256 * 2 ^ (255 - l) := by
    rw [kraftUpTo_eq]
    have : (codedSymbols (lengthTable freq)).map (fun s => 2 ^ (255 - lengthOf (lengthTable freq) s)) =
        List.replicate 256 (2 ^ (255 - l)) := by
      rw [List.eq_replicate_iff, List.length_map, codedSymbols_length, ha]
      refine ⟨rfl, ?_⟩
      intro b hb
      obtain ⟨s, hs, rfl⟩ := List.mem_map.mp hb
      rw [hall s (mem_codedSymbols.mp hs).1]
    rw [this, List.sum_replicate, smul_eq_mul]
  rw [hk] at hk'
  have h256 : (256 : Nat) = 2 ^ 8 := by norm_num
  rw [h256, ← pow_add] at hk'
  have := Nat.pow_right_injective (le_refl 2) hk'
  exact ⟨by omega, ha, by omega⟩

/-- After the reconstruction of R291 the counts are the encoder's. -/
theorem restoreCount_headerDct {freq : Table 32} (ha : alphabet freq ≠ []) {l : Nat} (h1 : 1 ≤ l)
    (h2 : l ≤ maxLength (lengthTable freq)) :
    (tableGet (headerDct freq).restoreCount.count l).toNat = lengthCount (lengthTable freq) l := by
  have hcount := headerDct_count freq h1 h2
  have hle := lengthCount_le (lengthTable freq) l
  by_cases h256 : (headerDct freq).count256 = true
  · simp only [Dct.restoreCount, h256, if_true]
    simp only [Dct.count256, Bool.and_eq_true, decide_eq_true_eq, List.all_eq_true, List.mem_range'_1,
      headerDct_asize ha, headerDct_maxlen] at h256
    obtain ⟨⟨hn, hm⟩, hz⟩ := h256
    rw [tableGet_tableSet _ _ (by omega)]
    have hzero : ∀ j, 1 ≤ j → j ≤ 8 → lengthCount (lengthTable freq) j % 256 = 0 := by
      intro j hj hj'
      rw [← headerDct_count freq hj (by omega), hz j (by omega)]
      rfl
    have hsum := lengthCount_sum_alphabet freq
    rw [hm, hn] at hsum
    have hsplit : ∀ j, 1 ≤ j → j ≤ 8 → lengthCount (lengthTable freq) j = 0 ∨ lengthCount (lengthTable freq) j = 256 := by
      intro j hj hj'
      have := hzero j hj hj'
      have := lengthCount_le (lengthTable freq) j
      omega
    have h8 : lengthCount (lengthTable freq) 8 = 256 := by
      have : ∃ j, 1 ≤ j ∧ j ≤ 8 ∧ lengthCount (lengthTable freq) j = 256 := by
        by_contra hc
        have h0 : ∀ j, 1 ≤ j → j ≤ 8 → lengthCount (lengthTable freq) j = 0 := by
          intro j hj hj'
          rcases hsplit j hj hj' with h | h
          · exact h
          · exact absurd ⟨j, hj, hj', h⟩ hc
        have : ((List.range' 1 8).map (lengthCount (lengthTable freq))).sum = 0 := by
          apply List.sum_eq_zero
          intro x hx
          obtain ⟨j, hj, rfl⟩ := List.mem_map.mp hx
          rw [List.mem_range'_1] at hj
          exact h0 j (by omega) (by omega)
        omega
      obtain ⟨j, hj, hj', hjc⟩ := this
      have := (lengthCount_256 hj hjc).1
      rw [← this]; exact hjc
    by_cases hl8 : l = 8
    · rw [if_pos hl8, hl8, h8]; rfl
    · rw [if_neg hl8, hcount]
      rcases hsplit l h1 (by omega) with h | h
      · omega
      · exact absurd (lengthCount_256 h1 h).1 hl8
  · simp only [Dct.restoreCount, h256, Bool.false_eq_true, if_false]
    rw [hcount]
    by_cases hl : lengthCount (lengthTable freq) l = 256
    · exfalso
      apply h256
      obtain ⟨h8, hn, hm⟩ := lengthCount_256 h1 hl
      simp only [Dct.count256, Bool.and_eq_true, decide_eq_true_eq, List.all_eq_true, List.mem_range'_1,
        headerDct_asize ha, headerDct_maxlen]
      refine ⟨⟨hn, hm⟩, ?_⟩
      intro j hj
      apply BitVec.eq_of_toNat_eq
      rw [headerDct_count freq (by omega) (by omega)]
      have hsum := lengthCount_sum_alphabet freq
      rw [hm, hn] at hsum
      by_cases hj8 : j = 8
      · subst hj8; subst h8; rw [hl]; rfl
      · have : lengthCount (lengthTable freq) j + lengthCount (lengthTable freq) 8 ≤ 256 := by
          rw [← hsum]
          have hj7 : j ∈ List.range' 1 7 := by rw [List.mem_range'_1]; omega
          rw [show (8 : Nat) = 7 + 1 from rfl, List.range'_1_concat, List.map_append, List.sum_append]
          have := le_sum_of_mem (List.mem_map_of_mem (f := lengthCount (lengthTable freq)) hj7)
          simp
          omega
        subst h8
        rw [hl] at this
        rw [show lengthCount (lengthTable freq) j = 0 by omega]
        rfl
    · omega

theorem headerDct_countSum {freq : Table 32} (ha : alphabet freq ≠ []) :
    (headerDct freq).restoreCount.countSum = (alphabet freq).length := by
  rw [Dct.countSum, (restoreCount_other _).2.1, headerDct_maxlen, ← lengthCount_sum_alphabet]
  refine congrArg List.sum (List.map_congr_left ?_)
  intro l hl
  rw [List.mem_range'_1] at hl
  exact restoreCount_headerDct ha (by omega) (by omega)

theorem headerDct_codeLengths {freq : Table 32} (ha : alphabet freq ≠ []) :
    (canonicalCodes freq).map Prod.fst = (headerDct freq).restoreCount.codeLengths := by
  have h1 : (canonicalCodes freq).map Prod.fst =
      (canonicalAlphabet (lengthTable freq)).map (lengthOf (lengthTable freq)) := by
    rw [canonicalCodes, List.map_map]; rfl
  rw [h1, canonicalAlphabet_lengths, Dct.codeLengths, (restoreCount_other _).2.1, headerDct_maxlen]
  refine flatMap_congr_mem fun l hl => ?_
  rw [List.mem_range'_1] at hl
  rw [restoreCount_headerDct ha (by omega) (by omega)]

/-! ### The decoder's table of an encoded stream -/

/-- The decoder once the encoder's header and codes have been read. -/
def streamDct (freq : Table 32) : Dct := (headerDct freq).restoreCount.withCodes (canonicalCodes freq)

theorem streamDct_clearCand (freq : Table 32) : (streamDct freq).clearCand = streamDct freq := by
  have h : ∀ d : Dct, d.cand = 0 → d.candLen = 0 → d.clearCand = d := by
    rintro ⟨⟩ rfl rfl
    rfl
  apply h
  · simp only [streamDct, Dct.withCodes, Dct.setCodes, Dct.setReady, (restoreCount_other _).2.2.2.2.2.1, headerDct,
      Dct.ofHeader, Dct.setCounts, Dct.setMaxlen, Dct.setSymbols, Dct.setSize, Dct.initial]
  · simp only [streamDct, Dct.withCodes, Dct.setCodes, Dct.setReady, (restoreCount_other _).2.2.2.2.2.2.1, headerDct,
      Dct.ofHeader, Dct.setCounts, Dct.setMaxlen, Dct.setSymbols, Dct.setSize, Dct.initial]

theorem streamDct_asize {freq : Table 32} (ha : alphabet freq ≠ []) :
    (streamDct freq).asize.toNat = (alphabet freq).length := by
  rw [streamDct, Dct.withCodes_asize, (restoreCount_other _).1, headerDct_asize ha]

theorem streamDct_maxlen (freq : Table 32) : (streamDct freq).maxlen.toNat = maxLength (lengthTable freq) := by
  rw [streamDct, Dct.withCodes_maxlen, (restoreCount_other _).2.1, headerDct_maxlen]

theorem canonicalCodes_length (freq : Table 32) : (canonicalCodes freq).length = (alphabet freq).length := by
  rw [canonicalCodes, List.length_map, canonicalAlphabet_length]

theorem canonicalCodes_length_eq (freq : Table 32) :
    (canonicalCodes freq).length = (canonicalAlphabet (lengthTable freq)).length := by
  rw [canonicalCodes, List.length_map]

theorem canonicalCodes_get (freq : Table 32) {i : Nat} (h : i < (canonicalAlphabet (lengthTable freq)).length) :
    (canonicalCodes freq)[i]? = some (symbolCode freq (canonicalAlphabet (lengthTable freq))[i]) := by
  rw [canonicalCodes, List.getElem?_map, List.getElem?_eq_getElem h]
  rfl

theorem streamDct_len (freq : Table 32) {i : Nat} (h : i < (canonicalAlphabet (lengthTable freq)).length) :
    tableGet (streamDct freq).len i =
    BitVec.ofNat 8 (lengthOf (lengthTable freq) (canonicalAlphabet (lengthTable freq))[i]) := by
  have h1 := canonicalAlphabet_length_le (lengthTable freq)
  have h3 := canonicalCodes_length_eq freq
  rw [streamDct, Dct.withCodes_len, tableGet_tableWrite _ _ _ (by rw [List.length_map]; omega), if_pos (by rw [List.length_map]; omega),
    List.getElem?_map, Nat.sub_zero, canonicalCodes_get _ h, Option.map_some, Option.getD_some, symbolCode]

theorem streamDct_code (freq : Table 32) {i : Nat} (h : i < (canonicalAlphabet (lengthTable freq)).length) :
    tableGet (streamDct freq).code i = (symbolCode freq (canonicalAlphabet (lengthTable freq))[i]).2 := by
  have h1 := canonicalAlphabet_length_le (lengthTable freq)
  have h3 := canonicalCodes_length_eq freq
  rw [streamDct, Dct.withCodes_code, tableGet_tableWrite _ _ _ (by rw [List.length_map]; omega), if_pos (by rw [List.length_map]; omega),
    List.getElem?_map, Nat.sub_zero, canonicalCodes_get _ h, Option.map_some, Option.getD_some]

theorem streamDct_alpha (freq : Table 32) {i : Nat} (h : i < (canonicalAlphabet (lengthTable freq)).length) :
    (tableGet (streamDct freq).alpha i).toNat = (canonicalAlphabet (lengthTable freq))[i] := by
  have h1 := canonicalAlphabet_length_le (lengthTable freq)
  have h2 := (mem_canonicalAlphabet.mp (List.getElem_mem h)).1
  have h3 : (headerAlphabet freq).length = (canonicalAlphabet (lengthTable freq)).length := by
    rw [headerAlphabet, List.length_map]
  rw [streamDct, Dct.withCodes_alpha, (restoreCount_other _).2.2.1, headerDct, Dct.ofHeader_alpha,
    tableGet_tableWrite _ _ _ (by omega), if_pos (by omega), headerAlphabet, List.getElem?_map, Nat.sub_zero,
    List.getElem?_eq_getElem h, Option.map_some, Option.getD_some, BitVec.toNat_ofNat]
  omega

/-- A symbol's code is found at its canonical position, and no shorter candidate is found before it (R293, R206). -/
theorem streamDct_lookup {freq : Table 32} {s : Byte} (hs : s ∈ alphabet freq) :
    ∃ i, (streamDct freq).lookup (BitVec.ofNat 8 (symbolCode freq s.toNat).1) (symbolCode freq s.toNat).2 = some i ∧
      tableGet (streamDct freq).alpha i = s ∧
      ∀ j, 0 < j → j < (symbolCode freq s.toNat).1 →
        (streamDct freq).lookup (BitVec.ofNat 8 ((symbolCode freq s.toNat).1 - j)) ((symbolCode freq s.toNat).2 >>> j) =
          none := by
  have hne : alphabet freq ≠ [] := List.ne_nil_of_mem hs
  have h0 := lengthOf_ne_zero_of_mem hs
  have hmem : s.toNat ∈ canonicalAlphabet (lengthTable freq) := mem_canonicalAlphabet.mpr ⟨s.isLt, h0⟩
  obtain ⟨i, hi, hget⟩ := List.getElem_of_mem hmem
  have hn : (streamDct freq).asize.toNat = (canonicalAlphabet (lengthTable freq)).length := by
    rw [streamDct_asize hne, canonicalAlphabet_length]
  have hle := lengthOf_le (lengthTable freq)
  have hinj : ∀ a b, lengthOf (lengthTable freq) a ≤ 255 → b ≤ 255 →
      BitVec.ofNat 8 (lengthOf (lengthTable freq) a) = BitVec.ofNat 8 b → lengthOf (lengthTable freq) a = b := by
    intro a b ha hb he
    have := congrArg BitVec.toNat he
    simp only [BitVec.toNat_ofNat] at this
    omega
  refine ⟨i, ?_, ?_, ?_⟩
  · rw [Dct.lookup_eq_some]
    refine ⟨by rw [hn]; exact hi, ?_, ?_, ?_⟩
    · rw [streamDct_len _ hi, hget]; rfl
    · rw [streamDct_code _ hi, hget]
    · rintro j hj ⟨hl, hc⟩
      have hjn : j < (canonicalAlphabet (lengthTable freq)).length := by omega
      rw [streamDct_len _ hjn] at hl
      rw [streamDct_code _ hjn] at hc
      obtain ⟨ht, ht0⟩ := mem_canonicalAlphabet.mp (List.getElem_mem hjn)
      have hleq := hinj _ _ (hle _) (hle _) hl
      have hceq := (symbolCode_toNat ht ht0).1.symm.trans
        ((congrArg BitVec.toNat hc).trans (symbolCode_toNat s.isLt h0).1)
      have := codeNat_inj_of_length_eq _ hleq hceq
      rw [← hget] at this
      have := (canonicalAlphabet_nodup (lengthTable freq)).getElem_inj_iff.mp this
      omega
  · apply BitVec.eq_of_toNat_eq
    rw [streamDct_alpha _ hi, hget]
  · intro j hj hjl
    rw [Dct.lookup_eq_none]
    rintro k hk ⟨hl, hc⟩
    rw [hn] at hk
    rw [streamDct_len _ hk] at hl
    rw [streamDct_code _ hk] at hc
    obtain ⟨ht, ht0⟩ := mem_canonicalAlphabet.mp (List.getElem_mem hk)
    have hjl' : j < lengthOf (lengthTable freq) s.toNat := hjl
    have hlen := hle s.toNat
    have hleq := hinj _ (lengthOf (lengthTable freq) s.toNat - j) (hle _) (by omega) hl
    have hceq := (symbolCode_toNat ht ht0).1.symm.trans ((congrArg BitVec.toNat hc).trans
      ((BitVec.toNat_ushiftRight _ _).trans ((Nat.shiftRight_eq_div_pow _ _).trans
        (congrArg (· / 2 ^ j) (symbolCode_toNat s.isLt h0).1))))
    have := codeNat_prefix_free (lengthTable freq) ht s.isLt ht0 (by rw [hleq]; omega)
      (by rw [hleq, Nat.sub_sub_self (by omega)]; exact hceq.symm)
    rw [this] at hleq
    omega

end Sys2Proof.Machine
end

