-- ==== Sys2Proof/Laws/Runs.lean ====
section
/-! SUPPORT. Runs of commands (70_reset_and_hazards.md R396): one after another, pushing bytes, and decoding the symbols of an
encoded stream. -/

namespace Sys2Proof.Machine

theorem execAll_cons {i : Instr} {is : List Instr} {s t : State} (h : exec i s = .next t) :
    execAll (i :: is) s = execAll is t := by
  rw [execAll, h]

theorem execAll_append {is js : List Instr} {s t : State} (h : execAll is s = .next t) :
    execAll (is ++ js) s = execAll js t := by
  induction is generalizing s with
  | nil => cases h; rfl
  | cons i is ih =>
    rw [execAll] at h
    rw [List.cons_append, execAll]
    split at h
    · exact ih h
    · cases h
    · cases h

theorem State.Observes.trans {s t u : State} {rs rs' : List Response} {bs bs' : List Byte} (h : s.Observes t rs bs)
    (k : t.Observes u rs' bs') : s.Observes u (rs ++ rs') (bs ++ bs') := by
  simp only [State.Observes] at h k ⊢
  rw [k, h]
  simp

theorem State.Observes.refl (s : State) : s.Observes s [] [] := by
  simp [State.Observes]

/-- The message pushed by FC.PUSH commands, from a counter without a table (40_frequency_counter.md R161). -/
theorem execAll_fcPush (bs : List Byte) {s : State} (he : s.ctl.err = false) (hb : s.ect.built = false)
    (hc : s.fc.msg.length + bs.length ≤ s.params.msgCap) :
    ∃ t, execAll (bs.map .fcPush) s = .next t ∧ t.fc = bs.foldl (fun f b => f.push b) s.fc ∧
      t.fc.msg = s.fc.msg ++ bs ∧ t.params = s.params ∧ t.ctl = s.ctl ∧ t.ect = s.ect ∧ t.bw = s.bw ∧ t.br = s.br ∧
      t.dct = s.dct ∧ s.Observes t (List.replicate bs.length (Response.ok 0)) [] := by
  induction bs generalizing s with
  | nil => exact ⟨s, rfl, rfl, by simp, rfl, rfl, rfl, rfl, rfl, rfl, State.Observes.refl s⟩
  | cons b bs ih =>
    rw [List.length_cons] at hc
    have hbody : Instr.body (.fcPush b) s = .done 0 (s.setFc (s.fc.push b)) := by
      show fcPush b s = _
      rw [fcPush, if_neg (by simp [hb]), if_neg (by omega)]
    have h1 := exec_of_done he hbody
    have ho : s.Observes ((s.setFc (s.fc.push b)).respond 0) [Response.ok 0] [] :=
      State.observes_respond _ rfl rfl (by simp)
    obtain ⟨t, h2, h3, h4, h5, h6, h7, h8, h9, h10, h11⟩ :=
      ih (s := (s.setFc (s.fc.push b)).respond 0) he hb (by simp [Fc.push, Fc.append]; omega)
    refine ⟨t, ?_, h3, ?_, h5, h6, h7, h8, h9, h10, ho.trans h11⟩
    · rw [List.map_cons, execAll_cons h1, h2]
    · rw [h4]; simp [Fc.push, Fc.append]

/-- The queue filled by BR.PUSH commands, while it is not sealed (44_bit_reader.md R244). -/
theorem execAll_brPush (bs : List Byte) {s : State} (he : s.ctl.err = false) (hb : s.br.sealed = false)
    (hc : s.br.queue.length + bs.length ≤ s.params.qCap) :
    ∃ t, execAll (bs.map .brPush) s = .next t ∧ t.br = { s.br with queue := s.br.queue ++ bs } ∧
      t.params = s.params ∧ t.ctl = s.ctl ∧ t.fc = s.fc ∧ t.ect = s.ect ∧ t.bw = s.bw ∧
      t.dct = s.dct ∧ s.Observes t (List.replicate bs.length (Response.ok 0)) [] := by
  induction bs generalizing s with
  | nil => exact ⟨s, rfl, by simp, rfl, rfl, rfl, rfl, rfl, rfl, State.Observes.refl s⟩
  | cons b bs ih =>
    rw [List.length_cons] at hc
    have hbody : Instr.body (.brPush b) s = .done 0 (s.setBr (s.br.append b)) := by
      show brPush b s = _
      rw [brPush, if_neg (by simp [hb]), if_neg (by omega)]
    have h1 := exec_of_done he hbody
    have ho : s.Observes ((s.setBr (s.br.append b)).respond 0) [Response.ok 0] [] :=
      State.observes_respond _ rfl rfl (by simp)
    obtain ⟨t, h2, h3, h4, h5, h6, h7, h8, h9, h10⟩ :=
      ih (s := (s.setBr (s.br.append b)).respond 0) he hb (by simp [Br.append]; omega)
    refine ⟨t, ?_, ?_, h4, h5, h6, h7, h8, h9, ho.trans h10⟩
    · rw [List.map_cons, execAll_cons h1, h2]
    · rw [h3]; simp [Br.append]

/-- The symbols of a message decoded from its code bits, over the table of the stream's header (46_decoder.md R294, R299). -/
theorem decSymbols_message {freq : Table 32} (msg : List Byte) (hm : ∀ x ∈ msg, x ∈ alphabet freq)
    (fuel : Nat) {s : State} (hf : s.br.avail < fuel) (h : s.br.Readable) (hd : s.dct.clearCand = streamDct freq)
    (hp : s.br.pendingBits = codesBits (msg.map fun x => symbolCode freq x.toNat)) :
    ∃ r, decSymbols fuel s = .done () (((s.emitAll msg).setBr r).setDct (streamDct freq).clearCand.setDone) := by
  induction msg generalizing s fuel with
  | nil =>
    obtain ⟨fuel, rfl⟩ : ∃ n, fuel = n + 1 := ⟨fuel - 1, by omega⟩
    have h0 : s.br.avail = 0 := by rw [Br.avail_eq_length h, hp]; rfl
    refine ⟨s.br, ?_⟩
    rw [decSymbols, decDecodeSymbol_end h0, Flow.bind_done, ← hd]
    simp [State.emitAll, State.setBr, State.setDct, Dct.clearCand]
  | cons x xs ih =>
    obtain ⟨fuel, rfl⟩ : ∃ n, fuel = n + 1 := ⟨fuel - 1, by omega⟩
    have hx := hm x List.mem_cons_self
    obtain ⟨i, hyes, hal, hno⟩ := streamDct_lookup hx
    have hlk : ∀ a b, s.dct.lookup a b = (streamDct freq).lookup a b := by rw [← hd]; intro a b; rfl
    have halpha : s.dct.alpha = (streamDct freq).alpha := by rw [← hd]; rfl
    have hmaxlen : s.dct.maxlen = (streamDct freq).maxlen := by rw [← hd]; rfl
    obtain ⟨r, h1, h2, h3⟩ := decDecodeSymbol_code (l := (symbolCode freq x.toNat).1) (v := (symbolCode freq x.toNat).2)
      (rest := codesBits (xs.map fun y => symbolCode freq y.toNat)) h (by rw [hp]; rfl)
      (Nat.pos_of_ne_zero (lengthOf_ne_zero_of_mem hx))
      (by rw [hmaxlen, streamDct_maxlen]; exact lengthOf_le_maxLength _ _)
      (symbolCode_toNat x.isLt (lengthOf_ne_zero_of_mem hx)).2
      (fun j hj hjl => by rw [hlk]; exact hno j hj hjl) (by rw [hlk]; exact hyes)
    rw [halpha, hal] at h1
    have hav : r.avail < fuel := by
      rw [Br.avail_eq_length h, hp] at hf
      rw [Br.avail_eq_length h3, h2]
      have h0 : 0 < (symbolCode freq x.toNat).1 := Nat.pos_of_ne_zero (lengthOf_ne_zero_of_mem hx)
      simp only [codesBits, List.map_cons, List.flatMap_cons, List.length_append, codeBits_length] at hf ⊢
      omega
    obtain ⟨r', h4⟩ := ih (fun y hy => hm y (List.mem_cons_of_mem _ hy)) fuel
      (s := ((s.setBr r).emit x).setDct s.dct.clearCand) hav h3 (by rw [← hd]; rfl) h2
    refine ⟨r', ?_⟩
    rw [decSymbols, h1, Flow.bind_done]
    simp only
    rw [h4]
    simp [State.emit, State.emitAll, State.setBr, State.setDct]

/-- The header and the code table of an encoded stream, read back from the queue (46_decoder.md R290, R299). -/
theorem decReadTable_stream {freq : Table 32} (ha : alphabet freq ≠ []) (msg : List Byte) {s : State}
    (hq : s.br.queue = (encTable freq).stream msg) (hh : s.br.head = 0) (hc : s.br.cnt = 0) (hs : s.br.sealed = true) :
    s.br.Readable ∧ ∃ r, decReadTable s = .done () ((s.setBr r).setDct (streamDct freq)) ∧
      r.pendingBits = codesBits (msg.map fun x => symbolCode freq x.toNat) ∧ r.Readable := by
  have hn : 0 < (alphabet freq).length := List.length_pos_iff.mpr ha
  have hn' := alphabet_length_le freq
  have hml := maxLength_pos ha
  have hml' := maxLength_le (lengthTable freq)
  have hA := headerAlphabet_length freq
  have hm : (BitVec.ofNat 8 (maxLength (lengthTable freq))).toNat = maxLength (lengthTable freq) := by
    rw [BitVec.toNat_ofNat]; omega
  have hne : (encTable freq).payloadBits msg ≠ [] := by
    obtain ⟨x, hx⟩ := List.exists_mem_of_ne_nil _ ha
    have h0 := lengthOf_ne_zero_of_mem hx
    have hmem : x.toNat ∈ canonicalAlphabet (lengthTable freq) := mem_canonicalAlphabet.mpr ⟨x.isLt, h0⟩
    rw [encTable_payloadBits, codesBits, canonicalCodes, List.flatMap_map]
    intro hnil
    have := (List.append_eq_nil_iff.mp hnil).1
    have := List.flatMap_eq_nil_iff.mp this x.toNat hmem
    exact h0 (by simpa [symbolCode] using congrArg List.length this)
  obtain ⟨data, mark, hp, hdne, hmark, hdl, hun⟩ := packBits_spec hne
  have hstream : s.br.queue = ((encTable freq).headerBytes ++ data) ++ [mark] := by
    rw [hq, Ect.stream, hp, List.append_assoc]
  have hmk : s.br.mark = mark := by rw [Br.mark, hstream]; simp
  have hread : s.br.Readable := ⟨hs, by rw [hstream]; simp, by rw [hmk, hmark]; omega⟩
  have hdata : s.br.dataBytes = (encTable freq).headerBytes ++ data := by
    rw [Br.dataBytes, hstream, List.dropLast_concat, hh, List.drop_zero]
  have hsig : s.br.sig = if mark = 0 then 8 else mark.toNat := by rw [Br.sig, hmk]
  refine ⟨hread, decReadTable_data (A := headerAlphabet freq) (C := headerCounts freq) (D := data)
    (m := BitVec.ofNat 8 (maxLength (lengthTable freq))) (cs := canonicalCodes freq) hread hc ?_ (by omega) (by omega) ?_ ?_
    ?_ (headerDct_codeLengths ha) ?_ ?_⟩
  · rw [hdata, encTable_headerBytes, hA]; simp
  · intro h0
    have := congrArg BitVec.toNat h0
    rw [hm] at this
    simp at this
    omega
  · rw [headerCounts_length, hm]
  · rw [hA]; exact headerDct_countSum ha
  · intro c hc
    obtain ⟨x, hx, rfl⟩ := List.mem_map.mp hc
    obtain ⟨hx1, hx2⟩ := mem_canonicalAlphabet.mp hx
    exact (symbolCode_toNat hx1 hx2).2
  · rw [hsig, hun, encTable_payloadBits]; rfl

/-- Pushing bytes keeps the counter's invariant. -/
theorem Fc.foldl_push_inv (bs : List Byte) {f : Fc} (h : f.Inv) (hl : f.msg.length + bs.length ≤ 2 ^ 32 - 1) :
    (bs.foldl (fun f b => f.push b) f).Inv := by
  induction bs generalizing f with
  | nil => exact h
  | cons b bs ih =>
    rw [List.length_cons] at hl
    exact ih (Fc.push_inv h b (by omega)) (by simp [Fc.push, Fc.append]; omega)

/-- The payload bits as the statements name them (45_encoder.md R274). -/
theorem wireBits_eq (e : Ect) (msg : List Byte) : e.payloadBits msg = e.wireBits msg := by
  have hs : ∀ x, e.symbolBits x = (List.range (tableGet e.len x.toNat).toNat).map fun k =>
      (tableGet e.code x.toNat).getLsbD ((tableGet e.len x.toNat).toNat - 1 - k) := by
    intro x
    apply List.ext_getElem
    · simp [Ect.symbolBits]
    · intro i h1 h2
      simp only [Ect.symbolBits, codeBits_length] at h1
      simp only [Ect.symbolBits]
      rw [codeBits_getElem _ _ i h1]; simp
  rw [Ect.payloadBits, Ect.wireBits, Ect.tableBits, List.flatMap_append, List.flatMap_map]
  congr 1
  · exact flatMap_congr_mem fun x _ => hs _
  · exact flatMap_congr_mem fun x _ => hs _

/-- BW.BIT commands one after another. -/
theorem execAll_bwBit (bits : List Bool) :
    ∀ s : State, s.ctl.err = false → ∃ t, execAll (bits.map .bwBit) s = .next t ∧ t.ctl = s.ctl ∧
    t.bw = (s.bw.writeBits bits).1 ∧
    s.Observes t (List.replicate bits.length (Response.ok 0)) (s.bw.writeBits bits).2 := by
  induction bits with
  | nil => intro s he; exact ⟨s, rfl, rfl, rfl, State.Observes.refl s⟩
  | cons b bs ih =>
    intro s he
    have h1 : exec (.bwBit b) s = .next ((s.bwWriteBits [b]).respond 0) := exec_of_done he rfl
    obtain ⟨t, h2, h3, h4, h5⟩ := ih ((s.bwWriteBits [b]).respond 0) he
    have e : (s.bwWriteBits [b]).bw = (s.bw.writeBit b).1 := by simp [State.bwWriteBits, Bw.writeBits]
    have o : s.Observes ((s.bwWriteBits [b]).respond 0) [Response.ok 0] (s.bw.writeBit b).2 :=
      State.observes_respond _ rfl rfl (by simp [State.bwWriteBits, Bw.writeBits])
    refine ⟨t, by rw [List.map_cons, execAll_cons h1, h2], h3, by rw [h4, State.respond_bw, e]; rfl, ?_⟩
    have := o.trans h5
    rw [State.respond_bw, e] at this
    exact this

/-- BW.BYTE commands at a byte boundary. -/
theorem execAll_bwByte (raw : List Byte) :
    ∀ s : State, s.ctl.err = false → s.bw.cnt = 0 → ∃ t, execAll (raw.map .bwByte) s = .next t ∧ t.ctl = s.ctl ∧ t.bw = s.bw ∧
    s.Observes t (List.replicate raw.length (Response.ok 0)) raw := by
  induction raw with
  | nil => intro s he _; exact ⟨s, rfl, rfl, rfl, State.Observes.refl s⟩
  | cons b bs ih =>
    intro s he hc
    have h1 : exec (.bwByte b) s = .next ((s.emit b).respond 0) :=
      exec_of_done he (by show (bwWriteByte b s).bind _ = _; rw [bwWriteByte, if_neg (not_not.mpr hc)]; rfl)
    obtain ⟨t, h2, h3, h4, h5⟩ := ih ((s.emit b).respond 0) he hc
    have o : s.Observes ((s.emit b).respond 0) [Response.ok 0] [b] := State.observes_respond _ rfl rfl rfl
    exact ⟨t, by rw [List.map_cons, execAll_cons h1, h2], h3, h4, o.trans h5⟩

/-- BR.BYTE commands over the next data bytes. -/
theorem execAll_brByte (raw : List Byte) :
    ∀ (s : State) (rest : List Byte), s.ctl.err = false → s.br.Readable → s.br.cnt = 0 → s.br.dataBytes = raw ++ rest →
   ∃ t, execAll (raw.map fun _ => .brByte) s = .next t ∧ t.ctl = s.ctl ∧ t.br = s.br.skip raw.length ∧
    s.Observes t (raw.map fun b => Response.ok (b.setWidth 32)) [] := by
  induction raw with
  | nil => intro s rest he _ _ _; exact ⟨s, rfl, rfl, rfl, State.Observes.refl s⟩
  | cons b bs ih =>
    intro s rest he hr hc hd
    have h1 : exec .brByte s = .next ((s.setBr (s.br.skip 1)).respond (b.setWidth 32)) :=
      exec_of_done he (by show (brReadByte s).bind _ = _; rw [brReadByte_data hr hc hd]; rfl)
    obtain ⟨t, h2, h3, h4, h5⟩ :=
      ih ((s.setBr (s.br.skip 1)).respond (b.setWidth 32)) rest he (Br.skip_readable hr 1) hc (by rw [State.respond_br, State.setBr_br, Br.skip_dataBytes, hd]; rfl)
    have o : s.Observes ((s.setBr (s.br.skip 1)).respond (b.setWidth 32)) [Response.ok (b.setWidth 32)] [] :=
      State.observes_respond _ rfl rfl (by simp)
    refine ⟨t, by rw [List.map_cons, execAll_cons h1, h2], h3, ?_, o.trans h5⟩
    rw [h4]; exact Br.skip_skip_one s.br bs.length

/-- BR.BIT commands over the next significant bits. -/
theorem execAll_brBit (bits : List Bool) :
    ∀ (s : State) (rest : List Bool), s.ctl.err = false → s.br.Readable → s.br.pendingBits = bits ++ rest →
   ∃ t, execAll (bits.map fun _ => .brBit) s = .next t ∧ t.ctl = s.ctl ∧ t.br.Readable ∧ t.br.pendingBits = rest ∧
    s.Observes t (bits.map fun b => Response.ok ((BitVec.ofBool b).setWidth 32)) [] := by
  induction bits with
  | nil => intro s rest he hr hp; exact ⟨s, rfl, rfl, hr, hp, State.Observes.refl s⟩
  | cons b bs ih =>
    intro s rest he hr hp
    obtain ⟨r, e1, e2, e3⟩ := brReadBit_pending hr hp
    have h1 : exec .brBit s = .next ((s.setBr r).respond ((BitVec.ofBool b).setWidth 32)) :=
      exec_of_done he (by show (brReadBit s).bind _ = _; rw [e1]; rfl)
    obtain ⟨t, h2, h3, h4, h5, h6⟩ := ih ((s.setBr r).respond ((BitVec.ofBool b).setWidth 32)) rest he e3 e2
    have o : s.Observes ((s.setBr r).respond ((BitVec.ofBool b).setWidth 32)) [Response.ok ((BitVec.ofBool b).setWidth 32)] [] :=
      State.observes_respond _ rfl rfl (by simp)
    exact ⟨t, by rw [List.map_cons, execAll_cons h1, h2], h3, h4, h5, o.trans h6⟩

/-- ENCODE of a message that is not empty, from an empty writer (30_encoding.md R129, 45_encoder.md R271). -/
theorem execAll_encodeCommands {s : State} (h : s.Inv) (he : s.ctl.err = false) (hw : s.bw.cnt = 0) (S : List Byte)
    (hS : S ≠ []) (hl : S.length ≤ s.params.msgCap) :
    ∃ t freq, execAll (encodeCommands S) s = .next t ∧ (∀ x ∈ S, x ∈ alphabet freq) ∧ t.ctl = s.ctl ∧
    t.params = s.params ∧
      s.Observes t (List.replicate (S.length + 2) (Response.ok 0)) ((encTable freq).stream S) := by
  have h1 : exec .fcClear s = .next (((s.setFc Fc.initial).setEct Ect.initial).respond 0) := exec_of_done he rfl
  have o1 : s.Observes (((s.setFc Fc.initial).setEct Ect.initial).respond 0) [Response.ok 0] [] :=
    State.observes_respond _ rfl rfl (by simp)
  obtain ⟨t, h2, hf, hm, hp, hc, het, hb, hbr, hd, o2⟩ :=
    execAll_fcPush S (s := ((s.setFc Fc.initial).setEct Ect.initial).respond 0) he rfl (by simpa [Fc.initial] using hl)
  have hbw : t.bw = Bw.initial := by rw [hb]; exact Bw.eq_initial h.bw hw
  have hm' : t.fc.msg = S := by rw [hm]; simp [Fc.initial]
  have hc' : t.ctl.err = false := by rw [hc]; exact he
  have hbody : Instr.body .encRun t = .done 0 ((t.setEct (encTable t.fc.freq)).emitAll ((encTable t.fc.freq).stream t.fc.msg)) :=
    by
    show encRun t = _
    have : encRun t = encEmit (t.setEct (encTable t.fc.freq)) := by
      simp [encRun, htBuild, ccAssign, Ect.build, encTable]
      simp [State.setEct]
    rw [this, encEmit_emits (s := t.setEct (encTable t.fc.freq)) rfl (by rw [State.setEct_fc, hm']; exact hS) hbw]
    rfl
  have hfi : t.fc.Inv := by
    rw [hf]
    refine Fc.foldl_push_inv S (fun b => ?_) ?_
    · simp [Fc.initial]
    · have h20 : s.params.msgCap ≤ 2^32 - 1 := h.params.2.1
      show [].length + S.length ≤ _
      simp only [List.length_nil, Nat.zero_add]; exact hl.trans h20
  refine ⟨((t.setEct (encTable t.fc.freq)).emitAll ((encTable t.fc.freq).stream t.fc.msg)).respond 0, t.fc.freq, ?_, ?_, ?_, ?_, ?_⟩
  · rw [encodeCommands, execAll_cons h1, execAll_append h2, execAll_cons (exec_of_done hc' hbody), execAll]
  · intro x hx
    rw [mem_alphabet]
    intro h0
    have := hfi x
    rw [h0, hm'] at this
    have h3 : S.count x = 0 := this.symm
    have := List.count_pos_iff.mpr hx
    omega
  · simp [hc]
  · simp [hp]
  · have o3 : t.Observes (State.respond 0#32 ((t.setEct (encTable t.fc.freq)).emitAll ((encTable t.fc.freq).stream t.fc.msg))) [Response.ok 0] ((encTable t.fc.freq).stream t.fc.msg) :=
      State.observes_respond _ rfl rfl rfl
    have := (o1.trans o2).trans o3
    rw [hm'] at this ⊢
    have e : List.replicate (S.length + 2) (Response.ok 0) = ([Response.ok 0] ++ List.replicate S.length (Response.ok 0)) ++ [Response.ok 0] :=
      by
      rw [List.replicate_succ, List.replicate_succ']; rfl
    rw [e]; simpa using this

end Sys2Proof.Machine
end

