-- ==== Sys2Proof/Laws/Candidate.lean ====
section
/-! SUPPORT. The decoder's candidate as a list of bits: what matching reads and when it finds a code (46_decoder.md R293,
R294). -/

namespace Sys2Proof.Machine

/-- The value of bits, the first most significant, as the decoder gathers them (46_decoder.md R290, R294). -/
def bitsValue (P : List Bool) : Code := P.foldl pushBit 0

theorem bitsValue_snoc (P : List Bool) (b : Bool) : bitsValue (P ++ [b]) = pushBit (bitsValue P) b := by simp [bitsValue]

theorem pushBit_bits (v : Code) (b : Bool) (k : Nat) (hk : k < 255) :
    (pushBit v b).getLsbD k = if k = 0 then b else v.getLsbD (k - 1) := by
  rw [pushBit, BitVec.getLsbD_or, BitVec.getLsbD_shiftLeft, BitVec.getLsbD_setWidth, BitVec.getLsbD_ofBool]
  by_cases h : k = 0
  · subst h; simp
  · simp [h, hk]

theorem bitsValue_lt (P : List Bool) : (bitsValue P).toNat < 2 ^ P.length := by
  induction P using List.reverseRecOn with
  | nil => simp [bitsValue]
  | append_singleton P b ih => rw [bitsValue_snoc, List.length_append, List.length_singleton]; exact pushBit_lt b ih

theorem bitsValue_bits (P : List Bool) (hP : P.length ≤ 255) :
    ∀ k, k < P.length → (bitsValue P).getLsbD (P.length - 1 - k) = P.getD k false := by
  induction P using List.reverseRecOn with
  | nil => simp
  | append_singleton P b ih =>
    intro k hk
    simp only [List.length_append, List.length_singleton] at hk hP ⊢
    rw [bitsValue_snoc, pushBit_bits _ _ _ (by omega)]
    by_cases h : k = P.length
    · subst h; simp
    · rw [if_neg (by omega), show P.length + 1 - 1 - k - 1 = P.length - 1 - k by omega, ih (by omega) k (by omega)]
      simp only [List.getD_eq_getElem?_getD]
      rw [List.getElem?_append_left (by omega)]

theorem code_eq_bitsValue {v : Code} {P : List Bool} (hP : P.length ≤ 255) (hv : v.toNat < 2 ^ P.length)
    (hb : ∀ k, k < P.length → v.getLsbD (P.length - 1 - k) = P.getD k false) : v = bitsValue P := by
  apply BitVec.eq_of_getLsbD_eq
  intro i hi
  by_cases h : i < P.length
  · have h1 := hb (P.length - 1 - i) (by omega)
    have h2 := bitsValue_bits P hP (P.length - 1 - i) (by omega)
    rw [show P.length - 1 - (P.length - 1 - i) = i by omega] at h1 h2
    rw [h1, h2]
  · have hz : ∀ w : Code, w.toNat < 2 ^ P.length → w.getLsbD i = false := by
      intro w hw
      rw [BitVec.getLsbD]
      exact Nat.testBit_lt_two_pow (lt_of_lt_of_le hw (Nat.pow_le_pow_right (by norm_num) (by omega)))
    rw [hz v hv, hz _ (bitsValue_lt P)]

/-- Position i holds the code P, in terms of the lookup. -/
theorem Dct.hasCode_iff {d : Dct} {P : List Bool} {i : Nat} (hP : P.length ≤ 255) :
    d.HasCode P i ↔ i < d.asize.toNat ∧ tableGet d.len i = BitVec.ofNat 8 P.length ∧ tableGet d.code i = bitsValue P := by
  constructor
  · rintro ⟨h1, h2, h3, h4⟩
    refine ⟨h1, BitVec.eq_of_toNat_eq ?_, code_eq_bitsValue hP h3 h4⟩
    rw [h2, BitVec.toNat_ofNat]; omega
  · rintro ⟨h1, h2, h3⟩
    refine ⟨h1, ?_, ?_, ?_⟩
    · rw [h2, BitVec.toNat_ofNat]; omega
    · rw [h3]; exact bitsValue_lt P
    · rw [h3]; exact bitsValue_bits P hP

theorem Dct.lookup_none {d : Dct} {P : List Bool} (hP : P.length ≤ 255) (h : ∀ j, ¬ d.HasCode P j) :
    d.lookup (BitVec.ofNat 8 P.length) (bitsValue P) = none := by
  rw [Dct.lookup_eq_none]
  rintro i hi ⟨h1, h2⟩
  exact h i ((Dct.hasCode_iff hP).mpr ⟨hi, h1, h2⟩)

theorem Dct.lookup_some {d : Dct} {P : List Bool} {i : Nat} (hP : P.length ≤ 255) (h : d.HasCode P i)
    (hj : ∀ j, j < i → ¬ d.HasCode P j) : d.lookup (BitVec.ofNat 8 P.length) (bitsValue P) = some i := by
  rw [Dct.lookup_eq_some]
  have := (Dct.hasCode_iff hP).mp h
  refine ⟨this.1, this.2.1, this.2.2, ?_⟩
  rintro j hji ⟨h1, h2⟩
  exact hj j hji ((Dct.hasCode_iff hP).mpr ⟨by have := this.1; omega, h1, h2⟩)

/-- The decoder with the candidate P. -/
def Dct.withCand (d : Dct) (P : List Bool) : Dct :=
  { d with cand := bitsValue P, candLen := BitVec.ofNat 8 P.length }

theorem Dct.extend_eq {d : Dct} {P : List Bool} (hc : d.cand = bitsValue P) (hl : d.candLen = BitVec.ofNat 8 P.length)
    (b : Bool) : d.extend b = d.withCand (P ++ [b]) := by
  rw [Dct.extend, Dct.withCand, bitsValue_snoc, hc, hl]
  congr 1
  apply BitVec.eq_of_toNat_eq
  rw [BitVec.toNat_add, BitVec.toNat_ofNat, BitVec.toNat_ofNat]
  simp

/-- The bits Q read without a match. -/
theorem decMatch_skip (Q : List Bool) :
    ∀ (P0 rest : List Bool) (fuel : Nat) (s : State), s.br.Readable → s.br.pendingBits = Q ++ rest →
   (P0 ++ Q).length ≤ 255 → (P0 ++ Q).length < s.dct.maxlen.toNat →
   Q.length ≤ fuel → s.dct.cand = bitsValue P0 → s.dct.candLen = BitVec.ofNat 8 P0.length →
   (∀ n, P0.length < n → n ≤ (P0 ++ Q).length → ∀ j, ¬ s.dct.HasCode ((P0 ++ Q).take n) j) →
   ∃ r, decMatch fuel s = decMatch (fuel - Q.length) ((s.setBr r).setDct (s.dct.withCand (P0 ++ Q))) ∧ r.Readable ∧
    r.pendingBits = rest ∧ r.queue = s.br.queue ∧ r.sealed = s.br.sealed := by
  induction Q with
  | nil =>
    intro P0 rest fuel s hr hp h1 h2 hf hc hl hno
    refine ⟨s.br, ?_, hr, hp, rfl, rfl⟩
    rw [List.append_nil, List.length_nil, Nat.sub_zero, Dct.withCand, ← hc, ← hl]
    rfl
  | cons b Q ih =>
    intro P0 rest fuel s hr hp h1 h2 hf hc hl hno
    obtain ⟨fuel, rfl⟩ : ∃ f, fuel = f + 1 := ⟨fuel - 1, by simp at hf; omega⟩
    obtain ⟨r, e1, e2, e3, e4⟩ := Br.readBit_pending hr hp
    have happ : P0 ++ b :: Q = (P0 ++ [b]) ++ Q := by simp
    have hlen1 : (P0 ++ [b]).length ≤ 255 := by simp at h1 ⊢; omega
    have hext : s.dct.extend b = s.dct.withCand (P0 ++ [b]) := Dct.extend_eq hc hl b
    have hnone : (s.dct.extend b).lookup (s.dct.extend b).candLen (s.dct.extend b).cand = none := by
      rw [hext]
      refine Dct.lookup_none (d := s.dct.withCand (P0 ++ [b])) hlen1 (fun j hj => ?_)
      refine hno (P0.length + 1) (by omega) (by simp) j ?_
      rw [happ, List.take_append_of_le_length (by simp), List.take_of_length_le (by simp)]
      exact hj
    have hne : ¬ (s.dct.extend b).candLen = s.dct.maxlen := by
      rw [hext]
      intro h
      have := congrArg BitVec.toNat h
      rw [show (s.dct.withCand (P0 ++ [b])).candLen = BitVec.ofNat 8 (P0 ++ [b]).length from rfl, BitVec.toNat_ofNat] at this
      simp at this h1 h2 hlen1
      omega
    obtain ⟨r', f1, f2, f3, f4, f5⟩ :=
      ih (P0 ++ [b]) rest fuel ((s.setBr r).setDct (s.dct.extend b)) (hr.congr e3 e4) e2 (by rw [← happ]; exact h1) (by rw [← happ]; exact h2) (by simp at hf; omega) (by rw [hext]; rfl) (by rw [hext]; rfl)
      (by
        intro n hn hn' j hj
        rw [← happ] at hn' hj
        refine hno n (by simp at hn; omega) hn' j hj)
    refine ⟨r', ?_, f2, f3, f4.trans e3, f5.trans e4⟩
    have hstep : decMatch (fuel + 1) s = decMatch fuel ((s.setBr r).setDct (s.dct.extend b)) := by
      rw [decMatch, brReadBit, e1]
      simp only [Flow.bind_done, State.setBr_dct, hnone, hne, if_false]
    rw [hstep, f1, ← happ]
    congr 1
    rw [List.length_cons]; omega

/-- One more bit read: a match, no match at max_length, or on to the next bit (R294). -/
theorem decMatch_next {s : State} {P0 rest : List Bool} {b : Bool} {fuel : Nat} (hr : s.br.Readable)
    (hp : s.br.pendingBits = b :: rest)
   (hc : s.dct.cand = bitsValue P0) (hl : s.dct.candLen = BitVec.ofNat 8 P0.length) :
   ∃ r, r.Readable ∧ r.pendingBits = rest ∧ r.queue = s.br.queue ∧ r.sealed = s.br.sealed ∧
    (∀ d : Dct, d = s.dct.withCand (P0 ++ [b]) →
    decMatch (fuel + 1) s = (match d.lookup (BitVec.ofNat 8 (P0 ++ [b]).length) (bitsValue (P0 ++ [b])) with
      | some i => .done (tableGet s.dct.alpha i) (((s.setBr r).emit (tableGet s.dct.alpha i)).setDct d.clearCand)
      | none => if d.candLen = s.dct.maxlen then .raised .nomatch ((s.setBr r).setDct d)
    else decMatch fuel ((s.setBr r).setDct d))) := by
  obtain ⟨r, e1, e2, e3, e4⟩ := Br.readBit_pending hr hp
  have hext : s.dct.extend b = s.dct.withCand (P0 ++ [b]) := Dct.extend_eq hc hl b
  refine ⟨r, hr.congr e3 e4, e2, e3, e4, ?_⟩
  intro d hd
  rw [← hext] at hd
  subst hd
  rw [decMatch, brReadBit, e1]
  simp only [Flow.bind_done, State.setBr_dct]
  rw [← show (s.dct.extend b).candLen = BitVec.ofNat 8 (P0 ++ [b]).length by rw [hext]; rfl, ← show (s.dct.extend b).cand = bitsValue (P0 ++ [b]) by rw [hext]; rfl]
  rfl

/-- The symbol whose code comes first among the bits to be read is decoded (R294). -/
theorem decDecodeSymbol_first {s : State} {P rest : List Bool} {i : Nat} (hr : s.br.Readable)
    (hp : s.br.pendingBits = P ++ rest) (hP : P ≠ []) (hm : P.length ≤ s.dct.maxlen.toNat) (hcode : s.dct.HasCode P i)
    (hfirst : ∀ j, j < i → ¬ s.dct.HasCode P j)
    (hno : ∀ n j, 0 < n → n < P.length → ¬ s.dct.HasCode (P.take n) j) :
    ∃ r, r.Readable ∧ r.pendingBits = rest ∧ r.queue = s.br.queue ∧ r.sealed = s.br.sealed ∧
      decDecodeSymbol s = .done (some (tableGet s.dct.alpha i))
        (((s.setBr r).emit (tableGet s.dct.alpha i)).setDct s.dct.clearCand) := by
  have hml := s.dct.maxlen.isLt
  obtain ⟨Q, b, rfl⟩ : ∃ Q b, P = Q ++ [b] := ⟨P.dropLast, P.getLast hP, (List.dropLast_append_getLast hP).symm⟩
  have hav : s.br.avail = Q.length + 1 + rest.length := by rw [Br.avail_eq_length hr, hp]; simp; omega
  rw [List.length_append, List.length_singleton] at hm
  obtain ⟨r, f1, f2, f3, f4, f5⟩ := decMatch_skip Q [] (b :: rest) (s.br.avail + 1) (s.setDct s.dct.clearCand) hr
    (by rw [show (s.setDct s.dct.clearCand).br = s.br from rfl, hp]; simp) (by simp; omega)
    (by show _ < s.dct.maxlen.toNat; simp; omega) (by omega) rfl rfl
    (by
      intro n hn hn' j hj
      simp only [List.nil_append, List.length_nil] at hn hn' hj
      refine hno n j hn (by simp; omega) ?_
      rw [List.take_append_of_le_length hn']; exact hj)
  simp only [List.nil_append] at f1
  obtain ⟨fuel, hfu⟩ : ∃ f, s.br.avail + 1 - Q.length = f + 1 := ⟨s.br.avail - Q.length, by omega⟩
  rw [hfu] at f1
  obtain ⟨r2, g1, g2, g3, g4, g5⟩ := decMatch_next (s := (State.setBr (State.setDct s s.dct.clearCand) r).setDct
    ((State.setDct s s.dct.clearCand).dct.withCand Q)) (P0 := Q) (fuel := fuel) f2 f3 rfl rfl
  have g6 := g5 (s.dct.withCand (Q ++ [b])) rfl
  rw [Dct.lookup_some (d := s.dct.withCand (Q ++ [b])) (i := i) (by simp; omega) hcode hfirst] at g6
  simp only at g6
  refine ⟨r2, g1, g2, g3.trans f4, g4.trans f5, ?_⟩
  rw [decDecodeSymbol, if_neg (by omega), f1, g6]
  rfl

end Sys2Proof.Machine
end

