-- ==== Sys2Proof/Laws/Decode.lean ====
section
/-! SUPPORT. The fields of a packed word, the register map's two directions, and the four decoding classes. -/

namespace Sys2Proof

theorem packWord_getLsbD (op : Byte) (a : BitVec 16) (b : Byte) (i : Nat) :
    (packWord op a b).getLsbD i =
      if i < 8 then b.getLsbD i else if i < 24 then a.getLsbD (i - 8) else op.getLsbD (i - 24) := by
  have h1 := BitVec.getLsbD_append (x := op ++ a) (y := b) (i := i)
  have h2 := BitVec.getLsbD_append (x := op) (y := a) (i := i - 8)
  have h : (packWord op a b).getLsbD i = (op ++ a ++ b).getLsbD i := rfl
  rw [h, h1, h2]
  by_cases hi : i < 8
  · simp [hi]
  · by_cases hj : i < 24
    · simp [hi, hj, show i - 8 < 16 by omega]
    · simp [hi, hj, show ¬ i - 8 < 16 by omega, Nat.sub_sub]

@[simp] theorem opField_packWord (op : Byte) (a : BitVec 16) (b : Byte) : opField (packWord op a b) = op := by
  apply BitVec.eq_of_getLsbD_eq
  intro i hi
  simp [opField, packWord_getLsbD, hi, show ¬ 24 + i < 8 by omega]

@[simp] theorem addrField_packWord (op : Byte) (a : BitVec 16) (b : Byte) : addrField (packWord op a b) = a := by
  apply BitVec.eq_of_getLsbD_eq
  intro i hi
  simp [addrField, packWord_getLsbD, hi, show 8 + i < 24 by omega]

@[simp] theorem byteField_packWord (op : Byte) (a : BitVec 16) (b : Byte) : byteField (packWord op a b) = b := by
  apply BitVec.eq_of_getLsbD_eq
  intro i hi
  simp [byteField, packWord_getLsbD, hi]

/-- A word is its three fields. -/
theorem packWord_fields (w : Word) : packWord (opField w) (addrField w) (byteField w) = w := by
  apply BitVec.eq_of_getLsbD_eq
  intro i hi
  rw [packWord_getLsbD]
  split
  · next h => simp [byteField, h]
  · next h =>
    split
    · next h2 => simp [addrField, show i - 8 < 16 by omega, show 8 + (i - 8) = i by omega]
    · next h2 => simp [opField, show i - 24 < 8 by omega, show 24 + (i - 24) = i by omega]

/-! ### The register map -/

theorem extract_toNat (a : BitVec 16) (i n : Nat) : (a.extractLsb' i n).toNat = a.toNat / 2 ^ i % 2 ^ n := by
  simp [BitVec.extractLsb'_toNat, Nat.shiftRight_eq_div_pow]

theorem extract_eq_zero (a : BitVec 16) (i n : Nat) : a.extractLsb' i n = 0 ↔ a.toNat / 2 ^ i % 2 ^ n = 0 := by
  rw [← BitVec.toNat_inj, extract_toNat]; simp

theorem Reg.ofBank0_isSome (n : Nat) : (Reg.ofBank0 n).isSome = decide (n ≤ 0x010) := by
  by_cases h : n ≤ 0x010
  · have : ∀ m, m ≤ 0x010 → (Reg.ofBank0 m).isSome = decide (m ≤ 0x010) := by decide
    exact this n h
  · simp only [h, decide_false]
    unfold Reg.ofBank0
    split <;> first | rfl | exact absurd (by decide) h

theorem Reg.byteEntry_isSome (a : BitVec 16) (r : Byte → Reg) :
    (Reg.byteEntry a r).isSome = decide (a.toNat % 4096 < 256) := by
  simp only [Reg.byteEntry, extract_eq_zero]
  split <;> simp <;> omega

theorem Reg.sliceEntry_isSome (a : BitVec 16) (r : Byte → BitVec 3 → Reg) :
    (Reg.sliceEntry a r).isSome = decide (a.toNat % 4096 < 2048) := by
  simp only [Reg.sliceEntry, extract_eq_zero]
  split <;> simp <;> omega

theorem Reg.candEntry_isSome (a : BitVec 16) : (Reg.candEntry a).isSome = decide (a.toNat % 4096 < 8) := by
  simp only [Reg.candEntry, extract_eq_zero]
  split <;> simp <;> omega

/-- The decoder's map and the ranges of R47 and R50 accept the same addresses. -/
theorem Reg.ofAddr_isSome (a : BitVec 16) : (Reg.ofAddr a).isSome = mappedAddr a := by
  have hb : a.toNat / 2 ^ 12 % 2 ^ 4 = a.toNat / 4096 := by have := a.isLt; omega
  simp only [Reg.ofAddr, mappedAddr, extract_toNat, hb]
  split
  · next h => simp [h, Reg.ofBank0_isSome]
  all_goals first
    | (next h => simp [h, Reg.byteEntry_isSome]; done)
    | (next h => simp [h, Reg.sliceEntry_isSome]; done)
    | (next h => simp [h, Reg.candEntry_isSome]; done)
    | skip
  next h0 h1 h2 h3 h4 h5 h6 h7 h8 h9 h10 =>
    generalize a.toNat / 4096 = k at *
    simp only [imp_false] at *
    have : 11 ≤ k := by omega
    simp [show k ≠ 0 by omega, show k ≠ 5 by omega, show k ≠ 9 by omega, show k ≠ 10 by omega,
      show ¬ k ≤ 8 by omega]

theorem Reg.addr_ofBank0 (n : Nat) {r : Reg} (h : Reg.ofBank0 n = some r) : r.addr.toNat = n := by
  have hn : n ≤ 0x010 := by
    have := Reg.ofBank0_isSome n
    rw [h] at this
    simpa using this.symm
  have : ∀ m, m ≤ 0x010 → ∀ r ∈ Reg.ofBank0 m, r.addr.toNat = m := by decide
  exact this n hn r h

theorem bank8_toNat (c : BitVec 8) (x : Byte) : (c ++ x : BitVec 16).toNat = c.toNat * 256 + x.toNat := by
  rw [BitVec.toNat_append, Nat.shiftLeft_eq, Nat.or_comm, Nat.mul_comm, Nat.or_comm, Nat.two_pow_add_eq_or_of_lt x.isLt]

theorem bank5_toNat (c : BitVec 5) (x : Byte) (k : BitVec 3) :
    (c ++ x ++ k : BitVec 16).toNat = c.toNat * 2048 + x.toNat * 8 + k.toNat := by
  have hx := x.isLt
  have hk := k.isLt
  rw [BitVec.toNat_append, BitVec.toNat_append, Nat.shiftLeft_eq, Nat.shiftLeft_eq, Nat.mul_comm c.toNat,
    ← Nat.two_pow_add_eq_or_of_lt hx, Nat.mul_comm _ (2 ^ 3), ← Nat.two_pow_add_eq_or_of_lt hk]
  omega

theorem bank13_toNat (c : BitVec 13) (k : BitVec 3) : (c ++ k : BitVec 16).toNat = c.toNat * 8 + k.toNat := by
  have hk := k.isLt
  rw [BitVec.toNat_append, Nat.shiftLeft_eq, Nat.mul_comm, ← Nat.two_pow_add_eq_or_of_lt hk, Nat.mul_comm]

theorem Reg.byteEntry_bank8 (c : BitVec 8) (x : Byte) (r : Byte → Reg) (h : c.toNat % 16 = 0) :
    Reg.byteEntry (c ++ x) r = some (r x) := by
  have hx := x.isLt
  have h1 : (c ++ x : BitVec 16).extractLsb' 8 4 = 0 := by
    rw [extract_eq_zero, bank8_toNat]; omega
  have h2 : (c ++ x : BitVec 16).extractLsb' 0 8 = x := by
    apply BitVec.eq_of_toNat_eq; rw [extract_toNat, bank8_toNat]; omega
  simp only [Reg.byteEntry, h1, h2, if_true]

theorem Reg.sliceEntry_bank5 (c : BitVec 5) (x : Byte) (k : BitVec 3) (r : Byte → BitVec 3 → Reg)
    (h : c.toNat % 2 = 0) : Reg.sliceEntry (c ++ x ++ k) r = some (r x k) := by
  have hx := x.isLt
  have hk := k.isLt
  have h1 : (c ++ x ++ k : BitVec 16).extractLsb' 11 1 = 0 := by
    rw [extract_eq_zero, bank5_toNat]; omega
  have h2 : (c ++ x ++ k : BitVec 16).extractLsb' 3 8 = x := by
    apply BitVec.eq_of_toNat_eq; rw [extract_toNat, bank5_toNat]; omega
  have h3 : (c ++ x ++ k : BitVec 16).extractLsb' 0 3 = k := by
    apply BitVec.eq_of_toNat_eq; rw [extract_toNat, bank5_toNat]; omega
  simp only [Reg.sliceEntry, h1, h2, h3, if_true]

theorem Reg.candEntry_bank13 (k : BitVec 3) : Reg.candEntry (0b1010000000000#13 ++ k) = some (.decCand k) := by
  revert k; decide +kernel

theorem bank_bank8 (c : BitVec 8) (x : Byte) : ((c ++ x : BitVec 16).extractLsb' 12 4).toNat = c.toNat / 16 := by
  have hx := x.isLt
  have hc := c.isLt
  rw [extract_toNat, bank8_toNat]; omega

theorem bank_bank5 (c : BitVec 5) (x : Byte) (k : BitVec 3) :
    ((c ++ x ++ k : BitVec 16).extractLsb' 12 4).toNat = c.toNat / 2 := by
  have hx := x.isLt
  have hc := c.isLt
  have hk := k.isLt
  rw [extract_toNat, bank5_toNat]; omega

/-- A register is read at its address. -/
theorem Reg.ofAddr_addr (r : Reg) : Reg.ofAddr r.addr = some r := by
  cases r with
  | freq s | encLen s | encCount s | encAlpha s | decAlpha s | decCount s | decLen s =>
    simp only [Reg.addr, Reg.ofAddr, bank_bank8]
    exact Reg.byteEntry_bank8 _ _ _ (by decide)
  | encCode s k | decCode s k =>
    simp only [Reg.addr, Reg.ofAddr, bank_bank5]
    exact Reg.sliceEntry_bank5 _ _ _ _ (by decide)
  | decCand k =>
    simp only [Reg.addr, Reg.ofAddr]
    have : ((0b1010000000000#13 ++ k : BitVec 16).extractLsb' 12 4).toNat = 10 := by revert k; decide +kernel
    rw [this]
    exact Reg.candEntry_bank13 k
  | _ => decide +kernel

/-- The address a register was decoded from is its address. -/
theorem Reg.addr_ofAddr {a : BitVec 16} {r : Reg} (h : Reg.ofAddr a = some r) : r.addr = a := by
  have ha := a.isLt
  have hb : a.toNat / 2 ^ 12 % 2 ^ 4 = a.toNat / 4096 := by omega
  apply BitVec.eq_of_toNat_eq
  simp only [Reg.ofAddr, extract_toNat, hb] at h
  split at h
  · next h0 => have := Reg.addr_ofBank0 _ h; omega
  all_goals first
    | (simp only [Reg.byteEntry, extract_eq_zero] at h
       split at h
       · cases h
         rw [Reg.addr, bank8_toNat, extract_toNat]
         simp only [BitVec.toNat_ofNat]
         omega
       · cases h)
    | (simp only [Reg.sliceEntry, extract_eq_zero] at h
       split at h
       · cases h
         rw [Reg.addr, bank5_toNat, extract_toNat, extract_toNat]
         simp only [BitVec.toNat_ofNat]
         omega
       · cases h)
    | (simp only [Reg.candEntry, extract_eq_zero] at h
       split at h
       · cases h
         rw [Reg.addr, bank13_toNat, extract_toNat]
         simp only [BitVec.toNat_ofNat]
         omega
       · cases h)
    | cases h

/-! ### The decoding classes (R122) -/

/-- The opcode of each command (R124). -/
theorem opField_encode_lt (i : Instr) : (opField (encode i)).toNat ≤ 0x42 := by
  cases i <;> simp [encode]

theorem decodeN_packWord (op : Byte) (i : Instr) : decodeN (packWord op 0 0) i = .command i := by
  simp [decodeN]

theorem decodeY_packWord (op b : Byte) (i : Byte → Instr) : decodeY (packWord op 0 b) i = .command (i b) := by
  simp [decodeY]

theorem decodeT_packWord (op : Byte) (t : Bool) (i : Bool → Instr) :
    decodeT (packWord op 0 (0#7 ++ BitVec.ofBool t)) i = .command (i t) := by
  cases t <;> simp [decodeT]

theorem decodeA_packWord (op : Byte) (a : BitVec 16) (i : BitVec 16 → Instr) (h : mappedAddr a = true) :
    decodeA (packWord op a 0) i = .command (i a) := by
  have : (Reg.ofAddr a).isNone = false := by
    rw [← Reg.ofAddr_isSome] at h
    cases hr : Reg.ofAddr a with
    | none => simp [hr] at h
    | some r => rfl
  simp [decodeA, this]

theorem decodeN_eq_command {w : Word} {i j : Instr} (h : decodeN w i = .command j) :
    j = i ∧ addrField w = 0 ∧ byteField w = 0 := by
  simp only [decodeN] at h
  split at h
  · cases h
  · split at h
    · cases h
    · cases h; simp_all

theorem decodeY_eq_command {w : Word} {i : Byte → Instr} {j : Instr} (h : decodeY w i = .command j) :
    j = i (byteField w) ∧ addrField w = 0 := by
  simp only [decodeY] at h
  split at h
  · cases h
  · cases h; simp_all

theorem decodeT_eq_command {w : Word} {i : Bool → Instr} {j : Instr} (h : decodeT w i = .command j) :
    ∃ t, j = i t ∧ addrField w = 0 ∧ byteField w = 0#7 ++ BitVec.ofBool t := by
  simp only [decodeT] at h
  split at h
  · cases h
  · split at h
    · cases h
    · next h1 h2 =>
      cases h
      refine ⟨_, rfl, by simpa using h1, ?_⟩
      simp only [ne_eq, Decidable.not_not] at h2
      generalize byteField w = b at *
      revert b; decide +kernel

theorem decodeA_eq_command {w : Word} {i : BitVec 16 → Instr} {j : Instr} (h : decodeA w i = .command j) :
    j = i (addrField w) ∧ byteField w = 0 ∧ mappedAddr (addrField w) = true := by
  simp only [decodeA] at h
  split at h
  · cases h
  · split at h
    · cases h
    · next h1 h2 =>
      cases h
      refine ⟨rfl, by simpa using h1, ?_⟩
      rw [← Reg.ofAddr_isSome]
      simpa [Option.isSome_iff_ne_none, Option.isNone_iff_eq_none] using h2

end Sys2Proof
end

