-- ==== Sys2Proof/Laws/Frame.lean ====
section
/-! SUPPORT. What the commands of each side leave alone, whether they succeed or raise (10_state.md R30). -/

namespace Sys2Proof.Machine

/-- Only FC, ECT, BW and the sink's record may differ. -/
structure EncoderOnly (s t : State) : Prop where
  params    : t.params = s.params
  ctl       : t.ctl = s.ctl
  br        : t.br = s.br
  dct       : t.dct = s.dct
  inputs    : t.port.inputs = s.port.inputs
  responses : t.port.responses = s.port.responses
  out       : s.port.out <+: t.port.out

/-- Only BR, DCT and the sink's record may differ. -/
structure DecoderOnly (s t : State) : Prop where
  params    : t.params = s.params
  ctl       : t.ctl = s.ctl
  fc        : t.fc = s.fc
  ect       : t.ect = s.ect
  bw        : t.bw = s.bw
  inputs    : t.port.inputs = s.port.inputs
  responses : t.port.responses = s.port.responses
  out       : s.port.out <+: t.port.out

theorem EncoderOnly.refl (s : State) : EncoderOnly s s := ⟨rfl, rfl, rfl, rfl, rfl, rfl, List.prefix_refl _⟩

theorem EncoderOnly.trans {s t u : State} (h : EncoderOnly s t) (k : EncoderOnly t u) : EncoderOnly s u :=
  ⟨k.params.trans h.params, k.ctl.trans h.ctl, k.br.trans h.br, k.dct.trans h.dct, k.inputs.trans h.inputs,
    k.responses.trans h.responses, h.out.trans k.out⟩

theorem EncoderOnly.setFc (s : State) (f : Fc) : EncoderOnly s (s.setFc f) :=
  ⟨rfl, rfl, rfl, rfl, rfl, rfl, List.prefix_refl _⟩

theorem EncoderOnly.setEct (s : State) (e : Ect) : EncoderOnly s (s.setEct e) :=
  ⟨rfl, rfl, rfl, rfl, rfl, rfl, List.prefix_refl _⟩

theorem EncoderOnly.setBw (s : State) (w : Bw) : EncoderOnly s (s.setBw w) :=
  ⟨rfl, rfl, rfl, rfl, rfl, rfl, List.prefix_refl _⟩

theorem EncoderOnly.emitAll (s : State) (bs : List Byte) : EncoderOnly s (s.emitAll bs) :=
  ⟨rfl, rfl, rfl, rfl, rfl, rfl, ⟨bs, rfl⟩⟩

theorem DecoderOnly.refl (s : State) : DecoderOnly s s := ⟨rfl, rfl, rfl, rfl, rfl, rfl, rfl, List.prefix_refl _⟩

theorem DecoderOnly.setBr (s : State) (r : Br) : DecoderOnly s (s.setBr r) :=
  ⟨rfl, rfl, rfl, rfl, rfl, rfl, rfl, List.prefix_refl _⟩

theorem DecodesOnly.decoderOnly {s t : State} (h : DecodesOnly s t) : DecoderOnly s t :=
  ⟨h.params, h.ctl, h.fc, h.ect, h.bw, h.inputs, h.responses, h.out⟩

/-- Parts that only touch the encoder side, one after another, only touch it. -/
theorem Flow.bind_encoderOnly {α β : Type} {s : State} {m : Flow α} {k : α → State → Flow β}
    (hm : EncoderOnly s m.state) (hk : ∀ a s1, EncoderOnly s1 (k a s1).state) : EncoderOnly s (m.bind k).state := by
  cases m with
  | done a s1 => exact EncoderOnly.trans hm (hk a s1)
  | raised c s1 => exact hm

theorem bwWriteByte_state (b : Byte) (s : State) : EncoderOnly s (bwWriteByte b s).state := by
  unfold bwWriteByte
  split
  · exact EncoderOnly.refl s
  · exact EncoderOnly.emitAll s [b]

theorem bwWriteBytes_state (bs : List Byte) (s : State) : EncoderOnly s (bwWriteBytes bs s).state := by
  induction bs generalizing s with
  | nil => exact EncoderOnly.refl s
  | cons b bs ih => exact Flow.bind_encoderOnly (bwWriteByte_state b s) fun _ s1 => ih s1

theorem bwWriteBits_only (bits : List Bool) (s : State) : EncoderOnly s (s.bwWriteBits bits) :=
  (EncoderOnly.setBw s _).trans (EncoderOnly.emitAll _ _)

theorem bwFinalize_only (s : State) : EncoderOnly s s.bwFinalize :=
  (EncoderOnly.setBw s _).trans (EncoderOnly.emitAll _ _)

theorem encEmit_state (s : State) : EncoderOnly s (encEmit s).state := by
  unfold encEmit
  split
  · exact EncoderOnly.refl s
  · split
    · exact EncoderOnly.refl s
    · exact Flow.bind_encoderOnly (bwWriteBytes_state _ s)
        fun _ s1 => (bwWriteBits_only _ s1).trans (bwFinalize_only _)

theorem ccAssign_state (s : State) : EncoderOnly s (ccAssign s).state := by
  unfold ccAssign
  split
  · exact EncoderOnly.setEct s _
  · exact EncoderOnly.refl s

/-- An encoder side command touches the encoder side only. -/
theorem body_encoderOnly {i : Instr} (h : i.encoderSide = true) (s : State) : EncoderOnly s (i.body s).state := by
  cases i with
  | fcClear => exact (EncoderOnly.setFc s _).trans (EncoderOnly.setEct _ _)
  | fcPush b =>
    show EncoderOnly s (fcPush b s).state
    unfold fcPush
    split
    · exact EncoderOnly.refl s
    · split
      · exact EncoderOnly.refl s
      · exact EncoderOnly.setFc s _
  | htBuild => exact EncoderOnly.setEct s _
  | ccAssign => exact ccAssign_state s
  | encEmit => exact encEmit_state s
  | encRun =>
    exact Flow.bind_encoderOnly (m := htBuild s) (EncoderOnly.setEct s _)
      fun _ s1 => Flow.bind_encoderOnly (ccAssign_state s1) fun _ s2 => encEmit_state s2
  | bwClear => exact EncoderOnly.setBw s _
  | bwBit b => exact bwWriteBits_only [b] s
  | bwByte b => exact Flow.bind_encoderOnly (bwWriteByte_state b s) fun _ s1 => EncoderOnly.refl s1
  | bwFinal => exact bwFinalize_only s
  | _ => cases h

/-- A decoder side command touches the decoder side only. -/
theorem body_decoderOnly {i : Instr} (h : i.decoderSide = true) (s : State) : DecoderOnly s (i.body s).state := by
  cases i with
  | brClear => exact ⟨rfl, rfl, rfl, rfl, rfl, rfl, rfl, List.prefix_refl _⟩
  | brPush b =>
    show DecoderOnly s (brPush b s).state
    unfold brPush
    split
    · exact DecoderOnly.refl s
    · split
      · exact DecoderOnly.refl s
      · exact DecoderOnly.setBr s _
  | brEnd =>
    show DecoderOnly s (brEnd s).state
    unfold brEnd
    split
    · exact DecoderOnly.refl s
    · split
      · exact DecoderOnly.setBr s _
      · exact DecoderOnly.setBr s _
  | brBit =>
    exact (Flow.bind_readsOnly (k := fun b s1 => .done ((BitVec.ofBool b).setWidth 32 : Word) s1) (brReadBit_state s)
      fun _ s1 => ReadsOnly.refl s1).decodesOnly.decoderOnly
  | brByte =>
    exact (Flow.bind_readsOnly (k := fun v s1 => .done (v.setWidth 32 : Word) s1) (brReadByte_state s)
      fun _ s1 => ReadsOnly.refl s1).decodesOnly.decoderOnly
  | decTable =>
    show DecoderOnly s (decTable s).state
    unfold decTable
    split
    · exact DecoderOnly.refl s
    · exact (Flow.bind_readsOnly (k := fun _ s1 => .done (0 : Word) s1) (decReadTable_state s)
        fun _ s1 => ReadsOnly.refl s1).decodesOnly.decoderOnly
  | decSym =>
    show DecoderOnly s (decSym s).state
    unfold decSym
    split
    · exact DecoderOnly.refl s
    · refine (Flow.bind_decodesOnly (decDecodeSymbol_state s) fun v s1 => ?_).decoderOnly
      cases v <;> exact DecodesOnly.refl s1
  | decRun =>
    show DecoderOnly s (decRun s).state
    unfold decRun
    split
    · exact DecoderOnly.refl s
    · split
      · exact (DecodesOnly.setDct s _).decoderOnly
      · refine (Flow.bind_decodesOnly (decReadTable_state s).decodesOnly fun _ s1 => ?_).decoderOnly
        exact Flow.bind_decodesOnly (decSymbols_state _ s1) fun _ s2 => DecodesOnly.refl s2
  | _ => cases h

/-! ### No part raises the cause NONE -/

/-- A part that raises raises a cause, not NONE. -/
abbrev Flow.RaisesACause {α : Type} (m : Flow α) : Prop := m.Post (fun _ _ => True) (fun c _ => c ≠ .none)

theorem Flow.RaisesACause.then {α β : Type} {m : Flow α} {k : α → State → Flow β} (h : m.RaisesACause)
    (hk : ∀ v s, (k v s).RaisesACause) : (m.bind k).RaisesACause := h.bind fun v s _ => hk v s

theorem brReadBit_raises (s : State) : (brReadBit s).RaisesACause := by
  cases hr : brReadBit s with
  | done v t => trivial
  | raised c t =>
    show c ≠ .none
    rintro rfl
    obtain ⟨h, -⟩ := brReadBit_raised hr
    simp only [Br.readBit] at h
    repeat' split at h
    all_goals cases h

theorem brReadByte_raises (s : State) : (brReadByte s).RaisesACause := by
  cases hr : brReadByte s with
  | done v t => trivial
  | raised c t =>
    show c ≠ .none
    rintro rfl
    obtain ⟨h, -⟩ := brReadByte_raised hr
    simp only [Br.readByte] at h
    repeat' split at h
    all_goals cases h

theorem decReadAlpha_raises (k i : Nat) (s : State) : (decReadAlpha k i s).RaisesACause := by
  induction k generalizing i s with
  | zero => trivial
  | succ k ih => exact (brReadByte_raises s).then fun _ _ => ih _ _

theorem decReadCounts_raises (k l : Nat) (s : State) : (decReadCounts k l s).RaisesACause := by
  induction k generalizing l s with
  | zero => trivial
  | succ k ih => exact (brReadByte_raises s).then fun _ _ => ih _ _

theorem decReadCode_raises (l : Nat) (v : Code) (s : State) : (decReadCode l v s).RaisesACause := by
  induction l generalizing v s with
  | zero => trivial
  | succ l ih => exact (brReadBit_raises s).then fun _ _ => ih _ _

theorem decReadCodes_raises (ls : List Nat) (i : Nat) (s : State) : (decReadCodes ls i s).RaisesACause := by
  induction ls generalizing i s with
  | nil => trivial
  | cons l ls ih => exact (decReadCode_raises l 0 s).then fun _ _ => ih _ _

theorem decReadTable_raises (s : State) : (decReadTable s).RaisesACause := by
  unfold decReadTable
  refine (brReadByte_raises _).then fun a s1 => (decReadAlpha_raises _ _ _).then fun _ s2 =>
    (brReadByte_raises s2).then fun m s3 => ?_
  split
  · show Cause.badhdr ≠ .none; simp
  · refine (decReadCounts_raises _ _ _).then fun _ s4 => ?_
    unfold decReadBody
    split
    · show Cause.badhdr ≠ .none; simp
    · exact (decReadCodes_raises _ _ _).then fun _ _ => trivial

theorem decMatch_raises (fuel : Nat) (s : State) : (decMatch fuel s).RaisesACause := by
  induction fuel generalizing s with
  | zero => show Cause.exhausted ≠ .none; simp
  | succ fuel ih =>
    refine (brReadBit_raises s).then fun b s1 => ?_
    split
    · trivial
    · split
      · show Cause.nomatch ≠ .none; simp
      · exact ih _

theorem decDecodeSymbol_raises (s : State) : (decDecodeSymbol s).RaisesACause := by
  unfold decDecodeSymbol
  split
  · trivial
  · exact (decMatch_raises _ _).then fun _ _ => trivial

theorem decSymbols_raises (fuel : Nat) (s : State) : (decSymbols fuel s).RaisesACause := by
  induction fuel generalizing s with
  | zero => trivial
  | succ fuel ih =>
    refine (decDecodeSymbol_raises s).then fun v s1 => ?_
    split
    · trivial
    · exact ih s1

theorem bwWriteByte_raises (b : Byte) (s : State) : (bwWriteByte b s).RaisesACause := by
  unfold bwWriteByte
  split
  · show Cause.sequence ≠ .none; simp
  · trivial

theorem bwWriteBytes_raises (bs : List Byte) (s : State) : (bwWriteBytes bs s).RaisesACause := by
  induction bs generalizing s with
  | nil => trivial
  | cons b bs ih => exact (bwWriteByte_raises b s).then fun _ _ => ih _

theorem encEmit_raises (s : State) : (encEmit s).RaisesACause := by
  unfold encEmit
  split
  · show Cause.sequence ≠ .none; simp
  · split
    · trivial
    · exact (bwWriteBytes_raises _ s).then fun _ _ => trivial

theorem ccAssign_raises (s : State) : (ccAssign s).RaisesACause := by
  unfold ccAssign
  split
  · trivial
  · show Cause.sequence ≠ .none; simp

/-- A command that raises raises a cause, in every state. -/
theorem body_raises (i : Instr) (s : State) : (i.body s).RaisesACause := by
  cases i with
  | rdreg a =>
    simp only [Instr.body]
    split
    · trivial
    · show Cause.illegal ≠ .none; simp
  | fcPush b =>
    show (fcPush b s).RaisesACause
    unfold fcPush
    split
    · show Cause.sequence ≠ .none; simp
    · split
      · show Cause.overflow ≠ .none; simp
      · trivial
  | ccAssign => exact ccAssign_raises s
  | encEmit => exact encEmit_raises s
  | encRun =>
    exact Flow.RaisesACause.then (m := htBuild s) trivial fun _ s1 => (ccAssign_raises s1).then fun _ s2 => encEmit_raises s2
  | bwByte b => exact (bwWriteByte_raises b s).then fun _ _ => trivial
  | brPush b =>
    show (brPush b s).RaisesACause
    unfold brPush
    split
    · show Cause.sequence ≠ .none; simp
    · split
      · show Cause.overflow ≠ .none; simp
      · trivial
  | brEnd =>
    show (brEnd s).RaisesACause
    unfold brEnd
    split
    · show Cause.sequence ≠ .none; simp
    · split
      · show Cause.badmark ≠ .none; simp
      · trivial
  | brBit => exact (brReadBit_raises s).then fun _ _ => trivial
  | brByte => exact (brReadByte_raises s).then fun _ _ => trivial
  | decTable =>
    show (decTable s).RaisesACause
    unfold decTable
    split
    · show Cause.sequence ≠ .none; simp
    · exact (decReadTable_raises s).then fun _ _ => trivial
  | decSym =>
    show (decSym s).RaisesACause
    unfold decSym
    split
    · show Cause.sequence ≠ .none; simp
    · refine (decDecodeSymbol_raises s).then fun v _ => ?_
      cases v <;> trivial
  | decRun =>
    show (decRun s).RaisesACause
    unfold decRun
    split
    · show Cause.sequence ≠ .none; simp
    · split
      · trivial
      · exact (decReadTable_raises s).then fun _ _ => (decSymbols_raises _ _).then fun _ _ => trivial
  | _ => trivial

/-! ### What executing a command can do -/

/-- Every command is of one of the two sides, or runs while an error is recorded. -/
theorem Instr.side (i : Instr) : i.encoderSide = true ∨ i.decoderSide = true ∨ i.runsOnError = true := by
  cases i <;> simp [Instr.encoderSide, Instr.decoderSide, Instr.runsOnError]

/-- A command is blocked; or is one of the four that always run; or, with no error recorded, runs its body to its end, or
to the cause it raises. -/
theorem exec_cases {i : Instr} {s t : State} (h : exec i s = .next t) :
    (s.ctl.err = true ∧ (i.wellFormed = true → i.runsOnError = false) ∧ t = s.blocked) ∨
      (i = .nop ∧ t = s.respond 0) ∨ (i = .reset ∧ t = s.resetFields.respond 0) ∨
      (i = .errclr ∧ t = s.clearError.respond 0) ∨
      (∃ a r, i = .rdreg a ∧ Reg.ofAddr a = some r ∧ t = s.respond (s.readReg r)) ∨
      (s.ctl.err = false ∧ (i.encoderSide = true ∨ i.decoderSide = true) ∧
        ∃ d u, i.body s = .done d u ∧ t = u.respond d) ∨
      (s.ctl.err = false ∧ (i.encoderSide = true ∨ i.decoderSide = true) ∧
        ∃ c u, c ≠ .none ∧ i.body s = .raised c u ∧ t = u.raise c) ∨
      (s.ctl.err = false ∧ i.wellFormed = false ∧ t = s.raise .illegal) := by
  have sys : i.runsOnError = true → (i = .nop ∧ t = s.respond 0) ∨ (i = .reset ∧ t = s.resetFields.respond 0) ∨
      (i = .errclr ∧ t = s.clearError.respond 0) ∨
      (∃ a r, i = .rdreg a ∧ Reg.ofAddr a = some r ∧ t = s.respond (s.readReg r)) ∨
      (i.wellFormed = false ∧ t = s.illegalWord) := by
    intro hr
    cases i with
    | nop => cases h; exact .inl ⟨rfl, rfl⟩
    | reset => cases h; exact .inr (.inl ⟨rfl, rfl⟩)
    | errclr => cases h; exact .inr (.inr (.inl ⟨rfl, rfl⟩))
    | rdreg a =>
      cases ha : Reg.ofAddr a with
      | some r =>
        rw [exec_rdreg ha] at h
        cases h
        exact .inr (.inr (.inr (.inl ⟨a, r, rfl, ha, rfl⟩)))
      | none =>
        simp only [exec, execRdreg, ha] at h
        cases h
        refine .inr (.inr (.inr (.inr ⟨?_, rfl⟩)))
        show mappedAddr a = false
        rw [← Reg.ofAddr_isSome, ha]
        rfl
    | _ => cases hr
  rcases Bool.eq_false_or_eq_true s.ctl.err with he | he
  · by_cases hr : i.runsOnError = false
    · rw [exec_blocked he hr] at h
      cases h
      exact .inl ⟨he, fun _ => hr, rfl⟩
    · rcases sys (by simpa using hr) with h1 | h1 | h1 | h1 | ⟨h1, h2⟩
      · exact .inr (.inl h1)
      · exact .inr (.inr (.inl h1))
      · exact .inr (.inr (.inr (.inl h1)))
      · exact .inr (.inr (.inr (.inr (.inl h1))))
      · exact .inl ⟨he, fun h0 => by simp [h1] at h0, by rw [h2, State.illegalWord, if_pos he]⟩
  · rcases Instr.side i with hs | hs | hs
    · rcases exec_next he h with ⟨d, u, hb, ht⟩ | ⟨c, u, hb, ht⟩
      · exact .inr (.inr (.inr (.inr (.inr (.inl ⟨he, .inl hs, d, u, hb, ht⟩)))))
      · exact .inr (.inr (.inr (.inr (.inr (.inr (.inl
          ⟨he, .inl hs, c, u, Flow.Post.raised (body_raises i s) hb, hb, ht⟩))))))
    · rcases exec_next he h with ⟨d, u, hb, ht⟩ | ⟨c, u, hb, ht⟩
      · exact .inr (.inr (.inr (.inr (.inr (.inl ⟨he, .inr hs, d, u, hb, ht⟩)))))
      · exact .inr (.inr (.inr (.inr (.inr (.inr (.inl
          ⟨he, .inr hs, c, u, Flow.Post.raised (body_raises i s) hb, hb, ht⟩))))))
    · rcases sys hs with h1 | h1 | h1 | h1 | ⟨h1, h2⟩
      · exact .inr (.inl h1)
      · exact .inr (.inr (.inl h1))
      · exact .inr (.inr (.inr (.inl h1)))
      · exact .inr (.inr (.inr (.inr (.inl h1))))
      · exact .inr (.inr (.inr (.inr (.inr (.inr (.inr
          ⟨he, h1, by rw [h2, State.illegalWord, if_neg (by simp [he])]⟩))))))

end Sys2Proof.Machine
end

