-- ==== Sys2Proof/Laws/Optimal.lean ====
section
/-! SUPPORT. Merging the two lightest nodes costs no more than any lengths that meet Kraft's inequality: the exchange argument
behind 41_tree_builder.md R186 item 4. -/

namespace Sys2Proof.Machine

/-- The cost of weights with their lengths. -/
def pairCost (ps : List (Nat × Nat)) : Nat := (ps.map fun p => p.1 * p.2).sum

/-- Kraft's sum of the lengths, scaled by 2^D. -/
def pairKraft (D : Nat) (ps : List (Nat × Nat)) : Nat := (ps.map fun p => 2 ^ (D - p.2)).sum

@[simp] theorem pairCost_cons (p : Nat × Nat) (ps : List (Nat × Nat)) : pairCost (p :: ps) = p.1 * p.2 + pairCost ps := by
  simp [pairCost]

@[simp] theorem pairKraft_cons (D : Nat) (p : Nat × Nat) (ps : List (Nat × Nat)) :
    pairKraft D (p :: ps) = 2 ^ (D - p.2) + pairKraft D ps := by
  simp [pairKraft]

theorem pairCost_perm {ps qs : List (Nat × Nat)} (h : ps.Perm qs) : pairCost ps = pairCost qs := (h.map _).sum_eq

theorem pairKraft_perm {ps qs : List (Nat × Nat)} (D : Nat) (h : ps.Perm qs) : pairKraft D ps = pairKraft D qs :=
  (h.map _).sum_eq

/-- A weight no larger than the others may take the largest length: exchanging lengths costs nothing. -/
theorem exchange_one (D a l : Nat) (R : List (Nat × Nat)) (h : ∀ r ∈ R, a ≤ r.1) :
    ∃ l' R', R'.map Prod.fst = R.map Prod.fst ∧ (∀ r ∈ R', r.2 ≤ l') ∧
      2 ^ (D - l') + pairKraft D R' = 2 ^ (D - l) + pairKraft D R ∧
      a * l' + pairCost R' ≤ a * l + pairCost R ∧
      (∀ B, (∀ r ∈ R, r.2 ≤ B) → ∀ r ∈ R', r.2 ≤ B) ∧ ∀ B, l ≤ B → (∀ r ∈ R, r.2 ≤ B) → l' ≤ B := by
  induction R with
  | nil => exact ⟨l, [], rfl, by simp, rfl, le_refl _, by simp, fun B hB _ => hB⟩
  | cons r R ih =>
    obtain ⟨l', R', h1, h2, h3, h4, h5, h6⟩ := ih fun r hr => h r (List.mem_cons_of_mem _ hr)
    by_cases hr : r.2 ≤ l'
    · refine ⟨l', r :: R', by simp [h1], ?_, ?_, ?_, ?_, ?_⟩
      · intro x hx
        rcases List.mem_cons.mp hx with rfl | hx
        · exact hr
        · exact h2 x hx
      · simp only [pairKraft_cons]; omega
      · simp only [pairCost_cons]; omega
      · intro B hB x hx
        rcases List.mem_cons.mp hx with rfl | hx
        · exact hB _ List.mem_cons_self
        · exact h5 B (fun y hy => hB y (List.mem_cons_of_mem _ hy)) x hx
      · exact fun B hl hB => h6 B hl fun y hy => hB y (List.mem_cons_of_mem _ hy)
    · refine ⟨r.2, (r.1, l') :: R', by simp [h1], ?_, ?_, ?_, ?_, ?_⟩
      · intro x hx
        rcases List.mem_cons.mp hx with rfl | hx
        · simp only; omega
        · exact le_trans (h2 x hx) (by omega)
      · simp only [pairKraft_cons]; omega
      · obtain ⟨d, hd⟩ : ∃ d, r.2 = l' + d := ⟨r.2 - l', by omega⟩
        have ha : a ≤ r.1 := h r List.mem_cons_self
        have := Nat.mul_le_mul_right d ha
        simp only [pairCost_cons, hd, Nat.mul_add]
        omega
      · intro B hB x hx
        rcases List.mem_cons.mp hx with rfl | hx
        · have := hB _ List.mem_cons_self
          simp only; omega
        · exact h5 B (fun y hy => hB y (List.mem_cons_of_mem _ hy)) x hx
      · exact fun B _ hB => hB _ List.mem_cons_self

/-- Where all lengths are at most l and the sum is below 2^D, one more code of length l fits. -/
theorem kraft_room {D l : Nat} {R : List (Nat × Nat)} (hl : l ≤ D) (hR : ∀ r ∈ R, r.2 ≤ l) (h : pairKraft D R < 2 ^ D) :
    2 ^ (D - l) + pairKraft D R ≤ 2 ^ D := by
  have hd : 2 ^ (D - l) ∣ pairKraft D R := by
    apply List.dvd_sum
    intro x hx
    obtain ⟨r, hr, rfl⟩ := List.mem_map.mp hx
    exact Nat.pow_dvd_pow 2 (by have := hR r hr; omega)
  obtain ⟨q, hq⟩ := hd
  have hD : 2 ^ D = 2 ^ (D - l) * 2 ^ l := by rw [← pow_add]; congr 1; omega
  rw [hq, hD] at h ⊢
  have : q < 2 ^ l := Nat.lt_of_mul_lt_mul_left h
  calc 2 ^ (D - l) + 2 ^ (D - l) * q = 2 ^ (D - l) * (q + 1) := by ring
    _ ≤ 2 ^ (D - l) * 2 ^ l := Nat.mul_le_mul_left _ this

/-- Two weights no larger than the others may take one common length. -/
theorem exchange_two {D a b la lb : Nat} {R : List (Nat × Nat)} (ha : ∀ r ∈ R, a ≤ r.1) (hb : ∀ r ∈ R, b ≤ r.1)
    (hla : la ≤ D) (hlb : lb ≤ D) (hR : ∀ r ∈ R, r.2 ≤ D) (hk : pairKraft D ((a, la) :: (b, lb) :: R) ≤ 2 ^ D) :
    ∃ m R', R'.map Prod.fst = R.map Prod.fst ∧ m ≤ D ∧ (∀ r ∈ R', r.2 ≤ D) ∧
      pairKraft D ((a, m) :: (b, m) :: R') ≤ 2 ^ D ∧
      pairCost ((a, m) :: (b, m) :: R') ≤ pairCost ((a, la) :: (b, lb) :: R) := by
  obtain ⟨la', R1, e1, l1, k1, c1, t1, u1⟩ := exchange_one D a la R ha
  have hb1 : ∀ r ∈ R1, b ≤ r.1 := by
    intro r hr
    have : r.1 ∈ R1.map Prod.fst := List.mem_map_of_mem hr
    rw [e1] at this
    obtain ⟨r', hr', he⟩ := List.mem_map.mp this
    rw [← he]; exact hb r' hr'
  obtain ⟨lb', R2, e2, l2, k2, c2, t2, u2⟩ := exchange_one D b lb R1 hb1
  have hR1 := t1 D hR
  have hR2 := t2 D hR1
  have hla' := u1 D hla hR
  have hlb' := u2 D hlb hR1
  have l2' := t2 la' l1
  simp only [pairKraft_cons, pairCost_cons] at hk ⊢
  rcases le_total la' lb' with h | h
  · have hroom : 2 ^ (D - la') + pairKraft D ((a, la') :: R2) ≤ 2 ^ D := by
      apply kraft_room hla'
      · intro r hr
        rcases List.mem_cons.mp hr with rfl | hr
        · exact le_refl _
        · exact l2' r hr
      · have : 0 < 2 ^ (D - lb') := by positivity
        simp only [pairKraft_cons]; omega
    simp only [pairKraft_cons] at hroom
    have hm := Nat.mul_le_mul_left b h
    exact ⟨la', R2, e2.trans e1, hla', hR2, by omega, by omega⟩
  · have hroom : 2 ^ (D - lb') + pairKraft D ((b, lb') :: R2) ≤ 2 ^ D := by
      apply kraft_room hlb'
      · intro r hr
        rcases List.mem_cons.mp hr with rfl | hr
        · exact le_refl _
        · exact l2 r hr
      · have : 0 < 2 ^ (D - la') := by positivity
        simp only [pairKraft_cons]; omega
    simp only [pairKraft_cons] at hroom
    have hm := Nat.mul_le_mul_left a h
    exact ⟨lb', R2, e2.trans e1, hlb', hR2, by omega, by omega⟩

/-! ### The merges -/

/-- The sum of the weights of the internal nodes that k merges make. -/
def mergeCost : Nat → Nat → List HeapNode → Nat
  | 0, _, _ => 0
  | k + 1, next, heap =>
    match heapPopMin heap with
    | none => 0
    | some (a, heap1) =>
      match heapPopMin heap1 with
      | none => 0
      | some (b, heap2) =>
        a.weight + b.weight + mergeCost k (next + 1)
          ({ weight := a.weight + b.weight, index := next, tree := .node a.tree b.tree } :: heap2)

/-- The node popped is no heavier than the others. -/
theorem heapPopMin_weight {h rest : List HeapNode} {m : HeapNode} (hp : heapPopMin h = some (m, rest)) :
    ∀ x ∈ rest, m.weight ≤ x.weight := by
  intro x hx
  have := heapPopMin_min hp x ((heapPopMin_perm hp).mem_iff.mpr (List.mem_cons_of_mem _ hx))
  simp only [HeapNode.before, Bool.or_eq_false_iff, decide_eq_false_iff_not] at this
  omega

theorem exists_pop {h : List HeapNode} (hn : h ≠ []) : ∃ m rest, heapPopMin h = some (m, rest) := by
  cases hp : heapPopMin h with
  | none => exact absurd (heapPopMin_eq_none.mp hp) hn
  | some p => exact ⟨p.1, p.2, rfl⟩

/-- A pair of a given weight, taken out of a list of pairs. -/
theorem take_weight {ps : List (Nat × Nat)} {w : Nat} {ws : List Nat} (h : (ps.map Prod.fst).Perm (w :: ws)) :
    ∃ l qs, ps.Perm ((w, l) :: qs) ∧ (qs.map Prod.fst).Perm ws := by
  have hw : w ∈ ps.map Prod.fst := h.mem_iff.mpr List.mem_cons_self
  obtain ⟨p, hp, rfl⟩ := List.mem_map.mp hw
  obtain ⟨s, t, rfl⟩ := List.append_of_mem hp
  refine ⟨p.2, s ++ t, List.perm_middle, ?_⟩
  have := ((List.perm_middle (a := p) (l₁ := s) (l₂ := t)).map Prod.fst).symm.trans h
  exact List.Perm.cons_inv this

/-- The merges cost no more than any lengths that meet Kraft's inequality. -/
theorem mergeCost_le (k next : Nat) (h : List HeapNode) (hk : h.length = k + 1) {D : Nat} {ps : List (Nat × Nat)}
    (hw : (ps.map Prod.fst).Perm (h.map HeapNode.weight)) (hD : ∀ p ∈ ps, p.2 ≤ D) (hkr : pairKraft D ps ≤ 2 ^ D) :
    mergeCost k next h ≤ pairCost ps := by
  induction k generalizing next h ps with
  | zero => exact Nat.zero_le _
  | succ k ih =>
    obtain ⟨a, h1, hp1⟩ := exists_pop (h := h) (by rintro rfl; simp at hk)
    have q1 := heapPopMin_perm hp1
    have n1 := q1.length_eq
    rw [List.length_cons] at n1
    obtain ⟨b, h2, hp2⟩ := exists_pop (h := h1) (by rintro rfl; simp at n1; omega)
    have q2 := heapPopMin_perm hp2
    have n2 := q2.length_eq
    rw [List.length_cons] at n2
    rw [mergeCost, hp1]
    simp only [hp2]
    obtain ⟨la, ps1, r1, w1⟩ := take_weight (hw.trans (q1.map HeapNode.weight))
    obtain ⟨lb, ps2, r2, w2⟩ := take_weight (w1.trans (q2.map HeapNode.weight))
    have r3 : ps.Perm ((a.weight, la) :: (b.weight, lb) :: ps2) := r1.trans (r2.cons _)
    have hmem : ∀ r ∈ ps2, ∃ x ∈ h2, r.1 = x.weight := by
      intro r hr
      have := w2.mem_iff.mp (List.mem_map_of_mem hr)
      obtain ⟨x, hx, he⟩ := List.mem_map.mp this
      exact ⟨x, hx, he.symm⟩
    have ha : ∀ r ∈ ps2, a.weight ≤ r.1 := by
      intro r hr
      obtain ⟨x, hx, he⟩ := hmem r hr
      rw [he]
      exact heapPopMin_weight hp1 x (q2.mem_iff.mpr (List.mem_cons_of_mem _ hx))
    have hb : ∀ r ∈ ps2, b.weight ≤ r.1 := by
      intro r hr
      obtain ⟨x, hx, he⟩ := hmem r hr
      rw [he]
      exact heapPopMin_weight hp2 x hx
    have hin : ∀ r ∈ (a.weight, la) :: (b.weight, lb) :: ps2, r.2 ≤ D := fun r hr => hD r (r3.mem_iff.mpr hr)
    obtain ⟨m, R, e, hm, hR, hkr', hc⟩ := exchange_two ha hb (hin _ List.mem_cons_self)
      (hin _ (List.mem_cons_of_mem _ List.mem_cons_self))
      (fun r hr => hin r (List.mem_cons_of_mem _ (List.mem_cons_of_mem _ hr)))
      (by rw [← pairKraft_perm D r3]; exact hkr)
    simp only [pairKraft_cons, pairCost_cons] at hkr' hc
    have hm0 : 1 ≤ m := by
      by_contra h0
      obtain rfl : m = 0 := by omega
      have : 0 < 2 ^ D := by positivity
      simp only [Nat.sub_zero] at hkr'
      omega
    have hpow : 2 ^ (D - (m - 1)) = 2 ^ (D - m) + 2 ^ (D - m) := by
      rw [show D - (m - 1) = (D - m) + 1 by omega, pow_succ]; omega
    have key := ih (next + 1)
      ({ weight := a.weight + b.weight, index := next, tree := .node a.tree b.tree } :: h2)
      (by rw [List.length_cons]; omega) (ps := (a.weight + b.weight, m - 1) :: R)
      (by rw [List.map_cons, e]; exact w2.cons _)
      (by
        intro r hr
        rcases List.mem_cons.mp hr with rfl | hr
        · simp only; omega
        · exact hR r hr)
      (by simp only [pairKraft_cons, hpow]; omega)
    simp only [pairCost_cons] at key
    have hmul : (a.weight + b.weight) * m = (a.weight + b.weight) * (m - 1) + (a.weight + b.weight) := by
      obtain ⟨j, rfl⟩ : ∃ j, m = j + 1 := ⟨m - 1, by omega⟩
      rw [Nat.add_sub_cancel, Nat.mul_succ]
    have hsplit : (a.weight + b.weight) * m = a.weight * m + b.weight * m := Nat.add_mul _ _ _
    rw [r3.symm |> pairCost_perm |> Eq.symm]
    simp only [pairCost_cons]
    omega

/-! ### The tree's cost -/

/-- The weighted depths of a tree's leaves. -/
def CodeTree.cost (f : Byte → Nat) (t : CodeTree) (d : Nat) : Nat := ((t.depths d).map fun p => f p.1 * p.2).sum

/-- The weight of a tree's leaves. -/
def CodeTree.mass (f : Byte → Nat) (t : CodeTree) : Nat := (t.syms.map f).sum

theorem CodeTree.cost_succ (f : Byte → Nat) (t : CodeTree) (d : Nat) : t.cost f (d + 1) = t.cost f d + t.mass f := by
  induction t generalizing d with
  | leaf s => simp [CodeTree.cost, CodeTree.mass, CodeTree.depths, CodeTree.syms, Nat.mul_succ]
  | node c0 c1 h0 h1 =>
    have e : ∀ d, (CodeTree.node c0 c1).cost f d = c0.cost f (d + 1) + c1.cost f (d + 1) := by
      intro d; simp [CodeTree.cost, CodeTree.depths]
    have em : (CodeTree.node c0 c1).mass f = c0.mass f + c1.mass f := by
      simp [CodeTree.mass, CodeTree.syms]
    rw [e, e, h0, h1, em]
    omega

/-- The cost of a forest. -/
def heapCost (f : Byte → Nat) (h : List HeapNode) : Nat := (h.map fun x => x.tree.cost f 0).sum

/-- The cost of the merged forest is the cost before, and that of the merges. -/
theorem mergeNodes_cost (f : Byte → Nat) (k next : Nat) (h : List HeapNode) (hk : k < h.length)
    (hw : ∀ x ∈ h, x.weight = x.tree.mass f) :
    heapCost f (mergeNodes k next h) = heapCost f h + mergeCost k next h := by
  induction k generalizing next h with
  | zero => rfl
  | succ k ih =>
    obtain ⟨a, h1, hp1⟩ := exists_pop (h := h) (by rintro rfl; simp at hk)
    have q1 := heapPopMin_perm hp1
    have n1 := q1.length_eq
    rw [List.length_cons] at n1
    obtain ⟨b, h2, hp2⟩ := exists_pop (h := h1) (by rintro rfl; simp at n1; omega)
    have q2 := heapPopMin_perm hp2
    have n2 := q2.length_eq
    rw [List.length_cons] at n2
    have q : h.Perm (a :: b :: h2) := q1.trans (q2.cons a)
    have wa := hw a (q.mem_iff.mpr List.mem_cons_self)
    have wb := hw b (q.mem_iff.mpr (List.mem_cons_of_mem _ List.mem_cons_self))
    rw [mergeNodes, mergeCost, hp1]
    simp only [hp2]
    rw [ih]
    · have e : heapCost f h = a.tree.cost f 0 + (b.tree.cost f 0 + heapCost f h2) := by
        rw [heapCost, (q.map _).sum_eq]; simp [heapCost]
      have en : (CodeTree.node a.tree b.tree).cost f 0 = a.tree.cost f 1 + b.tree.cost f 1 := by
        simp [CodeTree.cost, CodeTree.depths]
      have ec : heapCost f ({ weight := a.weight + b.weight, index := next, tree := .node a.tree b.tree } :: h2) =
          (CodeTree.node a.tree b.tree).cost f 0 + heapCost f h2 := by simp [heapCost]
      have ca := CodeTree.cost_succ f a.tree 0
      have cb := CodeTree.cost_succ f b.tree 0
      rw [Nat.zero_add] at ca cb
      rw [e, ec, en]
      omega
    · rw [List.length_cons]; omega
    · intro x hx
      rcases List.mem_cons.mp hx with rfl | hx
      · simp [CodeTree.mass, CodeTree.syms, wa, wb]
      · exact hw x (q.mem_iff.mpr (List.mem_cons_of_mem _ (List.mem_cons_of_mem _ hx)))

end Sys2Proof.Machine
end

