-- ==== Sys2Proof/Laws/PerInstr.lean ====
section
/-! SUPPORT. One statement per command: the word of a well-formed command is none of the illegal words of 30_encoding.md
R125. -/

namespace Sys2Proof.Laws.LegalEncoding

open Sys2Proof Sys2Proof.Machine

/-- The encoding of i, when i is well formed, is a legal word. -/
def Statement (i : Instr) : Prop := i.wellFormed = true → ¬ IllegalWord (encode i)

theorem packWord_toNat (op : Byte) (a : BitVec 16) (b : Byte) :
    (packWord op a b).toNat = op.toNat * 2 ^ 24 + a.toNat * 2 ^ 8 + b.toNat := by
  have h1 := a.isLt
  have h2 := b.isLt
  simp only [packWord, BitVec.toNat_append, Nat.shiftLeft_eq]
  rw [← Nat.shiftLeft_eq, ← Nat.shiftLeft_eq, ← Nat.shiftLeft_add_eq_or_of_lt h1, ← Nat.shiftLeft_add_eq_or_of_lt h2,
    Nat.shiftLeft_eq, Nat.shiftLeft_eq]
  omega

/-- A word's three fields as the numbers `IllegalWord` takes them. -/
theorem legal_of_fields {op : Byte} {a : BitVec 16} {b : Byte}
    (h : (op.toNat ∈ opcodesN ∧ a = 0 ∧ b = 0) ∨ (op.toNat ∈ opcodesY ∧ a = 0) ∨
      (op.toNat = 0x21 ∧ a = 0 ∧ b.toNat < 2) ∨ (op.toNat = 0x03 ∧ mappedAddr a = true ∧ b = 0)) :
    ¬ IllegalWord (packWord op a b) := by
  have h1 := a.isLt
  have h2 := b.isLt
  have e1 : (packWord op a b).toNat / 2 ^ 24 = op.toNat := by rw [packWord_toNat]; omega
  have e2 : (packWord op a b).toNat / 2 ^ 8 % 2 ^ 16 = a.toNat := by rw [packWord_toNat]; omega
  have e3 : (packWord op a b).toNat % 2 ^ 8 = b.toNat := by rw [packWord_toNat]; omega
  have hN : ∀ n ∈ opcodesN, n ∉ opcodesY ∧ n ≠ 0x21 ∧ n ≠ 0x03 := by decide
  have hY : ∀ n ∈ opcodesY, n ∉ opcodesN ∧ n ≠ 0x21 ∧ n ≠ 0x03 := by decide
  have hT : 0x21 ∉ opcodesN ∧ 0x21 ∉ opcodesY := by decide
  have hA : 0x03 ∉ opcodesN ∧ 0x03 ∉ opcodesY := by decide
  simp only [IllegalWord, e1, e2, e3]
  rcases h with ⟨ho, rfl, rfl⟩ | ⟨ho, rfl⟩ | ⟨ho, rfl, hb⟩ | ⟨ho, hm, rfl⟩
  · have := hN _ ho
    simp [ho, this.2.1, this.2.2]
  · have := hY _ ho
    simp [ho, this.1, this.2.1, this.2.2]
  · rw [ho]
    simp [hT.1, hT.2]
    omega
  · rw [ho]
    simp [hA.1, hA.2, hm]

theorem nop : Statement .nop := fun _ => legal_of_fields (.inl (by decide))
theorem reset : Statement .reset := fun _ => legal_of_fields (.inl (by decide))
theorem errclr : Statement .errclr := fun _ => legal_of_fields (.inl (by decide))
theorem rdreg (a : BitVec 16) : Statement (.rdreg a) :=
  fun h => legal_of_fields (.inr (.inr (.inr ⟨rfl, h, rfl⟩)))
theorem fcClear : Statement .fcClear := fun _ => legal_of_fields (.inl (by decide))
theorem fcPush (b : Byte) : Statement (.fcPush b) := fun _ => legal_of_fields (.inr (.inl ⟨by decide, rfl⟩))
theorem htBuild : Statement .htBuild := fun _ => legal_of_fields (.inl (by decide))
theorem ccAssign : Statement .ccAssign := fun _ => legal_of_fields (.inl (by decide))
theorem encEmit : Statement .encEmit := fun _ => legal_of_fields (.inl (by decide))
theorem encRun : Statement .encRun := fun _ => legal_of_fields (.inl (by decide))
theorem bwClear : Statement .bwClear := fun _ => legal_of_fields (.inl (by decide))
theorem bwBit (bit : Bool) : Statement (.bwBit bit) :=
  fun _ => legal_of_fields (.inr (.inr (.inl (by cases bit <;> decide))))
theorem bwByte (b : Byte) : Statement (.bwByte b) := fun _ => legal_of_fields (.inr (.inl ⟨by decide, rfl⟩))
theorem bwFinal : Statement .bwFinal := fun _ => legal_of_fields (.inl (by decide))
theorem brClear : Statement .brClear := fun _ => legal_of_fields (.inl (by decide))
theorem brPush (b : Byte) : Statement (.brPush b) := fun _ => legal_of_fields (.inr (.inl ⟨by decide, rfl⟩))
theorem brEnd : Statement .brEnd := fun _ => legal_of_fields (.inl (by decide))
theorem brBit : Statement .brBit := fun _ => legal_of_fields (.inl (by decide))
theorem brByte : Statement .brByte := fun _ => legal_of_fields (.inl (by decide))
theorem decTable : Statement .decTable := fun _ => legal_of_fields (.inl (by decide))
theorem decSym : Statement .decSym := fun _ => legal_of_fields (.inl (by decide))
theorem decRun : Statement .decRun := fun _ => legal_of_fields (.inl (by decide))

end Sys2Proof.Laws.LegalEncoding
end

