-- ==== Sys2Proof/Laws/Sides.lean ====
section
/-! SUPPORT. What a command of one side depends on: run from two states that agree on its side, it does the same there and emits
the same bytes (10_state.md R30, 70_reset_and_hazards.md R392). -/

namespace Sys2Proof.Machine

/-- Two flows end alike, in states related by R. -/
def Flow.Agree {α : Type} (R : State → State → Prop) (m m' : Flow α) : Prop :=
  (∃ v s s', m = .done v s ∧ m' = .done v s' ∧ R s s') ∨ ∃ c s s', m = .raised c s ∧ m' = .raised c s' ∧ R s s'

theorem Flow.Agree.done {α : Type} {R : State → State → Prop} (v : α) {s s' : State} (h : R s s') :
    Flow.Agree R (.done v s) (.done v s') := .inl ⟨v, s, s', rfl, rfl, h⟩

theorem Flow.Agree.raised {α : Type} {R : State → State → Prop} (c : Cause) {s s' : State} (h : R s s') :
    Flow.Agree R (.raised c s : Flow α) (.raised c s') := .inr ⟨c, s, s', rfl, rfl, h⟩

theorem Flow.Agree.bind {α β : Type} {R : State → State → Prop} {m m' : Flow α} {k k' : α → State → Flow β}
    (h : Flow.Agree R m m') (hk : ∀ v s s', R s s' → Flow.Agree R (k v s) (k' v s')) :
    Flow.Agree R (m.bind k) (m'.bind k') := by
  obtain ⟨v, s, s', rfl, rfl, hr⟩ | ⟨c, s, s', rfl, rfl, hr⟩ := h
  · exact hk v s s' hr
  · exact Flow.Agree.raised c hr

/-! ### The decoder side -/

/-- s and s' agree on the decoder side, and have emitted the same bytes since their outputs were o and o'. -/
structure DecoderAgree (o o' : List Byte) (s s' : State) : Prop where
  params : s'.params = s.params
  ctl : s'.ctl = s.ctl
  br : s'.br = s.br
  dct : s'.dct = s.dct
  out : ∃ bs, s.port.out = o ++ bs ∧ s'.port.out = o' ++ bs

variable {o o' : List Byte}

theorem DecoderAgree.setBr {s s' : State} (h : DecoderAgree o o' s s') (r : Br) :
    DecoderAgree o o' (s.setBr r) (s'.setBr r) := ⟨h.params, h.ctl, rfl, h.dct, h.out⟩

theorem DecoderAgree.setDct {s s' : State} (h : DecoderAgree o o' s s') (d : Dct) :
    DecoderAgree o o' (s.setDct d) (s'.setDct d) := ⟨h.params, h.ctl, h.br, rfl, h.out⟩

theorem DecoderAgree.emit {s s' : State} (h : DecoderAgree o o' s s') (b : Byte) :
    DecoderAgree o o' (s.emit b) (s'.emit b) := by
  obtain ⟨bs, h1, h2⟩ := h.out
  exact ⟨h.params, h.ctl, h.br, h.dct, bs ++ [b], by simp [h1], by simp [h2]⟩

theorem brReadBit_agree {s s' : State} (h : DecoderAgree o o' s s') :
    Flow.Agree (DecoderAgree o o') (brReadBit s) (brReadBit s') := by
  rw [brReadBit, brReadBit, h.br]
  cases s.br.readBit with
  | error c => exact .raised c h
  | ok p => exact .done p.1 (h.setBr p.2)

theorem brReadByte_agree {s s' : State} (h : DecoderAgree o o' s s') :
    Flow.Agree (DecoderAgree o o') (brReadByte s) (brReadByte s') := by
  rw [brReadByte, brReadByte, h.br]
  cases s.br.readByte with
  | error c => exact .raised c h
  | ok p => exact .done p.1 (h.setBr p.2)

theorem decReadAlpha_agree (k i : Nat) {s s' : State} (h : DecoderAgree o o' s s') :
    Flow.Agree (DecoderAgree o o') (decReadAlpha k i s) (decReadAlpha k i s') := by
  induction k generalizing i s s' with
  | zero => exact .done () h
  | succ k ih =>
    refine (brReadByte_agree h).bind fun v t t' ht => ?_
    rw [ht.dct]
    exact ih (i + 1) (ht.setDct _)

theorem decReadCounts_agree (k l : Nat) {s s' : State} (h : DecoderAgree o o' s s') :
    Flow.Agree (DecoderAgree o o') (decReadCounts k l s) (decReadCounts k l s') := by
  induction k generalizing l s s' with
  | zero => exact .done () h
  | succ k ih =>
    refine (brReadByte_agree h).bind fun v t t' ht => ?_
    rw [ht.dct]
    exact ih (l + 1) (ht.setDct _)

theorem decReadCode_agree (l : Nat) (v : Code) {s s' : State} (h : DecoderAgree o o' s s') :
    Flow.Agree (DecoderAgree o o') (decReadCode l v s) (decReadCode l v s') := by
  induction l generalizing v s s' with
  | zero => exact .done v h
  | succ l ih => exact (brReadBit_agree h).bind fun b t t' ht => ih _ ht

theorem decReadCodes_agree (ls : List Nat) (i : Nat) {s s' : State} (h : DecoderAgree o o' s s') :
    Flow.Agree (DecoderAgree o o') (decReadCodes ls i s) (decReadCodes ls i s') := by
  induction ls generalizing i s s' with
  | nil => exact .done () h
  | cons l ls ih =>
    refine (decReadCode_agree l 0 h).bind fun v t t' ht => ?_
    rw [ht.dct]
    exact ih (i + 1) (ht.setDct _)

theorem decReadBody_agree {s s' : State} (h : DecoderAgree o o' s s') :
    Flow.Agree (DecoderAgree o o') (decReadBody s) (decReadBody s') := by
  rw [decReadBody, decReadBody, h.dct]
  split
  · exact .raised _ (h.setDct _)
  · refine (decReadCodes_agree _ _ (h.setDct _)).bind fun v t t' ht => ?_
    rw [ht.dct]
    exact .done () (ht.setDct _)

theorem decReadTable_agree {s s' : State} (h : DecoderAgree o o' s s') :
    Flow.Agree (DecoderAgree o o') (decReadTable s) (decReadTable s') := by
  refine (brReadByte_agree (h.setDct _)).bind fun a t t' ht => ?_
  rw [ht.dct]
  refine (decReadAlpha_agree _ _ (ht.setDct _)).bind fun _ u u' hu => ?_
  refine (brReadByte_agree hu).bind fun m v v' hv => ?_
  rw [hv.dct]
  split
  · exact .raised _ (hv.setDct _)
  · exact (decReadCounts_agree _ _ (hv.setDct _)).bind fun _ w w' hw => decReadBody_agree hw

theorem decMatch_agree (fuel : Nat) {s s' : State} (h : DecoderAgree o o' s s') :
    Flow.Agree (DecoderAgree o o') (decMatch fuel s) (decMatch fuel s') := by
  induction fuel generalizing s s' with
  | zero => exact .raised _ h
  | succ fuel ih =>
    refine (brReadBit_agree h).bind fun b t t' ht => ?_
    rw [ht.dct]
    split
    · exact .done _ ((ht.emit _).setDct _)
    · split
      · exact .raised _ (ht.setDct _)
      · exact ih (ht.setDct _)

theorem decDecodeSymbol_agree {s s' : State} (h : DecoderAgree o o' s s') :
    Flow.Agree (DecoderAgree o o') (decDecodeSymbol s) (decDecodeSymbol s') := by
  rw [decDecodeSymbol, decDecodeSymbol, h.br, h.dct]
  split
  · exact .done _ (h.setDct _)
  · exact (decMatch_agree _ (h.setDct _)).bind fun v t t' ht => .done _ ht

theorem decSymbols_agree (fuel : Nat) {s s' : State} (h : DecoderAgree o o' s s') :
    Flow.Agree (DecoderAgree o o') (decSymbols fuel s) (decSymbols fuel s') := by
  induction fuel generalizing s s' with
  | zero => exact .done () h
  | succ fuel ih =>
    refine (decDecodeSymbol_agree h).bind fun v t t' ht => ?_
    cases v with
    | none => exact .done () ht
    | some _ => exact ih ht

theorem body_decoderAgree {i : Instr} (hi : i.decoderSide = true) {s s' : State} (h : DecoderAgree o o' s s') :
    Flow.Agree (DecoderAgree o o') (i.body s) (i.body s') := by
  cases i <;> first | exact absurd hi Bool.false_ne_true | skip
  · exact .done _ ((h.setBr _).setDct _)
  · simp only [Instr.body, brPush, h.br, h.params]
    split
    · exact .raised _ h
    · split
      · exact .raised _ h
      · exact .done _ (h.setBr _)
  · simp only [Instr.body, brEnd, h.br]
    split
    · exact .raised _ h
    · split
      · exact .raised _ (h.setBr _)
      · exact .done _ (h.setBr _)
  · exact (brReadBit_agree h).bind fun v t t' ht => .done _ ht
  · exact (brReadByte_agree h).bind fun v t t' ht => .done _ ht
  · simp only [Instr.body, decTable, h.br]
    split
    · exact .raised _ h
    · exact (decReadTable_agree h).bind fun v t t' ht => .done _ ht
  · simp only [Instr.body, decSym, h.dct]
    split
    · exact .raised _ h
    · refine (decDecodeSymbol_agree h).bind fun v t t' ht => ?_
      cases v with
      | none => exact .done _ ht
      | some _ => exact .done _ ht
  · simp only [Instr.body, decRun, h.br]
    split
    · exact .raised _ h
    · split
      · exact .done _ (h.setDct _)
      · refine (decReadTable_agree h).bind fun v t t' ht => ?_
        rw [ht.br]
        exact (decSymbols_agree _ ht).bind fun _ u u' hu => .done _ hu

/-! ### The encoder side -/

/-- s and s' agree on the encoder side, and have emitted the same bytes since their outputs were o and o'. -/
structure EncoderAgree (o o' : List Byte) (s s' : State) : Prop where
  params : s'.params = s.params
  ctl : s'.ctl = s.ctl
  fc : s'.fc = s.fc
  ect : s'.ect = s.ect
  bw : s'.bw = s.bw
  out : ∃ bs, s.port.out = o ++ bs ∧ s'.port.out = o' ++ bs

theorem EncoderAgree.setFc {s s' : State} (h : EncoderAgree o o' s s') (f : Fc) :
    EncoderAgree o o' (s.setFc f) (s'.setFc f) := ⟨h.params, h.ctl, rfl, h.ect, h.bw, h.out⟩

theorem EncoderAgree.setEct {s s' : State} (h : EncoderAgree o o' s s') (e : Ect) :
    EncoderAgree o o' (s.setEct e) (s'.setEct e) := ⟨h.params, h.ctl, h.fc, rfl, h.bw, h.out⟩

theorem EncoderAgree.setBw {s s' : State} (h : EncoderAgree o o' s s') (w : Bw) :
    EncoderAgree o o' (s.setBw w) (s'.setBw w) := ⟨h.params, h.ctl, h.fc, h.ect, rfl, h.out⟩

theorem EncoderAgree.emitAll {s s' : State} (h : EncoderAgree o o' s s') (bs : List Byte) :
    EncoderAgree o o' (s.emitAll bs) (s'.emitAll bs) := by
  obtain ⟨cs, h1, h2⟩ := h.out
  exact ⟨h.params, h.ctl, h.fc, h.ect, h.bw, cs ++ bs, by simp [h1], by simp [h2]⟩

theorem EncoderAgree.bwWriteBits {s s' : State} (h : EncoderAgree o o' s s') (bits : List Bool) :
    EncoderAgree o o' (s.bwWriteBits bits) (s'.bwWriteBits bits) := by
  rw [State.bwWriteBits, State.bwWriteBits, h.bw]
  exact (h.setBw _).emitAll _

theorem EncoderAgree.bwFinalize {s s' : State} (h : EncoderAgree o o' s s') :
    EncoderAgree o o' s.bwFinalize s'.bwFinalize := by
  rw [State.bwFinalize, State.bwFinalize, h.bw]
  exact (h.setBw _).emitAll _

theorem bwWriteByte_agree (b : Byte) {s s' : State} (h : EncoderAgree o o' s s') :
    Flow.Agree (EncoderAgree o o') (bwWriteByte b s) (bwWriteByte b s') := by
  rw [bwWriteByte, bwWriteByte, h.bw]
  split
  · exact .raised _ h
  · exact .done _ (h.emitAll _)

theorem bwWriteBytes_agree (bs : List Byte) {s s' : State} (h : EncoderAgree o o' s s') :
    Flow.Agree (EncoderAgree o o') (bwWriteBytes bs s) (bwWriteBytes bs s') := by
  induction bs generalizing s s' with
  | nil => exact .done () h
  | cons b bs ih => exact (bwWriteByte_agree b h).bind fun _ t t' ht => ih ht

theorem encEmit_agree {s s' : State} (h : EncoderAgree o o' s s') :
    Flow.Agree (EncoderAgree o o') (encEmit s) (encEmit s') := by
  rw [encEmit, encEmit, h.ect, h.fc]
  split
  · exact .raised _ h
  · split
    · exact .done _ h
    · exact (bwWriteBytes_agree _ h).bind fun _ t t' ht => .done _ (ht.bwWriteBits _).bwFinalize

theorem ccAssign_agree {s s' : State} (h : EncoderAgree o o' s s') :
    Flow.Agree (EncoderAgree o o') (ccAssign s) (ccAssign s') := by
  rw [ccAssign, ccAssign, h.ect]
  split
  · exact .done _ (h.setEct _)
  · exact .raised _ h

theorem htBuild_agree {s s' : State} (h : EncoderAgree o o' s s') :
    Flow.Agree (EncoderAgree o o') (htBuild s) (htBuild s') := by
  rw [htBuild, htBuild, h.fc]
  exact .done _ (h.setEct _)

theorem body_encoderAgree {i : Instr} (hi : i.encoderSide = true) {s s' : State} (h : EncoderAgree o o' s s') :
    Flow.Agree (EncoderAgree o o') (i.body s) (i.body s') := by
  cases i <;> first | exact absurd hi Bool.false_ne_true | skip
  · exact .done _ ((h.setFc _).setEct _)
  · simp only [Instr.body, fcPush, h.ect, h.fc, h.params]
    split
    · exact .raised _ h
    · split
      · exact .raised _ h
      · exact .done _ (h.setFc _)
  · exact htBuild_agree h
  · exact ccAssign_agree h
  · exact encEmit_agree h
  · exact (htBuild_agree h).bind fun _ t t' ht => (ccAssign_agree ht).bind fun _ u u' hu => encEmit_agree hu
  · exact .done _ (h.setBw _)
  · exact .done _ (h.bwWriteBits _)
  · exact (bwWriteByte_agree _ h).bind fun _ t t' ht => .done _ ht
  · exact .done _ h.bwFinalize

end Sys2Proof.Machine
end

