-- ==== Sys2Proof/Laws/Symbols.lean ====
section
/-! SUPPORT. The loop of DEC.RUN: it does what DEC.SYM commands do one after another, and decodes a sequence of codes to the
symbols at their positions (46_decoder.md R293, R294, R297). -/

namespace Sys2Proof.Machine

/-- A symbol takes at least one significant bit. -/
theorem decMatch_avail (fuel : Nat) {s t : State} {v : Byte} (h : decMatch fuel s = .done v t) :
    t.br.avail < s.br.avail := by
  induction fuel generalizing s with
  | zero => cases h
  | succ fuel ih =>
    rw [decMatch] at h
    obtain ⟨b, s1, h1, h2⟩ := Flow.bind_eq_done h
    obtain ⟨r, hr, rfl⟩ := brReadBit_done h1
    have := Br.avail_readBit hr
    split at h2
    · cases h2; show r.avail < _; omega
    · split at h2
      · cases h2
      · have := ih h2
        have h3 : ((s.setBr r).setDct ((s.setBr r).dct.extend b)).br.avail = r.avail := rfl
        omega

/-- dec_ready is not touched by matching. -/
theorem decMatch_ready (fuel : Nat) (s : State) : (decMatch fuel s).state.dct.ready = s.dct.ready := by
  induction fuel generalizing s with
  | zero => rfl
  | succ fuel ih =>
    rw [decMatch]
    cases hb : brReadBit s with
    | raised c t =>
      obtain ⟨_, rfl⟩ := brReadBit_raised hb
      rfl
    | done b t =>
      obtain ⟨r, hr, rfl⟩ := brReadBit_done hb
      rw [Flow.bind_done]
      split
      · rfl
      · split
        · rfl
        · rw [ih]; rfl

/-- A table that has been read is ready. -/
theorem decReadTable_ready {s t : State} (h : decReadTable s = .done () t) : t.dct.ready = true := by
  obtain ⟨a, s1, h1, h⟩ := Flow.bind_eq_done h
  obtain ⟨_, s2, h2, h⟩ := Flow.bind_eq_done h
  obtain ⟨m, s3, h3, h⟩ := Flow.bind_eq_done h
  split at h
  · cases h
  · obtain ⟨_, s4, h4, h⟩ := Flow.bind_eq_done h
    rw [decReadBody] at h
    split at h
    · cases h
    · obtain ⟨_, s5, h5, h⟩ := Flow.bind_eq_done h
      cases h; rfl

/-- The loop of DEC.RUN from s, and DEC.SYM commands from a state u that agrees with s but for its responses: they end alike, with
the same fields and output. -/
theorem decSymbols_run (fuel : Nat) :
    ∀ (s u : State) (pre : List Response), s.br.avail < fuel → s.dct.ready = true → s.ctl.err = false →
   DecoderAgree s.port.out s.port.out s u → u.port.out = s.port.out → u.fc = s.fc → u.ect = s.ect → u.bw = s.bw →
    u.port.responses = s.port.responses ++ pre →
   ∃ (n : Nat) (w : State) (r : Response) (pre' : List Response), execAll (List.replicate n .decSym) u = .next w ∧
     w.port.responses = s.port.responses ++ pre' ++ [r] ∧
     ((∃ t, decSymbols fuel s = .done () t ∧ r = Response.ok 0x100 ∧ w.ctl = s.ctl ∧ w.params = t.params ∧ w.fc = t.fc ∧
    w.ect = t.ect ∧ w.bw = t.bw ∧ w.br = t.br ∧ w.dct = t.dct ∧ w.port.out = t.port.out ∧ t.dct.ready = true ∧
    t.dct.done = true) ∨
      (∃ c t, decSymbols fuel s = .raised c t ∧ c ≠ .none ∧ r = Response.error c ∧ w.ctl = { err := true, cause := c } ∧
    w.params = t.params ∧ w.fc = t.fc ∧ w.ect = t.ect ∧ w.bw = t.bw ∧ w.br = t.br ∧ w.dct = t.dct ∧
    w.port.out = t.port.out)) := by
  induction fuel with
  | zero => intro s u pre h; omega
  | succ fuel ih =>
    intro s u pre hav hready he hag hout hfc hect hbw hresp
    have hue : u.ctl.err = false := by rw [hag.ctl]; exact he
    have hur : u.dct.ready = true := by rw [hag.dct]; exact hready
    have hbody : Instr.body .decSym u = (decDecodeSymbol u).bind fun r s1 => match r with | none => .done 0x100 s1 | some v => .done (v.setWidth 32) s1 :=
      by
      show decSym u = _; rw [decSym]; exact if_neg (by simp [hur])
    have hD := decDecodeSymbol_state s
    have hDu := decDecodeSymbol_state u
    have hraise := decDecodeSymbol_raises s
    obtain ⟨v, t, t', b1, b2, hr⟩ | ⟨c, t, t', b1, b2, hr⟩ := decDecodeSymbol_agree hag
    · rw [b1] at hD
      rw [b2] at hDu
      have hD := id (α := DecodesOnly s t) hD
      have hDu := id (α := DecodesOnly u t') hDu
      obtain ⟨bs, o1, o2⟩ := hr.out
      cases v with
      | none =>
        refine ⟨1, t'.respond 0x100, Response.ok 0x100, pre, ?_, ?_, .inl ⟨t, ?_, rfl, ?_, hr.params, ?_, ?_, ?_, hr.br, hr.dct, ?_, ?_, ?_⟩⟩
        · show execAll [.decSym] u = _
          rw [execAll_cons (exec_of_done hue (by rw [hbody, b2]; rfl)), execAll]
        · rw [State.respond_responses, (id (α := DecodesOnly u t') hDu).responses, hresp]; rfl
        · rw [decSymbols, b1]; rfl
        · exact hDu.ctl.trans hag.ctl
        · exact hDu.fc.trans (hfc.trans hD.fc.symm)
        · exact hDu.ect.trans (hect.trans hD.ect.symm)
        · exact hDu.bw.trans (hbw.trans hD.bw.symm)
        · exact o2.trans o1.symm
        · rw [decDecodeSymbol] at b1
          split at b1
          · cases b1; exact hready
          · obtain ⟨_, _, _, h⟩ := Flow.bind_eq_done b1; cases h
        · rw [decDecodeSymbol] at b1
          split at b1
          · cases b1; rfl
          · obtain ⟨_, _, _, h⟩ := Flow.bind_eq_done b1; cases h
      | some x =>
        have hstep : exec .decSym u = .next (t'.respond (x.setWidth 32)) := exec_of_done hue (by rw [hbody, b2]; rfl)
        have hlt : t.br.avail < s.br.avail ∧ t.dct.ready = true := by
          rw [decDecodeSymbol] at b1
          split at b1
          · cases b1
          · obtain ⟨y, s1, h1, h⟩ := Flow.bind_eq_done b1
            cases h
            have := decMatch_ready (s.br.avail + 1) (s.setDct s.dct.clearCand)
            rw [h1] at this
            exact ⟨show t.br.avail < (s.setDct s.dct.clearCand).br.avail from decMatch_avail _ h1, this.trans hready⟩
        obtain ⟨n, w, r, pre', e1, e2, e3⟩ :=
          ih t (t'.respond (x.setWidth 32)) (pre ++ [Response.ok (x.setWidth 32)]) (by omega) hlt.2 (by rw [(id (α := DecodesOnly s t) hD).ctl]; exact he)
          ⟨hr.params, hr.ctl, hr.br, hr.dct, [], by simp, by rw [State.respond_out, o2, o1]; simp⟩ (by rw [State.respond_out, o2, o1])
          (hDu.fc.trans (hfc.trans hD.fc.symm)) (hDu.ect.trans (hect.trans hD.ect.symm)) (hDu.bw.trans (hbw.trans hD.bw.symm))
          (by rw [State.respond_responses, (id (α := DecodesOnly u t') hDu).responses, hresp, (id (α := DecodesOnly s t) hD).responses]; simp [Response.ok])
        refine ⟨n + 1, w, r, pre', ?_, ?_, ?_⟩
        · rw [List.replicate_succ, execAll_cons hstep, e1]
        · rw [e2, (id (α := DecodesOnly s t) hD).responses]
        · rw [decSymbols, b1, Flow.bind_done]
          rw [(id (α := DecodesOnly s t) hD).ctl] at e3
          exact e3
    · rw [b1] at hD hraise
      rw [b2] at hDu
      have hD := id (α := DecodesOnly s t) hD
      have hDu := id (α := DecodesOnly u t') hDu
      obtain ⟨bs, o1, o2⟩ := hr.out
      refine ⟨1, t'.raise c, Response.error c, pre, ?_, ?_, .inr ⟨c, t, ?_, ?_, rfl, rfl, hr.params, ?_, ?_, ?_, hr.br, hr.dct, ?_⟩⟩
      · show execAll [.decSym] u = _
        rw [execAll_cons (exec_of_raised hue (by rw [hbody, b2]; rfl)), execAll]
      · rw [State.raise_responses, (id (α := DecodesOnly u t') hDu).responses, hresp]; rfl
      · rw [decSymbols, b1]; rfl
      · exact hraise.raised rfl
      · exact hDu.fc.trans (hfc.trans hD.fc.symm)
      · exact hDu.ect.trans (hect.trans hD.ect.symm)
      · exact hDu.bw.trans (hbw.trans hD.bw.symm)
      · exact o2.trans o1.symm

/-- The two ways of writing a code's bits agree. -/
theorem codeBits_bitsOf (l v : Nat) (hl : l ≤ 255) : codeBits l (BitVec.ofNat 255 v) = bitsOf (l, v) := by
  apply List.ext_getElem
  · simp [bitsOf]
  · intro i h1 h2
    rw [codeBits_length] at h1
    rw [codeBits_getElem l _ i h1]
    simp only [bitsOf, List.getElem_map, List.getElem_range, BitVec.getLsbD_ofNat]
    rw [decide_eq_true (by omega), Bool.true_and]

theorem bitsOf_length (c : Nat × Nat) : (bitsOf c).length = c.1 := by simp [bitsOf]

theorem bitsOf_getD (c : Nat × Nat) (k : Nat) (h : k < c.1) : (bitsOf c).getD k false = c.2.testBit (c.1 - 1 - k) := by
  rw [List.getD_eq_getElem?_getD, List.getElem?_eq_getElem (by rw [bitsOf_length]; exact h)]
  simp [bitsOf]

/-- Codes none of which is the beginning of another, one after another, decode to the symbols at their positions. -/
theorem decSymbols_positions (d : Dct) (A : List Byte) (codes : List (Nat × Nat)) (hA : d.asize.toNat = A.length)
    (hal : ∀ i, i < A.length → tableGet d.alpha i = A.getD i 0)
  (hcl : codes.length = A.length) (hle : ∀ c ∈ codes, 1 ≤ c.1 ∧ c.1 ≤ d.maxlen.toNat)
  (hlen : ∀ i, i < A.length → (tableGet d.len i).toNat = (codes.getD i (0,0)).1)
    (hcode : ∀ i, i < A.length → (tableGet d.code i).toNat = (codes.getD i (0,0)).2)
  (hcs : ∀ c ∈ codes, c.2 < 2 ^ c.1)
  (hpf : ∀ i j, i < A.length → j < A.length → i ≠ j → ¬ bitsOf (codes.getD i (0, 0)) <+: bitsOf (codes.getD j (0, 0)))
    (is : List Nat) :
  (∀ i ∈ is, i < A.length) → ∀ (fuel : Nat) (s : State), s.br.avail < fuel → s.br.Readable →
    s.dct.clearCand = d.clearCand → s.br.pendingBits = is.flatMap (fun i => bitsOf (codes.getD i (0,0))) →
    ∃ r, r.pendingBits = [] ∧ r.queue = s.br.queue ∧ r.sealed = s.br.sealed ∧
    decSymbols fuel s = .done () (((s.emitAll (is.map fun i => A.getD i 0)).setBr r).setDct d.clearCand.setDone) := by
  have hhas : ∀ i P, P.length ≤ 255 → (d.HasCode P i ↔ i < A.length ∧ P = bitsOf (codes.getD i (0,0))) := by
    intro i P hP
    constructor
    · rintro ⟨h1, h2, h3, h4⟩
      rw [hA] at h1
      refine ⟨h1, ?_⟩
      rw [hlen i h1] at h2
      apply List.ext_getElem
      · rw [bitsOf_length, h2]
      · intro k hk1 hk2
        have := h4 k hk1
        have e2 := bitsOf_getD (codes.getD i (0,0)) k (by omega)
        rw [List.getD_eq_getElem?_getD, List.getElem?_eq_getElem hk2, Option.getD_some] at e2
        rw [List.getD_eq_getElem?_getD, List.getElem?_eq_getElem hk1, Option.getD_some] at this
        rw [← this, e2, BitVec.getLsbD, hcode i h1, h2]
    · rintro ⟨h1, rfl⟩
      rw [bitsOf_length] at hP
      have hmem : codes.getD i (0,0) ∈ codes := by
        rw [List.getD_eq_getElem?_getD, List.getElem?_eq_getElem (by omega), Option.getD_some]; exact List.getElem_mem _
      refine ⟨by omega, by rw [hlen i h1, bitsOf_length], by rw [hcode i h1, bitsOf_length]; exact hcs _ hmem, ?_⟩
      intro k hk
      rw [bitsOf_length] at hk ⊢
      rw [bitsOf_getD _ _ hk, BitVec.getLsbD, hcode i h1]
  induction is with
  | nil =>
    intro _ fuel s hf hr hd hp
    obtain ⟨fuel, rfl⟩ : ∃ n, fuel = n + 1 := ⟨fuel - 1, by omega⟩
    have h0 : s.br.avail = 0 := by rw [Br.avail_eq_length hr, hp]; rfl
    refine ⟨s.br, hp, rfl, rfl, ?_⟩
    rw [decSymbols, decDecodeSymbol_end h0, Flow.bind_done, ← hd]
    simp [State.emitAll, State.setBr, State.setDct]
  | cons i is ih =>
    intro his fuel s hf hr hd hp
    obtain ⟨fuel, rfl⟩ : ∃ n, fuel = n + 1 := ⟨fuel - 1, by omega⟩
    have hi := his i List.mem_cons_self
    have hmem : codes.getD i (0,0) ∈ codes := by
      rw [List.getD_eq_getElem?_getD, List.getElem?_eq_getElem (by omega), Option.getD_some]; exact List.getElem_mem _
    have hl := hle _ hmem
    have hml := d.maxlen.isLt
    have hsd : ∀ P j, s.dct.HasCode P j ↔ d.HasCode P j := by
      intro P j
      have e1 : s.dct.asize = d.asize := by have := congrArg Dct.asize hd; exact this
      have e2 : s.dct.len = d.len := by have := congrArg Dct.len hd; exact this
      have e3 : s.dct.code = d.code := by have := congrArg Dct.code hd; exact this
      simp only [Dct.HasCode, e1, e2, e3]
    have hmx : s.dct.maxlen = d.maxlen := by have := congrArg Dct.maxlen hd; exact this
    have hals : s.dct.alpha = d.alpha := by have := congrArg Dct.alpha hd; exact this
    rw [List.flatMap_cons] at hp
    have hbl := bitsOf_length (codes.getD i (0,0))
    obtain ⟨r, h1, h2, h3, h4, h5⟩ :=
      decDecodeSymbol_first (i := i) hr hp (by intro h; have := congrArg List.length h; rw [hbl] at this; simp only [List.length_nil] at this; omega) (by rw [hbl, hmx]; exact hl.2)
      ((hsd _ _).mpr ((hhas _ _ (by rw [hbl]; omega)).mpr ⟨hi, rfl⟩))
      (by
        intro j hj h
        obtain ⟨hj1, hj2⟩ := (hhas _ _ (by rw [hbl]; omega)).mp ((hsd _ _).mp h)
        exact hpf j i hj1 hi (by omega) (by rw [hj2]))
      (by
        intro n j hn hn' h
        rw [hbl] at hn'
        obtain ⟨hj1, hj2⟩ := (hhas _ _ (by rw [List.length_take, hbl]; omega)).mp ((hsd _ _).mp h)
        have hne : j ≠ i := by
          rintro rfl
          have := congrArg List.length hj2
          rw [List.length_take, hbl] at this; omega
        exact hpf j i hj1 hi hne (by rw [← hj2]; exact List.take_prefix _ _))
    rw [hals, hal i hi] at h5
    have hav : r.avail < fuel := by
      rw [Br.avail_eq_length hr, hp] at hf
      rw [Br.avail_eq_length h1, h2]
      rw [List.length_append, hbl] at hf
      omega
    obtain ⟨r', k1, k2, k3, k4⟩ :=
      ih (fun j hj => his j (List.mem_cons_of_mem _ hj)) fuel (((s.setBr r).emit (A.getD i 0)).setDct s.dct.clearCand) hav h1 (by rw [← hd]; rfl) h2
    refine ⟨r', k1, k2.trans h3, k3.trans h4, ?_⟩
    rw [decSymbols, h5, Flow.bind_done]
    simp only
    rw [k4]
    simp [State.emit, State.emitAll, State.setBr, State.setDct]

end Sys2Proof.Machine
end

