-- ==== Sys2Proof/Laws/TableErrors.lean ====
section
/-! SUPPORT. Where reading a table ends with an error (46_decoder.md R290, R292): the header is inconsistent or the queue ends
too early, and what has been read by then stays (R295, 60_exceptions.md R355). -/

namespace Sys2Proof.Machine

/-! ### dec_ready and dec_done stay 0 -/

/-- The flags dec_ready and dec_done are unchanged. -/
def KeepsFlags (s t : State) : Prop := t.dct.ready = s.dct.ready ∧ t.dct.done = s.dct.done

theorem KeepsFlags.trans {s t u : State} (h : KeepsFlags s t) (k : KeepsFlags t u) : KeepsFlags s u :=
  ⟨k.1.trans h.1, k.2.trans h.2⟩

theorem Flow.bind_keepsFlags {α β : Type} {s : State} {m : Flow α} {k : α → State → Flow β}
    (hm : KeepsFlags s m.state) (hk : ∀ a s1, KeepsFlags s1 (k a s1).state) : KeepsFlags s (m.bind k).state := by
  cases m with
  | done v t => exact KeepsFlags.trans hm (hk v t)
  | raised c t => exact hm

theorem brReadByte_flags (s : State) : KeepsFlags s (brReadByte s).state := by
  rw [brReadByte]; split <;> exact ⟨rfl, rfl⟩

theorem brReadBit_flags (s : State) : KeepsFlags s (brReadBit s).state := by
  rw [brReadBit]; split <;> exact ⟨rfl, rfl⟩

theorem decReadAlpha_flags (k i : Nat) (s : State) : KeepsFlags s (decReadAlpha k i s).state := by
  induction k generalizing i s with
  | zero => exact ⟨rfl, rfl⟩
  | succ k ih =>
    exact Flow.bind_keepsFlags (brReadByte_flags s) fun v t => KeepsFlags.trans (t := t.setDct _) ⟨rfl, rfl⟩ (ih _ _)

theorem decReadCounts_flags (k l : Nat) (s : State) : KeepsFlags s (decReadCounts k l s).state := by
  induction k generalizing l s with
  | zero => exact ⟨rfl, rfl⟩
  | succ k ih =>
    exact Flow.bind_keepsFlags (brReadByte_flags s) fun v t => KeepsFlags.trans (t := t.setDct _) ⟨rfl, rfl⟩ (ih _ _)

theorem decReadCode_flags (l : Nat) (v : Code) (s : State) : KeepsFlags s (decReadCode l v s).state := by
  induction l generalizing v s with
  | zero => exact ⟨rfl, rfl⟩
  | succ l ih => exact Flow.bind_keepsFlags (brReadBit_flags s) fun b t => ih _ t

theorem decReadCodes_flags (ls : List Nat) (i : Nat) (s : State) : KeepsFlags s (decReadCodes ls i s).state := by
  induction ls generalizing i s with
  | nil => exact ⟨rfl, rfl⟩
  | cons l ls ih =>
    exact Flow.bind_keepsFlags (decReadCode_flags l 0 s) fun v t =>
      KeepsFlags.trans (t := t.setDct _) ⟨rfl, rfl⟩ (ih _ _)

/-- An error of `dec_read_table` leaves dec_ready and dec_done 0 (R290). -/
theorem decReadTable_raised {s t : State} {c : Cause} (h : decReadTable s = .raised c t) :
    t.dct.ready = false ∧ t.dct.done = false := by
  have key : KeepsFlags (s.setDct Dct.initial) t := by
    rcases Flow.bind_eq_raised h with h | ⟨a, s1, h1, h⟩
    · have := brReadByte_flags (s.setDct Dct.initial); rwa [h] at this
    have k1 := brReadByte_flags (s.setDct Dct.initial)
    rw [h1] at k1
    refine KeepsFlags.trans k1 (KeepsFlags.trans (t := s1.setDct (s1.dct.setSize a)) ⟨rfl, rfl⟩ ?_)
    have k2 := decReadAlpha_flags (a.toNat + 1) 0 (s1.setDct (s1.dct.setSize a))
    rcases Flow.bind_eq_raised h with h | ⟨_, s2, h2, h⟩
    · rwa [h] at k2
    rw [h2] at k2
    refine KeepsFlags.trans k2 ?_
    have k3 := brReadByte_flags s2
    rcases Flow.bind_eq_raised h with h | ⟨m, s3, h3, h⟩
    · rwa [h] at k3
    rw [h3] at k3
    refine KeepsFlags.trans k3 (KeepsFlags.trans (t := s3.setDct (s3.dct.setMaxlen m)) ⟨rfl, rfl⟩ ?_)
    by_cases hm : m = 0
    · rw [if_pos hm] at h
      cases h
      exact ⟨rfl, rfl⟩
    rw [if_neg hm] at h
    have k4 := decReadCounts_flags m.toNat 1 (s3.setDct (s3.dct.setMaxlen m))
    rcases Flow.bind_eq_raised h with h | ⟨_, s4, h4, h⟩
    · rwa [h] at k4
    rw [h4] at k4
    refine KeepsFlags.trans k4 ?_
    have k5 : KeepsFlags s4 (s4.setDct s4.dct.restoreCount) :=
      ⟨(restoreCount_other _).2.2.2.2.2.2.2.1, (restoreCount_other _).2.2.2.2.2.2.2.2⟩
    rw [decReadBody] at h
    split at h
    · cases h
      exact k5
    · have k6 := decReadCodes_flags s4.dct.restoreCount.codeLengths 0 (s4.setDct s4.dct.restoreCount)
      rcases Flow.bind_eq_raised h with h | ⟨_, s5, h5, h⟩
      · rw [h] at k6
        exact KeepsFlags.trans k5 k6
      · cases h
  exact key

/-! ### The queue ends too early -/

theorem brReadByte_short {s : State} (h : s.br.Readable) (hc : s.br.cnt = 0) (hd : s.br.dataBytes = []) :
    brReadByte s = .raised .exhausted s := by
  rw [brReadByte, Br.readByte_exhausted h hc hd]

theorem brReadBit_short {s : State} (h : s.br.Readable) (hp : s.br.pendingBits = []) :
    brReadBit s = .raised .exhausted s := by
  rw [brReadBit, Br.readBit_exhausted h hp]

/-- The alphabet bytes there are, fewer than wanted, are read into dec_alpha. -/
theorem decReadAlpha_short (vs : List Byte) {k : Nat} (i : Nat) {s : State} (h : s.br.Readable) (hc : s.br.cnt = 0)
    (hd : s.br.dataBytes = vs) (hk : vs.length < k) :
    decReadAlpha k i s =
      .raised .exhausted ((s.setBr (s.br.skip vs.length)).setDct (s.dct.setSymbols i vs)) := by
  induction vs generalizing k i s with
  | nil =>
    obtain ⟨k, rfl⟩ : ∃ n, k = n + 1 := ⟨k - 1, by simp at hk; omega⟩
    rw [decReadAlpha, brReadByte_short h hc hd, Flow.bind_raised]
    rfl
  | cons v vs ih =>
    rw [List.length_cons] at hk
    obtain ⟨k, rfl⟩ : ∃ n, k = n + 1 := ⟨k - 1, by omega⟩
    rw [decReadAlpha, brReadByte_data h hc hd, Flow.bind_done, ih, List.length_cons, ← Br.skip_skip_one s.br vs.length]
    · rfl
    · exact Br.skip_readable h 1
    · exact hc
    · simp [Br.skip_dataBytes, hd]
    · omega

/-- The count bytes there are, fewer than wanted, are read into dec_count. -/
theorem decReadCounts_short (vs : List Byte) {k : Nat} (l : Nat) {s : State} (h : s.br.Readable) (hc : s.br.cnt = 0)
    (hd : s.br.dataBytes = vs) (hk : vs.length < k) :
    decReadCounts k l s =
      .raised .exhausted ((s.setBr (s.br.skip vs.length)).setDct (s.dct.setCounts l vs)) := by
  induction vs generalizing k l s with
  | nil =>
    obtain ⟨k, rfl⟩ : ∃ n, k = n + 1 := ⟨k - 1, by simp at hk; omega⟩
    rw [decReadCounts, brReadByte_short h hc hd, Flow.bind_raised]
    rfl
  | cons v vs ih =>
    rw [List.length_cons] at hk
    obtain ⟨k, rfl⟩ : ∃ n, k = n + 1 := ⟨k - 1, by omega⟩
    rw [decReadCounts, brReadByte_data h hc hd, Flow.bind_done, ih, List.length_cons, ← Br.skip_skip_one s.br vs.length]
    · rfl
    · exact Br.skip_readable h 1
    · exact hc
    · simp [Br.skip_dataBytes, hd]
    · omega

/-- Bits are the bits of their value. -/
theorem codeBits_bitsValue {P : List Bool} (hP : P.length ≤ 255) : codeBits P.length (bitsValue P) = P := by
  apply List.ext_getElem (codeBits_length _ _)
  intro k h1 h2
  rw [codeBits_getElem _ _ k h2, bitsValue_bits P hP k h2, List.getD_eq_getElem?_getD, List.getElem?_eq_getElem h2,
    Option.getD_some]

theorem brReadBit_drained (s : State) : (brReadBit s).state.br.drained = s.br.drained := by
  rw [brReadBit]
  split
  · rfl
  · next h => exact Br.drained_readBit h

theorem Flow.bind_drained {α β : Type} {s : State} {m : Flow α} {k : α → State → Flow β}
    (hm : m.state.br.drained = s.br.drained) (hk : ∀ a s1, (k a s1).state.br.drained = s1.br.drained) :
    (m.bind k).state.br.drained = s.br.drained := by
  cases m with
  | done v t => exact (hk v t).trans hm
  | raised c t => exact hm

theorem decReadCode_drained (l : Nat) (v : Code) (s : State) : (decReadCode l v s).state.br.drained = s.br.drained := by
  induction l generalizing v s with
  | zero => rfl
  | succ l ih => exact Flow.bind_drained (brReadBit_drained s) fun b t => ih _ t

theorem decReadCodes_drained (ls : List Nat) (i : Nat) (s : State) :
    (decReadCodes ls i s).state.br.drained = s.br.drained := by
  induction ls generalizing i s with
  | nil => rfl
  | cons l ls ih => exact Flow.bind_drained (decReadCode_drained l 0 s) fun v t => ih _ _

/-- The bits end inside a code. -/
theorem decReadCode_short (l : Nat) (v : Code) {s : State} (h : s.br.Readable) (hp : s.br.pendingBits.length < l) :
    ∃ r, decReadCode l v s = .raised .exhausted (s.setBr r) ∧ r.pendingBits = [] ∧ r.Readable := by
  induction l generalizing v s with
  | zero => omega
  | succ l ih =>
    cases hb : s.br.pendingBits with
    | nil => exact ⟨s.br, by rw [decReadCode, brReadBit_short h hb, Flow.bind_raised]; rfl, hb, h⟩
    | cons b bs =>
      obtain ⟨r, h1, h2, h3⟩ := brReadBit_pending h hb
      rw [decReadCode, h1, Flow.bind_done]
      exact ih _ (s := s.setBr r) h3 (by rw [State.setBr_br, h2]; rw [hb, List.length_cons] at hp; omega)

/-- The bits end inside the codes of the listed lengths: the codes before stay, and every bit has been read (R290, R355). -/
theorem decReadCodes_short (ls : List Nat) (hls : ∀ l ∈ ls, l ≤ 255) (i : Nat) {s : State} (h : s.br.Readable)
    (hp : s.br.pendingBits.length < ls.sum) :
    ∃ (cs : List (Nat × Code)) (rest : List Bool) (l : Nat) (more : List Nat),
      decReadCodes ls i s = .raised .exhausted ((s.setBr s.br.drained).setDct (s.dct.setCodes i cs)) ∧
      cs.map Prod.fst ++ l :: more = ls ∧ (∀ c ∈ cs, c.2.toNat < 2 ^ c.1) ∧
      s.br.pendingBits = cs.flatMap (fun c => codeBits c.1 c.2) ++ rest ∧ rest.length < l := by
  have key : ∃ (cs : List (Nat × Code)) (rest : List Bool) (l : Nat) (more : List Nat) (r : Br),
      decReadCodes ls i s = .raised .exhausted ((s.setBr r).setDct (s.dct.setCodes i cs)) ∧
      cs.map Prod.fst ++ l :: more = ls ∧ (∀ c ∈ cs, c.2.toNat < 2 ^ c.1) ∧
      s.br.pendingBits = cs.flatMap (fun c => codeBits c.1 c.2) ++ rest ∧ rest.length < l ∧
      r.pendingBits = [] ∧ r.Readable := by
    induction ls generalizing i s with
    | nil => simp at hp
    | cons l ls ih =>
      rw [List.sum_cons] at hp
      by_cases hl : l ≤ s.br.pendingBits.length
      · have hlen : (s.br.pendingBits.take l).length = l := List.length_take_of_le hl
        have hl255 := hls l List.mem_cons_self
        have hb := codeBits_bitsValue (P := s.br.pendingBits.take l) (by omega)
        have hv := bitsValue_lt (s.br.pendingBits.take l)
        rw [hlen] at hb hv
        obtain ⟨r, h1, h2, h3⟩ := decReadCode_code hv h (rest := s.br.pendingBits.drop l)
          (by rw [hb, List.take_append_drop])
        obtain ⟨cs, rest, l', more, r', e1, e2, e3, e4, e5, e6, e7⟩ :=
          ih (fun x hx => hls x (List.mem_cons_of_mem _ hx)) (i + 1)
            (s := (s.setBr r).setDct ((s.setBr r).dct.setCode i l (bitsValue (s.br.pendingBits.take l)))) h3
            (by rw [State.setDct_br, State.setBr_br, h2, List.length_drop]; omega)
        refine ⟨(l, bitsValue (s.br.pendingBits.take l)) :: cs, rest, l', more, r', ?_, ?_, ?_, ?_, e5, e6, e7⟩
        · rw [decReadCodes, h1, Flow.bind_done, e1]; rfl
        · rw [List.map_cons, List.cons_append, e2]
        · intro c hc
          rcases List.mem_cons.mp hc with rfl | hc
          · exact hv
          · exact e3 c hc
        · rw [State.setDct_br, State.setBr_br, h2] at e4
          rw [List.flatMap_cons, List.append_assoc, ← e4, hb, List.take_append_drop]
      · obtain ⟨r, h1, h2, h3⟩ := decReadCode_short l 0 h (by omega)
        exact ⟨[], s.br.pendingBits, l, ls, r, by rw [decReadCodes, h1, Flow.bind_raised]; rfl, rfl, by simp, by simp,
          by omega, h2, h3⟩
  obtain ⟨cs, rest, l, more, r, e1, e2, e3, e4, e5, e6, e7⟩ := key
  have hr := decReadCodes_drained ls i s
  rw [e1] at hr
  have : r = s.br.drained := (Br.drained_eq e7 e6).symm.trans hr
  exact ⟨cs, rest, l, more, this ▸ e1, e2, e3, e4, e5⟩

/-! ### Where `dec_read_table` ends -/

/-- The decoder after a first byte a, the alphabet bytes A, max_length m and the count bytes C, each as far as it was read. -/
def Dct.ofBytes (a : Byte) (A : List Byte) (m : Byte) (C : List Byte) : Dct :=
  (((Dct.initial.setSize a).setSymbols 0 A).setMaxlen m).setCounts 1 C

/-- The first byte cannot be read: the decoder is cleared and the reader stays. -/
theorem decReadTable_first {s : State} {c : Cause} (h : s.br.readByte = .error c) :
    decReadTable s = .raised c (s.setDct Dct.initial) := by
  rw [decReadTable, brReadByte, show (s.setDct Dct.initial).br.readByte = _ from h]; rfl

/-- The queue ends inside the header (R290). -/
theorem decReadTable_short {s : State} {a : Byte} {xs : List Byte} (h : s.br.Readable) (hc : s.br.cnt = 0)
    (hd : s.br.dataBytes = a :: xs) (hx : xs.length < a.toNat + 2 + (xs.getD (a.toNat + 1) 0).toNat) :
    decReadTable s = .raised .exhausted ((s.setBr (s.br.skip (xs.length + 1))).setDct
      (Dct.ofBytes a (xs.take (a.toNat + 1)) (xs.getD (a.toNat + 1) 0) (xs.drop (a.toNat + 2)))) := by
  have ha := a.isLt
  by_cases hx2 : xs.length < a.toNat + 2
  · have e1 : brReadByte (s.setDct Dct.initial) = .done a ((s.setDct Dct.initial).setBr (s.br.skip 1)) :=
      brReadByte_data h hc hd
    have d1 : (s.br.skip 1).dataBytes = xs := by rw [Br.skip_dataBytes, hd]; rfl
    have hr1 := Br.skip_readable h 1
    have hg : xs.getD (a.toNat + 1) 0 = 0 := by
      rw [List.getD_eq_getElem?_getD, List.getElem?_eq_none (by omega)]; rfl
    rw [hg, List.drop_eq_nil_of_le (by omega), List.take_of_length_le (by omega), decReadTable, e1, Flow.bind_done]
    by_cases hx1 : xs.length < a.toNat + 1
    · rw [decReadAlpha_short xs 0 (s := ((s.setDct Dct.initial).setBr (s.br.skip 1)).setDct _) hr1 hc d1 hx1,
        Flow.bind_raised, ← Br.skip_skip_one s.br xs.length]
      rfl
    · have hl : xs.length = a.toNat + 1 := by omega
      have e2 := decReadAlpha_data xs (rest := []) 0
        (s := ((s.setDct Dct.initial).setBr (s.br.skip 1)).setDct (Dct.initial.setSize a)) hr1 hc
        (by rw [List.append_nil]; exact d1)
      rw [hl] at e2
      rw [State.setBr_dct, State.setDct_dct, e2, Flow.bind_done, brReadByte_short, Flow.bind_raised, hl,
        ← Br.skip_skip_one s.br (a.toNat + 1)]
      · rfl
      · exact Br.skip_readable hr1 _
      · exact hc
      · show ((s.br.skip 1).skip (a.toNat + 1)).dataBytes = []
        rw [Br.skip_dataBytes, d1, ← hl, List.drop_length]
  · have hlt : a.toNat + 1 < xs.length := by omega
    obtain ⟨A, m, C, rfl, hA⟩ : ∃ A m C, xs = A ++ m :: C ∧ A.length = a.toNat + 1 :=
      ⟨xs.take (a.toNat + 1), xs[a.toNat + 1], xs.drop (a.toNat + 2),
        by rw [List.getElem_cons_drop, List.take_append_drop], by rw [List.length_take]; omega⟩
    have haA : a = BitVec.ofNat 8 (A.length - 1) := by
      apply BitVec.eq_of_toNat_eq; rw [BitVec.toNat_ofNat, hA]; omega
    have hm : (A ++ m :: C).getD (a.toNat + 1) 0 = m := by
      rw [← hA, List.getD_eq_getElem?_getD, List.getElem?_append_right (le_refl _)]; simp
    have hC : (A ++ m :: C).drop (a.toNat + 2) = C := by
      rw [show a.toNat + 2 = A.length + 1 by omega, List.drop_append]; simp
    rw [hm, List.length_append, List.length_cons] at hx
    have hm0 : m ≠ 0 := by rintro rfl; simp at hx; omega
    rw [hm, ← hA, hC, List.take_left,
      decReadTable_alphabet (m := m) (A := A) (E := C) h hc (by rw [hd, ← haA]) (by omega) (by omega), if_neg hm0,
      decReadCounts_short C 1 (s := (s.setBr (s.br.skip (A.length + 2))).setDct (Dct.ofHeader A m []))
        (Br.skip_readable h _) hc _ (by omega), Flow.bind_raised]
    · rw [show (A ++ m :: C).length + 1 = A.length + 2 + C.length by simp; omega,
        ← Br.skip_skip s.br (A.length + 2), Dct.ofBytes, haA]
      rfl
    · show (s.br.skip (A.length + 2)).dataBytes = C
      rw [Br.skip_dataBytes, hd, List.drop_succ_cons, hA]
      exact hC

theorem Dct.restoreCount_nil (A : List Byte) : (Dct.ofHeader A 0 []).restoreCount = Dct.ofHeader A 0 [] := by
  rw [Dct.restoreCount, if_neg]
  simp [Dct.count256, Dct.ofHeader_maxlen]

/-- The header is whole and does not pass the checks of R292. -/
theorem decReadTable_badhdr {s : State} {A C D : List Byte} {m : Byte} (h : s.br.Readable) (hc : s.br.cnt = 0)
    (hd : s.br.dataBytes = BitVec.ofNat 8 (A.length - 1) :: (A ++ m :: (C ++ D)))
    (hA : 1 ≤ A.length) (hA' : A.length ≤ 256) (hC : C.length = m.toNat)
    (hbad : m = 0 ∨ ((List.range' 1 m.toNat).map (headerCount A.length m C)).sum ≠ A.length) :
    decReadTable s = .raised .badhdr ((s.setBr (s.br.skip (A.length + 2 + C.length))).setDct
      (Dct.ofHeader A m C).restoreCount) := by
  by_cases hm : m = 0
  · subst hm
    obtain rfl : C = [] := List.length_eq_zero_iff.mp hC
    rw [decReadTable_alphabet h hc hd hA hA', if_pos rfl, Dct.restoreCount_nil]
    rfl
  · rw [decReadTable_header h hc hd hA hA' hm hC, decReadBody, if_pos]
    · rfl
    · rw [State.setDct_dct, Dct.ofHeader_countSum A hA hA' hC, Dct.ofHeader_asize m C hA hA']
      exact hbad.resolve_left hm

/-- The header is consistent and the bits end inside the codes it announces. -/
theorem decReadTable_codesShort {s : State} {A C D : List Byte} {m : Byte} (h : s.br.Readable) (hc : s.br.cnt = 0)
    (hd : s.br.dataBytes = BitVec.ofNat 8 (A.length - 1) :: (A ++ m :: (C ++ D)))
    (hA : 1 ≤ A.length) (hA' : A.length ≤ 256) (hm : m ≠ 0) (hC : C.length = m.toNat)
    (hsum : ((List.range' 1 m.toNat).map (headerCount A.length m C)).sum = A.length)
    (hD : (unpackBytes s.br.sig D).length < ((List.range' 1 m.toNat).map fun l => l * headerCount A.length m C l).sum) :
    ∃ (cs : List (Nat × Code)) (rest : List Bool) (l : Nat) (more : List Nat),
      decReadTable s = .raised .exhausted ((s.setBr (s.br.skip (A.length + 2 + C.length)).drained).setDct
        ((Dct.ofHeader A m C).restoreCount.setCodes 0 cs)) ∧
      cs.map Prod.fst ++ l :: more =
        (List.range' 1 m.toNat).flatMap (fun l => List.replicate (headerCount A.length m C l) l) ∧
      (∀ c ∈ cs, c.2.toNat < 2 ^ c.1) ∧
      unpackBytes s.br.sig D = cs.flatMap (fun c => codeBits c.1 c.2) ++ rest ∧ rest.length < l := by
  have hp : (s.br.skip (A.length + 2 + C.length)).pendingBits = unpackBytes s.br.sig D := by
    rw [Br.skip_pendingBits hc, hd, drop_header]
  have hls : ((List.range' 1 m.toNat).flatMap fun l => List.replicate (headerCount A.length m C l) l).sum =
      ((List.range' 1 m.toNat).map fun l => l * headerCount A.length m C l).sum := by
    rw [List.flatMap_def, List.sum_flatten, List.map_map]
    refine congrArg List.sum (List.map_congr_left fun l _ => ?_)
    rw [Function.comp, List.sum_replicate, smul_eq_mul, mul_comm]
  obtain ⟨cs, rest, l, more, e1, e2, e3, e4, e5⟩ :=
    decReadCodes_short ((List.range' 1 m.toNat).flatMap fun l => List.replicate (headerCount A.length m C l) l)
      (fun l hl => by
        have := m.isLt
        obtain ⟨k, hk, hl⟩ := List.mem_flatMap.mp hl
        rw [List.eq_of_mem_replicate hl]
        rw [List.mem_range'_1] at hk; omega)
      0 (s := ((s.setBr (s.br.skip (A.length + 2 + C.length))).setDct (Dct.ofHeader A m C)).setDct
        (Dct.ofHeader A m C).restoreCount)
      (Br.skip_readable h _)
      (by rw [State.setDct_br, State.setDct_br, State.setBr_br, hp, hls]; exact hD)
  refine ⟨cs, rest, l, more, ?_, e2, e3, by rw [← hp]; exact e4, e5⟩
  rw [decReadTable_header h hc hd hA hA' hm hC, decReadBody, if_neg]
  · rw [State.setDct_dct, Dct.ofHeader_codeLengths A hA hA' hC, e1, Flow.bind_raised]
    rfl
  · rw [State.setDct_dct, Dct.ofHeader_countSum A hA hA' hC, hsum, Dct.ofHeader_asize m C hA hA']
    simp

/-- Raw bytes before the boundary move br_head by one each, and at a byte boundary the bits after them by the data bytes. -/
theorem Br.skip_drained {r : Br} (hc : r.cnt = 0) (k : Nat) : (r.skip k).drained =
    { r with
      head := r.head + k + (r.dataBytes.drop k).length
      cur := ((r.dataBytes.drop k).getLast?.map fun b : Byte => b >>> r.sig).getD r.cur } := by
  rw [Br.drained, Br.skip_dataBytes]
  cases r
  simp only at hc
  subst hc
  simp [Br.skip]
  rfl

/-! ### What the tables then hold -/

theorem tableGet_write_zero {w : Nat} (xs : List (BitVec w)) (h : xs.length ≤ 256) (i : Nat) :
    tableGet (tableWrite (Table.zero w) 0 xs) i = xs.getD i 0 := by
  rw [tableGet_tableWrite _ _ _ (by omega), tableGet_zero, List.getD_eq_getElem?_getD]
  split
  · rfl
  · rw [List.getElem?_eq_none (by omega)]; rfl

/-- A header read in part. -/
theorem Dct.ofBytes_part (a : Byte) {A : List Byte} (m : Byte) {C : List Byte} (hA : A.length ≤ 256) (hC : C.length ≤ 255) :
    (Dct.ofBytes a A m C).PartOfTable (a.toNat + 1) A m (fun l => if 1 ≤ l then (C.getD (l - 1) 0).toNat else 0) [] := by
  refine ⟨rfl, rfl, ?_, tableGet_write_zero A hA, rfl, fun l => ?_, fun i => ?_, rfl, rfl⟩
  · have := a.isLt
    show (a.setWidth 9 + 1).toNat = _
    rw [BitVec.toNat_add, BitVec.toNat_setWidth, show (1 : BitVec 9).toNat = 1 from rfl]
    omega
  · show (tableGet (tableWrite (Table.zero 9) 1 (C.map (BitVec.setWidth 9))) l).toNat = _
    rw [tableGet_tableWrite _ _ _ (by rw [List.length_map]; omega), tableGet_zero, List.length_map,
      List.getElem?_map]
    simp only [List.getD_eq_getElem?_getD]
    by_cases h : 1 ≤ l ∧ l < 1 + C.length
    · have hb := (C[l - 1]'(by omega)).isLt
      rw [if_pos h, if_pos h.1, List.getElem?_eq_getElem (by omega), Option.map_some, Option.getD_some,
        Option.getD_some, BitVec.toNat_setWidth]
      omega
    · rw [if_neg h]
      split
      · rw [List.getElem?_eq_none (by omega)]; rfl
      · rfl
  · exact ⟨by show (tableGet (Table.zero 8) i).toNat = _; rw [tableGet_zero]; rfl,
      by show (tableGet (Table.zero 255) i).toNat = _; rw [tableGet_zero]; rfl⟩

/-- A whole header and the codes read so far. -/
theorem Dct.ofHeader_part {A C : List Byte} {m : Byte} {cs : List (Nat × Code)} (hA : 1 ≤ A.length) (hA' : A.length ≤ 256)
    (hC : C.length = m.toNat) (hcs : cs.length ≤ 256) (hl : ∀ c ∈ cs, c.1 ≤ 255) :
    ((Dct.ofHeader A m C).restoreCount.setCodes 0 cs).PartOfTable A.length A m
      (fun l => if 1 ≤ l ∧ l ≤ m.toNat then headerCount A.length m C l else 0) (cs.map fun c => (c.1, c.2.toNat)) := by
  obtain ⟨o1, o2, o3, o4, o5, o6, o7, o8, o9⟩ := restoreCount_other (Dct.ofHeader A m C)
  refine ⟨o8, o9, (congrArg BitVec.toNat o1).trans (Dct.ofHeader_asize m C hA hA'), fun i => ?_, o2,
    Dct.ofHeader_restore A hA hA' hC, fun i => ?_, o6, o7⟩
  · show tableGet (Dct.ofHeader A m C).restoreCount.alpha i = _
    rw [o3, Dct.ofHeader_alpha, tableGet_write_zero A hA']
  · show (tableGet (tableWrite (Dct.ofHeader A m C).restoreCount.len 0 _) i).toNat = _ ∧
      (tableGet (tableWrite (Dct.ofHeader A m C).restoreCount.code 0 _) i).toNat = _
    rw [o4, o5]
    show (tableGet (tableWrite (Table.zero 8) 0 _) i).toNat = _ ∧ (tableGet (tableWrite (Table.zero 255) 0 _) i).toNat = _
    rw [tableGet_write_zero _ (by rw [List.length_map]; exact hcs),
      tableGet_write_zero _ (by rw [List.length_map]; exact hcs)]
    simp only [List.getD_eq_getElem?_getD, List.getElem?_map]
    cases hc : cs[i]? with
    | none => exact ⟨rfl, rfl⟩
    | some c =>
      have := hl c (List.mem_of_getElem? hc)
      refine ⟨?_, rfl⟩
      show (BitVec.ofNat 8 c.1).toNat = c.1
      rw [BitVec.toNat_ofNat]; omega

/-- An error of `dec_read_table` is DEC.TABLE's, with the decoder and the reader as it left them (R295). -/
theorem decTable_raisesTo {s t : State} {c : Cause} (he : s.ctl.err = false) (hs : s.br.sealed = true)
    (h : decReadTable s = .raised c t) : ∃ u, s.RaisesTo .decTable c u ∧ u.br = t.br ∧ u.dct = t.dct := by
  have hb : Instr.body .decTable s = .raised c t := by
    show decTable s = _; rw [decTable, if_neg (by simp [hs]), h]; rfl
  have k := decReadTable_state s
  rw [h] at k
  have hp : t.port = s.port := k.port
  exact ⟨t.raise c, ⟨exec_of_raised he hb, rfl, ⟨k.params, k.fc, k.ect⟩, k.bw,
    State.observes_raise c (by rw [hp]) (by rw [hp]) (by rw [hp]; simp)⟩, rfl, rfl⟩

end Sys2Proof.Machine
end

