-- ==== Sys2Proof/Tests/Slice0.lean ====
section
/-! SUPPORT. The model's own tests: ill-formed commands are refused, each constructor's word decodes, small one-step runs whose
expected values come from spec/95_test_vectors.md, and a witness for the hypotheses of every statement. -/

namespace Sys2Proof.Tests

open Sys2Proof Sys2Proof.Machine

/-! ### Well-formedness: one ill-formed command for each check of `mappedAddr` -/

theorem test_illformed_bank0 : Instr.wellFormed (.rdreg 0x0011) = false ∧ Instr.wellFormed (.rdreg 0x0010) = true := by decide

theorem test_illformed_byte_banks :
    (∀ b ∈ [0x1, 0x2, 0x3, 0x4, 0x6, 0x7, 0x8], Instr.wellFormed (.rdreg (BitVec.ofNat 16 (4096 * b + 0x100))) = false ∧
      Instr.wellFormed (.rdreg (BitVec.ofNat 16 (4096 * b + 0x0FF))) = true) := by decide

theorem test_illformed_slice_banks :
    Instr.wellFormed (.rdreg 0x5800) = false ∧ Instr.wellFormed (.rdreg 0x57FF) = true ∧
      Instr.wellFormed (.rdreg 0x9800) = false ∧ Instr.wellFormed (.rdreg 0x97FF) = true := by decide

theorem test_illformed_candidate_bank :
    Instr.wellFormed (.rdreg 0xA008) = false ∧ Instr.wellFormed (.rdreg 0xA007) = true := by decide

theorem test_illformed_no_bank :
    ∀ b ∈ [0xB, 0xC, 0xD, 0xE, 0xF], Instr.wellFormed (.rdreg (BitVec.ofNat 16 (4096 * b))) = false := by decide

/-! ### Decoding: words written out from 30_encoding.md R120 to R124, R130: opcode, 16 address bits, byte -/

theorem test_decode_nop : decode 0b00000000_0000000000000000_00000000 = .command .nop := by decide

theorem test_decode_reset : decode 0b00000001_0000000000000000_00000000 = .command .reset := by decide

theorem test_decode_errclr : decode 0b00000010_0000000000000000_00000000 = .command .errclr := by decide

theorem test_decode_rdreg : decode 0b00000011_0101001100001000_00000000 = .command (.rdreg 0x5308) := by decide

theorem test_decode_fcClear : decode 0b00010000_0000000000000000_00000000 = .command .fcClear := by decide

theorem test_decode_fcPush : decode 0b00010001_0000000000000000_01100001 = .command (.fcPush 0x61) := by decide

theorem test_decode_htBuild : decode 0b00010010_0000000000000000_00000000 = .command .htBuild := by decide

theorem test_decode_ccAssign : decode 0b00010011_0000000000000000_00000000 = .command .ccAssign := by decide

theorem test_decode_encEmit : decode 0b00010100_0000000000000000_00000000 = .command .encEmit := by decide

theorem test_decode_encRun : decode 0b00010101_0000000000000000_00000000 = .command .encRun := by decide

theorem test_decode_bwClear : decode 0b00100000_0000000000000000_00000000 = .command .bwClear := by decide

theorem test_decode_bwBit : decode 0b00100001_0000000000000000_00000001 = .command (.bwBit true) ∧
    decode 0b00100001_0000000000000000_00000000 = .command (.bwBit false) := by decide

theorem test_decode_bwByte : decode 0b00100010_0000000000000000_11111111 = .command (.bwByte 0xFF) := by decide

theorem test_decode_bwFinal : decode 0b00100011_0000000000000000_00000000 = .command .bwFinal := by decide

theorem test_decode_brClear : decode 0b00110000_0000000000000000_00000000 = .command .brClear := by decide

theorem test_decode_brPush : decode 0b00110001_0000000000000000_00100010 = .command (.brPush 0x22) := by decide

theorem test_decode_brEnd : decode 0b00110010_0000000000000000_00000000 = .command .brEnd := by decide

theorem test_decode_brBit : decode 0b00110011_0000000000000000_00000000 = .command .brBit := by decide

theorem test_decode_brByte : decode 0b00110100_0000000000000000_00000000 = .command .brByte := by decide

theorem test_decode_decTable : decode 0b01000000_0000000000000000_00000000 = .command .decTable := by decide

theorem test_decode_decSym : decode 0b01000001_0000000000000000_00000000 = .command .decSym := by decide

theorem test_decode_decRun : decode 0b01000010_0000000000000000_00000000 = .command .decRun := by decide

/-- The five items of R125, one word each. -/
theorem test_decode_illegal :
    decode 0x04000000 = .illegal .unassignedOpcode ∧ decode 0x11000161 = .illegal .addrFieldNotZero ∧
      decode 0x10000001 = .illegal .byteFieldNotZero ∧ decode 0x21000002 = .illegal .bitFieldNotZero ∧
      decode 0x03001100 = .illegal .unmappedAddress := by decide

/-! ### The host's check: every command is decoded, placed, and run as the first one after reset -/

/-- Whether a step goes on. -/
def goesOn (r : Result) : Bool :=
  match r with
  | .next _ => true
  | .fault _ => false
  | .refused _ => false

/-- The words of the table's rows, operands 0. -/
def rowWords : List Nat :=
  [0x00000000, 0x01000000, 0x02000000, 0x03000000, 0x10000000, 0x11000000, 0x12000000, 0x13000000, 0x14000000,
    0x15000000, 0x20000000, 0x21000000, 0x22000000, 0x23000000, 0x30000000, 0x31000000, 0x32000000, 0x33000000,
    0x34000000, 0x40000000, 0x41000000, 0x42000000]

theorem test_rows_decode : ∀ w ∈ rowWords, (decodeTableWord 32 w).isSome = true := by decide

theorem test_rows_run : ∀ w ∈ rowWords, goesOn (step (State.reset.withFetchWord 32 w)) = true := by decide

/-! ### The bench: small states, MSG_CAP = 8 and Q_CAP = 64 unless a vector says otherwise -/

/-- The message "aaab". -/
def aaab : List Byte := [0x61, 0x61, 0x61, 0x62]

/-- The encoded stream of "aaab" (95, L1-1). -/
def aaabStream : List Byte := [0x01, 0x61, 0x62, 0x01, 0x02, 0x22, 0x06]

/-- The counter after the bytes of a message were pushed. -/
def counted (msg : List Byte) : Fc := msg.foldl (fun f b => f.push b) Fc.initial

/-- The state after reset. -/
def lab : State := State.resetWith { msgCap := 8, qCap := 64 }

/-- A message pushed, and encoder tables made from its counts. -/
def labEnc (msg : List Byte) (e : Table 32 → Ect) : State := (lab.setFc (counted msg)).setEct (e (counted msg).freq)

/-- No table, a length table, a length table with its codes. -/
def noTable (_ : Table 32) : Ect := Ect.initial

def builtTable (f : Table 32) : Ect := Ect.build f

def assignedTable (f : Table 32) : Ect := (Ect.build f).assign

/-- A queue that is sealed and not yet read. -/
def sealedBr (q : List Byte) : Br := { Br.initial with queue := q, sealed := true }

/-- A sealed queue. -/
def labDec (q : List Byte) : State := lab.setBr (sealedBr q)

/-- An error is recorded. -/
def labErr : State := lab.setCtl { err := true, cause := .sequence }

/-- The tables of "aaab" as the spec lists them (95, L1-1 and DEC-1). -/
def aaabLens : Table 8 := tableSet (tableSet (Table.zero 8) 0x61 1) 0x62 1

def aaabEct : Ect :=
  { built := true, assigned := true, asize := 2, len := aaabLens, maxlen := 1, count := tableSet (Table.zero 9) 1 2,
    alpha := tableSet (tableSet (Table.zero 8) 0 0x61) 1 0x62, code := tableSet (Table.zero 255) 0x62 1 }

def aaabDct : Dct :=
  { Dct.initial with
    ready := true
    asize := 2
    alpha := tableSet (tableSet (Table.zero 8) 0 0x61) 1 0x62
    maxlen := 1
    count := tableSet (Table.zero 9) 1 2
    len := tableSet (tableSet (Table.zero 8) 0 1) 1 1
    code := tableSet (Table.zero 255) 1 1 }

/-- What a test looks at: the last response (exec, cause, data), the bytes emitted, and the value of `f`. -/
def seen {α : Type} (r : Result) (f : State → α) : Option (Option (Bool × Cause × Nat) × List Byte × α) :=
  match r with
  | .next t => some (t.port.responses.getLast?.map fun a => (a.exec, a.cause, a.data.toNat), t.port.out, f t)
  | .fault _ => none
  | .refused _ => none

/-! ### One command each; expected values from spec/95_test_vectors.md -/

theorem test_nop : seen (exec .nop labErr) (·.ctl.err) = some (some (true, .none, 0), [], true) := by decide

/-- SYS-4. -/
theorem test_reset :
    seen (exec .reset ((labEnc [0x61] noTable).setBw { acc := 1, cnt := 1 })) (fun t =>
      [t.fc.msg.length, (tableGet t.fc.freq 0x61).toNat, t.bw.cnt.toNat, t.params.msgCap]) =
      some (some (true, .none, 0), [], [0, 0, 0, 8]) := by decide +kernel

theorem test_errclr :
    seen (exec .errclr labErr) (fun t => (t.ctl.err, t.ctl.cause)) = some (some (true, .none, 0), [], false, .none) := by
  decide

/-- SYS-1, and CAUSE while an error is recorded (SYS-2). -/
theorem test_rdreg_id : seen (exec (.rdreg 0x0000) lab) (fun _ => ()) = some (some (true, .none, 0x48554631), [], ()) := by
  decide

theorem test_rdreg_cause : seen (exec (.rdreg 0x0002) labErr) (fun _ => ()) = some (some (true, .none, 2), [], ()) := by
  decide

/-- FC-2. -/
theorem test_fcClear :
    seen (exec .fcClear (labEnc [0x61] noTable)) (fun t => (t.fc.msg, tableGet t.fc.freq 0x61)) =
      some (some (true, .none, 0), [], [], 0) := by decide

/-- FC-1, its second push. -/
theorem test_fcPush :
    seen (exec (.fcPush 0x61) (labEnc [0x61] noTable)) (fun t => (t.fc.msg, tableGet t.fc.freq 0x61)) =
      some (some (true, .none, 0), [], [0x61, 0x61], 2) := by decide +kernel

/-- FC-4: MSG_CAP = 2. -/
theorem test_fcPush_overflow :
    seen (exec (.fcPush 0x10) { labEnc [0x00, 0xFF] noTable with params := { msgCap := 2, qCap := 64 } })
      (fun t => (t.fc.msg.length, tableGet t.fc.freq 0x10, t.ctl.err)) =
      some (some (true, .overflow, 0), [], 2, 0, true) := by decide +kernel

/-- HT-3, and HT-4: the tie-break on "ABCCDD" makes every length 2 (leaves A 1, B 1, C 2, D 2). -/
theorem test_htBuild_empty :
    seen (exec .htBuild lab) (fun t => (t.ect.built, t.ect.assigned)) = some (some (true, .none, 0), [], true, false) := by
  decide

theorem test_htBuild_tie :
    (mergeNodes 3 4 [⟨1, 0, .leaf 0x41⟩, ⟨1, 1, .leaf 0x42⟩, ⟨2, 2, .leaf 0x43⟩, ⟨2, 3, .leaf 0x44⟩]).map
        (fun x => x.tree.depths 0) =
      [[(0x41, 2), (0x42, 2), (0x43, 2), (0x44, 2)]] := by decide

/-- CC-1: the lengths of "abracadabra" are a 1, b 3, c 3, d 3, r 3. -/
theorem test_ccAssign :
    seen (exec .ccAssign (lab.setEct { Ect.initial with
        built := true
        asize := 5
        len := tableSet (tableSet (tableSet (tableSet aaabLens 0x62 3) 0x63 3) 0x64 3) 0x72 3 }))
      (fun t => [t.ect.maxlen.toNat, (tableGet t.ect.count 3).toNat, (tableGet t.ect.alpha 4).toNat,
        (tableGet t.ect.code 0x62).toNat, (tableGet t.ect.code 0x72).toNat]) =
      some (some (true, .none, 0), [], [3, 4, 0x72, 4, 7]) := by decide +kernel

/-- CC-4. -/
theorem test_ccAssign_sequence :
    seen (exec .ccAssign lab) (·.ctl.cause) = some (some (true, .sequence, 0), [], .sequence) := by decide

/-- ENC-3, and ENC-1. -/
theorem test_encEmit :
    seen (exec .encEmit ((lab.setFc (counted aaab)).setEct aaabEct)) (·.bw.cnt) =
      some (some (true, .none, 0), aaabStream, 0) := by decide +kernel

theorem test_encEmit_sequence :
    seen (exec .encEmit lab) (·.ctl.cause) = some (some (true, .sequence, 0), [], .sequence) := by decide

/-- L1-1: "aaab" in one command; ENC-2: a pending bit. -/
theorem test_encRun :
    seen (exec .encRun (labEnc aaab noTable)) (fun _ => ()) = some (some (true, .none, 0), aaabStream, ()) := by
  decide +kernel

theorem test_encRun_pending :
    seen (exec .encRun ((labEnc [0x61, 0x62] noTable).setBw { acc := 1, cnt := 1 }))
      (fun t => ([t.ect.built, t.ect.assigned, t.ctl.err], t.bw.acc)) =
      some (some (true, .sequence, 0), [], [true, true, true], 1) := by decide

/-- BW-8. -/
theorem test_bwClear :
    seen (exec .bwClear (lab.setBw { acc := 3, cnt := 2 })) (·.bw) = some (some (true, .none, 0), [], Bw.initial) := by
  decide

/-- BW-2, its second bit; BW-1, its eighth. -/
theorem test_bwBit :
    seen (exec (.bwBit true) (lab.setBw { acc := 1, cnt := 1 })) (·.bw) =
      some (some (true, .none, 0), [], { acc := 3, cnt := 2 }) := by decide

theorem test_bwBit_eighth :
    seen (exec (.bwBit true) (lab.setBw { acc := 0x62, cnt := 7 })) (·.bw) =
      some (some (true, .none, 0), [0xE2], Bw.initial) := by decide

/-- BW-4. -/
theorem test_bwByte :
    seen (exec (.bwByte 0x41) lab) (·.bw) = some (some (true, .none, 0), [0x41], Bw.initial) := by decide

theorem test_bwByte_pending :
    seen (exec (.bwByte 0x41) (lab.setBw { acc := 1, cnt := 1 })) (·.bw) =
      some (some (true, .sequence, 0), [], { acc := 1, cnt := 1 }) := by decide

/-- BW-2 and BW-3. -/
theorem test_bwFinal :
    seen (exec .bwFinal (lab.setBw { acc := 3, cnt := 3 })) (·.bw) =
      some (some (true, .none, 0), [0x03, 0x03], Bw.initial) := by decide

theorem test_bwFinal_empty :
    seen (exec .bwFinal lab) (·.bw) = some (some (true, .none, 0), [0x00], Bw.initial) := by decide

/-- BR-12. -/
theorem test_brClear :
    seen (exec .brClear (labDec [0x01, 0x02])) (fun t => (t.br, t.br.mark)) =
      some (some (true, .none, 0), [], Br.initial, 0) := by decide

/-- BR-8: Q_CAP = 2. -/
theorem test_brPush :
    seen (exec (.brPush 0x02) (lab.setBr { Br.initial with queue := [0x01] })) (·.br.queue) =
      some (some (true, .none, 0), [], [0x01, 0x02]) := by decide

theorem test_brPush_overflow :
    seen (exec (.brPush 0x03)
        { lab.setBr { Br.initial with queue := [0x01, 0x02] } with params := { msgCap := 8, qCap := 2 } })
      (·.br.queue) = some (some (true, .overflow, 0), [], [0x01, 0x02]) := by decide

/-- BR-1 and BR-4. -/
theorem test_brEnd :
    seen (exec .brEnd (lab.setBr { Br.initial with queue := aaabStream })) (fun t => (t.br.sealed, t.br.avail)) =
      some (some (true, .none, 0), [], true, 46) := by decide

theorem test_brEnd_badmark :
    seen (exec .brEnd (lab.setBr { Br.initial with queue := [0x61, 0x09] }))
      (fun t => (t.br.sealed, t.br.avail, t.ctl.err)) = some (some (true, .badmark, 0), [], true, 0, true) := by decide

/-- BR-1: the first payload bit, BR_STATE 0x511. -/
theorem test_brBit :
    seen (exec .brBit (lab.setBr { sealedBr aaabStream with head := 5 })) (fun t => (t.br.stateWord, t.br.avail)) =
      some (some (true, .none, 0), [], 0x511, 5) := by decide

/-- BR-2: the fourth bit of a queue with marker 3. -/
theorem test_brBit_exhausted :
    seen (exec .brBit (lab.setBr { sealedBr [0x05, 0x03] with head := 1 })) (·.br.stateWord) =
      some (some (true, .exhausted, 0), [], 0) := by decide

/-- BR-3 and BR-7. -/
theorem test_brByte :
    seen (exec .brByte (labDec [0x7A, 0x00])) (fun t => (t.br.head, t.br.avail)) =
      some (some (true, .none, 0x7A), [], 1, 0) := by decide

theorem test_brByte_inside :
    seen (exec .brByte (lab.setBr { sealedBr [0xFF, 0xAA, 0x00] with head := 1, cur := 0x7F, cnt := 7 }))
      (·.br.stateWord) = some (some (true, .sequence, 0), [], 0x77F) := by decide

/-- DEC-1. -/
theorem test_decTable :
    seen (exec .decTable (labDec aaabStream)) (fun t => (t.dct.ready, [t.dct.asize.toNat, t.dct.maxlen.toNat,
      (tableGet t.dct.count 1).toNat, (tableGet t.dct.alpha 1).toNat, (tableGet t.dct.code 1).toNat, t.br.avail])) =
      some (some (true, .none, 0), [], true, [2, 1, 2, 0x62, 1, 4]) := by decide +kernel

/-- DEC-5: the counts do not sum to the alphabet's size; DEC-14: the stream ends inside the header. -/
theorem test_decTable_errors :
    seen (exec .decTable (labDec [0x01, 0x61, 0x62, 0x01, 0x01, 0x22, 0x06]))
      (fun t => (t.dct.ready, tableGet t.dct.count 1)) = some (some (true, .badhdr, 0), [], false, 1) ∧
    seen (exec .decTable (labDec [0x01, 0x61, 0x00]))
      (fun t => [t.dct.asize.toNat, (tableGet t.dct.alpha 0).toNat, (tableGet t.dct.alpha 1).toNat, t.br.head]) =
      some (some (true, .exhausted, 0), [], [2, 0x61, 0, 2]) := by
  constructor <;> decide +kernel

/-- DEC-1: the fourth symbol, and the end. -/
theorem test_decSym :
    seen (exec .decSym ((lab.setBr { sealedBr aaabStream with head := 6, cur := 1, cnt := 1 }).setDct aaabDct))
      (fun t => (t.dct.candLen, t.dct.done)) = some (some (true, .none, 0x62), [0x62], 0, false) := by decide +kernel

theorem test_decSym_end :
    seen (exec .decSym ((lab.setBr { sealedBr aaabStream with head := 6 }).setDct aaabDct)) (·.dct.done) =
      some (some (true, .none, 0x100), [], true) := by decide

/-- L1-1; and DEC-3: NOMATCH with the candidate 11 left. -/
theorem test_decRun :
    seen (exec .decRun (labDec aaabStream)) (fun t => (t.dct.done, t.br.head)) =
      some (some (true, .none, 0), aaab, true, 6) := by decide +kernel

theorem test_decRun_nomatch :
    seen (exec .decRun (labDec [0x01, 0x61, 0x62, 0x02, 0x00, 0x02, 0x38, 0x06]))
      (fun t => (t.dct.candLen, t.dct.cand, t.ctl.cause)) = some (some (true, .nomatch, 0), [], 2, 3, .nomatch) := by
  decide +kernel

/-! ### The bench meets the invariant -/

theorem lab_inv : lab.Inv where
  params := ⟨by decide, by decide, by decide, by decide⟩
  memory := by decide
  ctl := Ctl.initial_inv
  fc := fun b => by simp [lab, State.resetWith, Fc.initial]
  ect := .inl rfl
  bw := Bw.initial_inv
  br := Br.initial_inv
  dct := Dct.initial_inv _

theorem counted_msg (msg : List Byte) : (counted msg).msg = msg := by
  have h : ∀ f : Fc, (msg.foldl (fun f b => f.push b) f).msg = f.msg ++ msg := by
    induction msg with
    | nil => intro f; simp
    | cons b bs ih => intro f; rw [List.foldl_cons, ih]; simp [Fc.push, Fc.append]
  exact (h Fc.initial).trans (by simp [Fc.initial])

theorem counted_inv {msg : List Byte} (h : msg.length ≤ 8) : (counted msg).Inv :=
  Fc.foldl_push_inv msg (fun b => by simp [Fc.initial]) (by simp [Fc.initial]; omega)

theorem labEnc_inv {msg : List Byte} {e : Table 32 → Ect} (h : msg.length ≤ 8) (he : ∀ f, (e f).Inv f) :
    (labEnc msg e).Inv where
  params := lab_inv.params
  memory := by
    have h1 : (counted msg).msg.length ≤ 8 := by rw [counted_msg]; exact h
    simp [Memory.wf, labEnc, lab, State.resetWith, Br.initial, h1]
  ctl := lab_inv.ctl
  fc := counted_inv h
  ect := he _
  bw := lab_inv.bw
  br := lab_inv.br
  dct := lab_inv.dct

theorem noTable_inv (f : Table 32) : (noTable f).Inv f := .inl rfl

theorem builtTable_inv (f : Table 32) : (builtTable f).Inv f := .inr (.inl rfl)

theorem assignedTable_inv (f : Table 32) : (assignedTable f).Inv f := .inr (.inr rfl)

theorem labBr_inv {r : Br} (hm : Memory.wf (lab.setBr r) = true) (hr : r.Inv) : (lab.setBr r).Inv := by
  have h := lab_inv.setBrDct hm hr (Dct.initial_inv r)
  exact h

/-- The counts of a bench message. -/
theorem counted_freq {msg : List Byte} (h : msg.length ≤ 8) (b : Byte) :
    (tableGet (counted msg).freq b.toNat).toNat = msg.count b := by
  rw [counted_inv h b, counted_msg]

theorem counted_alphabet {msg : List Byte} (h : msg.length ≤ 8) :
    alphabet (counted msg).freq = symbols.filter fun b => decide (0 < msg.count b) := by
  simp only [alphabet, counted_freq h]

theorem aaab_alphabet : alphabet (counted aaab).freq = [0x61, 0x62] := by
  rw [counted_alphabet (by decide)]; decide +kernel

theorem z_alphabet : alphabet (counted [0x7A]).freq = [0x7A] := by
  rw [counted_alphabet (by decide)]; decide +kernel

theorem aaab_lengths : ∀ b ∈ [(0x61 : Byte), 0x62], tableGet (lengthTable (counted aaab).freq) b.toNat = 1 := by
  intro b hb
  have hm : b ∈ alphabet (counted aaab).freq := by rw [aaab_alphabet]; exact hb
  have h := lengthOf_lengthTable_bound hm
  rw [aaab_alphabet] at h
  exact BitVec.eq_of_toNat_eq (Nat.le_antisymm h.2 h.1)

/-! ### Witnesses: a state and operands that meet the hypotheses of each statement, clause by clause -/

theorem witness_DecodeOfEncode :
    (Instr.rdreg 0x97FF).wellFormed = true ∧ (Instr.fcPush 0xFF).wellFormed = true ∧
      (Instr.bwBit true).wellFormed = true := by decide

theorem witness_EncodeOfDecode : decode 0x03A00700 = .command (.rdreg 0xA007) := by decide

theorem witness_IllegalWordsExactly :
    ∃ s e : State, s.port.inputs = [.word 0x03A00800] ∧ e.port.inputs = [.word 0x03A00800] ∧ IllegalWord 0x03A00800 ∧
      s.ctl.err = false ∧ e.ctl.err = true :=
  ⟨lab.issue 0x03A00800, labErr.issue 0x03A00800, rfl, rfl, by unfold IllegalWord; decide, rfl, rfl⟩

theorem witness_StepRunsDecodedCommand :
    (lab.issue 0x110000FF).port.inputs = .word 0x110000FF :: [] ∧ decode 0x110000FF = .command (.fcPush 0xFF) := by decide

theorem witness_PlacedWordRuns : (Instr.bwByte 0xFF).wellFormed = true := by decide

theorem witness_RunIsTheCommandSequence :
    (∀ i ∈ [Instr.bwBit true, .bwFinal], i.wellFormed = true) ∧
      ((lab.issue 0x23000000).issue 0x21000001).port.inputs =
        [Instr.bwBit true, .bwFinal].map (fun i => .word (encode i)) ++ [] := by decide

theorem witness_ThreeWaysToEnd :
    (∃ t, exec .brEnd lab = .next t ∧ t.ctl = lab.ctl) ∧
      (∃ t, exec .brEnd labErr = .next t ∧ labErr.ctl.err = true ∧ t.ctl = labErr.ctl) ∧
      ∃ t, exec .brBit lab = .next t ∧ lab.ctl.err = false ∧ t.ctl.cause = .sequence :=
  ⟨⟨_, rfl, rfl⟩, ⟨_, rfl, rfl, rfl⟩, ⟨_, rfl, rfl, rfl⟩⟩

theorem witness_ErrorBlocksCommands :
    (labErr.issue 0x32000000).port.inputs = [.word 0x32000000] ∧ labErr.ctl.err = true ∧
      (∀ i, decode 0x32000000 = .command i → i.runsOnError = false) ∧
      ∀ i, decode 0x04000000 = .command i → i.runsOnError = false := by
  refine ⟨rfl, rfl, fun i h => ?_, fun i h => ?_⟩
  · rw [show decode 0x32000000 = .command .brEnd by decide] at h; cases h; rfl
  · rw [show decode 0x04000000 = .illegal .unassignedOpcode by decide] at h; cases h

theorem witness_FirstErrorIsKept :
    ∃ t, step (labErr.issue 0x33000000) = .next t ∧ (labErr.issue 0x33000000).ctl.err = true ∧
      (∀ rest, (labErr.issue 0x33000000).port.inputs ≠ .resetInput :: rest) ∧
      ∀ w rest, (labErr.issue 0x33000000).port.inputs = .word w :: rest →
        decode w ≠ .command .errclr ∧ decode w ≠ .command .reset := by
  refine ⟨_, rfl, rfl, fun rest h => ?_, fun w rest h => ?_⟩
  · simp [State.issue] at h
  · simp only [State.issue, List.cons.injEq, HostInput.word.injEq] at h
    rw [← h.1]; decide

theorem witness_CausesPerCommand :
    ∃ t, Instr.wellFormed .brBit = true ∧ lab.Inv ∧ lab.ctl.err = false ∧ exec .brBit lab = .next t ∧
      t.ctl.err = true := ⟨_, by decide, lab_inv, rfl, rfl, rfl⟩

theorem witness_ErrorsArePrecise :
    (∃ t, lab.ctl.err = false ∧ exec .ccAssign lab = .next t ∧ t.ctl.err = true) ∧
      ∃ t, lab.ctl.err = false ∧ lab.Inv ∧ exec .decTable lab = .next t ∧ t.ctl.err = true :=
  ⟨⟨_, rfl, rfl, rfl⟩, ⟨_, rfl, lab_inv, rfl, rfl⟩⟩

theorem witness_ResetReturnsEveryField :
    (∃ s : State, s.port.inputs = [.resetInput]) ∧ ∃ s : State, s.port.inputs = [] :=
  ⟨⟨{ lab with port := { Port.initial with inputs := [.resetInput] } }, rfl⟩, ⟨lab, rfl⟩⟩

theorem witness_RdregReadsOneRegister :
    mappedAddr 0x0010 = true ∧ mappedAddr 0x10FF = true ∧ mappedAddr 0x57FF = true ∧ mappedAddr 0xA007 = true := by decide

theorem witness_TableBankRegisters : (7 : Nat) < 8 ∧ (31 : Nat) < 32 := by decide

theorem witness_FcClearStartsAnInput : ∃ s : State, s.ctl.err = false ∧ s.NoError ∧ s.bw.cnt = 0 := ⟨lab, rfl, rfl, rfl⟩

theorem witness_FcPushCountsAByte :
    (∃ s : State, s.Inv ∧ s.ctl.err = false ∧ s.ect.built = true) ∧
      (∃ s : State, s.Inv ∧ s.ctl.err = false ∧ s.ect.built = false ∧ s.fc.msg.length = s.params.msgCap) ∧
      ∃ s : State, s.Inv ∧ s.ctl.err = false ∧ s.ect.built = false ∧ s.fc.msg.length + 1 = s.params.msgCap :=
  ⟨⟨labEnc [] builtTable, labEnc_inv (by decide) builtTable_inv, rfl, rfl⟩,
    ⟨labEnc (List.replicate 8 0) noTable, labEnc_inv (by decide) noTable_inv, rfl, rfl, rfl⟩,
    ⟨labEnc (List.replicate 7 0) noTable, labEnc_inv (by decide) noTable_inv, rfl, rfl, rfl⟩⟩

theorem witness_FrequenciesCountTheMessage :
    ∃ s t : State, s.Inv ∧ step s = .next t ∧ t.fc.msg = aaab :=
  ⟨labEnc aaab noTable, _, labEnc_inv (by decide) noTable_inv, rfl, rfl⟩

theorem witness_PriorityOrderAndMerge :
    (∃ h rest : List HeapNode, ∃ m h2 b, heapPopMin h = some (m, rest) ∧ heapPopMin rest = some (b, h2) ∧
      m.weight = b.weight) ∧
      ∃ x : HeapNode, (leafNodes (counted aaab).freq)[1]? = some x :=
  ⟨⟨[⟨1, 1, .leaf 0x42⟩, ⟨1, 0, .leaf 0x41⟩], _, _, _, _, rfl, rfl, rfl⟩, by simp [leafNodes, aaab_alphabet]⟩

theorem witness_HtBuildWritesLengths :
    (labEnc aaab noTable).ctl.err = false ∧ (0x63 : Byte) ∉ alphabet (labEnc aaab noTable).fc.freq ∧
      2 ≤ (alphabet (labEnc aaab noTable).fc.freq).length ∧
      (labEnc [0x7A] noTable).ctl.err = false ∧ alphabet (labEnc [0x7A] noTable).fc.freq = [0x7A] := by
  refine ⟨rfl, ?_, ?_, rfl, z_alphabet⟩
  · show _ ∉ alphabet (counted aaab).freq
    rw [aaab_alphabet]; decide
  · show 2 ≤ (alphabet (counted aaab).freq).length
    rw [aaab_alphabet]; decide

theorem witness_HtBuildLengthsMeetKraft :
    (∃ s t : State, s.ctl.err = false ∧ exec .htBuild s = .next t ∧ 2 ≤ (alphabet s.fc.freq).length) ∧
      ∃ s t : State, s.ctl.err = false ∧ exec .htBuild s = .next t ∧ (alphabet s.fc.freq).length = 1 :=
  ⟨⟨labEnc aaab noTable, _, rfl, rfl, witness_HtBuildWritesLengths.2.2.1⟩,
    ⟨labEnc [0x7A] noTable, _, rfl, rfl, by rw [witness_HtBuildWritesLengths.2.2.2.2]; rfl⟩⟩

theorem witness_HtBuildLengthsAreOptimal :
    ∃ (s t : State) (L : Byte → Nat), s.ctl.err = false ∧ exec .htBuild s = .next t ∧
      (∀ x ∈ alphabet s.fc.freq, 1 ≤ L x) ∧ kraft L (alphabet s.fc.freq) ≤ 1 ∧ 2 ≤ (alphabet s.fc.freq).length := by
  refine ⟨labEnc aaab noTable, _, fun _ => 1, rfl, rfl, fun _ _ => le_rfl, ?_, witness_HtBuildWritesLengths.2.2.1⟩
  show kraft _ (alphabet (counted aaab).freq) ≤ 1
  rw [aaab_alphabet]; norm_num [kraft]

theorem witness_CcAssignWritesCodes :
    (∃ s : State, s.Inv ∧ s.ctl.err = false ∧ s.ect.built = false) ∧
      ∃ s : State, s.Inv ∧ s.ctl.err = false ∧ s.ect.built = true :=
  ⟨⟨lab, lab_inv, rfl, rfl⟩, ⟨labEnc aaab builtTable, labEnc_inv (by decide) builtTable_inv, rfl, rfl⟩⟩

theorem witness_CodesFitAndAreDistinguishable :
    ∃ (s : State) (x y : Byte), s.Inv ∧ s.ect.assigned = true ∧ x ≠ y ∧ tableGet s.ect.len x.toNat ≠ 0 ∧
      (tableGet s.ect.len x.toNat).toNat ≤ (tableGet s.ect.len y.toNat).toNat := by
  have h : ∀ b ∈ [(0x61 : Byte), 0x62], tableGet (labEnc aaab assignedTable).ect.len b.toNat = 1 := aaab_lengths
  refine ⟨labEnc aaab assignedTable, 0x61, 0x62, labEnc_inv (by decide) assignedTable_inv, rfl, by decide, ?_, ?_⟩
  · rw [h _ (by decide)]; decide
  · rw [h _ (by decide), h _ (by decide)]

theorem witness_HeaderFieldsListTheAlphabet : ∃ s : State, s.Inv ∧ s.ect.assigned = true ∧ s.fc.msg = aaab :=
  ⟨labEnc aaab assignedTable, labEnc_inv (by decide) assignedTable_inv, rfl, rfl⟩

theorem witness_BwBitWritesABit :
    (∃ s : State, s.ctl.err = false ∧ s.bw.cnt = 7) ∧ ∃ s : State, s.ctl.err = false ∧ s.bw.cnt ≠ 7 :=
  ⟨⟨lab.setBw { acc := 0x62, cnt := 7 }, rfl, rfl⟩, ⟨lab.setBw { acc := 0x22, cnt := 6 }, rfl, by decide⟩⟩

theorem witness_BwByteEmitsARawByte :
    (∃ s : State, s.ctl.err = false ∧ s.bw.cnt ≠ 0) ∧ ∃ s : State, s.ctl.err = false ∧ s.bw.cnt = 0 :=
  ⟨⟨lab.setBw { acc := 1, cnt := 1 }, rfl, by decide⟩, ⟨lab, rfl, rfl⟩⟩

theorem witness_BwClearDropsPendingBits : ∃ s : State, s.ctl.err = false ∧ s.bw.cnt = 7 :=
  ⟨lab.setBw { acc := 1, cnt := 7 }, rfl, rfl⟩

theorem witness_BwFinalEmitsTheTailMarker :
    (∃ s : State, s.ctl.err = false ∧ s.bw.cnt = 0) ∧ ∃ s : State, s.ctl.err = false ∧ s.bw.cnt ≠ 0 :=
  ⟨⟨lab, rfl, rfl⟩, ⟨lab.setBw { acc := 1, cnt := 7 }, rfl, by decide⟩⟩

theorem witness_TailMarkerIsRight :
    ∃ (s : State) (bits : List Bool), s.Inv ∧ s.ctl.err = false ∧ s.bw.cnt = 0 ∧ bits ≠ [] :=
  ⟨lab, [true], lab_inv, rfl, rfl, by decide⟩

/-- A queue of the bench that is sealed and read to the byte at `head`. -/
def labRead (q : List Byte) (head : Nat) (cur : Byte) (cnt : BitVec 4) : State :=
  lab.setBr { queue := q, head := head, cur := cur, cnt := cnt, sealed := true }

theorem labRead_inv {q : List Byte} {head : Nat} {cur : Byte} {cnt : BitVec 4} (hq : q.length ≤ 64)
    (hh : head ≤ q.length - 1) (hc : cnt.toNat ≤ 7) : (labRead q head cur cnt).Inv :=
  labBr_inv (by simp [Memory.wf, lab, State.resetWith, Fc.initial, hq, hh]) ⟨hc, fun h => by simp at h⟩

theorem witness_SignificantBitsLeft :
    (∃ s : State, s.Inv ∧ ¬ s.br.Readable) ∧
      (∃ s : State, s.Inv ∧ s.br.Readable ∧ s.br.head + 1 < s.br.queue.length ∧ s.br.queue.getLast?.getD 0 = 0) ∧
      ∃ s : State, s.Inv ∧ s.br.Readable ∧ ¬ s.br.head + 1 < s.br.queue.length ∧ s.br.cnt ≠ 0 :=
  ⟨⟨lab, lab_inv, fun h => by simp [Br.Readable, lab, State.resetWith, Br.initial] at h⟩,
    ⟨labRead [0xFF, 0x00] 0 0 0, labRead_inv (by decide) (by decide) (by decide), ⟨rfl, by decide, by decide⟩, by decide,
      rfl⟩,
    ⟨labRead [0xFF, 0x00] 1 0x7F 7, labRead_inv (by decide) (by decide) (by decide), ⟨rfl, by decide, by decide⟩,
      by decide, by decide⟩⟩

theorem witness_BrClearEmptiesTheQueue : ∃ s : State, s.ctl.err = false ∧ s.NoError ∧ s.br.queue ≠ [] :=
  ⟨labDec [0x01], rfl, rfl, by decide⟩

theorem witness_BrPushAppendsAByte :
    (∃ s : State, s.ctl.err = false ∧ s.br.sealed = true) ∧
      (∃ s : State, s.ctl.err = false ∧ s.br.sealed = false ∧ s.br.queue.length = s.params.qCap) ∧
      ∃ s : State, s.ctl.err = false ∧ s.br.sealed = false ∧ s.br.queue.length + 1 = s.params.qCap :=
  ⟨⟨labDec [], rfl, rfl⟩, ⟨lab.setBr { Br.initial with queue := List.replicate 64 0 }, rfl, rfl, rfl⟩,
    ⟨lab.setBr { Br.initial with queue := List.replicate 63 0 }, rfl, rfl, rfl⟩⟩

theorem witness_BrEndSealsTheQueue :
    (∃ s : State, s.ctl.err = false ∧ s.br.sealed = true) ∧
      (∃ s : State, s.ctl.err = false ∧ s.br.sealed = false ∧ 7 < (s.br.queue.getLast?.getD 0).toNat) ∧
      (∃ s : State, s.ctl.err = false ∧ s.br.sealed = false ∧ (s.br.queue.getLast?.getD 0).toNat = 7) ∧
      ∃ s : State, s.ctl.err = false ∧ s.br.sealed = false ∧ s.br.queue = [] ∧ (s.br.queue.getLast?.getD 0).toNat ≤ 7 :=
  ⟨⟨labDec [], rfl, rfl⟩, ⟨lab.setBr { Br.initial with queue := [0x08] }, rfl, rfl, by decide⟩,
    ⟨lab.setBr { Br.initial with queue := [0x07] }, rfl, rfl, by decide⟩, ⟨lab, rfl, rfl, rfl, by decide⟩⟩

theorem witness_BrBitReadsABit :
    (∃ s : State, s.ctl.err = false ∧ s.br.sealed = false) ∧
      (∃ s : State, s.ctl.err = false ∧ s.br.sealed = true ∧ s.br.queue = []) ∧
      (∃ s : State, s.ctl.err = false ∧ s.br.sealed = true ∧ s.br.queue ≠ [] ∧ 7 < s.br.mark.toNat) ∧
      (∃ s : State, s.ctl.err = false ∧ s.br.Readable ∧ s.br.cnt = 0 ∧ s.br.remaining = 0) ∧
      (∃ s : State, s.ctl.err = false ∧ s.br.Readable ∧ s.br.cnt ≠ 0 ∧ s.br.remaining = 0) ∧
      (∃ s : State, s.ctl.err = false ∧ s.br.Readable ∧ s.br.cnt = 0 ∧ s.br.remaining = 1) ∧
      ∃ s : State, s.ctl.err = false ∧ s.br.Readable ∧ s.br.cnt = 0 ∧ s.br.remaining = 2 :=
  ⟨⟨lab, rfl, rfl⟩, ⟨labDec [], rfl, rfl, rfl⟩, ⟨labDec [0x08], rfl, rfl, by decide, by decide⟩,
    ⟨labDec [0x07], rfl, ⟨rfl, by decide, by decide⟩, rfl, rfl⟩,
    ⟨labRead [0xFF, 0x00] 1 0x7F 7, rfl, ⟨rfl, by decide, by decide⟩, by decide, rfl⟩,
    ⟨labDec [0x05, 0x03], rfl, ⟨rfl, by decide, by decide⟩, rfl, rfl⟩,
    ⟨labDec [0xFF, 0x05, 0x03], rfl, ⟨rfl, by decide, by decide⟩, rfl, rfl⟩⟩

theorem witness_BrByteReadsARawByte :
    (∃ s : State, s.ctl.err = false ∧ s.br.sealed = false) ∧ (∃ s : State, s.ctl.err = false ∧ s.br.cnt ≠ 0) ∧
      (∃ s : State, s.ctl.err = false ∧ s.br.sealed = true ∧ s.br.cnt = 0 ∧ s.br.queue = []) ∧
      (∃ s : State, s.ctl.err = false ∧ s.br.sealed = true ∧ s.br.cnt = 0 ∧ s.br.queue ≠ [] ∧ 7 < s.br.mark.toNat) ∧
      (∃ s : State, s.ctl.err = false ∧ s.br.Readable ∧ s.br.cnt = 0 ∧ s.br.remaining = 0) ∧
      ∃ s : State, s.ctl.err = false ∧ s.br.Readable ∧ s.br.cnt = 0 ∧ s.br.remaining = 1 :=
  ⟨⟨lab, rfl, rfl⟩, ⟨labRead [0xFF, 0x00] 1 0x7F 7, rfl, by decide⟩, ⟨labDec [], rfl, rfl, rfl, rfl⟩,
    ⟨labDec [0x08], rfl, rfl, rfl, by decide, by decide⟩, ⟨labDec [0x07], rfl, ⟨rfl, by decide, by decide⟩, rfl, rfl⟩,
    ⟨labDec [0x7A, 0x00], rfl, ⟨rfl, by decide, by decide⟩, rfl, rfl⟩⟩

theorem aaab_holdsBits : HoldsBits [0x22] [false, true, false, false, false, true] :=
  ⟨rfl, by decide⟩

theorem witness_ReaderAgreesWithWriter :
    ∃ (s : State) (raw data : List Byte) (bits : List Bool) (marker : Byte), s.ctl.err = false ∧ s.br.sealed = true ∧
      s.br.head = 0 ∧ s.br.cnt = 0 ∧ s.br.queue = raw ++ data ++ [marker] ∧ bits ≠ [] ∧ HoldsBits data bits ∧
      marker.toNat = bits.length % 8 :=
  ⟨labDec aaabStream, [0x01, 0x61, 0x62, 0x01, 0x02], [0x22], [false, true, false, false, false, true], 0x06, rfl, rfl,
    rfl, rfl, rfl, by decide, aaab_holdsBits, rfl⟩

theorem witness_EncEmitWritesTheWireFormat :
    (∃ s : State, s.Inv ∧ s.ctl.err = false ∧ s.ect.assigned = false) ∧
      (∃ s : State, s.Inv ∧ s.ctl.err = false ∧ s.ect.assigned = true ∧ s.fc.msg = []) ∧
      (∃ s : State, s.Inv ∧ s.ctl.err = false ∧ s.ect.assigned = true ∧ s.fc.msg ≠ [] ∧ s.bw.cnt ≠ 0) ∧
      ∃ s : State, s.Inv ∧ s.ctl.err = false ∧ s.ect.assigned = true ∧ s.fc.msg ≠ [] ∧ s.bw.cnt = 0 :=
  ⟨⟨lab, lab_inv, rfl, rfl⟩, ⟨labEnc [] assignedTable, labEnc_inv (by decide) assignedTable_inv, rfl, rfl, rfl⟩,
    ⟨(labEnc aaab assignedTable).setBw { acc := 0, cnt := 1 },
      (labEnc_inv (by decide) assignedTable_inv).setBw fun k _ => by simp, rfl, rfl, by decide, by decide⟩,
    ⟨labEnc aaab assignedTable, labEnc_inv (by decide) assignedTable_inv, rfl, rfl, by decide, rfl⟩⟩

theorem witness_EncRunIsItsThreeParts :
    (∃ s : State, s.ctl.err = false ∧ s.fc.msg = [] ∧ s.bw.cnt ≠ 0) ∧
      (∃ s : State, s.ctl.err = false ∧ s.fc.msg ≠ [] ∧ s.bw.cnt = 0) ∧
      ∃ s : State, s.ctl.err = false ∧ s.fc.msg ≠ [] ∧ s.bw.cnt ≠ 0 :=
  ⟨⟨lab.setBw { acc := 1, cnt := 1 }, rfl, rfl, by decide⟩, ⟨labEnc aaab noTable, rfl, by decide, rfl⟩,
    ⟨(labEnc aaab noTable).setBw { acc := 1, cnt := 1 }, rfl, by decide, by decide⟩⟩

theorem witness_EmptyInputEmptyStream : ∃ s : State, s.ctl.err = false ∧ s.br.sealed = true ∧ s.br.queue = [] :=
  ⟨labDec [], rfl, rfl, rfl⟩

theorem readable_of {q : List Byte} (h : q ≠ []) (hm : (sealedBr q).mark.toNat ≤ 7) : (labDec q).br.Readable :=
  ⟨rfl, h, hm⟩

/-- "aaab", and the header whose count of 256 is written as 0, with 256 codes of eight zeros (R291, DEC-11). -/
theorem witness_DecTableReadsTheTable :
    ∀ p : List Byte × List Byte × List Byte × Byte × List (Nat × Nat) × List Bool,
      p = ([0x61, 0x62], [2], [0x22], 1, [(1, 0), (1, 1)], [false, false, false, true]) ∨
        p = (symbols, List.replicate 8 0, List.replicate 256 0, 8, List.replicate 256 (8, 0), []) →
      ∃ (s : State) (sig : Byte), let A := p.1; let C := p.2.1; let D := p.2.2.1; let m := p.2.2.2.1
        let codes := p.2.2.2.2.1; let rest := p.2.2.2.2.2
        s = labDec (BitVec.ofNat 8 (A.length - 1) :: (A ++ m :: (C ++ D)) ++ [sig]) ∧ s.br.Readable ∧ s.br.cnt = 0 ∧
        s.br.dataBytes = BitVec.ofNat 8 (A.length - 1) :: (A ++ m :: (C ++ D)) ∧
        1 ≤ A.length ∧ A.length ≤ 256 ∧ m ≠ 0 ∧ C.length = m.toNat ∧
        ((List.range' 1 m.toNat).map (headerCount A.length m C)).sum = A.length ∧
        codes.map Prod.fst = (List.range' 1 m.toNat).flatMap (fun l => List.replicate (headerCount A.length m C l) l) ∧
        (∀ c ∈ codes, c.2 < 2 ^ c.1) ∧ unpackBytes s.br.sig D = codes.flatMap bitsOf ++ rest := by
  rintro p (rfl | rfl)
  · refine ⟨_, 6, rfl, readable_of (by decide) (by decide), rfl, by decide, ?_⟩
    refine ⟨by decide, by decide, by decide, by decide, ?_, ?_, by decide, ?_⟩ <;> decide +kernel
  · refine ⟨_, 0, rfl, readable_of (List.cons_ne_nil _ _) (by decide +kernel), rfl, by decide +kernel, ?_⟩
    refine ⟨?_, ?_, by decide, by decide, ?_, ?_, ?_, ?_⟩ <;> decide +kernel

theorem witness_DecTableChecksTheHeader :
    (∃ (s : State) (A C D : List Byte) (m : Byte), s.ctl.err = false ∧ s.br.Readable ∧ s.br.cnt = 0 ∧
      s.br.dataBytes = BitVec.ofNat 8 (A.length - 1) :: (A ++ m :: (C ++ D)) ∧ 1 ≤ A.length ∧ A.length ≤ 256 ∧
      C.length = m.toNat ∧ m = 0) ∧
      ∃ (s : State) (A C D : List Byte) (m : Byte), s.ctl.err = false ∧ s.br.Readable ∧ s.br.cnt = 0 ∧
        s.br.dataBytes = BitVec.ofNat 8 (A.length - 1) :: (A ++ m :: (C ++ D)) ∧ 1 ≤ A.length ∧ A.length ≤ 256 ∧
        C.length = m.toNat ∧ ((List.range' 1 m.toNat).map (headerCount A.length m C)).sum ≠ A.length :=
  ⟨⟨labDec [0x00, 0x61, 0x00, 0x00], [0x61], [], [], 0, rfl, readable_of (by decide) (by decide), rfl, by decide,
      by decide, by decide, by decide, rfl⟩,
    ⟨labDec [0x01, 0x61, 0x62, 0x01, 0x01, 0x22, 0x06], [0x61, 0x62], [1], [0x22], 1, rfl,
      readable_of (by decide) (by decide), rfl, by decide, by decide, by decide, by decide, by decide⟩⟩

theorem witness_DecTableErrors :
    (∃ s : State, s.ctl.err = false ∧ s.br.sealed = false) ∧
      (∃ s : State, s.ctl.err = false ∧ s.br.sealed = true ∧ s.br.cnt ≠ 0) ∧
      (∃ s : State, s.ctl.err = false ∧ s.br.sealed = true ∧ s.br.cnt = 0 ∧ s.br.queue = []) ∧
      (∃ s : State, s.ctl.err = false ∧ s.br.sealed = true ∧ s.br.cnt = 0 ∧ s.br.queue ≠ [] ∧ 7 < s.br.mark.toNat) ∧
      (∃ s : State, s.ctl.err = false ∧ s.br.Readable ∧ s.br.cnt = 0 ∧ s.br.dataBytes = []) ∧
      (∀ xs : List Byte, xs = [0x61] ∨ xs = [0x61, 0x62] ∨ xs = [0x61, 0x62, 0x02, 0x01] →
        ∃ s : State, s.ctl.err = false ∧ s.br.Readable ∧ s.br.cnt = 0 ∧ s.br.dataBytes = 0x01 :: xs ∧
          xs.length < (0x01 : Byte).toNat + 2 + (xs.getD ((0x01 : Byte).toNat + 1) 0).toNat) ∧
      ∀ D : List Byte, D = [] ∨ D = [0x02] →
        ∃ (s : State) (A C : List Byte) (m : Byte), s.ctl.err = false ∧ s.br.Readable ∧ s.br.cnt = 0 ∧
          s.br.dataBytes = BitVec.ofNat 8 (A.length - 1) :: (A ++ m :: (C ++ D)) ∧ 1 ≤ A.length ∧ A.length ≤ 256 ∧
          m ≠ 0 ∧ C.length = m.toNat ∧ ((List.range' 1 m.toNat).map (headerCount A.length m C)).sum = A.length ∧
          (unpackBytes s.br.sig D).length <
            ((List.range' 1 m.toNat).map fun l => l * headerCount A.length m C l).sum := by
  refine ⟨⟨lab, rfl, rfl⟩, ⟨labRead [0xFF, 0x00] 1 0x7F 7, rfl, rfl, by decide⟩, ⟨labDec [], rfl, rfl, rfl, rfl⟩,
    ⟨labDec [0x08], rfl, rfl, rfl, by decide, by decide⟩,
    ⟨labDec [0x00], rfl, readable_of (by decide) (by decide), rfl, rfl⟩, fun xs h => ?_, fun D h => ?_⟩
  · rcases h with rfl | rfl | rfl
    · exact ⟨labDec [0x01, 0x61, 0x00], rfl, readable_of (by decide) (by decide), rfl, by decide, by decide⟩
    · exact ⟨labDec [0x01, 0x61, 0x62, 0x00], rfl, readable_of (by decide) (by decide), rfl, by decide, by decide⟩
    · exact ⟨labDec [0x01, 0x61, 0x62, 0x02, 0x01, 0x00], rfl, readable_of (by decide) (by decide), rfl, by decide,
        by decide⟩
  · rcases h with rfl | rfl
    · exact ⟨labDec [0x01, 0x61, 0x62, 0x01, 0x02, 0x00], [0x61, 0x62], [2], 1, rfl,
        readable_of (by decide) (by decide), rfl, by decide, by decide, by decide, by decide, by decide, by decide,
        by decide⟩
    · exact ⟨labDec [0x01, 0x61, 0x62, 0x01, 0x02, 0x02, 0x01], [0x61, 0x62], [2], 1, rfl,
        readable_of (by decide) (by decide), rfl, by decide, by decide, by decide, by decide, by decide, by decide,
        by decide⟩

/-- The decoder of "aaab" in the middle of its stream: one bit left, and one bit more than a match takes. -/
def labSym (cur : Byte) (cnt : BitVec 4) : State := (labRead aaabStream 6 cur cnt).setDct aaabDct

theorem aaab_code (b : Bool) (i : Nat) : aaabDct.HasCode [b] i ↔ i = b.toNat := by
  simp only [Dct.HasCode]
  have hs : aaabDct.asize.toNat = 2 := rfl
  constructor
  · rintro ⟨h1, -, -, h4⟩
    have h5 := h4 0 Nat.one_pos
    rw [hs] at h1
    interval_cases i <;> cases b <;> first | rfl | (exfalso; revert h5; decide +kernel)
  · rintro rfl
    cases b <;> decide +kernel

theorem witness_DecSymDecodesASymbol :
    (∃ s : State, s.ctl.err = false ∧ s.dct.ready = false) ∧
      (∃ s : State, s.ctl.err = false ∧ s.dct.ready = true ∧ s.br.avail = 0) ∧
      ∃ (s : State) (P rest : List Bool) (i : Nat), s.ctl.err = false ∧ s.dct.ready = true ∧ s.br.Readable ∧
        s.br.pendingBits = P ++ rest ∧ P ≠ [] ∧ P.length ≤ s.dct.maxlen.toNat ∧ s.dct.HasCode P i ∧
        (∀ j, j < i → ¬ s.dct.HasCode P j) ∧ ∀ n j, 0 < n → n < P.length → ¬ s.dct.HasCode (P.take n) j := by
  refine ⟨⟨lab, rfl, rfl⟩, ⟨labSym 0 0, rfl, rfl, by decide⟩,
    ⟨labSym 1 1, [true], [], 1, rfl, rfl, ⟨rfl, by decide, by decide⟩, by decide, by decide, by decide,
      (aaab_code true 1).mpr rfl, fun j hj h => ?_, fun n j h1 h2 => ?_⟩⟩
  · have := (aaab_code true j).mp h; simp at this; omega
  · simp at h2; omega

/-- A table of one code. -/
def oneDct (l : Byte) (c : Code) : Dct :=
  { Dct.initial with
    ready := true
    asize := 1
    maxlen := l
    len := tableSet (Table.zero 8) 0 l
    code := tableSet (Table.zero 255) 0 c }

theorem oneDct_len {l : Byte} {c : Code} {P : List Bool} {i : Nat} (h : (oneDct l c).HasCode P i) :
    P.length = l.toNat ∧ ∀ k, k < P.length → c.getLsbD (P.length - 1 - k) = P.getD k false := by
  obtain ⟨h1, h2, -, h4⟩ := h
  have h0 : i = 0 := by have : i < 1 := h1; omega
  subst h0
  have e1 : tableGet (oneDct l c).len 0 = l := tableGet_tableSet_same _ _ (by decide)
  have e2 : tableGet (oneDct l c).code 0 = c := tableGet_tableSet_same _ _ (by decide)
  rw [e1] at h2
  rw [e2] at h4
  exact ⟨h2.symm, h4⟩

theorem witness_DecSymFindsACorruptStream :
    (∃ (s : State) (P rest : List Bool), s.ctl.err = false ∧ s.dct.ready = true ∧ s.br.Readable ∧
      s.br.pendingBits = P ++ rest ∧ P ≠ [] ∧ P.length ≤ s.dct.maxlen.toNat ∧
      (∀ n j, 0 < n → n ≤ P.length → ¬ s.dct.HasCode (P.take n) j) ∧ P.length = s.dct.maxlen.toNat) ∧
      ∃ (s : State) (P rest : List Bool), s.ctl.err = false ∧ s.dct.ready = true ∧ s.br.Readable ∧
        s.br.pendingBits = P ++ rest ∧ P ≠ [] ∧ P.length ≤ s.dct.maxlen.toNat ∧
        (∀ n j, 0 < n → n ≤ P.length → ¬ s.dct.HasCode (P.take n) j) ∧ P.length < s.dct.maxlen.toNat ∧ rest = [] := by
  refine ⟨⟨(labRead aaabStream 6 0 1).setDct (oneDct 1 1), [false], [], rfl, rfl, ⟨rfl, by decide, by decide⟩, by decide,
      by decide, by decide, fun n j h1 h2 h => ?_, rfl⟩,
    ⟨(labRead aaabStream 6 1 1).setDct (oneDct 2 3), [true], [], rfl, rfl, ⟨rfl, by decide, by decide⟩, by decide,
      by decide, by decide, fun n j h1 h2 h => ?_, by decide, rfl⟩⟩
  · have hn : n = 1 := by simp at h2; omega
    subst hn
    have := (oneDct_len h).2 0 (by decide)
    revert this; decide
  · have hn : n = 1 := by simp at h2; omega
    subst hn
    have := (oneDct_len h).1
    revert this; decide

theorem witness_DecRunIsTableThenSymbols :
    (∃ s : State, s.ctl.err = false ∧ s.br.sealed = false) ∧
      ∃ s : State, s.ctl.err = false ∧ s.br.sealed = true ∧ s.br.queue ≠ [] :=
  ⟨⟨lab, rfl, rfl⟩, ⟨labDec [0x00], rfl, rfl, by decide⟩⟩

theorem witness_DecRunDecodesAStream :
    ∃ (s : State) (A C D : List Byte) (m : Byte) (codes : List (Nat × Nat)) (positions : List Nat),
      s.ctl.err = false ∧ s.br.Readable ∧ s.br.cnt = 0 ∧
      s.br.dataBytes = BitVec.ofNat 8 (A.length - 1) :: (A ++ m :: (C ++ D)) ∧
      1 ≤ A.length ∧ A.length ≤ 256 ∧ m ≠ 0 ∧ C.length = m.toNat ∧
      ((List.range' 1 m.toNat).map (headerCount A.length m C)).sum = A.length ∧
      codes.map Prod.fst = (List.range' 1 m.toNat).flatMap (fun l => List.replicate (headerCount A.length m C l) l) ∧
      (∀ c ∈ codes, c.2 < 2 ^ c.1) ∧
      (∀ i j, i < A.length → j < A.length → i ≠ j → ¬ bitsOf (codes.getD i (0, 0)) <+: bitsOf (codes.getD j (0, 0))) ∧
      (∀ i ∈ positions, i < A.length) ∧
      unpackBytes s.br.sig D = codes.flatMap bitsOf ++ positions.flatMap (fun i => bitsOf (codes.getD i (0, 0))) := by
  refine ⟨labDec aaabStream, [0x61, 0x62], [2], [0x22], 1, [(1, 0), (1, 1)], [0, 0, 0, 1], rfl,
    readable_of (by decide) (by decide), rfl, by decide, by decide, by decide, by decide, by decide, by decide +kernel,
    by decide +kernel, by decide, fun i j hi hj hne => ?_, by decide, by decide⟩
  have hi' : i < 2 := hi
  have hj' : j < 2 := hj
  interval_cases i <;> interval_cases j <;> first | exact absurd rfl hne | decide

theorem witness_RoundTrip :
    ∃ (s : State) (S : List Byte), s.Inv ∧ s.ctl.err = false ∧ s.bw.cnt = 0 ∧ S.length = s.params.msgCap :=
  ⟨lab, List.replicate 8 0xFF, lab_inv, rfl, rfl, rfl⟩

theorem witness_InvariantAtReset :
    Params.Admissible { msgCap := 1, qCap := 2 } ∧ Params.Admissible { msgCap := 2 ^ 32 - 1, qCap := 2 ^ 28 - 1 } := by
  unfold Params.Admissible; decide

theorem witness_EveryStepKeepsTheInvariant : ∃ s t : State, s.Inv ∧ step s = .next t ∧ s.port.inputs = [] :=
  ⟨lab, _, lab_inv, rfl, rfl⟩

theorem witness_EveryStepKeepsMemoryForm :
    ∃ s t : State, Memory.wf s = true ∧ step s = .next t ∧ s.br.head + 1 = s.br.queue.length ∧ s.port.inputs ≠ [] :=
  ⟨(labRead [0xFF, 0x00] 1 0 0).issue 0x34000000, _, by decide, rfl, rfl, by decide⟩

theorem witness_BuffersAppendAndSinkGrows : ∃ t, step (lab.issue 0x31000001) = .next t ∧ t.br.queue = [0x01] :=
  ⟨_, rfl, rfl⟩

theorem witness_SidesWriteDisjointFields :
    (∃ t, exec .bwFinal lab = .next t ∧ Instr.bwFinal.encoderSide = true) ∧
      ∃ t, exec .brEnd lab = .next t ∧ Instr.brEnd.decoderSide = true :=
  ⟨⟨_, rfl, rfl⟩, ⟨_, rfl, rfl⟩⟩

theorem witness_SidesAreIndependent :
    (∃ s s' t t' : State, s'.params = s.params ∧ s'.ctl = s.ctl ∧ exec .bwFinal s = .next t ∧
      exec .bwFinal s' = .next t' ∧ Instr.bwFinal.encoderSide = true ∧ s'.fc = s.fc ∧ s'.ect = s.ect ∧ s'.bw = s.bw ∧
      s'.br ≠ s.br) ∧
      ∃ s s' t t' : State, s'.params = s.params ∧ s'.ctl = s.ctl ∧ exec .brEnd s = .next t ∧
        exec .brEnd s' = .next t' ∧ Instr.brEnd.decoderSide = true ∧ s'.br = s.br ∧ s'.dct = s.dct ∧ s'.bw ≠ s.bw :=
  ⟨⟨lab, labDec [0x01], _, _, rfl, rfl, rfl, rfl, rfl, rfl, rfl, rfl, by decide⟩,
    ⟨lab, lab.setBw { acc := 1, cnt := 1 }, _, _, rfl, rfl, rfl, rfl, rfl, rfl, rfl, by decide⟩⟩

end Sys2Proof.Tests
end

section
/-! What a step may do to the sink's record and to the two byte buffers (00_scope.md R7, 10_state.md R46, 20_memory.md R91):
first for each command's body, then for the command with its response, then for the step. -/

namespace Sys2Proof.Machine

/-- A byte buffer stays, is emptied, or takes one byte at its end (R91). -/
def BufferMoves (xs ys : List Byte) : Prop := ys = xs ∨ ys = [] ∨ ∃ b, ys = xs ++ [b]

theorem BufferMoves.of_eq {xs ys : List Byte} (h : ys = xs) : BufferMoves xs ys := .inl h

theorem BufferMoves.cleared (xs : List Byte) : BufferMoves xs [] := .inr (.inl rfl)

theorem BufferMoves.append (xs : List Byte) (b : Byte) : BufferMoves xs (xs ++ [b]) := .inr (.inr ⟨b, rfl⟩)

/-- What any step may do to the parameters, the sink's record and the buffers. -/
structure MemoryMoves (s t : State) : Prop where
  params : t.params = s.params
  out    : s.port.out <+: t.port.out
  msg    : BufferMoves s.fc.msg t.fc.msg
  queue  : BufferMoves s.br.queue t.br.queue

theorem MemoryMoves.refl (s : State) : MemoryMoves s s := ⟨rfl, List.prefix_refl _, .of_eq rfl, .of_eq rfl⟩

theorem MemoryMoves.resetFields (s : State) : MemoryMoves s s.resetFields :=
  ⟨rfl, List.prefix_refl _, .cleared _, .cleared _⟩

/-- A response touches none of them. -/
theorem MemoryMoves.answer {s u : State} (h : MemoryMoves s u) (r : Response) : MemoryMoves s (u.answer r) :=
  ⟨h.params, h.out, h.msg, h.queue⟩

/-- Recording or clearing an error touches none of them. -/
theorem MemoryMoves.setCtl {s u : State} (h : MemoryMoves s u) (c : Ctl) : MemoryMoves s (u.setCtl c) :=
  ⟨h.params, h.out, h.msg, h.queue⟩

/-- Taking the host's input touches none of them. -/
theorem MemoryMoves.of_withInputs {s t : State} {rest : List HostInput} (h : MemoryMoves (s.withInputs rest) t) :
    MemoryMoves s t :=
  ⟨h.params, h.out, h.msg, h.queue⟩

theorem MemoryMoves.illegalWord (s : State) : MemoryMoves s s.illegalWord := by
  unfold State.illegalWord
  split
  · exact (MemoryMoves.refl s).answer _
  · exact ((MemoryMoves.refl s).setCtl _).answer _

/-! ### The encoder side: only FC.CLEAR and FC.PUSH touch the message -/

/-- Parts that leave the frequency counter alone, one after another, leave it alone. -/
theorem Flow.bind_fc {α β : Type} {s : State} {m : Flow α} {k : α → State → Flow β} (hm : m.state.fc = s.fc)
    (hk : ∀ a s1, (k a s1).state.fc = s1.fc) : (m.bind k).state.fc = s.fc := by
  cases m with
  | done a s1 => exact (hk a s1).trans hm
  | raised c s1 => exact hm

theorem bwWriteByte_fc (b : Byte) (s : State) : (bwWriteByte b s).state.fc = s.fc := by
  unfold bwWriteByte
  split <;> rfl

theorem bwWriteBytes_fc (bs : List Byte) (s : State) : (bwWriteBytes bs s).state.fc = s.fc := by
  induction bs generalizing s with
  | nil => rfl
  | cons b bs ih => exact Flow.bind_fc (bwWriteByte_fc b s) fun _ s1 => ih s1

theorem ccAssign_fc (s : State) : (ccAssign s).state.fc = s.fc := by
  unfold ccAssign
  split <;> rfl

theorem encEmit_fc (s : State) : (encEmit s).state.fc = s.fc := by
  unfold encEmit
  split
  · rfl
  · split
    · rfl
    · exact Flow.bind_fc (bwWriteBytes_fc _ s) fun _ _ => rfl

theorem encRun_fc (s : State) : (encRun s).state.fc = s.fc :=
  Flow.bind_fc (m := htBuild s) rfl fun _ s1 => Flow.bind_fc (ccAssign_fc s1) fun _ s2 => encEmit_fc s2

theorem fcPush_msg (b : Byte) (s : State) : BufferMoves s.fc.msg (fcPush b s).state.fc.msg := by
  unfold fcPush
  split
  · exact .of_eq rfl
  · split
    · exact .of_eq rfl
    · exact .append _ b

theorem body_msg_of_encoderSide {i : Instr} (h : i.encoderSide = true) (s : State) :
    BufferMoves s.fc.msg (i.body s).state.fc.msg := by
  cases i with
  | fcClear => exact .cleared _
  | fcPush b => exact fcPush_msg b s
  | ccAssign => exact .of_eq (congrArg Fc.msg (ccAssign_fc s))
  | encEmit => exact .of_eq (congrArg Fc.msg (encEmit_fc s))
  | encRun => exact .of_eq (congrArg Fc.msg (encRun_fc s))
  | bwByte b => exact .of_eq (congrArg Fc.msg (Flow.bind_fc (bwWriteByte_fc b s) fun _ _ => rfl))
  | htBuild | bwClear | bwBit _ | bwFinal => exact .of_eq rfl
  | _ => cases h

/-! ### The decoder side: only BR.CLEAR and BR.PUSH touch the queue -/

theorem brPush_queue (b : Byte) (s : State) : BufferMoves s.br.queue (brPush b s).state.br.queue := by
  unfold brPush
  split
  · exact .of_eq rfl
  · split
    · exact .of_eq rfl
    · exact .append _ b

theorem brEnd_queue (s : State) : (brEnd s).state.br.queue = s.br.queue := by
  unfold brEnd
  split
  · rfl
  · split <;> rfl

theorem brBit_state (s : State) : DecodesOnly s (brBit s).state :=
  Flow.bind_decodesOnly (brReadBit_state s).decodesOnly fun _ s1 => .refl s1

theorem brByte_state (s : State) : DecodesOnly s (brByte s).state :=
  Flow.bind_decodesOnly (brReadByte_state s).decodesOnly fun _ s1 => .refl s1

theorem decTable_state (s : State) : DecodesOnly s (decTable s).state := by
  unfold decTable
  split
  · exact .refl s
  · exact Flow.bind_decodesOnly (decReadTable_state s).decodesOnly fun _ s1 => .refl s1

theorem decSym_state (s : State) : DecodesOnly s (decSym s).state := by
  unfold decSym
  split
  · exact .refl s
  · refine Flow.bind_decodesOnly (decDecodeSymbol_state s) fun r s1 => ?_
    cases r with
    | none => exact .refl s1
    | some v => exact .refl s1

theorem decRun_state (s : State) : DecodesOnly s (decRun s).state := by
  unfold decRun
  split
  · exact .refl s
  · split
    · exact .setDct s _
    · exact Flow.bind_decodesOnly (decReadTable_state s).decodesOnly fun _ s1 =>
        Flow.bind_decodesOnly (decSymbols_state _ s1) fun _ s2 => .refl s2

theorem body_queue_of_decoderSide {i : Instr} (h : i.decoderSide = true) (s : State) :
    BufferMoves s.br.queue (i.body s).state.br.queue := by
  cases i with
  | brClear => exact .cleared _
  | brPush b => exact brPush_queue b s
  | brEnd => exact .of_eq (brEnd_queue s)
  | brBit => exact .of_eq (brBit_state s).queue
  | brByte => exact .of_eq (brByte_state s).queue
  | decTable => exact .of_eq (decTable_state s).queue
  | decSym => exact .of_eq (decSym_state s).queue
  | decRun => exact .of_eq (decRun_state s).queue
  | _ => cases h

/-! ### Commands and steps -/

/-- A command of either side moves at most its own side's buffer. -/
theorem body_memoryMoves {i : Instr} (h : i.encoderSide = true ∨ i.decoderSide = true) (s : State) :
    MemoryMoves s (i.body s).state := by
  rcases h with he | hd
  · have frame := body_encoderOnly he s
    exact ⟨frame.params, frame.out, body_msg_of_encoderSide he s, .of_eq (congrArg Br.queue frame.br)⟩
  · have frame := body_decoderOnly hd s
    exact ⟨frame.params, frame.out, .of_eq (congrArg Fc.msg frame.fc), body_queue_of_decoderSide hd s⟩

theorem exec_memoryMoves {i : Instr} {s t : State} (h : exec i s = .next t) : MemoryMoves s t := by
  rcases exec_cases h with ⟨-, -, rfl⟩ | ⟨-, rfl⟩ | ⟨-, rfl⟩ | ⟨-, rfl⟩ | ⟨a, r, -, -, rfl⟩ |
    ⟨-, side, d, u, hb, rfl⟩ | ⟨-, side, c, u, -, hb, rfl⟩ | ⟨-, -, rfl⟩
  · exact (MemoryMoves.refl s).answer _
  · exact (MemoryMoves.refl s).answer _
  · exact (MemoryMoves.resetFields s).answer _
  · exact ((MemoryMoves.refl s).setCtl _).answer _
  · exact (MemoryMoves.refl s).answer _
  · have moves := body_memoryMoves side s
    rw [hb] at moves
    exact moves.answer _
  · have moves := body_memoryMoves side s
    rw [hb] at moves
    exact (moves.setCtl _).answer _
  · exact ((MemoryMoves.refl s).setCtl _).answer _

theorem step_memoryMoves {s t : State} (h : step s = .next t) : MemoryMoves s t := by
  obtain ⟨-, rfl⟩ | ⟨rest, ⟨-, rfl⟩ | ⟨w, -, ⟨why, -, rfl⟩ | ⟨i, -, hx⟩⟩⟩ := step_cases h
  · exact .refl t
  · exact (MemoryMoves.resetFields _).of_withInputs
  · exact (MemoryMoves.illegalWord _).of_withInputs
  · exact (exec_memoryMoves hx).of_withInputs

end Sys2Proof.Machine

namespace Sys2Proof

open Machine

/-- Settles O58: waiting and an illegal word leave the buffers, a reset empties both, and a command of one side leaves the
other side's buffer and clears its own or appends to it at most once. -/
theorem buffersAppendAndSinkGrows : Obligations.BuffersAppendAndSinkGrows := by
  intro s t h
  obtain ⟨hparams, hout, hmsg, hqueue⟩ := step_memoryMoves h
  exact ⟨hparams, hout, hmsg, hqueue⟩

end Sys2Proof
end

section
/-! The machine's invariant and the form of its byte buffers along a step (10_state.md R33 to R45): what a property must be kept by
to be kept by every step, said once, and the two properties' proofs. -/

namespace Sys2Proof.Machine

/-! ### What every step keeps -/

/-- P is kept by each thing a step is made of: the host's input taken, the reset of the fields, a response, the return from an
error, an error raised, and the body of a command of either side. -/
structure KeptByParts (P : State → Prop) : Prop where
  withInputs : ∀ {s} rest, P s → P (s.withInputs rest)
  resetFields : ∀ {s}, P s → P s.resetFields
  answer : ∀ {s} r, P s → P (s.answer r)
  clearError : ∀ {s}, P s → P s.clearError
  raise : ∀ {s c}, c ≠ .none → P s → P (s.raise c)
  body : ∀ {s} {i : Instr}, i.encoderSide = true ∨ i.decoderSide = true → P s → P (i.body s).state

theorem KeptByParts.illegalWord {P : State → Prop} (hP : KeptByParts P) {s : State} (h : P s) : P s.illegalWord := by
  unfold State.illegalWord
  split
  · exact hP.answer _ h
  · exact hP.raise (by decide) h

theorem KeptByParts.exec {P : State → Prop} (hP : KeptByParts P) {i : Instr} {s t : State} (h : P s)
    (ht : exec i s = .next t) : P t := by
  rcases exec_cases ht with ⟨-, -, rfl⟩ | ⟨-, rfl⟩ | ⟨-, rfl⟩ | ⟨-, rfl⟩ | ⟨a, r, -, -, rfl⟩ |
    ⟨-, side, d, u, hb, rfl⟩ | ⟨-, side, c, u, hc, hb, rfl⟩ | ⟨-, -, rfl⟩
  · exact hP.answer _ h
  · exact hP.answer _ h
  · exact hP.answer _ (hP.resetFields h)
  · exact hP.answer _ (hP.clearError h)
  · exact hP.answer _ h
  · have hu := hP.body side h
    rw [hb] at hu
    exact hP.answer _ hu
  · have hu := hP.body side h
    rw [hb] at hu
    exact hP.raise hc hu
  · exact hP.raise (by decide) h

/-- What the parts of a step keep, every step keeps. -/
theorem KeptByParts.step {P : State → Prop} (hP : KeptByParts P) {s t : State} (h : P s) (ht : step s = .next t) : P t := by
  obtain ⟨-, rfl⟩ | ⟨rest, ⟨-, rfl⟩ | ⟨w, -, ⟨why, -, rfl⟩ | ⟨i, -, hx⟩⟩⟩ := step_cases ht
  · exact h
  · exact hP.resetFields (hP.withInputs rest h)
  · exact hP.illegalWord (hP.withInputs rest h)
  · exact hP.exec (hP.withInputs rest h) hx

/-! ### The invariant -/

theorem Flow.Keeps.inv {m : Flow Word} {cs : List Cause} (h : m.Keeps cs) : m.state.Inv := by
  cases m with
  | done d t => exact h
  | raised c t => exact h.2

/-- The body of a command of either side keeps the invariant, and raises only the command's causes. -/
theorem body_keeps {i : Instr} (side : i.encoderSide = true ∨ i.decoderSide = true) {s : State} (h : s.Inv) :
    (i.body s).Keeps i.mayRaise := by
  cases i with
  | nop | reset | errclr | rdreg _ => cases side <;> contradiction
  | fcClear => exact fcClear_keeps h _
  | fcPush b => exact fcPush_keeps h b
  | htBuild => exact htBuild_keeps h _
  | ccAssign => exact ccAssign_keeps h
  | encEmit => exact encEmit_keeps h
  | encRun => exact encRun_keeps h
  | bwClear => exact bwClear_keeps h _
  | bwBit b => exact bwBit_keeps h b _
  | bwByte b => exact bwByte_keeps h b
  | bwFinal => exact bwFinal_keeps h _
  | brClear => exact brClear_keeps h _
  | brPush b => exact brPush_keeps h b
  | brEnd => exact brEnd_keeps h
  | brBit => exact brBit_keeps h
  | brByte => exact brByte_keeps h
  | decTable => exact decTable_keeps h
  | decSym => exact decSym_keeps h
  | decRun => exact decRun_keeps h

theorem State.inv_keptByParts : KeptByParts State.Inv where
  withInputs _ h := h.congr rfl rfl rfl rfl rfl rfl rfl
  resetFields := State.resetFields_inv
  answer r h := h.answer r
  clearError := State.clearError_inv
  raise hc h := h.raise hc
  body side h := (body_keeps side h).inv

/-! ### The byte buffers: decoding -/

/-- P is kept by what the decoder is made of: a write of its own fields, a byte emitted, a bit or a byte read. -/
structure KeptByDecoding (P : State → Prop) : Prop where
  setDct : ∀ {s} d, P s → P (s.setDct d)
  emit : ∀ {s} b, P s → P (s.emit b)
  readBit : ∀ {s r b}, s.br.readBit = .ok (b, r) → P s → P (s.setBr r)
  readByte : ∀ {s r v}, s.br.readByte = .ok (v, r) → P s → P (s.setBr r)

theorem Flow.bind_kept {α β : Type} {P : State → Prop} {m : Flow α} {k : α → State → Flow β} (hm : P m.state)
    (hk : ∀ a s1, P s1 → P (k a s1).state) : P (m.bind k).state := by
  cases m with
  | done a s1 => exact hk a s1 hm
  | raised c s1 => exact hm

section
variable {P : State → Prop} (hP : KeptByDecoding P)
include hP

theorem brReadBit_kept {s : State} (h : P s) : P (brReadBit s).state := by
  cases hr : brReadBit s with
  | done b t => obtain ⟨r, hb, rfl⟩ := brReadBit_done hr; exact hP.readBit hb h
  | raised c t => obtain ⟨-, rfl⟩ := brReadBit_raised hr; exact h

theorem brReadByte_kept {s : State} (h : P s) : P (brReadByte s).state := by
  cases hr : brReadByte s with
  | done v t => obtain ⟨r, hv, rfl⟩ := brReadByte_done hr; exact hP.readByte hv h
  | raised c t => obtain ⟨-, rfl⟩ := brReadByte_raised hr; exact h

theorem decReadAlpha_kept (k i : Nat) {s : State} (h : P s) : P (decReadAlpha k i s).state := by
  induction k generalizing i s with
  | zero => exact h
  | succ k ih => exact Flow.bind_kept (brReadByte_kept hP h) fun v s1 h1 => ih (i + 1) (hP.setDct _ h1)

theorem decReadCounts_kept (k l : Nat) {s : State} (h : P s) : P (decReadCounts k l s).state := by
  induction k generalizing l s with
  | zero => exact h
  | succ k ih => exact Flow.bind_kept (brReadByte_kept hP h) fun v s1 h1 => ih (l + 1) (hP.setDct _ h1)

theorem decReadCode_kept (l : Nat) (v : Code) {s : State} (h : P s) : P (decReadCode l v s).state := by
  induction l generalizing v s with
  | zero => exact h
  | succ l ih => exact Flow.bind_kept (brReadBit_kept hP h) fun b s1 h1 => ih _ h1

theorem decReadCodes_kept (ls : List Nat) (i : Nat) {s : State} (h : P s) : P (decReadCodes ls i s).state := by
  induction ls generalizing i s with
  | nil => exact h
  | cons l ls ih => exact Flow.bind_kept (decReadCode_kept hP l 0 h) fun v s1 h1 => ih (i + 1) (hP.setDct _ h1)

theorem decReadBody_kept {s : State} (h : P s) : P (decReadBody s).state := by
  unfold decReadBody
  split
  · exact hP.setDct _ h
  · exact Flow.bind_kept (decReadCodes_kept hP _ 0 (hP.setDct _ h)) fun _ s1 h1 => hP.setDct _ h1

theorem decReadTable_kept {s : State} (h : P s) : P (decReadTable s).state := by
  refine Flow.bind_kept (brReadByte_kept hP (hP.setDct _ h)) fun a s1 h1 => ?_
  refine Flow.bind_kept (decReadAlpha_kept hP _ 0 (hP.setDct _ h1)) fun _ s2 h2 => ?_
  refine Flow.bind_kept (brReadByte_kept hP h2) fun m s3 h3 => ?_
  split
  · exact hP.setDct _ h3
  · exact Flow.bind_kept (decReadCounts_kept hP _ 1 (hP.setDct _ h3)) fun _ s4 h4 => decReadBody_kept hP h4

theorem decMatch_kept (fuel : Nat) {s : State} (h : P s) : P (decMatch fuel s).state := by
  induction fuel generalizing s with
  | zero => exact h
  | succ fuel ih =>
    refine Flow.bind_kept (brReadBit_kept hP h) fun b s1 h1 => ?_
    split
    · exact hP.setDct _ (hP.emit _ h1)
    · split
      · exact hP.setDct _ h1
      · exact ih (hP.setDct _ h1)

theorem decDecodeSymbol_kept {s : State} (h : P s) : P (decDecodeSymbol s).state := by
  unfold decDecodeSymbol
  split
  · exact hP.setDct _ h
  · exact Flow.bind_kept (decMatch_kept hP _ (hP.setDct _ h)) fun _ _ h1 => h1

theorem decSymbols_kept (fuel : Nat) {s : State} (h : P s) : P (decSymbols fuel s).state := by
  induction fuel generalizing s with
  | zero => exact h
  | succ fuel ih =>
    refine Flow.bind_kept (decDecodeSymbol_kept hP h) fun r s1 h1 => ?_
    cases r with
    | none => exact h1
    | some v => exact ih h1

theorem brBit_kept {s : State} (h : P s) : P (brBit s).state :=
  Flow.bind_kept (brReadBit_kept hP h) fun _ _ h1 => h1

theorem brByte_kept {s : State} (h : P s) : P (brByte s).state :=
  Flow.bind_kept (brReadByte_kept hP h) fun _ _ h1 => h1

theorem decTable_kept {s : State} (h : P s) : P (decTable s).state := by
  unfold decTable
  split
  · exact h
  · exact Flow.bind_kept (decReadTable_kept hP h) fun _ _ h1 => h1

theorem decSym_kept {s : State} (h : P s) : P (decSym s).state := by
  unfold decSym
  split
  · exact h
  · refine Flow.bind_kept (decDecodeSymbol_kept hP h) fun r s1 h1 => ?_
    cases r with
    | none => exact h1
    | some v => exact h1

theorem decRun_kept {s : State} (h : P s) : P (decRun s).state := by
  unfold decRun
  split
  · exact h
  · split
    · exact hP.setDct _ h
    · exact Flow.bind_kept (decReadTable_kept hP h) fun _ s1 h1 =>
        Flow.bind_kept (decSymbols_kept hP _ h1) fun _ _ h2 => h2

end

theorem memory_wf_keptByDecoding : KeptByDecoding fun s => Memory.wf s = true where
  setDct _ h := memory_wf_congr rfl rfl rfl rfl h
  emit _ h := memory_wf_congr rfl rfl rfl rfl h
  readBit := memory_wf_readBit
  readByte := memory_wf_readByte

/-! ### The byte buffers: commands and steps -/

/-- An encoder side part that leaves the frequency counter keeps the form. -/
theorem memory_wf_of_same_fc {s t : State} (frame : EncoderOnly s t) (hfc : t.fc = s.fc) (h : Memory.wf s = true) :
    Memory.wf t = true :=
  memory_wf_congr frame.params (by rw [hfc]) (by rw [frame.br]) (by rw [frame.br]) h

theorem fcPush_memory_wf (b : Byte) {s : State} (h : Memory.wf s = true) : Memory.wf (fcPush b s).state = true := by
  unfold fcPush
  split
  · exact h
  · split
    · exact h
    · next room => exact memory_wf_append_msg rfl room h

theorem brPush_memory_wf (b : Byte) {s : State} (h : Memory.wf s = true) : Memory.wf (brPush b s).state = true := by
  unfold brPush
  split
  · exact h
  · split
    · exact h
    · next room => exact memory_wf_append_queue b room h

theorem brEnd_memory_wf {s : State} (h : Memory.wf s = true) : Memory.wf (brEnd s).state = true := by
  have sealing : Memory.wf (s.setBr { s.br with sealed := true }) = true := memory_wf_congr rfl rfl rfl rfl h
  unfold brEnd
  split
  · exact h
  · split
    · exact sealing
    · exact sealing

theorem body_memory_wf_of_encoderSide {i : Instr} (side : i.encoderSide = true) {s : State} (h : Memory.wf s = true) :
    Memory.wf (i.body s).state = true := by
  have frame := body_encoderOnly side s
  cases i with
  | fcClear => exact memory_wf_congr (s := s.setFc Fc.initial) rfl rfl rfl rfl (memory_wf_clear_msg rfl h)
  | fcPush b => exact fcPush_memory_wf b h
  | ccAssign => exact memory_wf_of_same_fc frame (ccAssign_fc s) h
  | encEmit => exact memory_wf_of_same_fc frame (encEmit_fc s) h
  | encRun => exact memory_wf_of_same_fc frame (encRun_fc s) h
  | bwByte b => exact memory_wf_of_same_fc frame (Flow.bind_fc (bwWriteByte_fc b s) fun _ _ => rfl) h
  | htBuild | bwClear | bwBit _ | bwFinal => exact memory_wf_of_same_fc frame rfl h
  | _ => cases side

theorem body_memory_wf_of_decoderSide {i : Instr} (side : i.decoderSide = true) {s : State} (h : Memory.wf s = true) :
    Memory.wf (i.body s).state = true := by
  cases i with
  | brClear => exact memory_wf_congr (s := s.setBr Br.initial) rfl rfl rfl rfl (memory_wf_clear_queue h)
  | brPush b => exact brPush_memory_wf b h
  | brEnd => exact brEnd_memory_wf h
  | brBit => exact brBit_kept memory_wf_keptByDecoding h
  | brByte => exact brByte_kept memory_wf_keptByDecoding h
  | decTable => exact decTable_kept memory_wf_keptByDecoding h
  | decSym => exact decSym_kept memory_wf_keptByDecoding h
  | decRun => exact decRun_kept memory_wf_keptByDecoding h
  | _ => cases side

theorem memory_wf_keptByParts : KeptByParts fun s => Memory.wf s = true where
  withInputs _ h := memory_wf_congr rfl rfl rfl rfl h
  resetFields _ := memory_wf_empty rfl rfl rfl
  answer _ h := memory_wf_congr rfl rfl rfl rfl h
  clearError h := memory_wf_congr rfl rfl rfl rfl h
  raise _ h := memory_wf_congr rfl rfl rfl rfl h
  body side h := side.elim (body_memory_wf_of_encoderSide · h) (body_memory_wf_of_decoderSide · h)

/-! ### The reset state -/

theorem State.resetWith_inv {p : Params} (hp : p.Admissible) : (State.resetWith p).Inv where
  params := hp
  memory := memory_wf_empty rfl rfl rfl
  ctl := Ctl.initial_inv
  fc := fun b => by simp [State.resetWith, Fc.initial]
  ect := .inl rfl
  bw := Bw.initial_inv
  br := Br.initial_inv
  dct := Dct.initial_inv _

/-- The machine's own capacities, which nothing fixes, lie within the bounds of R7. -/
theorem Config.capacities_admissible : Params.Admissible { msgCap := Config.msgCap, qCap := Config.qCap } := by
  have hm := Config.msgCapChoice.isLt
  have hq := Config.qCapChoice.isLt
  simp only [Params.Admissible, Config.msgCap, Config.qCap]
  omega

end Sys2Proof.Machine

namespace Sys2Proof

open Machine

/-- Settles O56: each unit's operations keep that unit's part of the invariant, and a step is made of them. -/
theorem everyStepKeepsTheInvariant : Obligations.EveryStepKeepsTheInvariant :=
  fun _ _ h ht => State.inv_keptByParts.step h ht

/-- Settles O57: an append is guarded by the buffer's capacity and a read never pops the marker, whatever else holds. -/
theorem everyStepKeepsMemoryForm : Obligations.EveryStepKeepsMemoryForm :=
  ⟨memory_wf_empty rfl rfl rfl, fun _ _ h ht => memory_wf_keptByParts.step h ht⟩

/-- Settles O55: every part of the invariant holds of the empty units; only the capacities need a premise. -/
theorem invariantAtReset : Obligations.InvariantAtReset :=
  ⟨State.resetWith_inv Config.capacities_admissible, fun _ => State.resetWith_inv⟩

end Sys2Proof
end

section
/-! The two sides (10_state.md R30, 70_reset_and_hazards.md R392): from what the bodies of a side's commands write and read to what
the commands do, blocked ones and responses included. -/

namespace Sys2Proof.Machine

/-! ### A command of one side -/

/-- A command of one side is no command of the other, and none of the four that run while an error is recorded. -/
theorem encoderSide_only {i : Instr} (h : i.encoderSide = true) : i.decoderSide = false ∧ i.runsOnError = false := by
  cases i with
  | nop | reset | errclr | rdreg _ | brClear | brPush _ | brEnd | brBit | brByte | decTable | decSym | decRun => cases h
  | _ => exact ⟨rfl, rfl⟩

theorem decoderSide_only {i : Instr} (h : i.decoderSide = true) : i.encoderSide = false ∧ i.runsOnError = false := by
  cases i with
  | brClear | brPush _ | brEnd | brBit | brByte | decTable | decSym | decRun => exact ⟨rfl, rfl⟩
  | _ => cases h

/-- A command of a side ends in the state of its body, or in its own while an error is recorded (R352), but for the error
recorded and the response given. -/
theorem exec_eq_answer {i : Instr} (side : i.runsOnError = false) {s t : State} (h : exec i s = .next t) :
    ∃ u c r, (u = s ∨ u = (i.body s).state) ∧ t = (u.setCtl c).answer r := by
  cases he : s.ctl.err with
  | true =>
    rw [exec_blocked he side] at h
    cases h
    exact ⟨s, s.ctl, _, .inl rfl, rfl⟩
  | false =>
    obtain ⟨d, u, hb, rfl⟩ | ⟨c, u, hb, rfl⟩ := exec_next he h
    · exact ⟨u, u.ctl, Response.ok d, .inr (by rw [hb]; rfl), rfl⟩
    · exact ⟨u, _, Response.error c, .inr (by rw [hb]; rfl), rfl⟩

theorem exec_encoderSide_frame {i : Instr} (side : i.encoderSide = true) {s t : State} (h : exec i s = .next t) :
    s.SameDecoder t ∧ t.params = s.params := by
  obtain ⟨u, c, r, rfl | rfl, rfl⟩ := exec_eq_answer (encoderSide_only side).2 h
  · exact ⟨⟨rfl, rfl⟩, rfl⟩
  · have frame := body_encoderOnly side s
    exact ⟨⟨frame.br, frame.dct⟩, frame.params⟩

theorem exec_decoderSide_frame {i : Instr} (side : i.decoderSide = true) {s t : State} (h : exec i s = .next t) :
    s.SameEncoder t ∧ t.bw = s.bw := by
  obtain ⟨u, c, r, rfl | rfl, rfl⟩ := exec_eq_answer (decoderSide_only side).2 h
  · exact ⟨⟨rfl, rfl, rfl⟩, rfl⟩
  · have frame := body_decoderOnly side s
    exact ⟨⟨frame.params, frame.fc, frame.ect⟩, frame.bw⟩

/-! ### Two runs of a command that agree -/

/-- What the host will still do and the responses it was given are in u as in s. -/
structure HostKept (s u : State) : Prop where
  inputs    : u.port.inputs = s.port.inputs
  responses : u.port.responses = s.port.responses

theorem HostKept.refl (s : State) : HostKept s s := ⟨rfl, rfl⟩

theorem HostKept.observes_answer {s u : State} {bs : List Byte} (h : HostKept s u) (ho : u.port.out = s.port.out ++ bs)
    (c : Ctl) (r : Response) : s.Observes ((u.setCtl c).answer r) [r] bs := by
  simp only [State.Observes, State.answer, State.setCtl_port, h.inputs, h.responses, ho]

theorem body_hostKept {i : Instr} (side : i.encoderSide = true ∨ i.decoderSide = true) (s : State) :
    HostKept s (i.body s).state := by
  rcases side with he | hd
  · have frame := body_encoderOnly he s
    exact ⟨frame.inputs, frame.responses⟩
  · have frame := body_decoderOnly hd s
    exact ⟨frame.inputs, frame.responses⟩

/-- Two runs of a command whose bodies agree are both blocked or both run: they record the same error, give the same response
and otherwise end in related states. -/
theorem exec_agree {i : Instr} (side : i.encoderSide = true ∨ i.decoderSide = true) {R : State → State → Prop}
    {s s' t t' : State} (hctl : ∀ {u u'}, R u u' → u'.ctl = u.ctl) (hs : R s s')
    (hb : Flow.Agree R (i.body s) (i.body s')) (ht : exec i s = .next t) (ht' : exec i s' = .next t') :
    ∃ u u' c r, R u u' ∧ HostKept s u ∧ HostKept s' u' ∧ t = (u.setCtl c).answer r ∧ t' = (u'.setCtl c).answer r := by
  have hi : i.runsOnError = false := side.elim (encoderSide_only · |>.2) (decoderSide_only · |>.2)
  cases he : s.ctl.err with
  | true =>
    rw [exec_blocked he hi] at ht
    rw [exec_blocked (by rw [hctl hs, he]) hi] at ht'
    cases ht
    cases ht'
    refine ⟨s, s', s.ctl, { exec := false, cause := s.ctl.cause, data := 0 }, hs, .refl s, .refl s', rfl, ?_⟩
    rw [← hctl hs]
    rfl
  | false =>
    have kept := body_hostKept side s
    have kept' := body_hostKept side s'
    rw [exec_run he] at ht
    rw [exec_run (by rw [hctl hs, he])] at ht'
    obtain ⟨d, u, u', hu, hu', hR⟩ | ⟨c, u, u', hu, hu', hR⟩ := hb
    · rw [hu] at ht kept
      rw [hu'] at ht' kept'
      cases ht
      cases ht'
      refine ⟨u, u', u.ctl, Response.ok d, hR, kept, kept', rfl, ?_⟩
      rw [← hctl hR]
      rfl
    · rw [hu] at ht kept
      rw [hu'] at ht' kept'
      cases ht
      cases ht'
      exact ⟨u, u', _, Response.error c, hR, kept, kept', rfl, rfl⟩

theorem exec_encoderSide_agree {i : Instr} (side : i.encoderSide = true) {s s' t t' : State}
    (agree : EncoderAgree s.port.out s'.port.out s s') (ht : exec i s = .next t) (ht' : exec i s' = .next t') :
    t'.ctl = t.ctl ∧ (t'.fc = t.fc ∧ t'.ect = t.ect ∧ t'.bw = t.bw) ∧ ∃ r bs, s.Observes t [r] bs ∧ s'.Observes t' [r] bs := by
  obtain ⟨u, u', c, r, hu, kept, kept', rfl, rfl⟩ :=
    exec_agree (.inl side) EncoderAgree.ctl agree (body_encoderAgree side agree) ht ht'
  obtain ⟨bs, ho, ho'⟩ := hu.out
  exact ⟨rfl, ⟨hu.fc, hu.ect, hu.bw⟩, r, bs, kept.observes_answer ho c r, kept'.observes_answer ho' c r⟩

theorem exec_decoderSide_agree {i : Instr} (side : i.decoderSide = true) {s s' t t' : State}
    (agree : DecoderAgree s.port.out s'.port.out s s') (ht : exec i s = .next t) (ht' : exec i s' = .next t') :
    t'.ctl = t.ctl ∧ (t'.br = t.br ∧ t'.dct = t.dct) ∧ ∃ r bs, s.Observes t [r] bs ∧ s'.Observes t' [r] bs := by
  obtain ⟨u, u', c, r, hu, kept, kept', rfl, rfl⟩ :=
    exec_agree (.inr side) DecoderAgree.ctl agree (body_decoderAgree side agree) ht ht'
  obtain ⟨bs, ho, ho'⟩ := hu.out
  exact ⟨rfl, ⟨hu.br, hu.dct⟩, r, bs, kept.observes_answer ho c r, kept'.observes_answer ho' c r⟩

end Sys2Proof.Machine

namespace Sys2Proof

open Machine

/-- Settles O59: the bodies of one side leave the other's fields, and so does being blocked. -/
theorem sidesWriteDisjointFields : Obligations.SidesWriteDisjointFields :=
  fun _ _ _ h => ⟨(exec_encoderSide_frame · h), (exec_decoderSide_frame · h)⟩

/-- Settles O60: the bodies of one side agree from states that agree on it, and whether a command is blocked depends on the
error state alone. -/
theorem sidesAreIndependent : Obligations.SidesAreIndependent := by
  intro i s s' t t' hparams hctl ht ht' same
  rcases same with ⟨side, hfc, hect, hbw⟩ | ⟨side, hbr, hdct⟩
  · obtain ⟨ctl, fields, observed⟩ :=
      exec_encoderSide_agree side ⟨hparams, hctl, hfc, hect, hbw, [], by simp, by simp⟩ ht ht'
    exact ⟨ctl, fun _ => fields, fun hd => absurd hd (by simp [encoderSide_only side]), observed⟩
  · obtain ⟨ctl, fields, observed⟩ :=
      exec_decoderSide_agree side ⟨hparams, hctl, hbr, hdct, [], by simp, by simp⟩ ht ht'
    exact ⟨ctl, fun he => absurd he (by simp [decoderSide_only side]), fun _ => fields, observed⟩

end Sys2Proof
end

section
/-! The registers read through RDREG, bank by bank (10_state.md R47 to R50), and their reset values (R52). -/

namespace Sys2Proof.Machine

/-- RDREG of a register's address responds the register. -/
theorem State.reads_addr (s : State) (r : Reg) : s.Reads r.addr (s.readReg r) := s.reads_reg (Reg.ofAddr_addr r)

/-- A field of any width is read zero-extended. -/
theorem State.reads_ofNat {w : Nat} {s : State} {a : BitVec 16} (v : BitVec w) (h : s.Reads a (v.setWidth 32)) :
    s.Reads a (BitVec.ofNat 32 v.toNat) := by
  rwa [BitVec.ofNat_toNat]

/-! ### STATUS and the two state words -/

theorem append_ofBool_bit {w : Nat} (v : BitVec w) (b : Bool) (k : Nat) :
    (v ++ BitVec.ofBool b).getLsbD k = if k = 0 then b else v.getLsbD (k - 1) := by
  rw [BitVec.append_ofBool, BitVec.getLsbD_concat]

/-- Bit k of STATUS is the k-th of the six flags of R48, and 0 above them. -/
theorem State.statusWord_bit (s : State) (k : Nat) : s.statusWord.getLsbD k =
    [s.ctl.err, s.ect.built, s.ect.assigned, s.br.sealed, s.dct.ready, s.dct.done].getD k false := by
  simp only [State.statusWord, append_ofBool_bit]
  rcases k with _ | _ | _ | _ | _ | _ | k <;> simp

theorem zero_append_toNat {n m : Nat} (v : BitVec m) : (0#n ++ v).toNat = v.toNat := by
  rw [BitVec.toNat_append, BitVec.toNat_ofNat, Nat.zero_mod, Nat.zero_shiftLeft, Nat.zero_or]

/-- A byte below other bits of a word: the word's low byte, and the rest its quotient by 2^8. -/
theorem append_byte_parts (c : BitVec 24) (b : Byte) :
    (c ++ b : Word).extractLsb' 0 8 = b ∧ (c ++ b : Word).toNat / 2 ^ 8 = c.toNat := by
  refine ⟨BitVec.extractLsb'_append_eq_right, ?_⟩
  have hb := b.isLt
  rw [BitVec.toNat_append, Nat.shiftLeft_eq, Nat.mul_comm, ← Nat.two_pow_add_eq_or_of_lt hb]
  omega

theorem Bw.stateWord_parts (w : Bw) : w.stateWord.extractLsb' 0 8 = w.acc ∧ w.stateWord.toNat / 2 ^ 8 = w.cnt.toNat := by
  obtain ⟨low, high⟩ := append_byte_parts (0#20 ++ w.cnt.setWidth 4) w.acc
  refine ⟨low, high.trans ?_⟩
  rw [zero_append_toNat, BitVec.toNat_setWidth_of_le (by decide)]

theorem Br.stateWord_parts (r : Br) : r.stateWord.extractLsb' 0 8 = r.cur ∧ r.stateWord.toNat / 2 ^ 8 = r.cnt.toNat := by
  obtain ⟨low, high⟩ := append_byte_parts (0#20 ++ r.cnt) r.cur
  exact ⟨low, high.trans (zero_append_toNat _)⟩

theorem State.statusWord_resetWith (p : Params) : (State.resetWith p).statusWord = 0 := by
  simp [State.statusWord, State.resetWith, Ctl.initial, Ect.initial, Br.initial, Dct.initial]

theorem Bw.stateWord_initial : Bw.initial.stateWord = 0 := by decide

theorem Br.stateWord_initial : Br.initial.stateWord = 0 := by decide

/-! ### The addresses of the banks -/

theorem mappedAddr_bank0_gap {a : BitVec 16} (h : 0x0010 < a.toNat) (h' : a.toNat < 0x1000) : mappedAddr a = false := by
  have hbank : a.toNat / 4096 = 0 := by omega
  simp only [mappedAddr, hbank, if_true, decide_eq_false_iff_not]
  omega

theorem mappedAddr_above_bank0 {a : BitVec 16} (h : 0x1000 ≤ a.toNat) (hm : mappedAddr a = true) :
    (∃ x, x < 256 ∧ ∃ bank ∈ [1, 2, 3, 4, 6, 7, 8], a.toNat = 0x1000 * bank + x) ∨
      (∃ x k, x < 256 ∧ k < 8 ∧ (a.toNat = 0x5000 + 8 * x + k ∨ a.toNat = 0x9000 + 8 * x + k)) ∨
      ∃ k, k < 8 ∧ a.toNat = 0xA000 + k := by
  have hbank : a.toNat / 4096 ≠ 0 := by omega
  simp only [mappedAddr, if_neg hbank] at hm
  split at hm
  · next hslice =>
    have hidx : a.toNat % 4096 < 2048 := by simpa using hm
    exact .inr (.inl ⟨a.toNat % 4096 / 8, a.toNat % 8, by omega, by omega, by omega⟩)
  · split at hm
    · next hcand =>
      have hidx : a.toNat % 4096 < 8 := by simpa using hm
      exact .inr (.inr ⟨a.toNat % 4096, hidx, by omega⟩)
    · split at hm
      · next hbyte =>
        have hidx : a.toNat % 4096 < 256 := by simpa using hm
        refine .inl ⟨a.toNat % 4096, hidx, a.toNat / 4096, ?_, by omega⟩
        simp only [List.mem_cons, List.not_mem_nil, or_false]
        omega
      · cases hm

/-! ### The table banks -/

/-- A register read at its address written as a number. -/
theorem State.reads_at (s : State) (r : Reg) {n : Nat} (h : r.addr.toNat = n) :
    s.Reads (BitVec.ofNat 16 n) (s.readReg r) := by
  rw [← h, BitVec.ofNat_toNat, BitVec.setWidth_eq]
  exact s.reads_addr r

/-- A slice of a 255-bit value, bit by bit. -/
theorem State.reads_slice {s : State} {a : BitVec 16} {v : Code} {k : BitVec 3} (h : s.Reads a (codeSlice v k)) :
    ∃ u : Word, s.Reads a u ∧ ∀ j, j < 32 → u.getLsbD j = v.getLsbD (32 * k.toNat + j) :=
  ⟨_, h, fun j hj => codeSlice_bit v k j hj⟩

end Sys2Proof.Machine

namespace Sys2Proof

open Machine

/-- Settles O15: the reset state is built of empty tables and units. -/
theorem resetValues : Obligations.ResetValues := by
  refine ⟨fun p => ?_, _, Config.capacities_admissible, rfl⟩
  have zero {w : Nat} (k : Nat) : tableGet (Table.zero w) k = 0 := tableGet_zero w k
  exact ⟨rfl, rfl, rfl, zero, rfl, rfl, rfl, rfl, rfl, fun k => ⟨zero k, zero k, zero k, zero k⟩, rfl, rfl, rfl, rfl,
    rfl, rfl, rfl, rfl, rfl, rfl, rfl, fun k => ⟨zero k, zero k, zero k, zero k⟩, rfl, rfl, State.reads_addr _ .id⟩

/-- Settles O20: each address is its register's, and STATUS and the state words are taken apart bit by bit. -/
theorem bankZeroRegisters : Obligations.BankZeroRegisters := by
  intro s
  refine ⟨⟨s.reads_addr .id, s.reads_addr .cause, s.reads_addr .msgLen, State.reads_ofNat _ (s.reads_addr .encAsize),
      State.reads_ofNat _ (s.reads_addr .encMaxlen), s.reads_addr .brLen, s.reads_addr .brHead, s.reads_addr .brAvail, ?_,
      State.reads_ofNat _ (s.reads_addr .decAsize), State.reads_ofNat _ (s.reads_addr .decMaxlen),
      State.reads_ofNat _ (s.reads_addr .decCandLen), s.reads_addr .msgCap, s.reads_addr .qCap⟩,
    ⟨_, s.reads_addr .status, s.statusWord_bit 0, s.statusWord_bit 1, s.statusWord_bit 2, s.statusWord_bit 3,
      s.statusWord_bit 4, s.statusWord_bit 5, fun k hk => (s.statusWord_bit k).trans (List.getD_eq_default _ _ hk)⟩,
    ⟨_, s.reads_addr .bwState, s.bw.stateWord_parts⟩, ⟨_, s.reads_addr .brState, s.br.stateWord_parts⟩,
    fun p => ⟨?_, ?_, ?_⟩,
    fun a => mappedAddr_bank0_gap⟩
  · rw [← List.getLastD_eq_getLast?]
    exact State.reads_ofNat _ (s.reads_addr .brMark)
  · rw [← State.statusWord_resetWith p]
    exact State.reads_addr _ .status
  · rw [← Bw.stateWord_initial]
    exact State.reads_addr _ .bwState
  · rw [← Br.stateWord_initial]
    exact State.reads_addr _ .brState

/-- Settles O21: each entry and slice is read at its address as a number, and the mapped ranges are those of the banks. -/
theorem tableBankRegisters : Obligations.TableBankRegisters := by
  refine ⟨fun a => mappedAddr_above_bank0, fun s => ⟨fun x => ⟨?_, ?_, ?_, ?_, ?_, ?_, ?_⟩, fun k hk => ?_⟩⟩
  · exact s.reads_at (.freq x) (bank8_toNat 0x10#8 x)
  · exact State.reads_ofNat _ (s.reads_at (.encLen x) (bank8_toNat 0x20#8 x))
  · exact State.reads_ofNat _ (s.reads_at (.encCount x) (bank8_toNat 0x30#8 x))
  · exact State.reads_ofNat _ (s.reads_at (.encAlpha x) (bank8_toNat 0x40#8 x))
  · exact State.reads_ofNat _ (s.reads_at (.decAlpha x) (bank8_toNat 0x60#8 x))
  · exact State.reads_ofNat _ (s.reads_at (.decCount x) (bank8_toNat 0x70#8 x))
  · exact State.reads_ofNat _ (s.reads_at (.decLen x) (bank8_toNat 0x80#8 x))
  · obtain ⟨k, rfl⟩ : ∃ j : BitVec 3, j.toNat = k := ⟨BitVec.ofNat 3 k, by simp; omega⟩
    refine ⟨fun x => ⟨State.reads_slice (s.reads_at (.encCode x k) ?_),
        State.reads_slice (s.reads_at (.decCode x k) ?_)⟩,
      State.reads_slice (s.reads_at (.decCand k) (bank13_toNat 0b1010000000000#13 k))⟩
    · rw [Nat.mul_comm 8]
      exact bank5_toNat 0b01010#5 x k
    · rw [Nat.mul_comm 8]
      exact bank5_toNat 0b10010#5 x k

end Sys2Proof
end

section
/-! Runs over command words (20_memory.md R102, 70_reset_and_hazards.md R396): a command's word decodes to it, a step on that word
is the command, and a command neither reads nor changes what the host does after it. -/

namespace Sys2Proof

/-- Decoding undoes encoding (30_encoding.md R124): the opcode picks the class, and the class reads the operand back. -/
theorem decode_encode {i : Instr} (h : i.wellFormed = true) : decode (encode i) = .command i := by
  cases i with
  | rdreg a => simpa [decode, encode] using decodeA_packWord 0x03 a .rdreg h
  | fcPush b => simpa [decode, encode] using decodeY_packWord 0x11 b .fcPush
  | bwByte b => simpa [decode, encode] using decodeY_packWord 0x22 b .bwByte
  | brPush b => simpa [decode, encode] using decodeY_packWord 0x31 b .brPush
  | bwBit t => simpa [decode, encode] using decodeT_packWord 0x21 t .bwBit
  | _ => exact decodeN_packWord _ _

end Sys2Proof

namespace Sys2Proof.Machine

/-! ### A step on a command's word -/

theorem step_command {s : State} {w : Word} {rest : List HostInput} {i : Instr} (h : s.port.inputs = .word w :: rest)
    (hd : decode w = .command i) : step s = exec i (s.withInputs rest) := by
  rw [step, State.takeInput_cons h]
  simp only [hd]

theorem Flow.finish_answers (m : Flow Word) : ∃ t, m.finish = .next t := by
  cases m with
  | done d u => exact ⟨_, rfl⟩
  | raised c u => exact ⟨_, rfl⟩

/-- RDREG of an unmapped address has an illegal word's effect. -/
theorem exec_rdreg_illegal {a : BitVec 16} (h : Reg.ofAddr a = none) (s : State) :
    exec (.rdreg a) s = .next s.illegalWord := by
  simp only [exec, execRdreg, h]

/-- A command ends in a next state, whatever the state (70_reset_and_hazards.md R395). -/
theorem exec_answers (i : Instr) (s : State) : ∃ t, exec i s = .next t := by
  cases he : s.ctl.err with
  | false =>
    rw [exec_run he]
    exact Flow.finish_answers _
  | true =>
    cases i with
    | nop | reset | errclr => exact ⟨_, rfl⟩
    | rdreg a =>
      cases ha : Reg.ofAddr a with
      | some r => exact ⟨_, exec_rdreg ha s⟩
      | none => exact ⟨_, exec_rdreg_illegal ha s⟩
    | _ => exact ⟨_, exec_blocked he rfl⟩

/-! ### A command and the host's remaining inputs -/

@[simp] theorem State.withInputs_withInputs (r r' : List HostInput) (s : State) :
    (s.withInputs r).withInputs r' = s.withInputs r' := rfl

theorem State.withInputs_self (s : State) : s.withInputs s.port.inputs = s := rfl

theorem State.readReg_withInputs (rest : List HostInput) (s : State) (r : Reg) :
    (s.withInputs rest).readReg r = s.readReg r := by
  cases r <;> rfl

theorem State.illegalWord_withInputs (rest : List HostInput) (s : State) :
    (s.withInputs rest).illegalWord = s.illegalWord.withInputs rest := by
  unfold State.illegalWord
  rw [State.withInputs_ctl]
  split
  · rfl
  · rfl

/-- From states that differ in the inputs alone, the same responses and bytes leave the port the same but for them. -/
theorem State.Observes.port_withInputs {s t t' : State} {rest : List HostInput} {rs : List Response} {bs : List Byte}
    (h : s.Observes t rs bs) (h' : (s.withInputs rest).Observes t' rs bs) : t'.port = (t.withInputs rest).port := by
  simp only [State.Observes] at h h'
  simp only [State.withInputs, h, h']

theorem EncoderAgree.withInputs (rest : List HostInput) (s : State) :
    EncoderAgree s.port.out (s.withInputs rest).port.out s (s.withInputs rest) :=
  ⟨rfl, rfl, rfl, rfl, rfl, [], by simp, by simp⟩

theorem DecoderAgree.withInputs (rest : List HostInput) (s : State) :
    DecoderAgree s.port.out (s.withInputs rest).port.out s (s.withInputs rest) :=
  ⟨rfl, rfl, rfl, rfl, [], by simp, by simp⟩

/-- A command of the encoder side agrees there with itself from the other inputs, and the decoder's fields stay in both. -/
theorem exec_withInputs_encoderSide {i : Instr} (side : i.encoderSide = true) {s t : State} (rest : List HostInput)
    (h : exec i s = .next t) : exec i (s.withInputs rest) = .next (t.withInputs rest) := by
  obtain ⟨t', h'⟩ := exec_answers i (s.withInputs rest)
  obtain ⟨ctl, ⟨fc, ect, bw⟩, r, bs, observed, observed'⟩ :=
    exec_encoderSide_agree side (EncoderAgree.withInputs rest s) h h'
  obtain ⟨⟨br, dct⟩, params⟩ := exec_encoderSide_frame side h
  obtain ⟨⟨br', dct'⟩, params'⟩ := exec_encoderSide_frame side h'
  rw [h', State.ext_fields (s := t.withInputs rest) (params'.trans params.symm) ctl fc ect bw (br'.trans br.symm)
    (dct'.trans dct.symm) (observed.port_withInputs observed')]

/-- The mirror of `exec_withInputs_encoderSide`. -/
theorem exec_withInputs_decoderSide {i : Instr} (side : i.decoderSide = true) {s t : State} (rest : List HostInput)
    (h : exec i s = .next t) : exec i (s.withInputs rest) = .next (t.withInputs rest) := by
  obtain ⟨t', h'⟩ := exec_answers i (s.withInputs rest)
  obtain ⟨ctl, ⟨br, dct⟩, r, bs, observed, observed'⟩ :=
    exec_decoderSide_agree side (DecoderAgree.withInputs rest s) h h'
  obtain ⟨⟨params, fc, ect⟩, bw⟩ := exec_decoderSide_frame side h
  obtain ⟨⟨params', fc', ect'⟩, bw'⟩ := exec_decoderSide_frame side h'
  rw [h', State.ext_fields (s := t.withInputs rest) (params'.trans params.symm) ctl (fc'.trans fc.symm)
    (ect'.trans ect.symm) (bw'.trans bw.symm) br dct (observed.port_withInputs observed')]

/-- What a command does depends on nothing the host does after it, and leaves that to be done. -/
theorem exec_withInputs {i : Instr} {s t : State} (rest : List HostInput) (h : exec i s = .next t) :
    exec i (s.withInputs rest) = .next (t.withInputs rest) := by
  rcases Instr.side i with side | side | side
  · exact exec_withInputs_encoderSide side rest h
  · exact exec_withInputs_decoderSide side rest h
  · cases i with
    | nop | reset | errclr => cases h; rfl
    | rdreg a =>
      cases ha : Reg.ofAddr a with
      | some r =>
        rw [exec_rdreg ha] at h ⊢
        cases h
        rw [State.readReg_withInputs]
        rfl
      | none =>
        rw [exec_rdreg_illegal ha] at h ⊢
        cases h
        rw [State.illegalWord_withInputs]
    | _ => cases side

/-- The inputs stay: replacing them by themselves changes nothing before the command, so it changes nothing after it. -/
theorem exec_inputs {i : Instr} {s t : State} (h : exec i s = .next t) : t.port.inputs = s.port.inputs := by
  have same := exec_withInputs s.port.inputs h
  rw [State.withInputs_self, h] at same
  have ht : t = t.withInputs s.port.inputs := Host.Outcome.next.inj same
  rw [ht, State.withInputs_inputs]

/-! ### Runs -/

theorem run_succ {s t : State} (h : step s = .next t) (n : Nat) : Host.Core.run core (n + 1) s = Host.Core.run core n t := by
  have hcore : core.step s = .next t := h
  simp only [Host.Core.run, hcore]

end Sys2Proof.Machine

namespace Sys2Proof

open Machine

/-- Settles O7, by induction on the commands: the first step is the first command, and that command leaves the inputs as they
are, whether the other words are still among them (the run) or not (the sequence). -/
theorem runIsTheCommandSequence : Obligations.RunIsTheCommandSequence := by
  intro s is rest wf inputs
  induction is generalizing s with
  | nil =>
    have same : s.withInputs rest = s := by rw [← State.withInputs_self s, inputs]; rfl
    rw [same]
    rfl
  | cons i is ih =>
    rw [List.forall_mem_cons] at wf
    obtain ⟨wf_i, wf_is⟩ := wf
    obtain ⟨t, ht⟩ := exec_answers i (s.withInputs (is.map (fun i => .word (encode i)) ++ rest))
    have first : step s = .next t := (step_command inputs (decode_encode wf_i)).trans ht
    have alone := exec_withInputs rest ht
    rw [State.withInputs_withInputs] at alone
    rw [List.length_cons, run_succ first, ih t wf_is (exec_inputs ht), execAll_cons alone]

end Sys2Proof
end

section
/-! Decoding (30_encoding.md R120 to R127): what the opcode of a word decides, said once; and from it that a legal word is the
encoding of one well-formed command, and that the words refused are those of R125. -/

namespace Sys2Proof

open Machine

/-! ### The class of a word -/

/-- What decoding w gives, by the class of its opcode (R122, R124), with the word of the command each class makes. -/
inductive DecodesByClass (w : Word) : Decoded → Prop
  | classN {op : Byte} {i : Instr} (enc : encode i = packWord op 0 0) (hop : opField w = op) (mem : op.toNat ∈ opcodesN)
      (wf : i.wellFormed = true) : DecodesByClass w (decodeN w i)
  | classY {op : Byte} {i : Byte → Instr} (enc : ∀ b, encode (i b) = packWord op 0 b) (hop : opField w = op)
      (mem : op.toNat ∈ opcodesY) (wf : ∀ b, (i b).wellFormed = true) : DecodesByClass w (decodeY w i)
  | classT (hop : opField w = 0x21) : DecodesByClass w (decodeT w .bwBit)
  | classA (hop : opField w = 0x03) : DecodesByClass w (decodeA w .rdreg)
  | unassigned (hN : (opField w).toNat ∉ opcodesN) (hY : (opField w).toNat ∉ opcodesY) (hT : (opField w).toNat ≠ 0x21)
      (hA : (opField w).toNat ≠ 0x03) : DecodesByClass w (.illegal .unassignedOpcode)

/-- The table of opcodes (R124), one case per row, and the words outside it. -/
theorem decode_byClass (w : Word) : DecodesByClass w (decode w) := by
  unfold decode
  split
  case h_4 hop => exact .classA (BitVec.eq_of_toNat_eq hop)
  case h_12 hop => exact .classT (BitVec.eq_of_toNat_eq hop)
  case h_6 hop | h_13 hop | h_16 hop =>
    exact .classY (fun _ => rfl) (BitVec.eq_of_toNat_eq hop) (by decide) fun _ => rfl
  case h_23 =>
    simp only [imp_false] at *
    refine .unassigned ?_ ?_ (by assumption) (by assumption)
    · simp only [opcodesN, List.mem_cons, List.not_mem_nil, or_false]
      omega
    · simp only [opcodesY, List.mem_cons, List.not_mem_nil, or_false]
      omega
  all_goals next hop => exact .classN rfl (BitVec.eq_of_toNat_eq hop) (by decide) rfl

/-! ### A legal word -/

theorem packWord_eq {w : Word} {op : Byte} {a : BitVec 16} {b : Byte} (hop : opField w = op) (ha : addrField w = a)
    (hb : byteField w = b) : packWord op a b = w := by
  rw [← hop, ← ha, ← hb, packWord_fields]

theorem DecodesByClass.encode_of_command {w : Word} {d : Decoded} (h : DecodesByClass w d) {i : Instr} (hd : d = .command i) :
    i.wellFormed = true ∧ encode i = w := by
  cases h with
  | classN enc hop _ wf =>
    obtain ⟨rfl, ha, hb⟩ := decodeN_eq_command hd
    exact ⟨wf, enc.trans (packWord_eq hop ha hb)⟩
  | classY enc hop _ wf =>
    obtain ⟨rfl, ha⟩ := decodeY_eq_command hd
    exact ⟨wf _, (enc _).trans (packWord_eq hop ha rfl)⟩
  | classT hop =>
    obtain ⟨t, rfl, ha, hb⟩ := decodeT_eq_command hd
    exact ⟨rfl, packWord_eq hop ha hb⟩
  | classA hop =>
    obtain ⟨rfl, hb, mapped⟩ := decodeA_eq_command hd
    exact ⟨mapped, packWord_eq hop rfl hb⟩
  | unassigned => cases hd

/-- Encoding undoes decoding (R124): no bit of a legal word is dropped. -/
theorem encode_decode {w : Word} {i : Instr} (h : decode w = .command i) : i.wellFormed = true ∧ encode i = w :=
  (decode_byClass w).encode_of_command h

/-! ### An illegal word -/

theorem opField_toNat (w : Word) : (opField w).toNat = w.toNat / 2 ^ 24 := by
  have hw := w.isLt
  rw [opField, BitVec.extractLsb'_toNat, Nat.shiftRight_eq_div_pow]
  omega

theorem addrField_toNat (w : Word) : (addrField w).toNat = w.toNat / 2 ^ 8 % 2 ^ 16 := by
  rw [addrField, BitVec.extractLsb'_toNat, Nat.shiftRight_eq_div_pow]

theorem byteField_toNat (w : Word) : (byteField w).toNat = w.toNat % 2 ^ 8 := by
  rw [byteField, BitVec.extractLsb'_toNat, Nat.shiftRight_zero]

theorem toNat_ne_zero_iff {n : Nat} (v : BitVec n) : v.toNat ≠ 0 ↔ v ≠ 0 := by
  rw [ne_eq, ne_eq, ← BitVec.toNat_inj]
  simp

theorem bitField_ne_zero_iff (b : Byte) : b.toNat / 2 ≠ 0 ↔ b.extractLsb' 1 7 ≠ 0 := by
  have hb := b.isLt
  rw [← toNat_ne_zero_iff, BitVec.extractLsb'_toNat, Nat.shiftRight_eq_div_pow, Nat.mod_eq_of_lt (by omega), Nat.pow_one]

/-- The five items of R125, in the fields of the word. -/
theorem illegalWord_iff_fields (w : Word) : IllegalWord w ↔
    ((opField w).toNat ∉ opcodesN ∧ (opField w).toNat ∉ opcodesY ∧ (opField w).toNat ≠ 0x21 ∧ (opField w).toNat ≠ 0x03) ∨
      (((opField w).toNat ∈ opcodesN ∨ (opField w).toNat ∈ opcodesY ∨ (opField w).toNat = 0x21) ∧ addrField w ≠ 0) ∨
      (((opField w).toNat ∈ opcodesN ∨ (opField w).toNat = 0x03) ∧ byteField w ≠ 0) ∨
      ((opField w).toNat = 0x21 ∧ (byteField w).extractLsb' 1 7 ≠ 0) ∨
      ((opField w).toNat = 0x03 ∧ mappedAddr (addrField w) = false) := by
  simp only [IllegalWord, ← opField_toNat, ← addrField_toNat, ← byteField_toNat, toNat_ne_zero_iff, bitField_ne_zero_iff,
    BitVec.ofNat_toNat, BitVec.setWidth_eq]

theorem decodeN_eq_illegal {w : Word} {i : Instr} {why : Illegal} (h : decodeN w i = .illegal why) :
    addrField w ≠ 0 ∨ byteField w ≠ 0 := by
  unfold decodeN at h
  split at h
  · next ha => exact .inl ha
  · split at h
    · next hb => exact .inr hb
    · cases h

theorem decodeY_eq_illegal {w : Word} {i : Byte → Instr} {why : Illegal} (h : decodeY w i = .illegal why) :
    addrField w ≠ 0 := by
  unfold decodeY at h
  split at h
  · next ha => exact ha
  · cases h

theorem decodeT_eq_illegal {w : Word} {i : Bool → Instr} {why : Illegal} (h : decodeT w i = .illegal why) :
    addrField w ≠ 0 ∨ (byteField w).extractLsb' 1 7 ≠ 0 := by
  unfold decodeT at h
  split at h
  · next ha => exact .inl ha
  · split at h
    · next hb => exact .inr hb
    · cases h

theorem decodeA_eq_illegal {w : Word} {i : BitVec 16 → Instr} {why : Illegal} (h : decodeA w i = .illegal why) :
    byteField w ≠ 0 ∨ mappedAddr (addrField w) = false := by
  unfold decodeA at h
  split at h
  · next hb => exact .inl hb
  · split at h
    · next unmapped => exact .inr (by rw [← Reg.ofAddr_isSome, Option.isNone_iff_eq_none.mp unmapped, Option.isSome_none])
    · cases h

theorem DecodesByClass.illegalWord {w : Word} {d : Decoded} (h : DecodesByClass w d) {why : Illegal} (hd : d = .illegal why) :
    IllegalWord w := by
  rw [illegalWord_iff_fields]
  cases h with
  | classN _ hop mem _ =>
    rw [← hop] at mem
    rcases decodeN_eq_illegal hd with ha | hb
    · exact .inr (.inl ⟨.inl mem, ha⟩)
    · exact .inr (.inr (.inl ⟨.inl mem, hb⟩))
  | classY _ hop mem _ =>
    rw [← hop] at mem
    exact .inr (.inl ⟨.inr (.inl mem), decodeY_eq_illegal hd⟩)
  | classT hop =>
    have op : (opField w).toNat = 0x21 := by rw [hop]; rfl
    rcases decodeT_eq_illegal hd with ha | hb
    · exact .inr (.inl ⟨.inr (.inr op), ha⟩)
    · exact .inr (.inr (.inr (.inl ⟨op, hb⟩)))
  | classA hop =>
    have op : (opField w).toNat = 0x03 := by rw [hop]; rfl
    rcases decodeA_eq_illegal hd with hb | unmapped
    · exact .inr (.inr (.inl ⟨.inr op, hb⟩))
    · exact .inr (.inr (.inr (.inr ⟨op, unmapped⟩)))
  | unassigned hN hY hT hA => exact .inl ⟨hN, hY, hT, hA⟩

theorem DecodesByClass.not_illegalWord {w : Word} {d : Decoded} (h : DecodesByClass w d) {i : Instr} (hd : d = .command i) :
    ¬ IllegalWord w := by
  rw [← packWord_fields w]
  apply Laws.LegalEncoding.legal_of_fields
  cases h with
  | classN _ hop mem _ =>
    rw [← hop] at mem
    obtain ⟨-, ha, hb⟩ := decodeN_eq_command hd
    exact .inl ⟨mem, ha, hb⟩
  | classY _ hop mem _ =>
    rw [← hop] at mem
    exact .inr (.inl ⟨mem, (decodeY_eq_command hd).2⟩)
  | classT hop =>
    obtain ⟨t, -, ha, hb⟩ := decodeT_eq_command hd
    refine .inr (.inr (.inl ⟨by rw [hop]; rfl, ha, ?_⟩))
    rw [hb]
    cases t <;> decide
  | classA hop =>
    obtain ⟨-, hb, mapped⟩ := decodeA_eq_command hd
    exact .inr (.inr (.inr ⟨by rw [hop]; rfl, mapped, hb⟩))
  | unassigned => cases hd

/-- The decoder refuses exactly the words of R125. -/
theorem decode_illegal_iff (w : Word) : (∃ why, decode w = .illegal why) ↔ IllegalWord w := by
  constructor
  · rintro ⟨why, hd⟩
    exact (decode_byClass w).illegalWord hd
  · intro illegal
    cases hd : decode w with
    | illegal why => exact ⟨why, rfl⟩
    | command i => exact absurd illegal ((decode_byClass w).not_illegalWord hd)

end Sys2Proof

namespace Sys2Proof.Machine

/-! ### What an illegal word does (60_exceptions.md R353) -/

theorem State.illegalWord_of_noError {s : State} (h : s.ctl.err = false) : s.illegalWord = s.raise .illegal := by
  rw [State.illegalWord, if_neg (by rw [h]; decide)]

theorem State.illegalWord_of_error {s : State} (h : s.ctl.err = true) : s.illegalWord = s.blocked := by
  rw [State.illegalWord, if_pos h]

theorem State.observes_blocked (s : State) :
    s.Observes s.blocked [{ exec := false, cause := s.ctl.cause, data := 0 }] [] := by
  simp only [State.Observes, State.blocked, State.answer, List.append_nil]

/-- With no error recorded an illegal word raises ILLEGAL. -/
theorem State.observes_illegalWord {s : State} (h : s.ctl.err = false) :
    s.Observes s.illegalWord [Response.error .illegal] [] := by
  rw [State.illegalWord_of_noError h]
  exact State.observes_raise _ rfl rfl (List.append_nil _).symm

theorem State.illegalWord_frame (s : State) :
    s.SameEncoder s.illegalWord ∧ s.SameDecoder s.illegalWord ∧ s.illegalWord.bw = s.bw := by
  unfold State.illegalWord
  split
  · exact ⟨⟨rfl, rfl, rfl⟩, ⟨rfl, rfl⟩, rfl⟩
  · exact ⟨⟨rfl, rfl, rfl⟩, ⟨rfl, rfl⟩, rfl⟩

/-! ### How a command and a step end -/

theorem body_ctl {i : Instr} (side : i.encoderSide = true ∨ i.decoderSide = true) (s : State) :
    (i.body s).state.ctl = s.ctl := by
  rcases side with he | hd
  · exact (body_encoderOnly he s).ctl
  · exact (body_decoderOnly hd s).ctl

theorem step_answers (s : State) : ∃ t, step s = .next t := by
  cases hi : s.port.inputs with
  | nil => exact ⟨s, by rw [step, State.takeInput_nil hi]⟩
  | cons x rest =>
    cases x with
    | resetInput => exact ⟨(s.withInputs rest).resetFields, by rw [step, State.takeInput_cons hi]⟩
    | word w =>
      cases hd : decode w with
      | illegal why => exact ⟨_, step_illegal hi hd⟩
      | command i =>
        rw [step_command hi hd]
        exact exec_answers i _

end Sys2Proof.Machine

namespace Sys2Proof

open Machine

/-- Settles O1: the opcode picks the command's class, and the class reads the operand back. -/
theorem decodeOfEncode : Obligations.DecodeOfEncode := fun _ wf => decode_encode wf

/-- Settles O2: a class accepts a word only with the fields its commands' words have. -/
theorem encodeOfDecode : Obligations.EncodeOfDecode := fun _ _ h => encode_decode h

/-- Settles O3: each class refuses a word for the items of R125 about it, and a refused word is blocked or raises ILLEGAL. -/
theorem illegalWordsExactly : Obligations.IllegalWordsExactly := by
  intro w
  refine ⟨decode_illegal_iff w, fun s rest inputs illegal => ?_⟩
  obtain ⟨why, hd⟩ := (decode_illegal_iff w).mpr illegal
  obtain ⟨encoder, decoder, bw⟩ := (s.withInputs rest).illegalWord_frame
  refine ⟨_, step_illegal inputs hd, encoder, decoder, bw, fun he => ⟨?_, State.observes_illegalWord he⟩, fun he => ?_⟩
  · rw [State.illegalWord_of_noError (s := s.withInputs rest) he, State.raise_ctl]
  · rw [State.illegalWord_of_error (s := s.withInputs rest) he]
    exact ⟨rfl, State.observes_blocked _⟩

/-- Settles O8: a command responds, raises or is blocked, and a step waits, resets, refuses a word or runs a command. -/
theorem everyCommandAnswers : Obligations.EveryCommandAnswers := ⟨step_answers, exec_answers⟩

/-- Settles O9: of the ways a command can go, all but being blocked and raising end in a successful response, and a body leaves
err and cause to the response. -/
theorem threeWaysToEnd : Obligations.ThreeWaysToEnd := by
  intro i s t h
  refine ⟨exec_inputs h, ?_⟩
  rcases exec_cases h with ⟨he, notRun, rfl⟩ | ⟨-, rfl⟩ | ⟨-, rfl⟩ | ⟨-, rfl⟩ | ⟨a, r, -, -, rfl⟩ |
    ⟨-, side, d, u, hb, rfl⟩ | ⟨he, side, c, u, hc, hb, rfl⟩ | ⟨he, -, rfl⟩
  · exact .inr (.inl ⟨he, notRun, rfl, rfl⟩)
  · exact .inl ⟨0, rfl, .inl rfl⟩
  · exact .inl ⟨0, rfl, .inr rfl⟩
  · exact .inl ⟨0, rfl, .inr rfl⟩
  · exact .inl ⟨_, rfl, .inl rfl⟩
  · have kept := body_hostKept side s
    have ctl := body_ctl side s
    rw [hb] at kept ctl
    exact .inl ⟨d, by rw [State.respond_responses, ← kept.responses]; rfl, .inl ctl⟩
  · have kept := body_hostKept side s
    rw [hb] at kept
    exact .inr (.inr ⟨he, c, hc, rfl, by rw [State.raise_responses, ← kept.responses]; rfl⟩)
  · exact .inr (.inr ⟨he, .illegal, by decide, rfl, rfl⟩)

/-- Settles O4: the words R130 lists, decoded. -/
theorem workedEncodings : Obligations.WorkedEncodings := by
  unfold Obligations.WorkedEncodings
  decide

end Sys2Proof
end

section
/-! The frequency counter (40_frequency_counter.md R160 to R162): what FC.CLEAR and FC.PUSH do to it and leave alone, and what its
invariant says of the counters together. -/

namespace Sys2Proof.Machine

/-! ### FC.CLEAR -/

theorem Fc.initial_freq (k : Nat) : tableGet Fc.initial.freq k = 0 := tableGet_zero 32 k

theorem Ect.initial_tables (k : Nat) : tableGet Ect.initial.len k = 0 ∧ tableGet Ect.initial.count k = 0 ∧
    tableGet Ect.initial.alpha k = 0 ∧ tableGet Ect.initial.code k = 0 :=
  ⟨tableGet_zero 8 k, tableGet_zero 9 k, tableGet_zero 8 k, tableGet_zero 255 k⟩

/-! ### FC.PUSH -/

theorem fcPush_of_built {s : State} (hb : s.ect.built = true) (b : Byte) : fcPush b s = .raised .sequence s :=
  if_pos hb

theorem fcPush_of_full {s : State} (hb : s.ect.built = false) (full : s.fc.msg.length = s.params.msgCap) (b : Byte) :
    fcPush b s = .raised .overflow s := by
  rw [fcPush, if_neg (ne_true_of_eq_false hb), if_pos full]

theorem fcPush_of_room {s : State} (hb : s.ect.built = false) (room : s.fc.msg.length ≠ s.params.msgCap) (b : Byte) :
    fcPush b s = .done 0 (s.setFc (s.fc.push b)) := by
  rw [fcPush, if_neg (ne_true_of_eq_false hb), if_neg room]

/-- A buffer that is not full is shorter than any counter can count (00_scope.md R7). -/
theorem State.Inv.msg_length_lt {s : State} (h : s.Inv) (room : s.fc.msg.length ≠ s.params.msgCap) :
    s.fc.msg.length < 2 ^ 32 - 1 :=
  have ⟨fits, _⟩ := memory_wf_iff.mp h.memory
  have ⟨_, cap, _⟩ := h.params
  (lt_of_le_of_ne fits room).trans_le cap

/-- Both counters count their message, so the counter of b grows by one as the message does, and does not wrap. -/
theorem Fc.push_freq {f : Fc} (h : f.Inv) (b : Byte) (short : f.msg.length < 2 ^ 32 - 1) (x : Byte) :
    (tableGet (f.push b).freq x.toNat).toNat = (tableGet f.freq x.toNat).toNat + if x = b then 1 else 0 := by
  have counts : (tableGet (f.push b).freq x.toNat).toNat = (f.msg ++ [b]).count x := Fc.push_inv h b short x
  rw [counts, h x, List.count_append, List.count_singleton]
  simp only [beq_iff_eq, eq_comm (a := b)]

/-! ### The counters together -/

theorem Fc.Inv.sum_freq {f : Fc} (h : f.Inv) :
    ((List.range 256).map fun k => (tableGet f.freq k).toNat).sum = f.msg.length := by
  rw [← count_sum f.msg]
  congr 1
  refine List.map_congr_left fun k hk => ?_
  rw [← h, BitVec.toNat_ofNat, Nat.mod_eq_of_lt (List.mem_range.mp hk)]

/-- No counter stands above 0 exactly when no byte occurs, which is when the message is empty. -/
theorem Fc.Inv.freq_eq_zero_iff {f : Fc} (h : f.Inv) : (∀ x : Byte, tableGet f.freq x.toNat = 0) ↔ f.msg.length = 0 := by
  rw [List.length_eq_zero_iff, List.eq_nil_iff_forall_not_mem]
  refine forall_congr' fun x => ?_
  rw [← List.count_eq_zero, ← h x, BitVec.toNat_eq]
  rfl

end Sys2Proof.Machine

namespace Sys2Proof

open Machine

/-- Settles O22: FC.CLEAR writes the two units FC and ECT, each to its reset value. -/
theorem fcClearStartsAnInput : Obligations.FcClearStartsAnInput := by
  refine ⟨decode_encode (i := .fcClear) rfl, fun s he => ⟨_, exec_of_done he (i := .fcClear) rfl, Fc.initial_freq, rfl,
    rfl, rfl, rfl, rfl, Ect.initial_tables, rfl, rfl, rfl, ⟨rfl, rfl⟩, State.observes_respond 0 rfl rfl ?_, ?_⟩⟩
  · exact (List.append_nil _).symm
  · exact fun noError cnt => ⟨noError, rfl, rfl, rfl, fun b => Fc.initial_freq b.toNat, cnt⟩

/-- Settles O23, along the checks of R161 in their order; the counter does not wrap because the buffer was not full. -/
theorem fcPushCountsAByte : Obligations.FcPushCountsAByte := by
  refine ⟨fun b => decode_encode (i := .fcPush b) rfl, fun s b inv he => ⟨fun built => ?_, fun unbuilt full => ?_,
    fun unbuilt room => ?_⟩⟩
  · exact State.raises_of_body he (fcPush_of_built built b)
  · exact State.raises_of_body he (fcPush_of_full unbuilt full b)
  · exact ⟨_, exec_of_done he (i := .fcPush b) (fcPush_of_room unbuilt room b), rfl,
      Fc.push_freq inv.fc b (inv.msg_length_lt room), rfl, rfl, rfl, rfl, ⟨rfl, rfl⟩,
      State.observes_respond 0 rfl rfl (List.append_nil _).symm⟩

/-- Settles O24: the counter's part of the invariant, which every step keeps, gives all three. -/
theorem frequenciesCountTheMessage : Obligations.FrequenciesCountTheMessage := by
  intro s t inv ht
  have counts : t.fc.Inv := (State.inv_keptByParts.step inv ht).fc
  exact ⟨counts, counts.sum_freq, counts.freq_eq_zero_iff⟩

end Sys2Proof
end

section
/-! The tree builder (41_tree_builder.md R180 to R186): the order of the queue and the leaves, what HT.BUILD leaves in the
encoder's table, and Kraft's sum and the cost of the lengths it writes. -/

namespace Sys2Proof.Machine

/-! ### The queue and its leaves (R180, R181) -/

theorem HeapNode.before_eq_false_iff {a b : HeapNode} :
    a.before b = false ↔ b.weight < a.weight ∨ (b.weight = a.weight ∧ b.index ≤ a.index) := by
  simp only [HeapNode.before, Bool.or_eq_false_iff, decide_eq_false_iff_not, Bool.and_eq_false_iff]
  omega

/-- freq[s] as a number. -/
def freqOf (freq : Table 32) (s : Byte) : Nat := (tableGet freq s.toNat).toNat

theorem leafNodes_get {freq : Table 32} {k : Nat} {x : HeapNode} (h : (leafNodes freq)[k]? = some x) :
    ∃ hk : k < (alphabet freq).length,
      x = { weight := freqOf freq (alphabet freq)[k], index := k, tree := .leaf (alphabet freq)[k] } := by
  obtain ⟨hk, rfl⟩ := List.getElem?_eq_some_iff.mp h
  exact ⟨leafNodes_length freq ▸ hk, List.getElem_mapIdx ..⟩

theorem mergeNodes_succ {h h1 h2 : List HeapNode} {a b : HeapNode} (ha : heapPopMin h = some (a, h1))
    (hb : heapPopMin h1 = some (b, h2)) (k next : Nat) :
    mergeNodes (k + 1) next h =
      mergeNodes k (next + 1)
        ({ weight := a.weight + b.weight, index := next, tree := .node a.tree b.tree } :: h2) := by
  simp only [mergeNodes, ha, hb]

theorem mem_leafNodes {freq : Table 32} {x : HeapNode} (h : x ∈ leafNodes freq) :
    ∃ b : Byte, x.tree = .leaf b ∧ x.weight = freqOf freq b := by
  obtain ⟨k, hk⟩ := List.mem_iff_getElem?.mp h
  obtain ⟨_, rfl⟩ := leafNodes_get hk
  exact ⟨_, rfl, rfl⟩

theorem leafNodes_weights (freq : Table 32) :
    (leafNodes freq).map HeapNode.weight = (alphabet freq).map (freqOf freq) := by
  refine List.ext_getElem (by simp [leafNodes]) fun k _ _ => ?_
  simp [leafNodes, freqOf]

/-! ### The lengths found (R182 to R184) -/

/-- The only symbol's length is 1, by convention and not by a tree (R182). -/
theorem symbolLengths_singleton {freq : Table 32} {x : Byte} (h : alphabet freq = [x]) : symbolLengths freq = [(x, 1)] := by
  simp only [symbolLengths, h]

/-- n − 1 merges leave the root alone, and the lengths are the depths below it (R181, R184). -/
theorem symbolLengths_root {freq : Table 32} (h : 2 ≤ (alphabet freq).length) :
    ∃ root : HeapNode, mergeNodes ((alphabet freq).length - 1) (alphabet freq).length (leafNodes freq) = [root] ∧
      symbolLengths freq = root.tree.depths 0 := by
  obtain ⟨-, left⟩ := mergeNodes_spec ((alphabet freq).length - 1) (alphabet freq).length (leafNodes freq)
    (by rw [leafNodes_length]; omega)
  rw [leafNodes_length, Nat.sub_sub_self (by omega)] at left
  obtain ⟨root, hroot⟩ := List.length_eq_one_iff.mp left
  refine ⟨root, hroot, ?_⟩
  unfold symbolLengths
  split
  · next empty => simp [empty] at h
  · next single => simp [single] at h
  · rw [hroot]

/-- The pairs found are the alphabet's symbols, each with its entry of the length table. -/
theorem symbolLengths_perm (freq : Table 32) :
    (symbolLengths freq).Perm ((alphabet freq).map fun s => (s, lengthOf (lengthTable freq) s.toNat)) := by
  have entries : symbolLengths freq =
      ((symbolLengths freq).map Prod.fst).map fun s => (s, lengthOf (lengthTable freq) s.toNat) := by
    rw [List.map_map, List.map_congr_left (g := id), List.map_id]
    exact fun p hp => Prod.ext rfl (lengthOf_lengthTable_mem hp)
  rw [entries]
  exact (symbolLengths_syms freq).map _

/-! ### Kraft's sum (R186 item 2) -/

theorem kraft_lengthTable {freq : Table 32} (h : alphabet freq ≠ []) :
    kraft (fun s => lengthOf (lengthTable freq) s.toNat) (alphabet freq) =
      if (alphabet freq).length = 1 then 1 / 2 else 1 := by
  have scaled := kraft_scaled (fun s => lengthOf (lengthTable freq) s.toNat) 255 (alphabet freq)
    fun s _ => lengthOf_le (lengthTable freq) s.toNat
  rw [lengthTable_kraft freq h] at scaled
  refine mul_right_cancel₀ (b := (2 : ℚ) ^ 255) (by positivity) (scaled.trans ?_)
  split <;> norm_num

/-! ### The cost of the lengths (R186 item 4) -/

/-- The bits the counted message takes when each symbol s has length L s (00_scope.md R1). -/
def messageBits (freq : Table 32) (L : Byte → Nat) : Nat :=
  ((alphabet freq).map fun s => freqOf freq s * L s).sum

/-- Each symbol's frequency with its length. -/
def weightedLengths (freq : Table 32) (L : Byte → Nat) : List (Nat × Nat) :=
  (alphabet freq).map fun s => (freqOf freq s, L s)

theorem weightedLengths_cost (freq : Table 32) (L : Byte → Nat) :
    pairCost (weightedLengths freq L) = messageBits freq L := by
  rw [pairCost, weightedLengths, List.map_map]; rfl

theorem weightedLengths_weights (freq : Table 32) (L : Byte → Nat) :
    (weightedLengths freq L).map Prod.fst = (leafNodes freq).map HeapNode.weight := by
  rw [leafNodes_weights, weightedLengths, List.map_map]; rfl

/-- Lengths of at most D that meet Kraft's inequality meet it in units of 2^−D. -/
theorem weightedLengths_kraft {freq : Table 32} {L : Byte → Nat} {D : Nat} (le_D : ∀ s ∈ alphabet freq, L s ≤ D)
    (hL : kraft L (alphabet freq) ≤ 1) : pairKraft D (weightedLengths freq L) ≤ 2 ^ D := by
  rw [pairKraft, weightedLengths, List.map_map, ← Nat.cast_le (α := ℚ)]
  calc _ = kraft L (alphabet freq) * 2 ^ D := (kraft_scaled L D (alphabet freq) le_D).symm
    _ ≤ 1 * 2 ^ D := by gcongr
    _ = _ := by push_cast; ring

theorem heapCost_leafNodes (f : Byte → Nat) (freq : Table 32) : heapCost f (leafNodes freq) = 0 := by
  refine List.sum_eq_zero fun c hc => ?_
  obtain ⟨x, hx, rfl⟩ := List.mem_map.mp hc
  obtain ⟨b, hb, -⟩ := mem_leafNodes hx
  simp [hb, CodeTree.cost, CodeTree.depths]

/-- The message costs what the merges cost: the weighted depths of the root's leaves. -/
theorem messageBits_lengthTable {freq : Table 32} (h : 2 ≤ (alphabet freq).length) :
    messageBits freq (fun s => lengthOf (lengthTable freq) s.toNat) =
      mergeCost ((alphabet freq).length - 1) (alphabet freq).length (leafNodes freq) := by
  obtain ⟨root, hroot, hdepths⟩ := symbolLengths_root h
  have masses : ∀ x ∈ leafNodes freq, x.weight = x.tree.mass (freqOf freq) := by
    intro x hx
    obtain ⟨b, htree, hweight⟩ := mem_leafNodes hx
    simp [htree, hweight, CodeTree.mass, CodeTree.syms]
  have merged := mergeNodes_cost (freqOf freq) ((alphabet freq).length - 1) (alphabet freq).length (leafNodes freq)
    (by rw [leafNodes_length]; omega) masses
  calc messageBits freq (fun s => lengthOf (lengthTable freq) s.toNat)
      = ((symbolLengths freq).map fun p => freqOf freq p.1 * p.2).sum := by
        rw [((symbolLengths_perm freq).map _).sum_eq, List.map_map]; rfl
    _ = heapCost (freqOf freq) [root] := by simp [hdepths, heapCost, CodeTree.cost]
    _ = mergeCost ((alphabet freq).length - 1) (alphabet freq).length (leafNodes freq) := by
        rw [← hroot, merged, heapCost_leafNodes, Nat.zero_add]

/-- No lengths that meet Kraft's inequality cost less than the merges. -/
theorem mergeCost_le_messageBits {freq : Table 32} (h : alphabet freq ≠ []) {L : Byte → Nat}
    (hL : kraft L (alphabet freq) ≤ 1) (next : Nat) :
    mergeCost ((alphabet freq).length - 1) next (leafNodes freq) ≤ messageBits freq L := by
  have le_sum : ∀ s ∈ alphabet freq, L s ≤ ((alphabet freq).map L).sum :=
    fun s hs => le_sum_of_mem (List.mem_map_of_mem hs)
  have size : (leafNodes freq).length = (alphabet freq).length - 1 + 1 := by
    rw [leafNodes_length, Nat.sub_add_cancel (List.length_pos_iff.mpr h)]
  calc mergeCost ((alphabet freq).length - 1) next (leafNodes freq) ≤ pairCost (weightedLengths freq L) :=
        mergeCost_le _ _ _ size (.of_eq (weightedLengths_weights freq L)) (List.forall_mem_map.mpr le_sum)
          (weightedLengths_kraft le_sum hL)
    _ = messageBits freq L := weightedLengths_cost freq L

/-- The lengths are optimal: with one symbol 1 is the least length allowed, with more the merges are the bound. -/
theorem messageBits_lengthTable_le {freq : Table 32} {L : Byte → Nat} (pos : ∀ s ∈ alphabet freq, 1 ≤ L s)
    (hL : kraft L (alphabet freq) ≤ 1) :
    messageBits freq (fun s => lengthOf (lengthTable freq) s.toNat) ≤ messageBits freq L := by
  by_cases h : 2 ≤ (alphabet freq).length
  · rw [messageBits_lengthTable h]
    exact mergeCost_le_messageBits (List.ne_nil_of_length_pos (by omega)) hL _
  · refine List.sum_le_sum fun s hs => Nat.mul_le_mul_left _ ?_
    calc lengthOf (lengthTable freq) s.toNat ≤ max ((alphabet freq).length - 1) 1 := (lengthOf_lengthTable_bound hs).2
      _ ≤ L s := max_le (by have := pos s hs; omega) (pos s hs)

/-! ### The command (R185) -/

theorem exec_htBuild {s : State} (he : s.ctl.err = false) :
    exec .htBuild s = .next ((s.setEct (Ect.build s.fc.freq)).respond 0) :=
  exec_of_done he (i := .htBuild) rfl

theorem htBuild_len {s t : State} (he : s.ctl.err = false) (ht : exec .htBuild s = .next t) :
    t.ect.len = lengthTable s.fc.freq := by
  rw [exec_htBuild he] at ht
  cases ht
  rfl

end Sys2Proof.Machine

namespace Sys2Proof

open Machine

/-- Settles O25: a pop is a permutation with the least node first, and the leaves stand in the alphabet's order. -/
theorem priorityOrderAndMerge : Obligations.PriorityOrderAndMerge := by
  refine ⟨fun h rest m hp => ⟨heapPopMin_perm hp, fun x hx => ?_⟩, fun h => heapPopMin_eq_none,
    fun freq k x hx => ?_, fun k next h h1 h2 a b ha hb => mergeNodes_succ ha hb k next⟩
  · have hxh : x ∈ h := (heapPopMin_perm hp).mem_iff.mpr (List.mem_cons_of_mem _ hx)
    exact HeapNode.before_eq_false_iff.mp (heapPopMin_min hp x hxh)
  · obtain ⟨hk, rfl⟩ := leafNodes_get hx
    have counted : tableGet freq (alphabet freq)[k].toNat ≠ 0 := mem_alphabet.mp (List.getElem_mem hk)
    exact ⟨rfl, _, rfl, rfl, Nat.pos_of_ne_zero fun h0 => counted (BitVec.eq_of_toNat_eq h0), alphabet_rank freq k hk⟩

/-- Settles O26: HT.BUILD writes the one unit ECT, whose lengths are those found for the alphabet. -/
theorem htBuildWritesLengths : Obligations.HtBuildWritesLengths := by
  refine ⟨decode_encode (i := .htBuild) rfl, fun s he => ⟨_, exec_htBuild he, rfl, rfl, rfl,
    fun k => (Ect.initial_tables k).2, Ect.build_asize s.fc.freq, fun x => mem_alphabet, fun x hx => ?_, fun x hx => ?_,
    fun h => ?_, rfl, rfl, rfl, rfl, ⟨rfl, rfl⟩, State.observes_respond 0 rfl rfl (List.append_nil _).symm⟩⟩
  · exact BitVec.eq_of_toNat_eq (lengthOf_lengthTable_not_mem hx)
  · have found : (x, 1) ∈ symbolLengths s.fc.freq := by
      rw [symbolLengths_singleton hx]; exact List.mem_singleton_self _
    exact BitVec.eq_of_toNat_eq (lengthOf_lengthTable_mem found)
  · obtain ⟨root, hroot, hdepths⟩ := symbolLengths_root h
    exact ⟨root, hroot, fun x hx => hdepths ▸ mem_symbolLengths hx⟩

/-- Settles O27: a tree of n leaves is at most n − 1 deep and fills Kraft's sum. -/
theorem htBuildLengthsMeetKraft : Obligations.HtBuildLengthsMeetKraft := by
  intro s t he ht
  rw [htBuild_len he ht]
  refine ⟨fun x => ⟨fun h => ?_, fun h => lengthOf_lengthTable_bound (mem_alphabet.mpr h)⟩, fun h => ?_, fun h => ?_⟩
  · exact BitVec.eq_of_toNat_eq (lengthOf_lengthTable_not_mem fun hx => mem_alphabet.mp hx h)
  · exact (kraft_lengthTable (List.ne_nil_of_length_pos (by omega))).trans (if_neg (by omega))
  · exact (kraft_lengthTable (List.ne_nil_of_length_pos (by omega))).trans (if_pos h)

/-- Settles O28, by the exchange argument of `mergeCost_le`. -/
theorem htBuildLengthsAreOptimal : Obligations.HtBuildLengthsAreOptimal := by
  intro s t L he ht pos hL
  rw [htBuild_len he ht]
  exact messageBits_lengthTable_le pos hL

end Sys2Proof
end

section
/-! The canonical codes (42_canonical_codes.md R200 to R207): the table CC.ASSIGN leaves, field by field, its alphabet as a
list, and that the codes fit their lengths and none is the beginning of another. -/

namespace Sys2Proof.Machine

/-! ### max_length and the counts (R200, R201) -/

theorem encTable_len_le_maxlen (freq : Table 32) (x : Byte) :
    (tableGet (encTable freq).len x.toNat).toNat ≤ (encTable freq).maxlen.toNat := by
  rw [encTable_maxlen]
  exact lengthOf_le_maxLength (lengthTable freq) x.toNat

theorem encTable_maxlen_attained (freq : Table 32) :
    (encTable freq).maxlen = 0 ∨ ∃ x : Byte, tableGet (encTable freq).len x.toNat = (encTable freq).maxlen := by
  rcases maxLength_attained (lengthTable freq) with all_zero | ⟨s, hs, longest⟩
  · exact .inl (BitVec.eq_of_toNat_eq ((encTable_maxlen freq).trans all_zero))
  · exact .inr ⟨BitVec.ofNatLT s hs, BitVec.eq_of_toNat_eq (longest.trans (encTable_maxlen freq).symm)⟩

theorem encTable_count_toNat (freq : Table 32) {l : Nat} (h : l < 256) :
    (tableGet (encTable freq).count l).toNat = if l = 0 then 0 else symbolCount (encTable freq).len l := by
  rw [encTable_count, encTable_len]
  split
  · next h0 => rw [h0, countTable_zero]; rfl
  · next h0 => rw [countTable_toNat _ h0 h, symbolCount_eq]

/-- The counts of all lengths sum to the alphabet's size (R207). -/
theorem encTable_count_sum (freq : Table 32) :
    ((List.range' 1 (encTable freq).maxlen.toNat).map fun l => (tableGet (encTable freq).count l).toNat).sum =
      (encTable freq).asize.toNat := by
  have counts : ∀ l ∈ List.range' 1 (encTable freq).maxlen.toNat,
      (tableGet (encTable freq).count l).toNat = lengthCount (lengthTable freq) l := by
    intro l hl
    have range := List.mem_range'_1.mp hl
    have maxlen_lt := (encTable freq).maxlen.isLt
    exact countTable_toNat _ (by omega) (by omega)
  rw [List.map_congr_left counts, encTable_maxlen, lengthCount_sum, codedSymbols_length, encTable_asize]

/-! ### The canonical alphabet as a list (R202, R207) -/

/-- x stands before y in canonical order: it is shorter, or as long and smaller (R202). -/
def CanonicalBefore (len : Table 8) (x y : Byte) : Prop :=
  (tableGet len x.toNat).toNat < (tableGet len y.toNat).toNat ∨
    (tableGet len x.toNat = tableGet len y.toNat ∧ x.toNat < y.toNat)

/-- The canonical alphabet and the alphabet are the same coded symbols, each once. -/
theorem headerAlphabet_perm (freq : Table 32) : (headerAlphabet freq).Perm (alphabet freq) := by
  rw [← List.map_perm_map_iff fun _ _ => BitVec.eq_of_toNat_eq, headerAlphabet_toNat, ← codedSymbols_lengthTable]
  exact canonicalAlphabet_perm (lengthTable freq)

theorem headerAlphabet_sorted (freq : Table 32) :
    (headerAlphabet freq).Pairwise (CanonicalBefore (lengthTable freq)) := by
  have sorted := canonicalAlphabet_sorted (lengthTable freq)
  rw [← headerAlphabet_toNat, List.pairwise_map] at sorted
  exact sorted.imp fun before => before.imp_right fun ⟨len_eq, lt⟩ => ⟨BitVec.eq_of_toNat_eq len_eq, lt⟩

theorem encTable_mem_alpha (freq : Table 32) (x : Byte) :
    tableGet (encTable freq).len x.toNat ≠ 0 ↔
      ∃ i, i < (encTable freq).asize.toNat ∧ tableGet (encTable freq).alpha i = x := by
  calc tableGet (encTable freq).len x.toNat ≠ 0 ↔ lengthOf (lengthTable freq) x.toNat ≠ 0 := (toNat_ne_zero_iff _).symm
    _ ↔ x ∈ headerAlphabet freq := lengthOf_lengthTable_pos_iff.trans (headerAlphabet_perm freq).mem_iff.symm
    _ ↔ _ := by rw [← encTable_alpha_list]; simp only [List.mem_map, List.mem_range]

theorem encTable_alpha_before (freq : Table 32) {i j : Nat} (hij : i < j) (hj : j < (encTable freq).asize.toNat) :
    CanonicalBefore (lengthTable freq) (tableGet (encTable freq).alpha i) (tableGet (encTable freq).alpha j) := by
  have sorted := headerAlphabet_sorted freq
  rw [← encTable_alpha_list, List.pairwise_map] at sorted
  have ordered := List.pairwise_iff_getElem.mp sorted i j
  simp only [List.length_range, List.getElem_range] at ordered
  exact ordered (hij.trans hj) hj hij

theorem encTable_alpha_beyond (freq : Table 32) {i : Nat} (h : (encTable freq).asize.toNat ≤ i) :
    tableGet (encTable freq).alpha i = 0 := by
  rw [encTable_asize, ← canonicalAlphabet_length] at h
  exact alphaTable_beyond (lengthTable freq) h

/-! ### The codes (R205, R206) -/

theorem codeTable_of_length_zero {len : Table 8} {x : Byte} (h : lengthOf len x.toNat = 0) :
    tableGet (codeTable len) x.toNat = 0 := by
  rw [codeTable, tableGet_tableOf_byte, if_pos h]

/-- A symbol outside the alphabet has code 0 and length 0, which fits too. -/
theorem codeTable_lt {len : Table 8} (hk : KraftOk len) (x : Byte) :
    (tableGet (codeTable len) x.toNat).toNat < 2 ^ lengthOf len x.toNat := by
  by_cases h : lengthOf len x.toNat = 0
  · rw [codeTable_of_length_zero h]
    exact Nat.two_pow_pos _
  · rw [codeTable_toNat hk x.isLt h]
    exact codeNat_lt hk x.isLt h

theorem codeTable_prefix_free {len : Table 8} (hk : KraftOk len) {x y : Byte} (hx : lengthOf len x.toNat ≠ 0)
    (hl : lengthOf len x.toNat ≤ lengthOf len y.toNat)
    (begins : (tableGet (codeTable len) y.toNat).toNat / 2 ^ (lengthOf len y.toNat - lengthOf len x.toNat) =
      (tableGet (codeTable len) x.toNat).toNat) : x = y := by
  rw [codeTable_toNat hk x.isLt hx, codeTable_toNat hk y.isLt (by omega)] at begins
  exact BitVec.eq_of_toNat_eq (codeNat_prefix_free len x.isLt y.isLt hx hl begins)

/-! ### The command (R204) -/

theorem ccAssign_of_unbuilt {s : State} (hb : s.ect.built = false) : ccAssign s = .raised .sequence s :=
  if_neg (ne_true_of_eq_false hb)

/-- The lengths of a built table are those of the counters, so the codes are the counters' too, whether or not CC.ASSIGN has
run before. -/
theorem ccAssign_of_built {s : State} (inv : s.Inv) (hb : s.ect.built = true) :
    ccAssign s = .done 0 (s.setEct (encTable s.fc.freq)) := by
  obtain ⟨assigned, -, -⟩ := inv.ect.built hb
  rw [ccAssign, if_pos hb, assigned]

end Sys2Proof.Machine

namespace Sys2Proof

open Machine

/-- Settles O29: CC.ASSIGN writes the one unit ECT, with the code table of the counters. -/
theorem ccAssignWritesCodes : Obligations.CcAssignWritesCodes := by
  refine ⟨decode_encode (i := .ccAssign) rfl, fun s inv he => ⟨fun unbuilt => ?_, fun built => ?_⟩⟩
  · exact State.raises_of_body he (ccAssign_of_unbuilt unbuilt)
  · obtain ⟨-, len_eq, asize_eq⟩ := inv.ect.built built
    exact ⟨_, exec_of_done he (i := .ccAssign) (ccAssign_of_built inv built), rfl, rfl, len_eq.symm, asize_eq.symm,
      encTable_len_le_maxlen s.fc.freq, encTable_maxlen_attained s.fc.freq, fun _ => encTable_count_toNat s.fc.freq,
      encTable_mem_alpha s.fc.freq, fun _ _ => encTable_alpha_before s.fc.freq, fun _ => encTable_alpha_beyond s.fc.freq,
      codeTable_formula _ (lengthTable_kraftOk s.fc.freq), rfl, rfl, rfl, rfl, ⟨rfl, rfl⟩,
      State.observes_respond 0 rfl rfl (List.append_nil _).symm⟩

/-- Settles O30: the lengths meet Kraft's inequality, under which canonical codes fit and none begins another. -/
theorem codesFitAndAreDistinguishable : Obligations.CodesFitAndAreDistinguishable := by
  intro s x inv assigned
  rw [inv.ect.assigned_eq assigned]
  have hk := lengthTable_kraftOk s.fc.freq
  exact ⟨codeTable_lt hk x, fun y ne coded shorter begins =>
    ne (codeTable_prefix_free hk ((toNat_ne_zero_iff _).mpr coded) shorter begins)⟩

/-- Settles O31: enc_alpha, read as a list, is the canonical alphabet, and each length lists its count of symbols. -/
theorem headerFieldsListTheAlphabet : Obligations.HeaderFieldsListTheAlphabet := by
  intro s inv assigned
  rw [inv.ect.assigned_eq assigned, encTable_alpha_list]
  exact ⟨encTable_count_sum s.fc.freq, headerAlphabet_perm s.fc.freq, headerAlphabet_sorted s.fc.freq⟩

end Sys2Proof
end

section
/-! The bit writer (43_bit_writer.md R220 to R228): what each BW command makes of the accumulator and emits, and what a run of
raw bytes, bits and BW.FINAL emits. -/

namespace Sys2Proof.Machine

/-! ### BW.BIT (R220) -/

/-- bw_acc with the bit ORed in at position bw_cnt. -/
def Bw.accWith (bit : Bool) (w : Bw) : Byte := w.acc ||| ((BitVec.ofBool bit).setWidth 8 <<< w.cnt.toNat)

/-- Whatever stands at and above bw_cnt, only position bw_cnt is written. -/
theorem Bw.accWith_getLsbD (bit : Bool) (w : Bw) {k : Nat} (hk : k < 8) :
    (w.accWith bit).getLsbD k = (w.acc.getLsbD k || (decide (k = w.cnt.toNat) && bit)) := by
  simp only [Bw.accWith, BitVec.getLsbD_or, BitVec.getLsbD_shiftLeft, BitVec.getLsbD_setWidth, BitVec.getLsbD_ofBool, hk]
  congr 1
  rcases lt_trichotomy k w.cnt.toNat with below | here | above
  · simp [below, below.ne]
  · simp [here]
  · simp [above.ne', above.not_gt, Nat.sub_ne_zero_of_lt above]

theorem Bw.writeBit_eighth {w : Bw} (full : w.cnt = 7) (bit : Bool) : w.writeBit bit = (Bw.initial, [w.accWith bit]) :=
  if_pos (by rw [full]; rfl)

theorem Bw.writeBit_earlier {w : Bw} (room : w.cnt ≠ 7) (bit : Bool) :
    w.writeBit bit = ({ acc := w.accWith bit, cnt := w.cnt + 1 }, []) :=
  if_neg fun full => room (BitVec.eq_of_toNat_eq (Nat.succ.inj full))

/-- Before the eighth bit the count does not wrap. -/
theorem Bw.cnt_succ {w : Bw} (room : w.cnt ≠ 7) : (w.cnt + 1).toNat = w.cnt.toNat + 1 := by
  bv_omega

theorem State.emitAll_nil (s : State) : s.emitAll [] = s := by
  simp [State.emitAll]

theorem State.bwWriteBits_singleton (bit : Bool) (s : State) :
    s.bwWriteBits [bit] = (s.setBw (s.bw.writeBit bit).1).emitAll (s.bw.writeBit bit).2 := by
  simp [State.bwWriteBits, Bw.writeBits]

theorem bwBit_eighth {s : State} (full : s.bw.cnt = 7) (bit : Bool) :
    bwBit bit s = .done 0 ((s.setBw Bw.initial).emitAll [s.bw.accWith bit]) := by
  rw [bwBit, State.bwWriteBits_singleton, Bw.writeBit_eighth full]

theorem bwBit_earlier {s : State} (room : s.bw.cnt ≠ 7) (bit : Bool) :
    bwBit bit s = .done 0 (s.setBw { acc := s.bw.accWith bit, cnt := s.bw.cnt + 1 }) := by
  rw [bwBit, State.bwWriteBits_singleton, Bw.writeBit_earlier room, State.emitAll_nil]

/-! ### BW.BYTE (R221) -/

theorem bwByte_of_pending {s : State} (pending : s.bw.cnt ≠ 0) (b : Byte) : bwByte b s = .raised .sequence s := by
  rw [bwByte, bwWriteByte, if_pos pending, Flow.bind_raised]

theorem bwByte_of_aligned {s : State} (aligned : s.bw.cnt = 0) (b : Byte) : bwByte b s = .done 0 (s.emit b) := by
  rw [bwByte, bwWriteByte, if_neg (not_not.mpr aligned), Flow.bind_done]

/-! ### BW.FINAL (R222) -/

theorem Bw.marker_toNat (w : Bw) : (w.cnt.setWidth 8).toNat = w.cnt.toNat :=
  BitVec.toNat_setWidth_of_le (by decide)

theorem Bw.finalBytes_of_aligned {w : Bw} (aligned : w.cnt = 0) : w.finalBytes = [w.cnt.setWidth 8] := by
  simp [Bw.finalBytes, aligned]

theorem Bw.finalBytes_of_pending {w : Bw} (pending : w.cnt ≠ 0) : w.finalBytes = [w.acc, w.cnt.setWidth 8] := by
  rw [Bw.finalBytes, if_pos (Nat.pos_of_ne_zero ((toNat_ne_zero_iff _).mpr pending))]; rfl

/-! ### Raw bytes, bits and BW.FINAL (R228) -/

/-- From an empty writer the run emits the raw bytes and the packed bits, one response each. -/
theorem execAll_bwStream (raw : List Byte) (bits : List Bool) {s : State} (he : s.ctl.err = false)
    (empty : s.bw = Bw.initial) :
    ∃ t, execAll (raw.map .bwByte ++ bits.map .bwBit ++ [.bwFinal]) s = .next t ∧
      s.Observes t (List.replicate (raw.length + bits.length + 1) (Response.ok 0)) (raw ++ packBits bits) := by
  obtain ⟨t1, run1, ctl1, bw1, sees1⟩ := execAll_bwByte raw s he (by rw [empty]; rfl)
  rw [empty] at bw1
  obtain ⟨t2, run2, ctl2, bw2, sees2⟩ := execAll_bwBit bits t1 (by rw [ctl1, he])
  rw [bw1] at bw2 sees2
  have run3 : exec .bwFinal t2 = .next (t2.bwFinalize.respond 0) := exec_of_done (by rw [ctl2, ctl1, he]) rfl
  have sees3 : t2.Observes (t2.bwFinalize.respond 0) [Response.ok 0] t2.bw.finalBytes :=
    State.observes_respond 0 rfl rfl rfl
  rw [bw2] at sees3
  refine ⟨t2.bwFinalize.respond 0, ?_, ?_⟩
  · rw [List.append_assoc, execAll_append run1, execAll_append run2, execAll_cons run3, execAll]
  · have responses : List.replicate (raw.length + bits.length + 1) (Response.ok 0) =
        List.replicate raw.length (Response.ok 0) ++ List.replicate bits.length (Response.ok 0) ++ [Response.ok 0] := by
      rw [List.replicate_succ', List.replicate_add]
    rw [responses, packBits, ← List.append_assoc]
    exact (sees1.trans sees2).trans sees3

end Sys2Proof.Machine

namespace Sys2Proof

open Machine

/-- Settles O32, along the two cases of R220: the byte is full or it is not. -/
theorem bwBitWritesABit : Obligations.BwBitWritesABit := by
  refine ⟨decode_encode (i := .bwBit false) rfl, decode_encode (i := .bwBit true) rfl, fun s bit he => ?_⟩
  by_cases full : s.bw.cnt = 7
  · exact ⟨_, exec_of_done he (i := .bwBit bit) (bwBit_eighth full bit), ⟨rfl, rfl, rfl⟩, ⟨rfl, rfl⟩, rfl,
      s.bw.accWith bit, fun _ => Bw.accWith_getLsbD bit s.bw,
      fun _ => ⟨rfl, rfl, State.observes_respond 0 rfl rfl rfl⟩, fun room => absurd full room⟩
  · exact ⟨_, exec_of_done he (i := .bwBit bit) (bwBit_earlier full bit), ⟨rfl, rfl, rfl⟩, ⟨rfl, rfl⟩, rfl,
      s.bw.accWith bit, fun _ => Bw.accWith_getLsbD bit s.bw,
      fun full' => absurd full' full,
      fun _ => ⟨rfl, Bw.cnt_succ full, State.observes_respond 0 rfl rfl (List.append_nil _).symm⟩⟩

/-- Settles O33: the one check of R221 decides. -/
theorem bwByteEmitsARawByte : Obligations.BwByteEmitsARawByte := by
  refine ⟨fun b => decode_encode (i := .bwByte b) rfl, fun s b he => ⟨fun pending => ?_, fun aligned => ?_⟩⟩
  · exact State.raises_of_body he (bwByte_of_pending pending b)
  · exact ⟨_, exec_of_done he (i := .bwByte b) (bwByte_of_aligned aligned b), ⟨⟨rfl, rfl, rfl⟩, ⟨rfl, rfl⟩, rfl, rfl⟩,
      State.observes_respond 0 rfl rfl rfl⟩

/-- Settles O34: BW.CLEAR writes the one unit BW, to its reset value. -/
theorem bwClearDropsPendingBits : Obligations.BwClearDropsPendingBits :=
  ⟨decode_encode (i := .bwClear) rfl, fun _ he => ⟨_, exec_of_done he (i := .bwClear) rfl, rfl, rfl, ⟨rfl, rfl, rfl⟩,
    ⟨rfl, rfl⟩, rfl, State.observes_respond 0 rfl rfl (List.append_nil _).symm⟩⟩

/-- Settles O35: BW.FINAL empties the writer and emits `Bw.finalBytes`, of which R222 has two cases. -/
theorem bwFinalEmitsTheTailMarker : Obligations.BwFinalEmitsTheTailMarker := by
  refine ⟨decode_encode (i := .bwFinal) rfl, fun s he => ⟨s.bwFinalize.respond 0, exec_of_done he rfl, rfl, rfl,
    ⟨rfl, rfl, rfl⟩, ⟨rfl, rfl⟩, rfl, s.bw.cnt.setWidth 8, Bw.marker_toNat s.bw, fun aligned => ?_, fun pending => ?_⟩⟩
  · rw [← Bw.finalBytes_of_aligned aligned]
    exact State.observes_respond 0 rfl rfl rfl
  · rw [← Bw.finalBytes_of_pending pending]
    exact State.observes_respond 0 rfl rfl rfl

/-- Settles O36: the invariant empties the accumulator, and what the bits are packed into holds them. -/
theorem tailMarkerIsRight : Obligations.TailMarkerIsRight := by
  intro s raw bits inv he aligned _
  obtain ⟨t, run, sees⟩ := execAll_bwStream raw bits he (Bw.eq_initial inv.bw aligned)
  obtain ⟨data, marker, packed, holds, marker_eq⟩ := packBits_holds bits
  rw [packed, ← List.append_assoc] at sees
  exact ⟨t, data, marker, run, sees, holds, marker_eq⟩

end Sys2Proof
end

section
/-! The bit reader (44_bit_reader.md R240 to R248): what the reader's operations do in each branch of their checks, what each
BR command makes of the queue, and a run of BR.BYTE and BR.BIT over what the bit writer wrote. -/

namespace Sys2Proof.Machine

/-! ### br_avail (R240) -/

/-- While no data byte is left to pop only the current byte's bits count; br_mark is the queue's last byte. -/
theorem Br.avail_of_readable {r : Br} (h : r.Readable) :
    r.avail = r.cnt.toNat +
      (if r.head + 1 < r.queue.length then
        8 * (r.queue.length - 1 - r.head - 1) +
          (if r.queue.getLast?.getD 0 = 0 then 8 else (r.queue.getLast?.getD 0).toNat)
      else 0) := by
  have left : 1 ≤ r.queue.length - 1 - r.head ↔ r.head + 1 < r.queue.length := by omega
  rw [Br.avail_eq_length h, Br.pendingBits, List.length_append, byteBits_length, unpackBytes_length, Br.dataBytes_length,
    ← List.getLastD_eq_getLast?]
  simp only [left]
  rfl

/-- The invariant bounds the queue by 2^28 − 1 bytes, so br_avail fits a register (00_scope.md R7). -/
theorem State.Inv.avail_lt {s : State} (h : s.Inv) : s.br.avail < 2 ^ 32 := by
  by_cases readable : s.br.Readable
  · obtain ⟨-, fits, -⟩ := memory_wf_iff.mp h.memory
    obtain ⟨-, -, -, cap⟩ := h.params
    obtain ⟨cnt, -⟩ := h.br
    have sig := Br.sig_le readable.2.2
    rw [Br.avail_eq_length readable, Br.pendingBits, List.length_append, byteBits_length, unpackBytes_length,
      Br.dataBytes_length]
    split <;> omega
  · rw [Br.avail_of_not_readable readable]
    decide

/-! ### BR.CLEAR (R243) -/

theorem Dct.initial_tables (k : Nat) : tableGet Dct.initial.alpha k = 0 ∧ tableGet Dct.initial.count k = 0 ∧
    tableGet Dct.initial.len k = 0 ∧ tableGet Dct.initial.code k = 0 :=
  ⟨tableGet_zero 8 k, tableGet_zero 9 k, tableGet_zero 8 k, tableGet_zero 255 k⟩

/-! ### BR.PUSH (R244) -/

theorem brPush_of_sealed {s : State} (closed : s.br.sealed = true) (b : Byte) : brPush b s = .raised .sequence s :=
  if_pos closed

theorem brPush_of_full {s : State} (unsealed : s.br.sealed = false) (full : s.br.queue.length = s.params.qCap) (b : Byte) :
    brPush b s = .raised .overflow s := by
  rw [brPush, if_neg (ne_true_of_eq_false unsealed), if_pos full]

theorem brPush_of_room {s : State} (unsealed : s.br.sealed = false) (room : s.br.queue.length ≠ s.params.qCap) (b : Byte) :
    brPush b s = .done 0 (s.setBr (s.br.append b)) := by
  rw [brPush, if_neg (ne_true_of_eq_false unsealed), if_neg room]

/-! ### BR.END (R245) -/

theorem brEnd_of_sealed {s : State} (closed : s.br.sealed = true) : brEnd s = .raised .sequence s :=
  if_pos closed

/-- A marker above 7 is the last byte of a queue that is not empty. -/
theorem brEnd_of_badmark {s : State} (unsealed : s.br.sealed = false) (bad : 7 < s.br.mark.toNat) :
    brEnd s = .raised .badmark (s.setBr { s.br with sealed := true }) := by
  have nonempty : s.br.queue ≠ [] := by
    intro empty
    rw [Br.mark, empty] at bad
    exact absurd bad (by decide)
  rw [brEnd, if_neg (ne_true_of_eq_false unsealed), if_pos ⟨nonempty, bad⟩]

theorem brEnd_of_valid {s : State} (unsealed : s.br.sealed = false) (valid : s.br.mark.toNat ≤ 7) :
    brEnd s = .done 0 (s.setBr { s.br with sealed := true }) := by
  rw [brEnd, if_neg (ne_true_of_eq_false unsealed), if_neg fun bad => absurd bad.2 (Nat.not_lt.mpr valid)]

/-! ### `br_read_bit` (R241) -/

theorem Br.readBit_of_unsealed {r : Br} (unsealed : r.sealed = false) : r.readBit = .error .sequence :=
  if_pos unsealed

theorem Br.readBit_of_empty {r : Br} (closed : r.sealed = true) (empty : r.queue = []) : r.readBit = .error .exhausted := by
  rw [Br.readBit, if_neg (ne_false_of_eq_true closed), if_pos empty]

theorem Br.readBit_of_badmark {r : Br} (closed : r.sealed = true) (nonempty : r.queue ≠ []) (bad : 7 < r.mark.toNat) :
    r.readBit = .error .badmark := by
  rw [Br.readBit, if_neg (ne_false_of_eq_true closed), if_neg nonempty, if_pos bad]

/-- Over a readable queue only the boundary is left to check. -/
theorem Br.readBit_of_readable {r : Br} (h : r.Readable) : r.readBit =
    if r.cnt = 0 then if r.remaining = 0 then .error .exhausted else .ok r.popByte.takeBit else .ok r.takeBit := by
  obtain ⟨closed, nonempty, valid⟩ := h
  rw [Br.readBit, if_neg (ne_false_of_eq_true closed), if_neg nonempty, if_neg (Nat.not_lt.mpr valid)]

/-- The count of a current byte with a bit left does not wrap. -/
theorem Br.takeBit_cnt {r : Br} (pending : r.cnt ≠ 0) : r.takeBit.2.cnt.toNat = r.cnt.toNat - 1 := by
  change (r.cnt - 1).toNat = _
  bv_omega

/-! ### `br_read_byte` (R242) -/

theorem Br.readByte_of_unsealed_or_pending {r : Br} (h : r.sealed = false ∨ r.cnt ≠ 0) :
    r.readByte = .error .sequence := by
  by_cases unsealed : r.sealed = false
  · exact if_pos unsealed
  · rw [Br.readByte, if_neg unsealed, if_pos (h.resolve_left unsealed)]

theorem Br.readByte_of_empty {r : Br} (closed : r.sealed = true) (aligned : r.cnt = 0) (empty : r.queue = []) :
    r.readByte = .error .exhausted := by
  rw [Br.readByte, if_neg (ne_false_of_eq_true closed), if_neg (not_not.mpr aligned), if_pos empty]

theorem Br.readByte_of_badmark {r : Br} (closed : r.sealed = true) (aligned : r.cnt = 0) (nonempty : r.queue ≠ [])
    (bad : 7 < r.mark.toNat) : r.readByte = .error .badmark := by
  rw [Br.readByte, if_neg (ne_false_of_eq_true closed), if_neg (not_not.mpr aligned), if_neg nonempty, if_pos bad]

/-- At a byte boundary of a readable queue only the data bytes left are still to check. -/
theorem Br.readByte_of_readable {r : Br} (h : r.Readable) (aligned : r.cnt = 0) : r.readByte =
    if r.remaining = 0 then .error .exhausted else .ok (r.front, { r with head := r.head + 1 }) := by
  obtain ⟨closed, nonempty, valid⟩ := h
  rw [Br.readByte, if_neg (ne_false_of_eq_true closed), if_neg (not_not.mpr aligned), if_neg nonempty,
    if_neg (Nat.not_lt.mpr valid)]

/-! ### BR.BIT and BR.BYTE (R246, R247) -/

theorem brBit_of_error {s : State} {c : Cause} (h : s.br.readBit = .error c) : brBit s = .raised c s := by
  rw [brBit, brReadBit, h, Flow.bind_raised]

theorem brBit_of_ok {s : State} {b : Bool} {r : Br} (h : s.br.readBit = .ok (b, r)) :
    brBit s = .done ((BitVec.ofBool b).setWidth 32) (s.setBr r) := by
  rw [brBit, brReadBit, h, Flow.bind_done]

theorem brByte_of_error {s : State} {c : Cause} (h : s.br.readByte = .error c) : brByte s = .raised c s := by
  rw [brByte, brReadByte, h, Flow.bind_raised]

theorem brByte_of_ok {s : State} {v : Byte} {r : Br} (h : s.br.readByte = .ok (v, r)) :
    brByte s = .done (v.setWidth 32) (s.setBr r) := by
  rw [brByte, brReadByte, h, Flow.bind_done]

/-- The bit returned as a number: the byte modulo 2. -/
theorem lowBit_setWidth (b : Byte) : (BitVec.ofBool (b.getLsbD 0)).setWidth 32 = BitVec.ofNat 32 (b.toNat % 2) := by
  rw [BitVec.getLsbD, Nat.testBit_zero]
  rcases Nat.mod_two_eq_zero_or_one b.toNat with even | odd
  · rw [even]; rfl
  · rw [odd]; rfl

/-- BR.BIT takes the low bit of the byte it reads from: the current byte, or the one popped at a byte boundary. -/
theorem exec_brBit_of_take {s : State} (he : s.ctl.err = false) {r : Br} (h : s.br.readBit = .ok r.takeBit) :
    exec .brBit s = .next ((s.setBr r.takeBit.2).respond (BitVec.ofNat 32 (r.cur.toNat % 2))) := by
  rw [← lowBit_setWidth]
  exact exec_of_done he (brBit_of_ok h)

/-! ### Reading back what was written (R248) -/

/-- The queue of a stream: its marker is the last byte and its data bytes are all before it. -/
theorem Br.stream_parts {r : Br} {bytes : List Byte} {marker : Byte} (start : r.head = 0)
    (queue : r.queue = bytes ++ [marker]) : r.mark = marker ∧ r.dataBytes = bytes := by
  rw [Br.mark, Br.dataBytes, queue, start]
  simp

theorem Br.sig_of_marker {r : Br} {n : Nat} (h : r.mark.toNat = n) : r.sig = if n = 0 then 8 else n := by
  rw [Br.sig, ← h]
  exact if_congr BitVec.toNat_eq rfl rfl

end Sys2Proof.Machine

namespace Sys2Proof

open Machine

/-- Settles O37: br_avail fits the register, and counts the bits still to be read. -/
theorem significantBitsLeft : Obligations.SignificantBitsLeft := by
  intro s inv
  have value : (BitVec.ofNat 32 s.br.avail).toNat = s.br.avail :=
    (BitVec.toNat_ofNat ..).trans (Nat.mod_eq_of_lt inv.avail_lt)
  refine ⟨_, s.reads_addr .brAvail, fun unreadable => ?_, fun readable => ⟨?_, ?_⟩⟩
  · exact value.trans (Br.avail_of_not_readable unreadable)
  · exact value.trans (Br.avail_eq_length readable)
  · exact value.trans (Br.avail_of_readable readable)

/-- Settles O41, along the checks of R241 in their order; a bit taken comes from the current byte or from the one popped. -/
theorem brBitReadsABit : Obligations.BrBitReadsABit := by
  refine ⟨decode_encode (i := .brBit) rfl, fun s he => ⟨fun unsealed => ?_, fun closed empty => ?_,
    fun closed nonempty bad => ?_, fun readable aligned none_left => ?_, fun readable bit_left => ?_⟩⟩
  · exact State.raises_of_body he (brBit_of_error (Br.readBit_of_unsealed unsealed))
  · exact State.raises_of_body he (brBit_of_error (Br.readBit_of_empty closed empty))
  · exact State.raises_of_body he (brBit_of_error (Br.readBit_of_badmark closed nonempty bad))
  · refine State.raises_of_body he (brBit_of_error ?_)
    rw [Br.readBit_of_readable readable, if_pos aligned, if_pos none_left]
  · have read := Br.readBit_of_readable readable
    by_cases aligned : s.br.cnt = 0
    · rw [if_pos aligned, if_neg (bit_left.resolve_left (not_not.mpr aligned))] at read
      have valid := readable.2.2
      exact ⟨_, s.br.front, s.br.popByte.cnt.toNat, exec_brBit_of_take he read, fun pending => absurd aligned pending,
        fun _ => ⟨rfl, Br.popByte_cnt valid, rfl⟩, rfl, Br.takeBit_cnt (Br.popByte_cnt_ne valid), rfl, rfl, rfl,
        ⟨rfl, rfl, rfl⟩, rfl, rfl, State.observes_respond _ rfl rfl (List.append_nil _).symm⟩
    · rw [if_neg aligned] at read
      exact ⟨_, s.br.cur, s.br.cnt.toNat, exec_brBit_of_take he read, fun _ => ⟨rfl, rfl, rfl⟩,
        fun aligned' => absurd aligned' aligned, rfl, Br.takeBit_cnt aligned, rfl, rfl, rfl, ⟨rfl, rfl, rfl⟩, rfl, rfl,
        State.observes_respond _ rfl rfl (List.append_nil _).symm⟩

/-- Settles O43: the marker makes the data bytes' significant bits the bits written, which BR.BIT reads one by one. -/
theorem readerAgreesWithWriter : Obligations.ReaderAgreesWithWriter := by
  intro s raw data bits marker he closed start aligned queue some_bit holds marker_eq
  obtain ⟨mark, bytes⟩ := Br.stream_parts start queue
  rw [← mark] at marker_eq
  have readable : s.br.Readable := ⟨closed, by simp [queue], by omega⟩
  obtain ⟨t, run_raw, ctl_t, br_t, sees_raw⟩ := execAll_brByte raw s data he readable aligned bytes
  have readable_t : t.br.Readable := by rw [br_t]; exact Br.skip_readable readable _
  have pending : t.br.pendingBits = bits := by
    rw [br_t, Br.skip_pendingBits aligned, bytes, List.drop_left, Br.sig_of_marker marker_eq, holds.unpack some_bit]
  have he_t : t.ctl.err = false := by rw [ctl_t, he]
  obtain ⟨u, run_bits, ctl_u, readable_u, boundary, sees_bits⟩ :=
    execAll_brBit bits t [] he_t readable_t (by rw [pending, List.append_nil])
  refine ⟨t, u, run_raw, sees_raw, ?_, run_bits, sees_bits, ?_, ?_⟩
  · rw [Br.avail_eq_length readable_t, pending]
  · rw [Br.avail_eq_length readable_u, boundary, List.length_nil]
  · exact State.raises_of_body (by rw [ctl_u, he_t]) (brBit_of_error (Br.readBit_exhausted readable_u boundary))

/-- Settles O38: BR.CLEAR writes the two units BR and DCT, each to its reset value. -/
theorem brClearEmptiesTheQueue : Obligations.BrClearEmptiesTheQueue :=
  ⟨decode_encode (i := .brClear) rfl, fun _ he => ⟨_, exec_of_done he (i := .brClear) rfl, rfl, rfl, rfl, rfl, rfl, rfl,
    rfl, rfl, rfl, Dct.initial_tables, rfl, rfl, ⟨rfl, rfl, rfl⟩, rfl, rfl,
    State.observes_respond 0 rfl rfl (List.append_nil _).symm, fun noError => ⟨noError, rfl, rfl, rfl, rfl, rfl, rfl⟩⟩⟩

/-- Settles O39, along the checks of R244 in their order. -/
theorem brPushAppendsAByte : Obligations.BrPushAppendsAByte := by
  refine ⟨fun b => decode_encode (i := .brPush b) rfl, fun s b he => ⟨fun closed => ?_, fun unsealed full => ?_,
    fun unsealed room => ?_⟩⟩
  · exact State.raises_of_body he (brPush_of_sealed closed b)
  · exact State.raises_of_body he (brPush_of_full unsealed full b)
  · exact ⟨_, exec_of_done he (i := .brPush b) (brPush_of_room unsealed room b), rfl, rfl, ⟨rfl, rfl, rfl⟩, rfl, rfl,
      State.observes_respond 0 rfl rfl (List.append_nil _).symm⟩

/-- Settles O40: the queue is sealed whatever its marker, which decides the response alone. -/
theorem brEndSealsTheQueue : Obligations.BrEndSealsTheQueue := by
  refine ⟨decode_encode (i := .brEnd) rfl, fun s he => ⟨fun closed => ?_, fun unsealed => ?_⟩⟩
  · exact State.raises_of_body he (brEnd_of_sealed closed)
  · rw [← List.getLastD_eq_getLast?]
    rcases Nat.lt_or_ge 7 s.br.mark.toNat with bad | valid
    · exact ⟨_, exec_of_raised he (i := .brEnd) (brEnd_of_badmark unsealed bad), rfl, rfl, ⟨rfl, rfl, rfl⟩, rfl,
        fun _ => ⟨rfl, State.observes_raise _ rfl rfl (List.append_nil _).symm⟩,
        fun valid => absurd bad (Nat.not_lt.mpr valid)⟩
    · exact ⟨_, exec_of_done he (i := .brEnd) (brEnd_of_valid unsealed valid), rfl, rfl, ⟨rfl, rfl, rfl⟩, rfl,
        fun bad => absurd bad (Nat.not_lt.mpr valid),
        fun _ => ⟨rfl, State.observes_respond 0 rfl rfl (List.append_nil _).symm⟩⟩

/-- Settles O42, along the checks of R242 in their order. -/
theorem brByteReadsARawByte : Obligations.BrByteReadsARawByte := by
  refine ⟨decode_encode (i := .brByte) rfl, fun s he => ⟨fun inside => ?_, fun closed aligned empty => ?_,
    fun closed aligned nonempty bad => ?_, fun readable aligned none_left => ?_, fun readable aligned byte_left => ?_⟩⟩
  · exact State.raises_of_body he (brByte_of_error (Br.readByte_of_unsealed_or_pending inside))
  · exact State.raises_of_body he (brByte_of_error (Br.readByte_of_empty closed aligned empty))
  · exact State.raises_of_body he (brByte_of_error (Br.readByte_of_badmark closed aligned nonempty bad))
  · refine State.raises_of_body he (brByte_of_error ?_)
    rw [Br.readByte_of_readable readable aligned, if_pos none_left]
  · have read := Br.readByte_of_readable readable aligned
    rw [if_neg byte_left] at read
    refine ⟨_, exec_of_done he (i := .brByte) (brByte_of_ok read), rfl, rfl, ⟨rfl, rfl, rfl⟩, rfl, rfl, ?_⟩
    rw [BitVec.ofNat_toNat]
    exact State.observes_respond _ rfl rfl (List.append_nil _).symm

end Sys2Proof
end

section
/-! The encoder (45_encoder.md R270 to R274): what ENC.EMIT does in each branch of its checks, the header byte by byte, how many
payload bits there are, ENC.RUN as its three parts, and the empty input and stream. -/

namespace Sys2Proof.Machine

/-- A command that emits nothing is observed as its response alone. -/
theorem State.observes_quiet {s u : State} (d : Word) (h : u.port = s.port) :
    s.Observes (u.respond d) [Response.ok d] [] :=
  State.observes_respond d (by rw [h]) (by rw [h]) (by rw [h, List.append_nil])

/-! ### ENC.EMIT (R271) -/

theorem encEmit_of_unassigned {s : State} (unassigned : s.ect.assigned = false) : encEmit s = .raised .sequence s :=
  if_pos unassigned

theorem encEmit_of_empty {s : State} (assigned : s.ect.assigned = true) (empty : s.fc.msg = []) :
    encEmit s = .done 0 s := by
  rw [encEmit, if_neg (ne_false_of_eq_true assigned), if_pos empty]

theorem encEmit_of_pending {s : State} (assigned : s.ect.assigned = true) (nonempty : s.fc.msg ≠ [])
    (pending : s.bw.cnt ≠ 0) : encEmit s = .raised .sequence s := by
  rw [encEmit, if_neg (ne_false_of_eq_true assigned), if_neg nonempty,
    bwWriteBytes_pending s.ect.headerBytes_ne_nil pending, Flow.bind_raised]

/-- At a byte boundary the bytes go out, whatever the accumulator holds. -/
theorem encEmit_of_aligned {s : State} (assigned : s.ect.assigned = true) (nonempty : s.fc.msg ≠ [])
    (aligned : s.bw.cnt = 0) : encEmit s =
      .done 0 ((s.emitAll s.ect.headerBytes).bwWriteBits (s.ect.payloadBits s.fc.msg)).bwFinalize := by
  rw [encEmit, if_neg (ne_false_of_eq_true assigned), if_neg nonempty, bwWriteBytes_aligned _ aligned, Flow.bind_done]

/-! ### The header (R270) -/

theorem Ect.headerBytes_length (e : Ect) : e.headerBytes.length = e.asize.toNat + e.maxlen.toNat + 2 := by
  simp only [Ect.headerBytes, List.length_cons, List.length_append, List.length_map, List.length_range, List.length_range']
  omega

theorem Ect.headerBytes_size {e : Ect} (h : e.asize.toNat ≤ 256) :
    (e.headerBytes.getD 0 0).toNat = e.asize.toNat - 1 := by
  rw [Ect.headerBytes, List.getD_cons_zero, BitVec.toNat_ofNat]
  omega

theorem Ect.headerBytes_alpha {e : Ect} {i : Nat} (h : i < e.asize.toNat) :
    e.headerBytes.getD (1 + i) 0 = tableGet e.alpha i := by
  rw [Ect.headerBytes, Nat.add_comm, List.getD_cons_succ, List.getD_append _ _ _ _ (by simpa using h)]
  simp [h]

/-- Behind the alphabet stand max_length and the counts. -/
theorem Ect.headerBytes_behind_alpha (e : Ect) (k : Nat) : e.headerBytes.getD (e.asize.toNat + 1 + k) 0 =
    (e.maxlen :: (List.range' 1 e.maxlen.toNat).map fun l => (tableGet e.count l).setWidth 8).getD k 0 := by
  rw [Ect.headerBytes, Nat.add_right_comm, List.getD_cons_succ, List.getD_append_right _ _ _ _ (by simp)]
  simp

theorem Ect.headerBytes_maxlen (e : Ect) : e.headerBytes.getD (e.asize.toNat + 1) 0 = e.maxlen :=
  e.headerBytes_behind_alpha 0

theorem Ect.headerBytes_count {e : Ect} {l : Nat} (h1 : 1 ≤ l) (h2 : l ≤ e.maxlen.toNat) :
    (e.headerBytes.getD (e.asize.toNat + 1 + l) 0).toNat = (tableGet e.count l).toNat % 256 := by
  obtain ⟨k, rfl⟩ := Nat.exists_eq_add_of_le' h1
  rw [e.headerBytes_behind_alpha, List.getD_cons_succ]
  simp [Nat.lt_of_succ_le h2, Nat.add_comm]

/-! ### The payload bits (R274) -/

theorem Fc.Inv.mem_alphabet {f : Fc} (h : f.Inv) {x : Byte} (hx : x ∈ f.msg) : x ∈ alphabet f.freq := by
  rw [Machine.mem_alphabet]
  intro uncounted
  have counted : f.msg.count x = 0 := by rw [← h x, uncounted]; rfl
  exact List.count_eq_zero.mp counted hx

/-- A list of codes with the code of a symbol of the alphabet among them has a bit. -/
theorem codesBits_length_pos {freq : Table 32} {cs : List (Nat × Code)} {x : Byte} (hx : x ∈ alphabet freq)
    (hc : symbolCode freq x.toNat ∈ cs) : 0 < (codesBits cs).length := by
  have coded : 0 < (symbolCode freq x.toNat).1 := Nat.pos_of_ne_zero (lengthOf_ne_zero_of_mem hx)
  have some_bit : codeBits (symbolCode freq x.toNat).1 (symbolCode freq x.toNat).2 ≠ [] :=
    List.ne_nil_of_length_pos (by rwa [codeBits_length])
  exact List.length_pos_iff.mpr fun no_bit => some_bit (List.flatMap_eq_nil_iff.mp no_bit _ hc)

/-- The code table and a non-empty message have a code each. -/
theorem encTable_payloadBits_length {freq : Table 32} {msg : List Byte} (counted : ∀ x ∈ msg, x ∈ alphabet freq)
    (nonempty : msg ≠ []) : 2 ≤ ((encTable freq).payloadBits msg).length := by
  obtain ⟨x, hx⟩ := List.exists_mem_of_ne_nil msg nonempty
  have table : 0 < (codesBits (canonicalCodes freq)).length := codesBits_length_pos (counted x hx)
    (List.mem_map_of_mem (mem_canonicalAlphabet.mpr ⟨x.isLt, lengthOf_ne_zero_of_mem (counted x hx)⟩))
  have message : 0 < (codesBits (msg.map fun s => symbolCode freq s.toNat)).length :=
    codesBits_length_pos (counted x hx) (List.mem_map_of_mem hx)
  rw [encTable_payloadBits, List.length_append]
  omega

/-! ### ENC.RUN (R272) -/

/-- The state with the counters' table built and its codes assigned: what HT.BUILD and CC.ASSIGN make of a state. -/
def State.coded (s : State) : State := s.setEct (encTable s.fc.freq)

theorem ccAssign_of_build {s : State} (h : s.ect = Ect.build s.fc.freq) : ccAssign s = .done 0 s.coded := by
  have built : s.ect.built = true := by rw [h]; rfl
  rw [ccAssign, if_pos built, h]
  rfl

/-- HT.BUILD sets enc_built, so CC.ASSIGN does not raise. -/
theorem encRun_eq (s : State) : encRun s = encEmit s.coded := by
  rw [encRun, htBuild, Flow.bind_done, ccAssign_of_build rfl, Flow.bind_done]
  rfl

/-- On their own the first two parts leave that state with their two responses. -/
theorem execAll_encParts {s t : State} (he : s.ctl.err = false)
    (emit : exec .encEmit ((s.coded.respond 0).respond 0) = .next t) :
    execAll [.htBuild, .ccAssign, .encEmit] s = .next t := by
  have assign : exec .ccAssign ((s.setEct (Ect.build s.fc.freq)).respond 0) = .next ((s.coded.respond 0).respond 0) :=
    exec_of_done (i := .ccAssign) he (ccAssign_of_build rfl)
  rw [execAll_cons (exec_htBuild he), execAll_cons assign, execAll_cons emit, execAll]

/-- The writer afterwards and the bytes emitted depend on the message, the table and the writer alone. -/
theorem encEmit_of_ready {s : State} (assigned : s.ect.assigned = true) (ready : s.fc.msg = [] ∨ s.bw.cnt = 0) :
    ∃ (w : Bw) (bs : List Byte), ∀ v : State, v.ect = s.ect → v.fc = s.fc → v.bw = s.bw →
      encEmit v = .done 0 ((v.setBw w).emitAll bs) := by
  by_cases empty : s.fc.msg = []
  · refine ⟨s.bw, [], fun v ect fc bw => ?_⟩
    rw [encEmit_of_empty (by rw [ect, assigned]) (by rw [fc, empty]), State.emitAll_nil, ← bw]
    rfl
  · refine ⟨Bw.initial, s.ect.headerBytes ++ ((s.bw.writeBits (s.ect.payloadBits s.fc.msg)).2 ++
      (s.bw.writeBits (s.ect.payloadBits s.fc.msg)).1.finalBytes), fun v ect fc bw => ?_⟩
    rw [encEmit_of_aligned (by rw [ect, assigned]) (by rwa [fc]) (by rw [bw, ready.resolve_left empty]), ← ect, ← fc, ← bw]
    simp only [State.bwFinalize, State.bwWriteBits, State.emitAll, State.setBw, List.append_assoc]

/-! ### The empty stream (46_decoder.md R298) -/

theorem decRun_of_empty {s : State} (closed : s.br.sealed = true) (empty : s.br.queue = []) :
    decRun s = .done 0 (s.setDct Dct.initial.setDone) := by
  rw [decRun, if_neg (ne_false_of_eq_true closed), if_pos empty]

end Sys2Proof.Machine

namespace Sys2Proof

open Machine

/-- Settles O44, along the checks of R271 in their order; the invariant makes the table that of the message's counters. -/
theorem encEmitWritesTheWireFormat : Obligations.EncEmitWritesTheWireFormat := by
  refine ⟨decode_encode (i := .encEmit) rfl, fun s inv he => ⟨fun unassigned => ?_, fun assigned empty => ?_,
    fun assigned nonempty pending => ?_, fun assigned nonempty aligned => ?_⟩⟩
  · exact State.raises_of_body he (encEmit_of_unassigned unassigned)
  · exact ⟨_, exec_of_done he (i := .encEmit) (encEmit_of_empty assigned empty), ⟨⟨rfl, rfl, rfl⟩, ⟨rfl, rfl⟩, rfl, rfl⟩,
      State.observes_quiet 0 rfl⟩
  · exact State.raises_of_body he (encEmit_of_pending assigned nonempty pending)
  · have emits := encEmit_emits assigned nonempty (Bw.eq_initial inv.bw aligned)
    have size : s.ect.asize.toNat ≤ 256 := by
      rw [inv.ect.assigned_eq assigned, encTable_asize]
      exact alphabet_length_le s.fc.freq
    have some_bits : 2 ≤ (s.ect.payloadBits s.fc.msg).length := by
      rw [inv.ect.assigned_eq assigned]
      exact encTable_payloadBits_length (fun x => inv.fc.mem_alphabet) nonempty
    obtain ⟨data, marker, packed, holds, marker_eq⟩ := packBits_holds (s.ect.payloadBits s.fc.msg)
    rw [Ect.stream, packed, ← List.append_assoc] at emits
    rw [wireBits_eq] at some_bits holds marker_eq
    exact ⟨_, s.ect.headerBytes, data, marker, exec_of_done he (i := .encEmit) emits,
      ⟨⟨rfl, rfl, rfl⟩, ⟨rfl, rfl⟩, rfl, rfl⟩, State.observes_respond 0 rfl rfl rfl, s.ect.headerBytes_length,
      Ect.headerBytes_size size, fun i => Ect.headerBytes_alpha, congrArg BitVec.toNat s.ect.headerBytes_maxlen,
      fun l => Ect.headerBytes_count, holds, marker_eq, some_bits⟩

/-- Settles O45: ENC.EMIT goes the same way from the state ENC.RUN reaches and from the one the two commands reach, which differ
in the responses only. -/
theorem encRunIsItsThreeParts : Obligations.EncRunIsItsThreeParts := by
  refine ⟨decode_encode (i := .encRun) rfl, fun s he => ?_⟩
  by_cases ready : s.fc.msg = [] ∨ s.bw.cnt = 0
  · obtain ⟨w, bs, emits⟩ := encEmit_of_ready (s := s.coded) rfl ready
    refine ⟨_, _, Response.ok 0, exec_of_done he (i := .encRun) ((encRun_eq s).trans (emits _ rfl rfl rfl)),
      execAll_encParts he (exec_of_done he (i := .encEmit) (emits _ rfl rfl rfl)), ⟨⟨rfl, rfl, rfl⟩, ⟨rfl, rfl⟩, rfl, rfl⟩,
      rfl, ?_, rfl, rfl, rfl, rfl, rfl, rfl, ⟨rfl, rfl⟩, fun _ => ⟨rfl, rfl⟩,
      fun nonempty pending => absurd ready (not_or.mpr ⟨nonempty, pending⟩)⟩
    simp [State.coded, Response.ok]
  · obtain ⟨nonempty, pending⟩ := not_or.mp ready
    have raises : ∀ v : State, v.ect = s.coded.ect → v.fc = s.fc → v.bw = s.bw → encEmit v = .raised .sequence v :=
      fun v ect fc bw => encEmit_of_pending (by rw [ect]; rfl) (by rwa [fc]) (by rwa [bw])
    refine ⟨_, _, Response.error .sequence, exec_of_raised he (i := .encRun) ((encRun_eq s).trans (raises _ rfl rfl rfl)),
      execAll_encParts he (exec_of_raised he (i := .encEmit) (raises _ rfl rfl rfl)),
      ⟨⟨rfl, rfl, rfl⟩, ⟨rfl, rfl⟩, rfl, rfl⟩, rfl, ?_, rfl, rfl, rfl, rfl, rfl, rfl, ⟨rfl, rfl⟩,
      fun ready' => absurd ready' ready, fun _ _ => ⟨rfl, rfl, rfl, rfl⟩⟩
    simp [State.coded, Response.ok, Response.error]

/-- Settles O46: FC.CLEAR empties the message, of which ENC.RUN then emits nothing; BR.CLEAR and BR.END leave a sealed empty
queue, of which DEC.RUN then decodes nothing. -/
theorem emptyInputEmptyStream : Obligations.EmptyInputEmptyStream := by
  intro s he
  refine ⟨?_, ?_, fun closed empty => ?_⟩
  · have clear : exec .fcClear s = .next (((s.setFc Fc.initial).setEct Ect.initial).respond 0) := exec_of_done he rfl
    have run := exec_of_done (s := ((s.setFc Fc.initial).setEct Ect.initial).respond 0) (i := .encRun) he
      ((encRun_eq _).trans (encEmit_of_empty rfl rfl))
    exact ⟨_, (execAll_cons clear).trans (execAll_cons run),
      (State.observes_quiet 0 rfl).trans (State.observes_quiet 0 rfl)⟩
  · have clear : exec .brClear s = .next (((s.setBr Br.initial).setDct Dct.initial).respond 0) := exec_of_done he rfl
    have finish := exec_of_done (s := ((s.setBr Br.initial).setDct Dct.initial).respond 0) (i := .brEnd) he
      (brEnd_of_valid rfl (Nat.zero_le 7))
    have run := exec_of_done (s := ((((s.setBr Br.initial).setDct Dct.initial).respond 0).setBr
      { Br.initial with sealed := true }).respond 0) (i := .decRun) he (decRun_of_empty rfl rfl)
    exact ⟨_, (execAll_cons clear).trans ((execAll_cons finish).trans (execAll_cons run)), rfl,
      ((State.observes_quiet 0 rfl).trans (State.observes_quiet 0 rfl)).trans (State.observes_quiet 0 rfl)⟩
  · exact ⟨_, exec_of_done he (i := .decRun) (decRun_of_empty closed empty), rfl, rfl, ⟨rfl, rfl, rfl⟩, rfl, rfl,
      State.observes_quiet 0 rfl⟩

end Sys2Proof
end

section
/-! The decoder's table (46_decoder.md R290 to R292, R295): where DEC.TABLE ends over a header and the bits behind it, and what it
has read by then. -/

namespace Sys2Proof.Machine

/-! ### Headers (R290, R291) -/

/-- At the reader's byte boundary stands a whole header with alphabet A, max_length m and count bytes C, and behind it the data
bytes D. -/
structure Br.HasHeader (r : Br) (A : List Byte) (m : Byte) (C D : List Byte) : Prop where
  readable : r.Readable
  aligned  : r.cnt = 0
  data     : r.dataBytes = BitVec.ofNat 8 (A.length - 1) :: (A ++ m :: (C ++ D))
  nonempty : 1 ≤ A.length
  size     : A.length ≤ 256
  counted  : C.length = m.toNat

/-- The header passes the checks of R292: max_length is not 0 and the counts sum to the alphabet's size. -/
def HeaderConsistent (A : List Byte) (m : Byte) (C : List Byte) : Prop :=
  m ≠ 0 ∧ ((List.range' 1 m.toNat).map (headerCount A.length m C)).sum = A.length

/-- dec_count of a whole header, as reconstructed (R291). -/
def headerCountAt (A : List Byte) (m : Byte) (C : List Byte) (l : Nat) : Nat :=
  if 1 ≤ l ∧ l ≤ m.toNat then headerCount A.length m C l else 0

/-- The lengths of the codes a header announces, in order (R290). -/
def headerLengths (A : List Byte) (m : Byte) (C : List Byte) : List Nat :=
  (List.range' 1 m.toNat).flatMap fun l => List.replicate (headerCount A.length m C l) l

theorem mem_headerLengths {A C : List Byte} {m : Byte} {l : Nat} (h : l ∈ headerLengths A m C) : 1 ≤ l ∧ l ≤ m.toNat := by
  obtain ⟨k, mem_range, mem_replicate⟩ := List.mem_flatMap.mp h
  rw [List.eq_of_mem_replicate mem_replicate]
  rw [List.mem_range'_1] at mem_range
  omega

/-- A consistent header announces one code for each alphabet byte. -/
theorem HeaderConsistent.lengths_length {A C : List Byte} {m : Byte} (h : HeaderConsistent A m C) :
    (headerLengths A m C).length = A.length := by
  rw [headerLengths, List.length_flatMap]
  simpa using h.2

/-- The codes of a consistent header, all of them or the first ones, are no more than the tables hold. -/
theorem HeaderConsistent.codes_le {A C : List Byte} {m : Byte} {ls more : List Nat} (h : HeaderConsistent A m C)
    (size : A.length ≤ 256) (begins : ls ++ more = headerLengths A m C) :
    ls.length ≤ 256 ∧ ∀ l ∈ ls, 1 ≤ l ∧ l ≤ m.toNat := by
  refine ⟨?_, fun l hl => mem_headerLengths (begins ▸ List.mem_append_left more hl)⟩
  have total := congrArg List.length begins
  rw [h.lengths_length, List.length_append] at total
  omega

/-! ### DEC.TABLE (R295) -/

/-- A code with its value as a number, as the decoder holds it. -/
def codeOf (c : Nat × Nat) : Nat × Code := (c.1, BitVec.ofNat 255 c.2)

theorem codeOf_toNat {c : Nat × Nat} (hl : c.1 ≤ 255) (fits : c.2 < 2 ^ c.1) : (codeOf c).2.toNat = c.2 :=
  (BitVec.toNat_ofNat ..).trans (Nat.mod_eq_of_lt (fits.trans_le (Nat.pow_le_pow_right (by decide) hl)))

theorem codeOf_bits {c : Nat × Nat} (hl : c.1 ≤ 255) : codeBits (codeOf c).1 (codeOf c).2 = bitsOf c :=
  codeBits_bitsOf c.1 c.2 hl

/-- A whole table is read: a consistent header and the codes it announces (R290). -/
theorem decReadTable_whole {s : State} {A C D : List Byte} {m : Byte} {codes : List (Nat × Nat)} {rest : List Bool}
    (header : s.br.HasHeader A m C D) (consistent : HeaderConsistent A m C)
    (lengths : codes.map Prod.fst = headerLengths A m C) (fits : ∀ c ∈ codes, c.2 < 2 ^ c.1)
    (bits : unpackBytes s.br.sig D = codes.flatMap bitsOf ++ rest) :
    ∃ (r : Br) (d : Dct), decReadTable s = .done () ((s.setBr r).setDct d.setReady) ∧
      d.PartOfTable A.length A m (headerCountAt A m C) codes ∧ r.Readable ∧ r.pendingBits = rest := by
  obtain ⟨readable, aligned, data, nonempty, size, counted⟩ := header
  obtain ⟨few, bounds⟩ := consistent.codes_le size ((List.append_nil _).trans lengths)
  have short : ∀ c ∈ codes, c.1 ≤ 255 := fun c hc =>
    (bounds c.1 (List.mem_map_of_mem hc)).2.trans (Nat.le_of_lt_succ m.isLt)
  have firsts : (codes.map codeOf).map Prod.fst = codes.map Prod.fst := List.map_map
  have values : (codes.map codeOf).map (fun c => (c.1, c.2.toNat)) = codes := by
    rw [List.map_map]
    calc codes.map ((fun c => (c.1, c.2.toNat)) ∘ codeOf) = codes.map id := List.map_congr_left fun c hc =>
          congrArg (Prod.mk c.1) (codeOf_toNat (short c hc) (fits c hc))
      _ = codes := List.map_id codes
  have coded : (codes.map codeOf).flatMap (fun c => codeBits c.1 c.2) = codes.flatMap bitsOf := by
    rw [List.flatMap_map]
    exact flatMap_congr_mem fun c hc => codeOf_bits (short c hc)
  obtain ⟨r, read, pending, readable_r⟩ := decReadTable_data (cs := codes.map codeOf) readable aligned data nonempty size
    consistent.1 counted ((Dct.ofHeader_countSum A nonempty size counted).trans consistent.2)
    (by rw [firsts, lengths, Dct.ofHeader_codeLengths A nonempty size counted, headerLengths])
    (List.forall_mem_map.mpr fun c hc => (codeOf_toNat (short c hc) (fits c hc)).trans_lt (fits c hc))
    (by rw [coded, bits])
  have part := Dct.ofHeader_part (cs := codes.map codeOf) nonempty size counted (by simpa using few)
    (List.forall_mem_map.mpr short)
  rw [values] at part
  exact ⟨r, _, read, part, readable_r, pending⟩

theorem decTable_of_unsealed {s : State} (unsealed : s.br.sealed = false) : decTable s = .raised .sequence s :=
  if_pos unsealed

theorem decTable_of_done {s t : State} (closed : s.br.sealed = true) (read : decReadTable s = .done () t) :
    decTable s = .done 0 t := by
  rw [decTable, if_neg (ne_false_of_eq_true closed), read, Flow.bind_done]

theorem decTable_of_raised {s t : State} {c : Cause} (closed : s.br.sealed = true) (read : decReadTable s = .raised c t) :
    decTable s = .raised c t := by
  rw [decTable, if_neg (ne_false_of_eq_true closed), read, Flow.bind_raised]

/-- A header that fails the checks of R292 is read whole, and stays. -/
theorem decReadTable_inconsistent {s : State} {A C D : List Byte} {m : Byte} (header : s.br.HasHeader A m C D)
    (bad : m = 0 ∨ ((List.range' 1 m.toNat).map (headerCount A.length m C)).sum ≠ A.length) :
    ∃ d : Dct, decReadTable s = .raised .badhdr ((s.setBr (s.br.skip (A.length + 2 + C.length))).setDct d) ∧
      d.PartOfTable A.length A m (headerCountAt A m C) [] := by
  obtain ⟨readable, aligned, data, nonempty, size, counted⟩ := header
  exact ⟨_, decReadTable_badhdr readable aligned data nonempty size counted bad,
    Dct.ofHeader_part (cs := []) nonempty size counted (Nat.zero_le 256) fun c hc => nomatch hc⟩

theorem Dct.initial_part : Dct.initial.PartOfTable 0 [] 0 (fun _ => 0) [] := by
  refine ⟨rfl, rfl, rfl, fun i => (Dct.initial_tables i).1, rfl, fun l => ?_, fun i => ⟨?_, ?_⟩, rfl, rfl⟩
  · rw [(Dct.initial_tables l).2.1]; rfl
  · rw [(Dct.initial_tables i).2.2.1]; rfl
  · rw [(Dct.initial_tables i).2.2.2]; rfl

/-- The first byte cannot be read, for each of the four reasons of R242 (R290). -/
theorem Br.readByte_first {r : Br} {c : Cause}
    (h : (r.sealed = true ∧ r.cnt ≠ 0 ∧ c = .sequence) ∨ (r.sealed = true ∧ r.cnt = 0 ∧ r.queue = [] ∧ c = .exhausted) ∨
      (r.sealed = true ∧ r.cnt = 0 ∧ r.queue ≠ [] ∧ 7 < r.mark.toNat ∧ c = .badmark) ∨
      (r.Readable ∧ r.cnt = 0 ∧ r.dataBytes = [] ∧ c = .exhausted)) :
    r.sealed = true ∧ r.readByte = .error c := by
  rcases h with ⟨closed, inside, rfl⟩ | ⟨closed, aligned, empty, rfl⟩ | ⟨closed, aligned, nonempty, bad, rfl⟩ |
    ⟨readable, aligned, none_left, rfl⟩
  · exact ⟨closed, Br.readByte_of_unsealed_or_pending (.inr inside)⟩
  · exact ⟨closed, Br.readByte_of_empty closed aligned empty⟩
  · exact ⟨closed, Br.readByte_of_badmark closed aligned nonempty bad⟩
  · exact ⟨readable.1, Br.readByte_exhausted readable aligned none_left⟩

/-- Where the data bytes end inside the header, what was read of it stays: the count of length l is byte a + 1 + l behind the
first byte a (R290). -/
theorem decReadTable_inside_header {s : State} {a : Byte} {xs : List Byte} (readable : s.br.Readable)
    (aligned : s.br.cnt = 0) (data : s.br.dataBytes = a :: xs)
    (ends : xs.length < a.toNat + 2 + (xs.getD (a.toNat + 1) 0).toNat) :
    ∃ d : Dct, decReadTable s = .raised .exhausted ((s.setBr (s.br.skip (xs.length + 1))).setDct d) ∧
      d.PartOfTable (a.toNat + 1) (xs.take (a.toNat + 1)) (xs.getD (a.toNat + 1) 0)
        (fun l => if 1 ≤ l then (xs.getD (a.toNat + 1 + l) 0).toNat else 0) [] := by
  have ha := a.isLt
  have hm := (xs.getD (a.toNat + 1) 0).isLt
  have part := Dct.ofBytes_part a (A := xs.take (a.toNat + 1)) (xs.getD (a.toNat + 1) 0) (C := xs.drop (a.toNat + 2))
    (by rw [List.length_take]; omega) (by rw [List.length_drop]; omega)
  have count_byte : ∀ l, 1 ≤ l → (xs.drop (a.toNat + 2)).getD (l - 1) 0 = xs.getD (a.toNat + 1 + l) 0 := by
    intro l hl
    rw [List.getD_eq_getElem?_getD, List.getElem?_drop, List.getD_eq_getElem?_getD,
      show a.toNat + 2 + (l - 1) = a.toNat + 1 + l by omega]
  refine ⟨_, decReadTable_short readable aligned data ends, ?_⟩
  convert part using 2 with l
  split
  · next hl => rw [count_byte l hl]
  · rfl

/-- Where the bits end inside the codes of a consistent header, the codes before the one cut short stay (R290). -/
theorem decReadTable_inside_codes {s : State} {A C D : List Byte} {m : Byte} (header : s.br.HasHeader A m C D)
    (consistent : HeaderConsistent A m C)
    (ends : (unpackBytes s.br.sig D).length < ((List.range' 1 m.toNat).map fun l => l * headerCount A.length m C l).sum) :
    ∃ (d : Dct) (codes : List (Nat × Nat)) (rest : List Bool) (l : Nat) (more : List Nat),
      decReadTable s = .raised .exhausted ((s.setBr (s.br.skip (A.length + 2 + C.length)).drained).setDct d) ∧
      codes.map Prod.fst ++ l :: more = headerLengths A m C ∧ (∀ c ∈ codes, c.2 < 2 ^ c.1) ∧
      unpackBytes s.br.sig D = codes.flatMap bitsOf ++ rest ∧ rest.length < l ∧
      d.PartOfTable A.length A m (headerCountAt A m C) codes := by
  obtain ⟨readable, aligned, data, nonempty, size, counted⟩ := header
  obtain ⟨cs, rest, l, more, raises, begins, fits, bits, cut⟩ :=
    decReadTable_codesShort readable aligned data nonempty size consistent.1 counted consistent.2 ends
  obtain ⟨few, bounds⟩ := consistent.codes_le size begins
  have short : ∀ c ∈ cs, c.1 ≤ 255 := fun c hc =>
    (bounds c.1 (List.mem_map_of_mem hc)).2.trans (Nat.le_of_lt_succ m.isLt)
  refine ⟨_, cs.map fun c : Nat × Code => (c.1, c.2.toNat), rest, l, more, raises, ?_, List.forall_mem_map.mpr fits, ?_, cut,
    Dct.ofHeader_part (cs := cs) nonempty size counted (by simpa using few) short⟩
  · rw [List.map_map]
    exact begins
  · rw [bits, List.flatMap_map]
    refine congrArg (· ++ rest) (flatMap_congr_mem fun c hc => ?_)
    rw [← codeBits_bitsOf c.1 c.2.toNat (short c hc), BitVec.ofNat_toNat, BitVec.setWidth_eq]

end Sys2Proof.Machine

namespace Sys2Proof

open Machine

/-- Settles O47: a whole table is read, and what is left of the bits stays to be read. -/
theorem decTableReadsTheTable : Obligations.DecTableReadsTheTable := by
  intro s A C D m codes rest he readable aligned data nonempty size coded counted sum lengths fits bits
  obtain ⟨r, d, read, part, -, pending⟩ :=
    decReadTable_whole ⟨readable, aligned, data, nonempty, size, counted⟩ ⟨coded, sum⟩ lengths fits bits
  have only := decReadTable_state s
  rw [read] at only
  obtain ⟨-, done, asize, alpha, maxlen, count, len_code, cand, candLen⟩ := part
  exact ⟨_, exec_of_done he (i := .decTable) (decTable_of_done readable.1 read), rfl, done, asize, alpha, maxlen, count,
    len_code, cand, candLen, pending, only.queue, only.sealed, ⟨rfl, rfl, rfl⟩, rfl, rfl, State.observes_quiet 0 rfl⟩

/-- Settles O48: both checks of R292 come behind the whole header. -/
theorem decTableChecksTheHeader : Obligations.DecTableChecksTheHeader := by
  intro s A C D m he readable aligned data nonempty size counted bad
  obtain ⟨d, raises, part⟩ := decReadTable_inconsistent ⟨readable, aligned, data, nonempty, size, counted⟩ bad
  obtain ⟨t, raised, br, dct⟩ := decTable_raisesTo he readable.1 raises
  refine ⟨t, raised, br.trans ?_, dct ▸ part⟩
  simp [Br.skip, Nat.add_assoc]

/-- Settles O49, along the places where reading a table may end: before the first byte, inside the header, inside the codes. -/
theorem decTableErrors : Obligations.DecTableErrors := by
  refine ⟨decode_encode (i := .decTable) rfl, fun s he => ⟨fun unsealed => ?_, fun c first => ?_,
    fun a xs readable aligned data ends => ?_,
    fun A C D m readable aligned data nonempty size coded counted sum ends => ?_⟩⟩
  · exact State.raises_of_body he (decTable_of_unsealed unsealed)
  · obtain ⟨closed, unread⟩ := Br.readByte_first first
    obtain ⟨t, raised, br, dct⟩ := decTable_raisesTo he closed (decReadTable_first unread)
    exact ⟨t, raised, br, dct ▸ Dct.initial_part⟩
  · obtain ⟨d, raises, part⟩ := decReadTable_inside_header readable aligned data ends
    obtain ⟨t, raised, br, dct⟩ := decTable_raisesTo he readable.1 raises
    refine ⟨t, raised, br.trans ?_, dct ▸ part⟩
    simp [Br.skip, Nat.add_assoc, Nat.add_comm 1]
  · obtain ⟨d, codes, rest, l, more, raises, begins, fits, bits, cut, part⟩ := decReadTable_inside_codes
      ⟨readable, aligned, data, nonempty, size, counted⟩ ⟨coded, sum⟩ ends
    obtain ⟨t, raised, br, dct⟩ := decTable_raisesTo he readable.1 raises
    refine ⟨t, codes, rest, l, more, raised, br.trans ((Br.skip_drained aligned _).trans ?_), begins, fits, bits, cut,
      dct ▸ part⟩
    rw [data, drop_header]
    simp only [Nat.add_assoc]

end Sys2Proof
end

section
/-! The decoder's symbols (46_decoder.md R293, R294, R296): what DEC.SYM makes of the bits to be read, with a match, at the
boundary, and without a match. -/

namespace Sys2Proof.Machine

/-! ### DEC.SYM (R296) -/

theorem decSym_of_unready {s : State} (unready : s.dct.ready = false) : decSym s = .raised .sequence s :=
  if_pos unready

theorem decSym_of_end {s t : State} (ready : s.dct.ready = true) (ends : decDecodeSymbol s = .done none t) :
    decSym s = .done 0x100 t := by
  rw [decSym, if_neg (ne_false_of_eq_true ready), ends, Flow.bind_done]

theorem decSym_of_symbol {s t : State} {v : Byte} (ready : s.dct.ready = true)
    (symbol : decDecodeSymbol s = .done (some v) t) : decSym s = .done (v.setWidth 32) t := by
  rw [decSym, if_neg (ne_false_of_eq_true ready), symbol, Flow.bind_done]

theorem decSym_of_raised {s t : State} {c : Cause} (ready : s.dct.ready = true)
    (raises : decDecodeSymbol s = .raised c t) : decSym s = .raised c t := by
  rw [decSym, if_neg (ne_false_of_eq_true ready), raises, Flow.bind_raised]

/-- The reader r has taken some of r0's significant bits, and `rest` is left. -/
structure Br.LeftWith (r0 : Br) (rest : List Bool) (r : Br) : Prop where
  readable : r.Readable
  pending  : r.pendingBits = rest
  queue    : r.queue = r0.queue
  sealed   : r.sealed = r0.sealed

/-- The bits Q are read without a match: they are the candidate, and matching goes on behind them (R294). -/
theorem decDecodeSymbol_unmatched {s : State} {Q rest : List Bool} (readable : s.br.Readable)
    (pending : s.br.pendingBits = Q ++ rest) (some_bit : Q ++ rest ≠ []) (short : Q.length < s.dct.maxlen.toNat)
    (unmatched : ∀ n j, 0 < n → n ≤ Q.length → ¬ s.dct.HasCode (Q.take n) j) :
    ∃ r, s.br.LeftWith rest r ∧ decDecodeSymbol s =
      (decMatch (rest.length + 1) ((s.setBr r).setDct (s.dct.withCand Q))).bind fun v t => .done (some v) t := by
  have avail : s.br.avail = Q.length + rest.length := by
    rw [Br.avail_eq_length readable, pending, List.length_append]
  have left : s.br.avail ≠ 0 := by
    rw [avail, ← List.length_append]
    exact List.length_pos_iff.mpr some_bit |>.ne'
  have code_width := s.dct.maxlen.isLt
  obtain ⟨r, skips, readable_r, pending_r, queue, closed⟩ := decMatch_skip Q [] rest (s.br.avail + 1)
    (s.setDct s.dct.clearCand) readable pending (by rw [List.nil_append]; omega) short (by omega) rfl rfl
    fun n pos le j => unmatched n j pos le
  rw [List.nil_append, avail, Nat.add_assoc, Nat.add_sub_cancel_left, ← Nat.add_assoc, ← avail] at skips
  refine ⟨r, ⟨readable_r, pending_r, queue, closed⟩, ?_⟩
  rw [decDecodeSymbol, if_neg left, skips]
  rfl

/-- The bits end inside the candidate P (R294). -/
theorem decDecodeSymbol_short {s : State} {P : List Bool} (readable : s.br.Readable)
    (pending : s.br.pendingBits = P) (some_bit : P ≠ []) (short : P.length < s.dct.maxlen.toNat)
    (unmatched : ∀ n j, 0 < n → n ≤ P.length → ¬ s.dct.HasCode (P.take n) j) :
    ∃ r, s.br.LeftWith [] r ∧ decDecodeSymbol s = .raised .exhausted ((s.setBr r).setDct (s.dct.withCand P)) := by
  rw [← P.append_nil] at pending some_bit
  obtain ⟨r, left, goes_on⟩ := decDecodeSymbol_unmatched readable pending some_bit short unmatched
  refine ⟨r, left, ?_⟩
  rw [goes_on, decMatch, brReadBit_short (s := (s.setBr r).setDct (s.dct.withCand P)) left.readable left.pending]
  rfl

/-- No beginning of the max_length bits P is a code (R294). -/
theorem decDecodeSymbol_nomatch {s : State} {P rest : List Bool} (readable : s.br.Readable)
    (pending : s.br.pendingBits = P ++ rest) (some_bit : P ≠ []) (full : P.length = s.dct.maxlen.toNat)
    (unmatched : ∀ n j, 0 < n → n ≤ P.length → ¬ s.dct.HasCode (P.take n) j) :
    ∃ r, s.br.LeftWith rest r ∧ decDecodeSymbol s = .raised .nomatch ((s.setBr r).setDct (s.dct.withCand P)) := by
  have code_width := s.dct.maxlen.isLt
  obtain ⟨Q, b, rfl⟩ : ∃ Q b, P = Q ++ [b] := ⟨P.dropLast, P.getLast some_bit, (List.dropLast_append_getLast some_bit).symm⟩
  have last : (Q ++ [b]).length = Q.length + 1 := List.length_append
  obtain ⟨r, left, goes_on⟩ := decDecodeSymbol_unmatched (rest := b :: rest) readable
    (by rw [pending, List.append_assoc]; rfl) (by simp) (by omega) fun n j pos le => by
      rw [← List.take_append_of_le_length le]
      exact unmatched n j pos (by omega)
  obtain ⟨r', readable', pending', queue', closed', next⟩ := decMatch_next (s := (s.setBr r).setDct (s.dct.withCand Q))
    (P0 := Q) (fuel := (b :: rest).length) left.readable left.pending rfl rfl
  refine ⟨r', ⟨readable', pending', queue'.trans left.queue, closed'.trans left.sealed⟩, ?_⟩
  have none_matches : (s.dct.withCand (Q ++ [b])).lookup (BitVec.ofNat 8 (Q ++ [b]).length) (bitsValue (Q ++ [b])) = none :=
    Dct.lookup_none (by omega) fun j => by
      have := unmatched _ j (by omega) (le_refl (Q ++ [b]).length)
      rwa [List.take_length] at this
  have at_max : (s.dct.withCand (Q ++ [b])).candLen = s.dct.maxlen :=
    BitVec.eq_of_toNat_eq (by rw [← full]; exact Nat.mod_eq_of_lt (by omega))
  rw [goes_on, next (s.dct.withCand (Q ++ [b])) rfl, none_matches]
  exact congrArg (Flow.bind · fun v t => .done (some v) t) (if_pos at_max)

/-- The candidate P as the registers show it. -/
theorem Dct.withCand_bits (d : Dct) {P : List Bool} (short : P.length ≤ 255) :
    (d.withCand P).candLen.toNat = P.length ∧
      ∀ k, k < P.length → (d.withCand P).cand.getLsbD (P.length - 1 - k) = P.getD k false :=
  ⟨Nat.mod_eq_of_lt (by omega), bitsValue_bits P short⟩

end Sys2Proof.Machine

namespace Sys2Proof

open Machine

/-- Settles O50: at the boundary the end is found; else the first match is emitted, and no bit behind it is taken. -/
theorem decSymDecodesASymbol : Obligations.DecSymDecodesASymbol := by
  refine ⟨decode_encode (i := .decSym) rfl, fun s he => ⟨fun unready => ?_, fun ready boundary => ?_,
    fun P rest i ready readable pending some_bit short code smallest first => ?_⟩⟩
  · exact State.raises_of_body he (decSym_of_unready unready)
  · exact ⟨_, exec_of_done he (i := .decSym) (decSym_of_end ready (decDecodeSymbol_end boundary)), rfl, rfl,
      ⟨rfl, rfl, rfl⟩, rfl, rfl, State.observes_quiet 0x100 rfl⟩
  · obtain ⟨r, -, pending_r, queue, closed, symbol⟩ :=
      decDecodeSymbol_first readable pending some_bit short code smallest first
    refine ⟨_, exec_of_done he (i := .decSym) (decSym_of_symbol ready symbol), pending_r, queue, closed, rfl,
      ⟨rfl, rfl, rfl⟩, rfl, rfl, ?_⟩
    rw [BitVec.ofNat_toNat]
    exact State.observes_respond _ rfl rfl rfl

/-- Settles O51: the candidate reaches max_length or the bits end before, and either way it stays. -/
theorem decSymFindsACorruptStream : Obligations.DecSymFindsACorruptStream := by
  intro s P rest he ready readable pending some_bit short unmatched c ends
  have raises : ∃ r, s.br.LeftWith rest r ∧ decDecodeSymbol s = .raised c ((s.setBr r).setDct (s.dct.withCand P)) := by
    rcases ends with ⟨full, rfl⟩ | ⟨inside, rfl, rfl⟩
    · exact decDecodeSymbol_nomatch readable pending some_bit full unmatched
    · exact decDecodeSymbol_short readable (pending.trans P.append_nil) some_bit inside unmatched
  obtain ⟨r, left, raises⟩ := raises
  obtain ⟨candLen, cand⟩ := s.dct.withCand_bits (short.trans (Nat.le_of_lt_succ s.dct.maxlen.isLt))
  exact ⟨_, exec_of_raised he (i := .decSym) (decSym_of_raised ready raises), rfl, left.pending, left.queue, left.sealed,
    candLen, cand, rfl, ⟨rfl, rfl, rfl⟩, rfl, State.observes_raise c rfl rfl (List.append_nil _).symm⟩

end Sys2Proof
end

section
/-! DEC.RUN and the round trip (46_decoder.md R293 to R299): DEC.RUN as DEC.TABLE and DEC.SYM commands, the streams it decodes,
and ENCODE followed by DECODE. -/

namespace Sys2Proof.Machine

/-! ### The parts of DEC.RUN (R297) -/

theorem decRun_of_unsealed {s : State} (unsealed : s.br.sealed = false) : decRun s = .raised .sequence s :=
  if_pos unsealed

theorem decRun_of_nonempty {s : State} (closed : s.br.sealed = true) (nonempty : s.br.queue ≠ []) : decRun s =
    (decReadTable s).bind fun _ t => (decSymbols (t.br.avail + 1) t).bind fun _ u => .done 0 u := by
  rw [decRun, if_neg (ne_false_of_eq_true closed), if_neg nonempty]

theorem decRun_of_table_raised {s t : State} {c : Cause} (closed : s.br.sealed = true) (nonempty : s.br.queue ≠ [])
    (read : decReadTable s = .raised c t) : decRun s = .raised c t := by
  rw [decRun_of_nonempty closed nonempty, read, Flow.bind_raised]

theorem decRun_of_symbols_raised {s t u : State} {c : Cause} (closed : s.br.sealed = true) (nonempty : s.br.queue ≠ [])
    (read : decReadTable s = .done () t) (symbols : decSymbols (t.br.avail + 1) t = .raised c u) :
    decRun s = .raised c u := by
  rw [decRun_of_nonempty closed nonempty, read, Flow.bind_done, symbols, Flow.bind_raised]

theorem decRun_of_done {s t u : State} (closed : s.br.sealed = true) (nonempty : s.br.queue ≠ [])
    (read : decReadTable s = .done () t) (symbols : decSymbols (t.br.avail + 1) t = .done () u) :
    decRun s = .done 0 u := by
  rw [decRun_of_nonempty closed nonempty, read, Flow.bind_done, symbols, Flow.bind_done]

/-- Answering changes nothing the decoder depends on. -/
theorem DecoderAgree.respond (d : Word) (s : State) : DecoderAgree s.port.out s.port.out s (s.respond d) :=
  ⟨rfl, rfl, rfl, rfl, [], (List.append_nil _).symm, (List.append_nil _).symm⟩

/-- DEC.RUN's response is that of its last part where that raised a cause. -/
theorem Response.error_of_cause {c : Cause} (cause : c ≠ .none) :
    (if (Response.error c).cause = .none then Response.ok 0 else Response.error c) = Response.error c :=
  if_neg cause

/-! ### Streams of positions (R293, R294) -/

/-- Behind a consistent header and the codes it announces, none the beginning of another, the codes of listed positions decode to
the alphabet bytes there. -/
theorem decRun_positions {s : State} {A C D : List Byte} {m : Byte} {codes : List (Nat × Nat)} {positions : List Nat}
    (header : s.br.HasHeader A m C D) (consistent : HeaderConsistent A m C)
    (lengths : codes.map Prod.fst = headerLengths A m C) (fits : ∀ c ∈ codes, c.2 < 2 ^ c.1)
    (separable : ∀ i j, i < A.length → j < A.length → i ≠ j →
      ¬ bitsOf (codes.getD i (0, 0)) <+: bitsOf (codes.getD j (0, 0)))
    (listed : ∀ i ∈ positions, i < A.length)
    (bits : unpackBytes s.br.sig D =
      codes.flatMap bitsOf ++ positions.flatMap fun i => bitsOf (codes.getD i (0, 0))) :
    ∃ (r : Br) (d : Dct), decRun s = .done 0 (((s.emitAll (positions.map fun i => A.getD i 0)).setBr r).setDct d) ∧
      d.ready = true ∧ d.done = true ∧ s.br.LeftWith [] r := by
  obtain ⟨r, d, read, part, readable, pending⟩ := decReadTable_whole header consistent lengths fits bits
  have only := decReadTable_state s
  rw [read] at only
  obtain ⟨-, bounds⟩ := consistent.codes_le header.size ((List.append_nil _).trans lengths)
  have total : codes.length = A.length := by rw [← consistent.lengths_length, ← lengths, List.length_map]
  obtain ⟨-, -, asize, alpha, maxlen, -, len_code, -, -⟩ := part
  obtain ⟨r', none_left, queue, closed, symbols⟩ := decSymbols_positions d.setReady A codes asize (fun i _ => alpha i) total
    (fun c hc => maxlen.symm ▸ bounds c.1 (List.mem_map_of_mem hc)) (fun i _ => (len_code i).1) (fun i _ => (len_code i).2)
    fits separable positions listed (r.avail + 1) ((s.setBr r).setDct d.setReady) (Nat.lt_succ_self _) readable rfl pending
  refine ⟨r', d.setReady.clearCand.setDone, decRun_of_done header.readable.1 header.readable.2.1 read symbols, rfl, rfl,
    readable.congr queue closed, none_left, queue.trans only.queue, closed.trans only.sealed⟩

/-! ### The round trip (R299) -/

/-- The reader of a sealed queue of which nothing has been read. -/
def Br.loaded (stream : List Byte) : Br := { Br.initial with queue := stream, sealed := true }

/-- The commands of DECODE before DEC.RUN load the queue with the stream (30_encoding.md R129). -/
theorem execAll_loadStream {s : State} {stream : List Byte} (he : s.ctl.err = false)
    (fits : stream.length ≤ s.params.qCap) (valid : (Br.loaded stream).mark.toNat ≤ 7) :
    ∃ t, execAll (.brClear :: (stream.map .brPush ++ [.brEnd])) s = .next t ∧ t.ctl = s.ctl ∧ t.br = Br.loaded stream ∧
      s.Observes t (List.replicate (stream.length + 2) (Response.ok 0)) [] := by
  have clear : exec .brClear s = .next (((s.setBr Br.initial).setDct Dct.initial).respond 0) := exec_of_done he rfl
  obtain ⟨t, pushes, br, -, ctl, -, -, -, -, sees⟩ := execAll_brPush stream
    (s := ((s.setBr Br.initial).setDct Dct.initial).respond 0) he rfl (by simpa [Br.initial] using fits)
  have br_t : t.br = { Br.initial with queue := stream } := br
  have finish := exec_of_done (i := .brEnd) (ctl ▸ he : t.ctl.err = false)
    (brEnd_of_valid (by rw [br_t]; rfl) (by rw [br_t]; exact valid))
  refine ⟨_, (execAll_cons clear).trans ((execAll_append pushes).trans (execAll_cons finish)), ctl, ?_, ?_⟩
  · rw [State.respond_br, State.setBr_br, br_t]; rfl
  · rw [List.replicate_succ, List.replicate_succ']
    exact (State.observes_quiet 0 rfl).trans (sees.trans (State.observes_quiet 0 rfl))

/-- An empty input is encoded as nothing (45_encoder.md R273). -/
theorem execAll_encodeCommands_nil {s : State} (he : s.ctl.err = false) :
    ∃ t, execAll (encodeCommands []) s = .next t ∧ t.ctl = s.ctl ∧ s.Observes t [Response.ok 0, Response.ok 0] [] := by
  have clear : exec .fcClear s = .next (((s.setFc Fc.initial).setEct Ect.initial).respond 0) := exec_of_done he rfl
  have run := exec_of_done (s := ((s.setFc Fc.initial).setEct Ect.initial).respond 0) (i := .encRun) he
    ((encRun_eq _).trans (encEmit_of_empty rfl rfl))
  exact ⟨_, (execAll_cons clear).trans (execAll_cons run), rfl,
    (State.observes_quiet 0 rfl).trans (State.observes_quiet 0 rfl)⟩

/-- The queue loaded with an encoded stream is readable, and DEC.RUN emits the message encoded. -/
theorem decRun_stream {freq : Table 32} {msg : List Byte} (counted : ∀ x ∈ msg, x ∈ alphabet freq) (nonempty : msg ≠ [])
    {s : State} (loaded : s.br = Br.loaded ((encTable freq).stream msg)) :
    s.br.Readable ∧ ∃ (r : Br) (d : Dct), decRun s = .done 0 (((s.emitAll msg).setBr r).setDct d) := by
  obtain ⟨x, hx⟩ := List.exists_mem_of_ne_nil msg nonempty
  obtain ⟨readable, r, read, pending, readable_r⟩ := decReadTable_stream (List.ne_nil_of_mem (counted x hx)) msg (s := s)
    (by rw [loaded]; rfl) (by rw [loaded]; rfl) (by rw [loaded]; rfl) (by rw [loaded]; rfl)
  obtain ⟨r', symbols⟩ := decSymbols_message msg counted (r.avail + 1) (s := (s.setBr r).setDct (streamDct freq))
    (Nat.lt_succ_self _) readable_r (streamDct_clearCand freq) pending
  exact ⟨readable, r', _, decRun_of_done readable.1 readable.2.1 read symbols⟩

/-- DECODE of an encoded stream emits the message (30_encoding.md R129). -/
theorem execAll_decodeCommands {freq : Table 32} {msg : List Byte} (counted : ∀ x ∈ msg, x ∈ alphabet freq)
    (nonempty : msg ≠ []) {s : State} (he : s.ctl.err = false)
    (fits : ((encTable freq).stream msg).length ≤ s.params.qCap) :
    ∃ t, execAll (decodeCommands ((encTable freq).stream msg)) s = .next t ∧
      s.Observes t (List.replicate (((encTable freq).stream msg).length + 3) (Response.ok 0)) msg := by
  have valid : (Br.loaded ((encTable freq).stream msg)).mark.toNat ≤ 7 :=
    (decRun_stream counted nonempty (s := s.setBr (Br.loaded _)) rfl).1.2.2
  obtain ⟨t, load, ctl, loaded, sees⟩ := execAll_loadStream he fits valid
  obtain ⟨-, r, d, run⟩ := decRun_stream counted nonempty loaded
  have commands : decodeCommands ((encTable freq).stream msg) =
      (.brClear :: (((encTable freq).stream msg).map .brPush ++ [.brEnd])) ++ [.decRun] := by
    simp [decodeCommands]
  have decodes := exec_of_done (i := .decRun) (ctl ▸ he : t.ctl.err = false) run
  refine ⟨_, (congrArg (execAll · s) commands).trans ((execAll_append load).trans (execAll_cons decodes)), ?_⟩
  rw [List.replicate_succ']
  exact sees.trans (State.observes_respond 0 rfl rfl rfl)

end Sys2Proof.Machine

namespace Sys2Proof

open Machine

/-- Settles O52: the table's error is DEC.RUN's own, and behind a table the loop of DEC.RUN goes as DEC.SYM commands do. -/
theorem decRunIsTableThenSymbols : Obligations.DecRunIsTableThenSymbols := by
  refine ⟨decode_encode (i := .decRun) rfl, fun s he => ⟨fun unsealed => ?_, fun closed nonempty => ?_⟩⟩
  · exact State.raises_of_body he (decRun_of_unsealed unsealed)
  have only := decRun_state s
  cases read : decReadTable s with
  | raised c t =>
    have run := decRun_of_table_raised closed nonempty read
    rw [run] at only
    have cause : c ≠ .none := (decReadTable_raises s).raised read
    refine ⟨t.raise c, t.raise c, 0, Response.error c, exec_of_raised he (i := .decRun) run,
      execAll_cons (exec_of_raised he (i := .decTable) (decTable_of_raised closed read)),
      ⟨⟨rfl, rfl, rfl⟩, ⟨rfl, rfl⟩, rfl, rfl⟩, rfl, List.getLast?_concat, ?_, only.inputs, fun noError => nomatch noError⟩
    rw [Response.error_of_cause cause]
    exact congrArg (· ++ [Response.error c]) only.responses
  | done _ t =>
    have table := decReadTable_state s
    rw [read] at table
    have read_run := exec_of_done he (i := .decTable) (decTable_of_done closed read)
    obtain ⟨n, w, r, pre, run, responses, ending⟩ := decSymbols_run (t.br.avail + 1) t (t.respond 0) [Response.ok 0]
      (Nat.lt_succ_self _) (decReadTable_ready read) (table.ctl ▸ he) (.respond 0 t) rfl rfl rfl rfl rfl
    have last : w.port.responses.getLast? = some r := by rw [responses, List.getLast?_concat]
    rcases ending with ⟨v, symbols, rfl, ctl, params, fc, ect, bw, br, dct, out, ready, done⟩ |
      ⟨c, v, symbols, cause, rfl, ctl, params, fc, ect, bw, br, dct, out⟩
    · have runs := decRun_of_done closed nonempty read symbols
      rw [runs] at only
      refine ⟨v.respond 0, w, n, Response.ok 0x100, exec_of_done he (i := .decRun) runs, (execAll_cons read_run).trans run,
        ⟨⟨params.symm, fc.symm, ect.symm⟩, ⟨br.symm, dct.symm⟩, bw.symm, only.ctl.trans (ctl.trans table.ctl).symm⟩,
        out.symm, last, ?_, only.inputs, fun _ => ⟨ready, done, rfl⟩⟩
      exact congrArg (· ++ [Response.ok 0]) only.responses
    · have runs := decRun_of_symbols_raised closed nonempty read symbols
      rw [runs] at only
      refine ⟨v.raise c, w, n, Response.error c, exec_of_raised he (i := .decRun) runs, (execAll_cons read_run).trans run,
        ⟨⟨params.symm, fc.symm, ect.symm⟩, ⟨br.symm, dct.symm⟩, bw.symm, ctl.symm⟩, out.symm, last, ?_, only.inputs,
        fun noError => nomatch noError⟩
      rw [Response.error_of_cause cause]
      exact congrArg (· ++ [Response.error c]) only.responses

/-- Settles O53: each code, being no other's beginning, is the first match among the bits it begins. -/
theorem decRunDecodesAStream : Obligations.DecRunDecodesAStream := by
  intro s A C D m codes positions he readable aligned data nonempty size coded counted sum lengths fits separable listed bits
  obtain ⟨r, d, run, ready, done, left⟩ := decRun_positions ⟨readable, aligned, data, nonempty, size, counted⟩ ⟨coded, sum⟩
    lengths fits separable listed bits
  exact ⟨_, exec_of_done he (i := .decRun) run, ready, done, left.pending, left.queue, left.sealed, ⟨rfl, rfl, rfl⟩, rfl, rfl,
    State.observes_respond 0 rfl rfl rfl⟩

/-- Settles O54: what ENCODE emits is the stream of its own counters' table, which the decoder rebuilds from the header. -/
theorem roundTrip : Obligations.RoundTrip := by
  intro s S inv he aligned fits
  by_cases empty : S = []
  · subst empty
    obtain ⟨t, run, ctl, sees⟩ := execAll_encodeCommands_nil he
    obtain ⟨-, ⟨u, decodes, -, sees_u⟩, -⟩ := emptyInputEmptyStream t (ctl ▸ he)
    exact ⟨t, [], run, sees, fun _ => ⟨u, decodes, sees_u⟩⟩
  · obtain ⟨t, freq, run, counted, ctl, params, sees⟩ := execAll_encodeCommands inv he aligned S empty fits
    exact ⟨t, _, run, sees, fun room => execAll_decodeCommands counted empty (ctl ▸ he) (params ▸ room)⟩

end Sys2Proof
end

section
/-! The system commands and the step (47_system.md R330 to R333, 60_exceptions.md R352, R353, 70_reset_and_hazards.md R390): the
command a step runs, what a reset and a blocked word leave, and the one register at a mapped address. -/

namespace Sys2Proof.Machine

/-! ### The host's next input -/

theorem step_waits {s : State} (h : s.port.inputs = []) : step s = .next s := by
  rw [step, State.takeInput_nil h]

theorem step_resetInput {s : State} {rest : List HostInput} (h : s.port.inputs = .resetInput :: rest) :
    step s = .next (s.withInputs rest).resetFields := by
  rw [step, State.takeInput_cons h]

/-- A word placed first is taken first, and the inputs behind it are those there were. -/
theorem State.issue_withInputs (w : Word) (s : State) : (s.issue w).withInputs s.port.inputs = s := rfl

/-- A word's number places that word: no bit is cut off (20_memory.md R95). -/
theorem tableWord_toNat (w : Word) : tableWord 32 w.toNat = w := by
  rw [tableWord, Nat.mod_eq_of_lt w.isLt, BitVec.ofNat_toNat, BitVec.setWidth_eq]

/-! ### What a reset and a blocked word leave -/

theorem State.resetFields_isResetState (s : State) : s.resetFields.IsResetState := ⟨rfl, rfl, rfl, rfl, rfl, rfl⟩

theorem State.respond_sameFields (d : Word) (s : State) : s.SameFields (s.respond d) :=
  ⟨⟨rfl, rfl, rfl⟩, ⟨rfl, rfl⟩, rfl, rfl⟩

theorem State.blocked_sameFields (s : State) : s.SameFields s.blocked := ⟨⟨rfl, rfl, rfl⟩, ⟨rfl, rfl⟩, rfl, rfl⟩

/-- While an error is recorded a word is blocked, legal or not, but for the four commands of R352. -/
theorem step_blocked {s : State} {w : Word} {rest : List HostInput} (h : s.port.inputs = .word w :: rest)
    (he : s.ctl.err = true) (blocks : ∀ i, decode w = .command i → i.runsOnError = false) :
    step s = .next (s.withInputs rest).blocked := by
  have recorded : (s.withInputs rest).ctl.err = true := he
  cases hd : decode w with
  | illegal why => rw [step_illegal h hd, State.illegalWord_of_error recorded]
  | command i => rw [step_command h hd, exec_blocked recorded (blocks i hd)]

end Sys2Proof.Machine

namespace Sys2Proof

open Machine

/-- A mapped address is the address of exactly one register, the one the decoder's map has there. -/
theorem Reg.exists_one_of_mappedAddr {a : BitVec 16} (mapped : mappedAddr a = true) :
    ∃ r : Reg, Reg.ofAddr a = some r ∧ r.addr = a ∧ ∀ r' : Reg, r'.addr = a → r' = r := by
  rw [← Reg.ofAddr_isSome] at mapped
  obtain ⟨r, hr⟩ := Option.isSome_iff_exists.mp mapped
  refine ⟨r, hr, Reg.addr_ofAddr hr, fun r' ha => ?_⟩
  have hr' : Reg.ofAddr a = some r' := ha ▸ Reg.ofAddr_addr r'
  exact Option.some.inj (hr'.symm.trans hr)

/-- Settles O5: the word is taken from the inputs and decodes to the command. -/
theorem stepRunsDecodedCommand : Obligations.StepRunsDecodedCommand := fun _ _ _ _ inputs hd => step_command inputs hd

/-- Settles O6: the placed word is the command's, and taking it leaves the inputs there were. -/
theorem placedWordRuns : Obligations.PlacedWordRuns := by
  intro s i wf
  rw [State.withFetchWord, tableWord_toNat, step_command (State.issue_inputs s _) (decode_encode wf), State.issue_withInputs]

/-- Settles O16: the reset input and RESET write every unit its reset value and leave the parameters and the port. -/
theorem resetReturnsEveryField : Obligations.ResetReturnsEveryField := by
  refine ⟨decode_encode (i := .reset) rfl, fun s => ⟨fun rest inputs => ?_, ?_, step_waits⟩⟩
  · refine ⟨_, step_resetInput inputs, State.resetFields_isResetState _, rfl, ?_⟩
    simp only [State.Observes, State.resetFields_port, List.append_nil]
  · exact ⟨_, rfl, s.resetFields_isResetState, rfl, State.observes_quiet 0 rfl⟩

/-- Settles O17: NOP is its response. -/
theorem nopOnlyResponds : Obligations.NopOnlyResponds :=
  ⟨decode_encode (i := .nop) rfl, fun s => ⟨_, rfl, s.respond_sameFields 0, State.observes_quiet 0 rfl⟩⟩

/-- Settles O18: ERRCLR writes the control unit alone. -/
theorem errclrClearsOnlyTheError : Obligations.ErrclrClearsOnlyTheError :=
  ⟨decode_encode (i := .errclr) rfl, fun _ => ⟨_, rfl, rfl, rfl, ⟨rfl, rfl, rfl⟩, ⟨rfl, rfl⟩, rfl, State.observes_quiet 0 rfl⟩⟩

/-- Settles O19: the decoder's map and the registers' addresses undo each other, and RDREG reads by that map. -/
theorem rdregReadsOneRegister : Obligations.RdregReadsOneRegister := by
  intro a mapped
  obtain ⟨r, read, addr, unique⟩ := Reg.exists_one_of_mappedAddr mapped
  exact ⟨decode_encode (i := .rdreg a) mapped, r, addr, unique, fun s => s.reads_reg read⟩

end Sys2Proof
end

section
/-! Errors (60_exceptions.md R350 to R358): while one is recorded it is kept, and one that a command raises has a cause listed
for the command and leaves what the command has not written yet. -/

namespace Sys2Proof.Machine

/-! ### A recorded error -/

/-- While an error is recorded, only RESET and ERRCLR write err and cause (R352, R353). -/
theorem exec_ctl_of_error {i : Instr} {s t : State} (h : exec i s = .next t) (he : s.ctl.err = true) (notClear : i ≠ .errclr)
    (notReset : i ≠ .reset) : t.ctl = s.ctl := by
  rcases exec_cases h with ⟨-, -, rfl⟩ | ⟨-, rfl⟩ | ⟨hi, -⟩ | ⟨hi, -⟩ | ⟨a, r, -, -, rfl⟩ | ⟨noError, -⟩ | ⟨noError, -⟩ |
    ⟨noError, -⟩
  · exact s.blocked_ctl
  · exact s.respond_ctl 0
  · exact absurd hi notReset
  · exact absurd hi notClear
  · exact s.respond_ctl _
  all_goals exact absurd he (ne_true_of_eq_false noError)

/-! ### The error a command raises -/

/-- A well-formed command that ends with an error had its body raise it: the four commands without a side raise none. -/
theorem exec_error {i : Instr} {s t : State} (wf : i.wellFormed = true) (he : s.ctl.err = false) (h : exec i s = .next t)
    (error : t.ctl.err = true) :
    (i.encoderSide = true ∨ i.decoderSide = true) ∧ ∃ c u, i.body s = .raised c u ∧ t = u.raise c := by
  have ended {u : State} (same : u.ctl = s.ctl) (d : Word) (ht : t = u.respond d) : False := by
    rw [ht, State.respond_ctl, same, he] at error
    cases error
  rcases exec_cases h with ⟨recorded, -⟩ | ⟨-, ht⟩ | ⟨-, rfl⟩ | ⟨-, rfl⟩ | ⟨a, r, -, -, ht⟩ | ⟨-, side, d, u, hb, ht⟩ |
    ⟨-, side, c, u, -, hb, ht⟩ | ⟨-, illFormed, -⟩
  · exact absurd recorded (ne_true_of_eq_false he)
  · exact (ended rfl _ ht).elim
  · cases error
  · cases error
  · exact (ended rfl _ ht).elim
  · have same := body_ctl side s
    rw [hb] at same
    exact (ended same d ht).elim
  · exact ⟨side, c, u, hb, ht⟩
  · exact absurd wf (ne_true_of_eq_false illFormed)

/-! ### Errors raised before any change (R355) -/

/-- Where the part raises an error it has changed nothing since s. -/
abbrev Flow.RaisesIn {α : Type} (m : Flow α) (s : State) : Prop := m.Post (fun _ _ => True) (fun _ t => t = s)

theorem fcPush_raisesIn (b : Byte) (s : State) : (fcPush b s).RaisesIn s := by
  unfold fcPush
  split
  · rfl
  · split
    · rfl
    · trivial

theorem brPush_raisesIn (b : Byte) (s : State) : (brPush b s).RaisesIn s := by
  unfold brPush
  split
  · rfl
  · split
    · rfl
    · trivial

theorem bwByte_raisesIn (b : Byte) (s : State) : (bwByte b s).RaisesIn s := by
  by_cases aligned : s.bw.cnt = 0
  · rw [bwByte_of_aligned aligned]
    trivial
  · rw [bwByte_of_pending aligned]
    rfl

theorem brBit_raisesIn (s : State) : (brBit s).RaisesIn s := by
  cases read : s.br.readBit with
  | error c => rw [brBit_of_error read]; rfl
  | ok x => rw [brBit_of_ok read]; trivial

theorem brByte_raisesIn (s : State) : (brByte s).RaisesIn s := by
  cases read : s.br.readByte with
  | error c => rw [brByte_of_error read]; rfl
  | ok x => rw [brByte_of_ok read]; trivial

theorem ccAssign_raisesIn (s : State) : (ccAssign s).RaisesIn s := by
  unfold ccAssign
  split
  · trivial
  · rfl

/-- ENC.EMIT meets the bit writer's SEQUENCE at its first header byte or not at all: raw bytes leave bw_cnt. -/
theorem encEmit_raisesIn (s : State) : (encEmit s).RaisesIn s := by
  cases assigned : s.ect.assigned with
  | false => rw [encEmit_of_unassigned assigned]; rfl
  | true =>
    by_cases empty : s.fc.msg = []
    · rw [encEmit_of_empty assigned empty]
      trivial
    · by_cases aligned : s.bw.cnt = 0
      · rw [encEmit_of_aligned assigned empty aligned]
        trivial
      · rw [encEmit_of_pending assigned empty aligned]
        rfl

/-- A command whose body raises before any change leaves everything but err and cause when it ends with an error. -/
theorem State.raises_of_raisesIn {i : Instr} {s t : State} (wf : i.wellFormed = true) (before : (i.body s).RaisesIn s)
    (he : s.ctl.err = false) (h : exec i s = .next t) (error : t.ctl.err = true) : s.Raises i t.ctl.cause := by
  obtain ⟨-, c, u, hb, rfl⟩ := exec_error wf he h error
  obtain rfl : u = s := before.raised hb
  exact State.raises_of_body he hb

/-! ### Errors of DEC.TABLE (R295, R355) -/

/-- Over a queue that is not sealed there is no table yet; over a sealed one the old table is given up before the first read. -/
theorem decTable_raised_ready {s u : State} {c : Cause} (inv : s.Inv) (raised : decTable s = .raised c u) :
    u.dct.ready = false := by
  obtain ⟨blank, -⟩ := inv.dct
  cases closed : s.br.sealed with
  | false =>
    rw [decTable_of_unsealed closed] at raised
    cases raised
    rw [blank closed]
    rfl
  | true =>
    cases read : decReadTable s with
    | done v t =>
      rw [decTable_of_done closed read] at raised
      cases raised
    | raised c' t =>
      rw [decTable_of_raised closed read] at raised
      cases raised
      exact (decReadTable_raised read).1

/-- DEC.TABLE writes the reader's position and the decoder, and emits nothing. -/
theorem decTable_readsOnly (s : State) : ReadsOnly s (decTable s).state := by
  unfold decTable
  split
  · exact .refl s
  · exact Flow.bind_readsOnly (decReadTable_state s) fun _ s1 => .refl s1

/-! ### The codes of the causes (R350, R356) -/

theorem Cause.corruptStream_iff (c : Cause) :
    c.corruptStream = true ↔ c = .exhausted ∨ c = .nomatch ∨ c = .badhdr ∨ c = .badmark := by
  cases c <;> decide

end Sys2Proof.Machine

namespace Sys2Proof

open Machine

/-- Settles O10: the step is blocked, which is a response and nothing else. -/
theorem errorBlocksCommands : Obligations.ErrorBlocksCommands := by
  intro s w rest inputs he blocks
  exact ⟨_, step_blocked inputs he blocks, (s.withInputs rest).blocked_sameFields, State.observes_blocked _⟩

/-- Settles O11: waiting, an illegal word and every command but ERRCLR and RESET keep a recorded error. -/
theorem firstErrorIsKept : Obligations.FirstErrorIsKept := by
  intro s t h he noResetInput noClear
  obtain ⟨-, rfl⟩ | ⟨rest, ⟨inputs, -⟩ | ⟨w, inputs, ⟨why, -, rfl⟩ | ⟨i, hd, hx⟩⟩⟩ := step_cases h
  · rfl
  · exact absurd inputs (noResetInput rest)
  · rw [State.illegalWord_of_error (s := s.withInputs rest) he]
    rfl
  · obtain ⟨notClear, notReset⟩ := noClear w rest inputs
    exact exec_ctl_of_error (s := s.withInputs rest) hx he (fun hi => notClear (hi ▸ hd)) fun hi => notReset (hi ▸ hd)

/-- Settles O12: the error is raised by the command's body, and each body raises its own causes alone. -/
theorem causesPerCommand : Obligations.CausesPerCommand := by
  intro i s t wf inv he h error
  obtain ⟨side, c, u, hb, rfl⟩ := exec_error wf he h error
  obtain ⟨listed, -⟩ := (body_keeps side inv).raised hb
  exact listed

/-- Settles O13: CAUSE is read zero-extended, cause by cause. -/
theorem causeCodes : Obligations.CauseCodes := by
  refine ⟨fun s => ?_, Cause.corruptStream_iff⟩
  have read : s.Reads 0x0002 (s.ctl.cause.code.setWidth 32) := s.reads_addr .cause
  convert read using 1
  cases s.ctl.cause <;> rfl

/-- Settles O14: seven commands raise before any change, and DEC.TABLE with the old table given up. -/
theorem errorsArePrecise : Obligations.ErrorsArePrecise := by
  intro i s t he h error
  refine ⟨?_, ?_⟩
  · rintro (⟨b, rfl⟩ | ⟨b, rfl⟩ | ⟨b, rfl⟩ | rfl | rfl | rfl | rfl)
    · exact State.raises_of_raisesIn rfl (fcPush_raisesIn b s) he h error
    · exact State.raises_of_raisesIn rfl (brPush_raisesIn b s) he h error
    · exact State.raises_of_raisesIn rfl (bwByte_raisesIn b s) he h error
    · exact State.raises_of_raisesIn rfl (brBit_raisesIn s) he h error
    · exact State.raises_of_raisesIn rfl (brByte_raisesIn s) he h error
    · exact State.raises_of_raisesIn rfl (ccAssign_raisesIn s) he h error
    · exact State.raises_of_raisesIn rfl (encEmit_raisesIn s) he h error
  · rintro rfl inv
    obtain ⟨-, c, u, hb, rfl⟩ := exec_error rfl he h error
    have raised : decTable s = .raised c u := hb
    have ready : u.dct.ready = false := decTable_raised_ready inv raised
    have only := decTable_readsOnly s
    rw [raised] at only
    have port : u.port = s.port := only.port
    exact ⟨ready, only.queue, only.sealed, ⟨only.params, only.fc, only.ect⟩, only.bw,
      State.observes_raise c (by rw [port]) (by rw [port]) (by rw [port, List.append_nil])⟩

end Sys2Proof
end
